-- ==== Sys2Proof/Word.lean ====
section
/-! DEFINITION. The byte of every message, the numbers that name the six panels, two lanes, four day-parts and
eight hold ids (00 section 0.7), and the wrapping and saturating counts the manual uses. -/
namespace Sys2Proof

/-- One byte of a message, a photo or a profile value. -/
abbrev Byte := BitVec 8

/-- Panels and panel links are numbered 0 to 5. -/
abbrev PanelNo := Fin 6

/-- Lanes are numbered 0 and 1. -/
abbrev LaneNo := Fin 2

/-- Open day-parts are numbered 0 to 3. -/
abbrev DayPart := Fin 4

/-- Hold ids are numbered 0 to 7. -/
abbrev HoldId := Fin 8

/-- All panels, lowest number first: the order R47 asks for. -/
abbrev allPanels : List PanelNo := [0, 1, 2, 3, 4, 5]

/-- All hold ids, lowest first (R146). -/
abbrev allHoldIds : List HoldId := [0, 1, 2, 3, 4, 5, 6, 7]

end Sys2Proof
end

