-- ==== Sys2Proof/Config.lean ====
section
/-! DEFINITION. What the manual fixes for every part (periods and capacities), the picture of a frame as far as the
manual lays it out, and the free values: what the manual says exists but does not give. -/
namespace Sys2Proof

namespace Config

/-- Idle limit of a batch: 30 s (R6). -/
abbrev batchIdleMs : Nat := 30000
/-- Period of the minute timer: 60 s (R24). -/
abbrev minuteMs : Nat := 60000
/-- Period of the Store Clock's second timer and of a link test's timer: 1 s (R163, R114). -/
abbrev secondMs : Nat := 1000
/-- Lock silence period: 100 ms (R94). -/
abbrev lockSilenceMs : Nat := 100
/-- Detach period: 2,000 ms (R94). -/
abbrev detachMs : Nat := 2000
/-- Training limit: 250 ms (R97). -/
abbrev trainingLimitMs : Nat := 250
/-- Load idle limit: 5 s (R123). -/
abbrev loadIdleMs : Nat := 5000
/-- Largest payload of a message (R200). -/
abbrev payloadLimit : Nat := 4104
/-- Entries of a batch (R6). -/
abbrev batchCapacity : Nat := 64
/-- Blocks of the photo DRAM and bytes of a block (R120). -/
abbrev dramBlocks : Nat := 6144
abbrev blockBytes : Nat := 4096
/-- Lines of a hold and its largest total (R143). -/
abbrev holdLines : Nat := 24
abbrev holdTotalMax : Nat := 9999999

end Config

/-- What fills a cell of a picture beneath its glyphs: a palette colour (R52, R56) or a cell of a photo, as the bytes
the panel is sent for it (R57). -/
inductive Ground where
  | colour (c : BitVec 4)
  | photo (pixels : List Byte)
  deriving DecidableEq, Repr

/-- A glyph drawn at a glyph position, in its colour (R52, R56). -/
structure Glyph where
  code : Byte
  colour : BitVec 4
  deriving DecidableEq, Repr

/-- A cell of a picture: its ground and its three glyph positions side by side (R52). -/
structure Cell where
  ground : Ground
  left : Option Glyph
  middle : Option Glyph
  right : Option Glyph
  deriving DecidableEq, Repr

/-- The full picture of a panel: the grid, and its cells row by row from the top left (R30, R52). -/
structure Picture where
  columns : Nat
  rows : Nat
  cells : List Cell
  deriving DecidableEq, Repr

namespace Config

/-- FREE VALUE (log 8): the picture data of the cell at (column, row) of a photo of the given size in cells whose blocks
hold these bytes. The manual does not lay out the pixel form (Note to R120). -/
opaque photoCell (photo : List Byte) (width height column row : Nat) : List Byte

/-- FREE VALUE (log 8): the picture data of a whole frame, in the order in which the link transmits it (R59). The manual
specifies a frame by its record, not by its pixel format (section 0.2). -/
opaque pictureData (picture : Picture) : List Byte

/-- FREE VALUE (log 10): whether a time left that is no whole number of seconds is given as the next higher second. The
manual says it is given in seconds (R186, R153) and not how it is rounded. -/
opaque roundsUp (ms : Nat) : Bool

/-- FREE VALUE (log 15): what the two-byte field of a count above 65,535 holds, where no rule bounds the count
(reports received, R114 and R204). -/
opaque overlongCount (n : Nat) : BitVec 16

end Config

end Sys2Proof
end

