-- ==== Sys2Proof/Machine/Codec.lean ====
section
/-! DEFINITION. Byte order and checksums: multi-byte fields most significant byte first (section 0.7), the CRC-16 of
messages (R200), the CRC-8 of reports (R203), the CRC-32 of photos and frames (R125, R59), and the encodings of R201
that every answer shares. -/
namespace Sys2Proof

/-- The low `k` bytes of a number, most significant byte first. -/
def be : Nat → Nat → List Byte
  | 0, _ => []
  | k + 1, n => BitVec.ofNat 8 (n / 256 ^ k) :: be k n

/-- The number that bytes are, most significant byte first. -/
def natOf (bytes : List Byte) : Nat := bytes.foldl (fun n b => n * 256 + b.toNat) 0

/-- One bit of a CRC register, most significant bit first. -/
def crcShift {w : Nat} (poly : BitVec w) (r : BitVec w) : BitVec w :=
  if r.msb then (r <<< 1) ^^^ poly else r <<< 1

/-- Eight bits of a CRC register. -/
def eightTimes {α : Type} (f : α → α) (x : α) : α := f (f (f (f (f (f (f (f x)))))))

/-- R200: polynomial 0x1021, initial register 0xFFFF, each byte most significant bit first, no final inversion. -/
def crc16 (bytes : List Byte) : BitVec 16 :=
  bytes.foldl (fun r b => eightTimes (crcShift 0x1021) (r ^^^ (b.zeroExtend 16).shiftLeft 8)) 0xFFFF

/-- R203: polynomial 0x07, initial register 0x00, most significant bit first, no final inversion. -/
def crc8 (bytes : List Byte) : BitVec 8 :=
  bytes.foldl (fun r b => eightTimes (crcShift 0x07) (r ^^^ b)) 0

/-- One bit of the CRC-32 register, least significant bit first: 0xEDB88320 is 0x04C11DB7 with its bits in that order
(R125; PRESUMED reading of the register's bit order, log 11). -/
def crc32Shift (r : BitVec 32) : BitVec 32 :=
  if r.getLsbD 0 then (r >>> 1) ^^^ 0xEDB88320 else r >>> 1

/-- Takes bytes into a running CRC-32 register (R125). -/
def crc32Take (register : BitVec 32) (bytes : List Byte) : BitVec 32 :=
  bytes.foldl (fun r b => eightTimes crc32Shift (r ^^^ b.zeroExtend 32)) register

/-- The initial CRC-32 register (R125). -/
abbrev crc32Start : BitVec 32 := 0xFFFFFFFF

/-- R125: the register is inverted at the end. -/
def crc32 (bytes : List Byte) : BitVec 32 := ~~~ (crc32Take crc32Start bytes)

/-- A flag is one byte, 1 when set (R201). -/
def flagByte (b : Bool) : Byte := if b then 1 else 0

/-- An optional field of `size` bytes: a presence byte, then the bytes, 0 when it is absent (R201). -/
def optBytes (size : Nat) : Option (List Byte) → List Byte
  | none => 0 :: List.replicate size 0
  | some bytes => 1 :: bytes

/-- A slot byte or hold byte: 255 for none (R201, R202). -/
def noneByte : Option Nat → Byte
  | none => 255
  | some n => BitVec.ofNat 8 n

/-- A glyph string: its count, then its codes (R202). -/
def glyphBytes (glyphs : List Byte) : List Byte := BitVec.ofNat 8 glyphs.length :: glyphs

/-- Whole seconds of a time left in milliseconds (R186, R153; the rounding is free, log 10). -/
def secondsLeft (ms : Nat) : Nat :=
  if ms % 1000 = 0 then ms / 1000 else if Config.roundsUp ms then ms / 1000 + 1 else ms / 1000

/-- A count sent in two bytes; what a count above 65,535 is sent as is free (log 15). -/
def countBytes (n : Nat) : List Byte :=
  if n < 65536 then be 2 n else be 2 (Config.overlongCount n).toNat

end Sys2Proof
end

