-- ==== Sys2Proof/Syntax.lean ====
section
/-! DEFINITION. The commands: one constructor for each row of spec/opcode_table.json, with the operands of the event it
names. A request is a message that has arrived whole at a port with a good CRC-16: its tag and its payload bytes (R200).
A message that has not is FRAME_ERROR, with the bytes received. -/
namespace Sys2Proof

/-- The four request ports; the role of each is fixed by the port itself (R188). -/
inductive PortId where
  | store
  | media
  | lane (n : LaneNo)
  deriving DecidableEq, Repr

/-- The two writing roles: each writes its own batch (R6). -/
inductive WritingRole where
  | store
  | media
  deriving DecidableEq, Repr

/-- The request types of R189, in the order of the code table of R201. -/
inductive RequestType where
  | batchOpen
  | batchAdd
  | batchCommit
  | batchDiscard
  | leaseRenew
  | itemRead
  | priceQuery
  | planLoad
  | planClear
  | planRead
  | loadBegin
  | loadBlock
  | loadAbort
  | slotErase
  | slotVerify
  | verifyAll
  | spaceRead
  | slotRead
  | panelDark
  | panelLight
  | linkTest
  | linkTestStop
  | panelStatus
  | changeoverStatus
  | holdOpen
  | holdAdd
  | holdRemove
  | holdFocus
  | holdRefresh
  | holdClose
  | holdRead
  | clockSet
  | scheduleLoad
  | daypartForce
  | daypartAuto
  | scheduleRead
  | freeze
  | unfreeze
  | profileBurn
  | profileRead
  | describe
  | restart
  | noticeRead
  | noticeClear
  | noticeMask
  deriving DecidableEq, Repr

/-- Which roles may make a request type: the four rows of R189, and the requests two rows share. -/
inductive Permission where
  | storeOnly
  | mediaOnly
  | writers
  | lanes
  | every
  deriving DecidableEq, Repr

/-- The status codes of an answer (R195, R204). -/
inductive Status where
  | ok
  | frameError
  | unknownRequest
  | notPermitted
  | badField
  | busy
  | noBatch
  | batchOpen
  | batchFull
  | commitRefused
  | noItem
  | noVariant
  | soldOut
  | pricesWithheld
  | notInDaypart
  | storeClosed
  | holdFull
  | duplicateOrder
  | noHold
  | holdExpired
  | linesFull
  | totalRange
  | noSpace
  | slotState
  | inUse
  | noLoad
  | outOfOrder
  | blockCrc
  | panelState
  | noTest
  | conflict
  | freezeActive
  | notOwner
  | profileBurned
  deriving DecidableEq, Repr

/-- A good report of a panel's return channel (R93). -/
inductive Report where
  | present (columns rows period : Byte) (model : BitVec 16)
  | locked
  | unlocked
  | shown (sequence : BitVec 16) (checksum : BitVec 32)
  | testReport (errors : BitVec 16)
  | panelFault (code : Byte)
  deriving DecidableEq, Repr

/-- A request that arrives at a port in WORKING or ANSWER (R190): its size in bytes, and whether all of it has arrived.
Where it has not (`ended` is false), its first byte has, and it is still being received; it is lost whole when it ends,
even if the port has become READY by then (R192, R193). -/
structure Discarded where
  port : PortId
  size : Nat
  ended : Bool
  deriving DecidableEq, Repr

/-- The commands of the MC6, in the order of the table. -/
inductive Instr where
  | batchOpen (port : PortId) (tag : Byte) (payload : List Byte)
  | batchAdd (port : PortId) (tag : Byte) (payload : List Byte)
  | batchCommit (port : PortId) (tag : Byte) (payload : List Byte)
  | batchDiscard (port : PortId) (tag : Byte) (payload : List Byte)
  | leaseRenew (port : PortId) (tag : Byte) (payload : List Byte)
  | itemRead (port : PortId) (tag : Byte) (payload : List Byte)
  | priceQuery (port : PortId) (tag : Byte) (payload : List Byte)
  | planLoad (port : PortId) (tag : Byte) (payload : List Byte)
  | planClear (port : PortId) (tag : Byte) (payload : List Byte)
  | planRead (port : PortId) (tag : Byte) (payload : List Byte)
  | loadBegin (port : PortId) (tag : Byte) (payload : List Byte)
  | loadBlock (port : PortId) (tag : Byte) (payload : List Byte)
  | loadAbort (port : PortId) (tag : Byte) (payload : List Byte)
  | slotErase (port : PortId) (tag : Byte) (payload : List Byte)
  | slotVerify (port : PortId) (tag : Byte) (payload : List Byte)
  | verifyAll (port : PortId) (tag : Byte) (payload : List Byte)
  | spaceRead (port : PortId) (tag : Byte) (payload : List Byte)
  | slotRead (port : PortId) (tag : Byte) (payload : List Byte)
  | panelDark (port : PortId) (tag : Byte) (payload : List Byte)
  | panelLight (port : PortId) (tag : Byte) (payload : List Byte)
  | linkTest (port : PortId) (tag : Byte) (payload : List Byte)
  | linkTestStop (port : PortId) (tag : Byte) (payload : List Byte)
  | panelStatus (port : PortId) (tag : Byte) (payload : List Byte)
  | changeoverStatus (port : PortId) (tag : Byte) (payload : List Byte)
  | holdOpen (port : PortId) (tag : Byte) (payload : List Byte)
  | holdAdd (port : PortId) (tag : Byte) (payload : List Byte)
  | holdRemove (port : PortId) (tag : Byte) (payload : List Byte)
  | holdFocus (port : PortId) (tag : Byte) (payload : List Byte)
  | holdRefresh (port : PortId) (tag : Byte) (payload : List Byte)
  | holdClose (port : PortId) (tag : Byte) (payload : List Byte)
  | holdRead (port : PortId) (tag : Byte) (payload : List Byte)
  | clockSet (port : PortId) (tag : Byte) (payload : List Byte)
  | scheduleLoad (port : PortId) (tag : Byte) (payload : List Byte)
  | daypartForce (port : PortId) (tag : Byte) (payload : List Byte)
  | daypartAuto (port : PortId) (tag : Byte) (payload : List Byte)
  | scheduleRead (port : PortId) (tag : Byte) (payload : List Byte)
  | freeze (port : PortId) (tag : Byte) (payload : List Byte)
  | unfreeze (port : PortId) (tag : Byte) (payload : List Byte)
  | profileBurn (port : PortId) (tag : Byte) (payload : List Byte)
  | profileRead (port : PortId) (tag : Byte) (payload : List Byte)
  | describe (port : PortId) (tag : Byte) (payload : List Byte)
  | restart (port : PortId) (tag : Byte) (payload : List Byte)
  | noticeRead (port : PortId) (tag : Byte) (payload : List Byte)
  | noticeClear (port : PortId) (tag : Byte) (payload : List Byte)
  | noticeMask (port : PortId) (tag : Byte) (payload : List Byte)
  | requestDiscarded (lost : Discarded)
  /-- These bytes arrived as a request and fail a check of the port itself (R191): on an SPI port all the bytes of one
  transaction, on a lane port the bytes of one message. -/
  | frameError (port : PortId) (message : List Byte)
  /-- An SPI answer read that clocked this many bytes after the state byte before select was released (R192). -/
  | answerRead (port : PortId) (clocked : Nat)
  | answerSent (lane : LaneNo)
  /-- An idle gap of 20 ms or more after these bytes, the first of which began a message (R193). -/
  | uartIdleGap (lane : LaneNo) (received : List Byte)
  | present (panel : PanelNo) (columns rows period : Byte) (model : BitVec 16)
  | locked (panel : PanelNo)
  | unlocked (panel : PanelNo)
  | shown (panel : PanelNo) (sequence : BitVec 16) (checksum : BitVec 32)
  | testReport (panel : PanelNo) (errors : BitVec 16)
  | panelFault (panel : PanelNo) (code : Byte)
  /-- These bytes arrived on the return channel, up to the idle gap that ends them: a report cut short stops there, and so
  do the bytes that a link discards after an unknown kind (R93, R203). -/
  | badReport (panel : PanelNo) (bytes : List Byte)
  | batchIdleExpiry (role : WritingRole)
  | priceLeaseExpiry
  | minuteTimerExpiry
  | promotionEndCommit
  | lockSilenceExpiry (panel : PanelNo)
  | detachTimerExpiry (panel : PanelNo)
  | trainingLimitExpiry (panel : PanelNo)
  | frameBoundary (panel : PanelNo)
  | testSecondExpiry (panel : PanelNo)
  | linkTestExpiry (panel : PanelNo)
  | loadIdleExpiry
  | changeoverLimitExpiry
  | holdLeaseExpiry (lane : LaneNo) (hold : HoldId)
  | freezeLimitExpiry
  | secondTimerTick
  | tickEdge
  | scheduleEntryFire
  | compositionStart
  | compositionComplete
  | verifyStart
  | verificationComplete
  | powerOn
  | resetLineAsserted
  | startUp
  deriving DecidableEq, Repr

end Sys2Proof
end

