-- ==== Sys2Proof/Decode.lean ====
section
/-! DEFINITION. From bytes to commands: the request message (R200, R201), the panel report (R203), and the table's own
words. No row of spec/opcode_table.json gives bits, so no word spells a command. -/
namespace Sys2Proof

/-- The command a word of `nbits` bits spells by the table's bits. The table gives bits to no row. -/
def decodeTableWord (_nbits _w : Nat) : Option Instr := none

/-- Status codes: R204. -/
def Status.code : Status → Byte
  | .ok => 0x00
  | .frameError => 0x01
  | .unknownRequest => 0x02
  | .notPermitted => 0x03
  | .badField => 0x04
  | .busy => 0x05
  | .noBatch => 0x10
  | .batchOpen => 0x11
  | .batchFull => 0x12
  | .commitRefused => 0x13
  | .noItem => 0x14
  | .noVariant => 0x15
  | .soldOut => 0x20
  | .pricesWithheld => 0x21
  | .notInDaypart => 0x22
  | .storeClosed => 0x23
  | .holdFull => 0x24
  | .duplicateOrder => 0x25
  | .noHold => 0x26
  | .holdExpired => 0x27
  | .linesFull => 0x28
  | .totalRange => 0x29
  | .noSpace => 0x30
  | .slotState => 0x31
  | .inUse => 0x32
  | .noLoad => 0x33
  | .outOfOrder => 0x34
  | .blockCrc => 0x35
  | .panelState => 0x40
  | .noTest => 0x41
  | .conflict => 0x50
  | .freezeActive => 0x60
  | .notOwner => 0x61
  | .profileBurned => 0x70

/-- The code of each request type: R201. -/
def RequestType.code : RequestType → Byte
  | .batchOpen => 0x10
  | .batchAdd => 0x11
  | .batchCommit => 0x12
  | .batchDiscard => 0x13
  | .leaseRenew => 0x14
  | .itemRead => 0x15
  | .priceQuery => 0x16
  | .planLoad => 0x20
  | .planClear => 0x21
  | .planRead => 0x22
  | .loadBegin => 0x30
  | .loadBlock => 0x31
  | .loadAbort => 0x32
  | .slotErase => 0x33
  | .slotVerify => 0x34
  | .verifyAll => 0x35
  | .spaceRead => 0x36
  | .slotRead => 0x37
  | .panelDark => 0x40
  | .panelLight => 0x41
  | .linkTest => 0x42
  | .linkTestStop => 0x43
  | .panelStatus => 0x44
  | .changeoverStatus => 0x45
  | .holdOpen => 0x50
  | .holdAdd => 0x51
  | .holdRemove => 0x52
  | .holdFocus => 0x53
  | .holdRefresh => 0x54
  | .holdClose => 0x55
  | .holdRead => 0x56
  | .clockSet => 0x60
  | .scheduleLoad => 0x61
  | .daypartForce => 0x62
  | .daypartAuto => 0x63
  | .scheduleRead => 0x64
  | .freeze => 0x70
  | .unfreeze => 0x71
  | .profileBurn => 0x80
  | .profileRead => 0x81
  | .describe => 0x82
  | .restart => 0x83
  | .noticeRead => 0x90
  | .noticeClear => 0x91
  | .noticeMask => 0x92

/-- The request type a type byte names; none for an unknown one (third check of R191). -/
def RequestType.ofCode (code : Byte) : Option RequestType :=
  match code.toNat with
  | 0x10 => some .batchOpen
  | 0x11 => some .batchAdd
  | 0x12 => some .batchCommit
  | 0x13 => some .batchDiscard
  | 0x14 => some .leaseRenew
  | 0x15 => some .itemRead
  | 0x16 => some .priceQuery
  | 0x20 => some .planLoad
  | 0x21 => some .planClear
  | 0x22 => some .planRead
  | 0x30 => some .loadBegin
  | 0x31 => some .loadBlock
  | 0x32 => some .loadAbort
  | 0x33 => some .slotErase
  | 0x34 => some .slotVerify
  | 0x35 => some .verifyAll
  | 0x36 => some .spaceRead
  | 0x37 => some .slotRead
  | 0x40 => some .panelDark
  | 0x41 => some .panelLight
  | 0x42 => some .linkTest
  | 0x43 => some .linkTestStop
  | 0x44 => some .panelStatus
  | 0x45 => some .changeoverStatus
  | 0x50 => some .holdOpen
  | 0x51 => some .holdAdd
  | 0x52 => some .holdRemove
  | 0x53 => some .holdFocus
  | 0x54 => some .holdRefresh
  | 0x55 => some .holdClose
  | 0x56 => some .holdRead
  | 0x60 => some .clockSet
  | 0x61 => some .scheduleLoad
  | 0x62 => some .daypartForce
  | 0x63 => some .daypartAuto
  | 0x64 => some .scheduleRead
  | 0x70 => some .freeze
  | 0x71 => some .unfreeze
  | 0x80 => some .profileBurn
  | 0x81 => some .profileRead
  | 0x82 => some .describe
  | 0x83 => some .restart
  | 0x90 => some .noticeRead
  | 0x91 => some .noticeClear
  | 0x92 => some .noticeMask
  | _ => none

/-- The roles that may make each request type: R189. -/
def RequestType.permission : RequestType → Permission
  | .batchOpen => .writers
  | .batchAdd => .writers
  | .batchCommit => .writers
  | .batchDiscard => .writers
  | .leaseRenew => .storeOnly
  | .itemRead => .every
  | .priceQuery => .every
  | .planLoad => .mediaOnly
  | .planClear => .mediaOnly
  | .planRead => .mediaOnly
  | .loadBegin => .mediaOnly
  | .loadBlock => .mediaOnly
  | .loadAbort => .mediaOnly
  | .slotErase => .mediaOnly
  | .slotVerify => .mediaOnly
  | .verifyAll => .mediaOnly
  | .spaceRead => .mediaOnly
  | .slotRead => .every
  | .panelDark => .storeOnly
  | .panelLight => .storeOnly
  | .linkTest => .mediaOnly
  | .linkTestStop => .mediaOnly
  | .panelStatus => .every
  | .changeoverStatus => .every
  | .holdOpen => .lanes
  | .holdAdd => .lanes
  | .holdRemove => .lanes
  | .holdFocus => .lanes
  | .holdRefresh => .lanes
  | .holdClose => .lanes
  | .holdRead => .lanes
  | .clockSet => .storeOnly
  | .scheduleLoad => .storeOnly
  | .daypartForce => .storeOnly
  | .daypartAuto => .storeOnly
  | .scheduleRead => .every
  | .freeze => .writers
  | .unfreeze => .writers
  | .profileBurn => .mediaOnly
  | .profileRead => .every
  | .describe => .every
  | .restart => .storeOnly
  | .noticeRead => .every
  | .noticeClear => .every
  | .noticeMask => .every

/-- Whether a port's role is among them (fourth check of R191). -/
def Permission.holds : Permission → PortId → Bool
  | .storeOnly, .store => true
  | .mediaOnly, .media => true
  | .writers, .store => true
  | .writers, .media => true
  | .lanes, .lane _ => true
  | .every, _ => true
  | _, _ => false

/-- The least and the greatest payload length of each request type: R201. -/
def RequestType.lengths : RequestType → Nat × Nat
  | .batchOpen => (0, 0)
  | .batchAdd => (1, 4104)
  | .batchCommit => (0, 0)
  | .batchDiscard => (0, 0)
  | .leaseRenew => (0, 0)
  | .itemRead => (2, 2)
  | .priceQuery => (3, 3)
  | .planLoad => (3, 4104)
  | .planClear => (2, 2)
  | .planRead => (2, 2)
  | .loadBegin => (9, 9)
  | .loadBlock => (6, 4104)
  | .loadAbort => (0, 0)
  | .slotErase => (1, 1)
  | .slotVerify => (1, 1)
  | .verifyAll => (0, 0)
  | .spaceRead => (0, 0)
  | .slotRead => (1, 1)
  | .panelDark => (1, 1)
  | .panelLight => (1, 1)
  | .linkTest => (4, 4)
  | .linkTestStop => (1, 1)
  | .panelStatus => (1, 1)
  | .changeoverStatus => (0, 0)
  | .holdOpen => (2, 2)
  | .holdAdd => (5, 5)
  | .holdRemove => (5, 5)
  | .holdFocus => (1, 1)
  | .holdRefresh => (1, 1)
  | .holdClose => (1, 1)
  | .holdRead => (1, 1)
  | .clockSet => (4, 4)
  | .scheduleLoad => (1, 4104)
  | .daypartForce => (1, 1)
  | .daypartAuto => (0, 0)
  | .scheduleRead => (0, 0)
  | .freeze => (1, 1)
  | .unfreeze => (0, 0)
  | .profileBurn => (2, 4104)
  | .profileRead => (0, 0)
  | .describe => (0, 0)
  | .restart => (1, 1)
  | .noticeRead => (0, 0)
  | .noticeClear => (3, 3)
  | .noticeMask => (3, 3)

/-- The command a good request message of each type is. -/
def RequestType.toInstr (t : RequestType) (port : PortId) (tag : Byte) (payload : List Byte) : Instr :=
  match t with
  | .batchOpen => .batchOpen port tag payload
  | .batchAdd => .batchAdd port tag payload
  | .batchCommit => .batchCommit port tag payload
  | .batchDiscard => .batchDiscard port tag payload
  | .leaseRenew => .leaseRenew port tag payload
  | .itemRead => .itemRead port tag payload
  | .priceQuery => .priceQuery port tag payload
  | .planLoad => .planLoad port tag payload
  | .planClear => .planClear port tag payload
  | .planRead => .planRead port tag payload
  | .loadBegin => .loadBegin port tag payload
  | .loadBlock => .loadBlock port tag payload
  | .loadAbort => .loadAbort port tag payload
  | .slotErase => .slotErase port tag payload
  | .slotVerify => .slotVerify port tag payload
  | .verifyAll => .verifyAll port tag payload
  | .spaceRead => .spaceRead port tag payload
  | .slotRead => .slotRead port tag payload
  | .panelDark => .panelDark port tag payload
  | .panelLight => .panelLight port tag payload
  | .linkTest => .linkTest port tag payload
  | .linkTestStop => .linkTestStop port tag payload
  | .panelStatus => .panelStatus port tag payload
  | .changeoverStatus => .changeoverStatus port tag payload
  | .holdOpen => .holdOpen port tag payload
  | .holdAdd => .holdAdd port tag payload
  | .holdRemove => .holdRemove port tag payload
  | .holdFocus => .holdFocus port tag payload
  | .holdRefresh => .holdRefresh port tag payload
  | .holdClose => .holdClose port tag payload
  | .holdRead => .holdRead port tag payload
  | .clockSet => .clockSet port tag payload
  | .scheduleLoad => .scheduleLoad port tag payload
  | .daypartForce => .daypartForce port tag payload
  | .daypartAuto => .daypartAuto port tag payload
  | .scheduleRead => .scheduleRead port tag payload
  | .freeze => .freeze port tag payload
  | .unfreeze => .unfreeze port tag payload
  | .profileBurn => .profileBurn port tag payload
  | .profileRead => .profileRead port tag payload
  | .describe => .describe port tag payload
  | .restart => .restart port tag payload
  | .noticeRead => .noticeRead port tag payload
  | .noticeClear => .noticeClear port tag payload
  | .noticeMask => .noticeMask port tag payload

/-- What the bytes of one request turn out to be under the first three checks of R191: a request to be passed on, or an
answer the port gives itself, which echoes type and tag, or 0 for any of them that did not arrive. -/
inductive Received where
  | good (type : RequestType) (tag : Byte) (payload : List Byte)
  | bad (status : Status) (typeByte tag : Byte)
  deriving DecidableEq, Repr

/-- The payload length field of a message header (offset 2 of R200). -/
def Message.lengthField (bytes : List Byte) : Nat := natOf ((bytes.drop 2).take 2)

/-- Whether these bytes are exactly a header, a payload of the length it gives and a CRC-16 (first check of R191). -/
def Message.complete (bytes : List Byte) : Bool :=
  decide (4 ≤ bytes.length) && decide (Message.lengthField bytes ≤ Config.payloadLimit) &&
    decide (bytes.length = 6 + Message.lengthField bytes)

/-- The first three checks of R191, in order, on the bytes received. -/
def Message.read (bytes : List Byte) : Received :=
  let typeByte := bytes.getD 0 0
  let tag := bytes.getD 1 0
  let body := bytes.take (bytes.length - 2)
  if Message.complete bytes = false then .bad .frameError typeByte tag
  else if be 2 (crc16 body).toNat ≠ bytes.drop (bytes.length - 2) then .bad .frameError typeByte tag
  else match RequestType.ofCode typeByte with
    | none => .bad .unknownRequest typeByte tag
    | some t => .good t tag (body.drop 4)

/-- The bytes of a request message: R200. -/
def Message.encode (t : RequestType) (tag : Byte) (payload : List Byte) : List Byte :=
  let body := t.code :: tag :: (be 2 payload.length ++ payload)
  body ++ be 2 (crc16 body).toNat

/-- The command that these bytes, received whole at a port, are. -/
def Message.command (port : PortId) (bytes : List Byte) : Instr :=
  match Message.read bytes with
  | .good t tag payload => t.toInstr port tag payload
  | .bad _ _ _ => .frameError port bytes

/-- The first message of bytes on a UART: complete at the length its header gives, or all the bytes while they are short
of it (R193). -/
def Message.first (bytes : List Byte) : List Byte := bytes.take (6 + Message.lengthField bytes)

/-- The bytes after the first message. -/
def Message.rest (bytes : List Byte) : List Byte := bytes.drop (6 + Message.lengthField bytes)

/-- What an SPI transaction is for (R192). -/
inductive Transaction where
  | request
  | answerRead
  | poll
  deriving DecidableEq, Repr

/-- The transaction that a transaction code names: R200. -/
def Transaction.ofCode (code : Byte) : Transaction :=
  match code.toNat with
  | 0x01 => .request
  | 0x02 => .answerRead
  | _ => .poll

/-- The command that an SPI transaction is, given the bytes the master clocks out, the transaction code first (R192). A
poll, and a transaction with no byte clocked, is no command: it changes nothing (log 17). -/
def Transaction.command (port : PortId) : List Byte → Option Instr
  | [] => none
  | code :: bytes =>
    match Transaction.ofCode code with
    | .request => some (Message.command port bytes)
    | .answerRead => some (.answerRead port bytes.length)
    | .poll => none

/-- Whether a PRESENT report's fields lie in the ranges of R93. -/
def Report.presentInRange (columns rows period : Byte) : Bool :=
  decide (4 ≤ columns.toNat ∧ columns.toNat ≤ 16 ∧ 2 ≤ rows.toNat ∧ rows.toNat ≤ 9 ∧ 10 ≤ period.toNat ∧
    period.toNat ≤ 50)

/-- The report that a kind byte and its fields make (R203); none for an unknown kind, a wrong length or a field out of
range. -/
def Report.ofFields : List Byte → Option Report
  | [] => none
  | kind :: fields =>
    match kind.toNat with
    | 1 => match fields with
      | [columns, rows, period, m1, m0] =>
        if Report.presentInRange columns rows period then
          some (.present columns rows period (BitVec.ofNat 16 (natOf [m1, m0]))) else none
      | _ => none
    | 2 => if fields = [] then some .locked else none
    | 3 => if fields = [] then some .unlocked else none
    | 4 => match fields with
      | [s1, s0, c3, c2, c1, c0] =>
        some (.shown (BitVec.ofNat 16 (natOf [s1, s0])) (BitVec.ofNat 32 (natOf [c3, c2, c1, c0])))
      | _ => none
    | 5 => match fields with
      | [e1, e0] => some (.testReport (BitVec.ofNat 16 (natOf [e1, e0])))
      | _ => none
    | 6 => match fields with
      | [code] => some (.panelFault code)
      | _ => none
    | _ => none

/-- The good report that these bytes are: the CRC-8 is checked first (R93, R203). -/
def Report.read (bytes : List Byte) : Option Report :=
  let body := bytes.take (bytes.length - 1)
  if bytes.drop (bytes.length - 1) = [crc8 body] then Report.ofFields body else none

/-- The length of a report by its kind byte, with kind byte and CRC-8; none for a kind not listed (R203). -/
def Report.length (kind : Byte) : Option Nat :=
  match kind.toNat with
  | 1 => some 7
  | 2 => some 2
  | 3 => some 2
  | 4 => some 8
  | 5 => some 4
  | 6 => some 3
  | _ => none

/-- The reports, at most `n`, that bytes up to an idle gap make, each a good report or a bad one (none): a report has the
length of its kind, the byte after it begins the next, one cut short by the gap is bad, and an unknown kind makes one bad
report of all the bytes up to the gap (R203). -/
def Report.upTo : Nat → List Byte → List (Option Report)
  | 0, _ => []
  | _, [] => []
  | n + 1, kind :: fields =>
    let bytes := kind :: fields
    match Report.length kind with
    | none => [none]
    | some k =>
      if bytes.length < k then [none] else Report.read (bytes.take k) :: Report.upTo n (bytes.drop k)

/-- The reports that bytes up to an idle gap make. -/
def Report.stream (bytes : List Byte) : List (Option Report) := Report.upTo bytes.length bytes

end Sys2Proof
end

