-- ==== Sys2Proof/Machine/Containers.lean ====
section
/-! DEFINITION. The collections of the state as plain data: sparse tables keyed by number in one canonical form (keys
strictly rising), and the fixed families of six panels, four day-parts, two lanes. -/
namespace Sys2Proof.Machine

/-- A sparse table keyed by number: no entry for a key is the absence the manual speaks of (R1, R141). -/
abbrev Table (α : Type) := List (Nat × α)

/-- The one canonical form: keys strictly rising, so no two entries share a key. -/
abbrev Table.Wf {α : Type} (t : Table α) : Prop := t.Pairwise (fun a b => a.1 < b.1)

/-- The value under a key, if the key has an entry. -/
def Table.find {α : Type} (k : Nat) : Table α → Option α
  | [] => none
  | (j, v) :: t => if j = k then some v else Table.find k t

/-- Puts a value under a key, at its place, replacing any value there. -/
def Table.insert {α : Type} (k : Nat) (v : α) : Table α → Table α
  | [] => [(k, v)]
  | (j, w) :: t =>
    if k < j then (k, v) :: (j, w) :: t
    else if k = j then (k, v) :: t
    else (j, w) :: Table.insert k v t

/-- Removes a key's entry. -/
def Table.erase {α : Type} (k : Nat) (t : Table α) : Table α := t.filter (fun e => e.1 ≠ k)

/-- Changes every value, keeping the keys. -/
def Table.mapValues {α β : Type} (f : Nat → α → β) (t : Table α) : Table β := t.map (fun e => (e.1, f e.1 e.2))

/-- One value for each panel. -/
structure PerPanel (α : Type) where
  p0 : α
  p1 : α
  p2 : α
  p3 : α
  p4 : α
  p5 : α
  deriving DecidableEq, Repr

/-- The value of one panel. -/
def PerPanel.get {α : Type} (x : PerPanel α) : PanelNo → α
  | 0 => x.p0
  | 1 => x.p1
  | 2 => x.p2
  | 3 => x.p3
  | 4 => x.p4
  | 5 => x.p5

/-- Replaces the value of one panel. -/
def PerPanel.set {α : Type} (x : PerPanel α) (p : PanelNo) (v : α) : PerPanel α :=
  match p with
  | 0 => { x with p0 := v }
  | 1 => { x with p1 := v }
  | 2 => { x with p2 := v }
  | 3 => { x with p3 := v }
  | 4 => { x with p4 := v }
  | 5 => { x with p5 := v }

/-- A value for each panel by its number. -/
def PerPanel.ofFn {α : Type} (f : PanelNo → α) : PerPanel α := ⟨f 0, f 1, f 2, f 3, f 4, f 5⟩

/-- One value for each open day-part. -/
structure PerDayPart (α : Type) where
  d0 : α
  d1 : α
  d2 : α
  d3 : α
  deriving DecidableEq, Repr

/-- The value of one day-part. -/
def PerDayPart.get {α : Type} (x : PerDayPart α) : DayPart → α
  | 0 => x.d0
  | 1 => x.d1
  | 2 => x.d2
  | 3 => x.d3

/-- Replaces the value of one day-part. -/
def PerDayPart.set {α : Type} (x : PerDayPart α) (d : DayPart) (v : α) : PerDayPart α :=
  match d with
  | 0 => { x with d0 := v }
  | 1 => { x with d1 := v }
  | 2 => { x with d2 := v }
  | 3 => { x with d3 := v }

/-- A value for each day-part by its number. -/
def PerDayPart.ofFn {α : Type} (f : DayPart → α) : PerDayPart α := ⟨f 0, f 1, f 2, f 3⟩

/-- One value for each lane. -/
structure PerLane (α : Type) where
  l0 : α
  l1 : α
  deriving DecidableEq, Repr

/-- The value of one lane. -/
def PerLane.get {α : Type} (x : PerLane α) : LaneNo → α
  | 0 => x.l0
  | 1 => x.l1

/-- Replaces the value of one lane. -/
def PerLane.set {α : Type} (x : PerLane α) (l : LaneNo) (v : α) : PerLane α :=
  match l with
  | 0 => { x with l0 := v }
  | 1 => { x with l1 := v }

end Sys2Proof.Machine
end

