-- ==== Sys2Proof/Machine/State.lean ====
section
/-! DEFINITION. The state of the MC6, block by block as section 0.3 lists the blocks: plain data, with the queue of
commands that wait. State.reset is the machine after a power-on start-up with no profile field burned (log 3). -/
namespace Sys2Proof.Machine

/-! ## Stops -/

/-- Why the machine stops. -/
inductive Fault where
  /-- Raised by LOAD_BLOCK when the load session names a slot that is not LOADING, or expects an index past the slot's
  block range: a state no run reaches (log 21). Safe. -/
  | loadSessionBroken
  deriving DecidableEq, Repr

/-- Why a command has no meaning. -/
inductive Refusal where
  /-- Raised by the dispatcher for a command that has no meaning yet. Safe. -/
  | notModelled (mnemonic : String)
  deriving DecidableEq, Repr

/-! ## The catalogue (chapter 1) -/

/-- A promotion: its promotional price and the minutes remaining (R3). -/
structure Promotion where
  price : Nat
  minutes : Nat
  deriving DecidableEq, Repr

/-- Availability of a variant (R3). -/
inductive Availability where
  | available
  | soldOut
  deriving DecidableEq, Repr

/-- A variant record (R3). -/
structure Variant where
  price : Nat
  availability : Availability
  promotion : Option Promotion
  deriving DecidableEq, Repr

/-- An item record (R2); its variant count is the length of its variant list. -/
structure Item where
  dayParts : BitVec 4
  label : List Byte
  photo : Option Nat
  variants : List Variant
  deriving DecidableEq, Repr

/-- A batch entry: its kind and the fields of that kind (R8). -/
inductive BatchEntry where
  | itemDefine (item count : Nat) (dayParts : BitVec 4)
  | itemRetire (item : Nat)
  | setPrice (item variant price : Nat)
  | setAvail (item variant : Nat) (availability : Availability)
  | setPromo (item variant price minutes : Nat)
  | clearPromo (item variant : Nat)
  | setDayparts (item : Nat) (dayParts : BitVec 4)
  | setLabel (item : Nat) (label : List Byte)
  | setPhoto (item : Nat) (slot : Option Nat)
  deriving DecidableEq, Repr

/-- State of the price lease (R19). -/
inductive Lease where
  | live
  | expired
  deriving DecidableEq, Repr

/-- The Catalogue Unit; a batch slot is CLOSED when it is none (R6). -/
structure Catalogue where
  items : Table Item
  generation : Nat
  storeBatch : Option (List BatchEntry)
  mediaBatch : Option (List BatchEntry)
  lease : Lease
  deriving DecidableEq, Repr

/-! ## Board plans (chapter 2) -/

/-- A cell rectangle (R30). -/
structure Rect where
  column : Nat
  row : Nat
  width : Nat
  height : Nat
  deriving DecidableEq, Repr

/-- The kind of a placement with its fields (R30). -/
inductive PlacementKind where
  | fill (colour : BitVec 4)
  | photo (slot : Nat)
  | itemPhoto (item : Nat)
  | label (item : Nat) (colour : BitVec 4)
  | price (item variant : Nat) (colour : BitVec 4)
  | text (colour : BitVec 4) (glyphs : List Byte)
  | order (colour : BitVec 4)
  | total (colour : BitVec 4)
  deriving DecidableEq, Repr

/-- A placement (R30). -/
structure Placement where
  rect : Rect
  kind : PlacementKind
  deriving DecidableEq, Repr

/-- A plan: its placements in paint order and its revision (R29, R33). -/
structure Plan where
  placements : List Placement
  revision : BitVec 16
  deriving DecidableEq, Repr

/-! ## Display targets (chapter 4) and frames (chapter 3) -/

/-- Price visibility (R67). -/
inductive Visibility where
  | shown
  | withheld
  deriving DecidableEq, Repr

/-- A display target (R67). -/
structure Target where
  generation : Nat
  dayPart : DayPart
  visibility : Visibility
  deriving DecidableEq, Repr

/-- What a frame record carries by its kind: a composed frame's target, plan revision and, for a lane panel, lane
revision; a slate carries none (R59). -/
inductive FrameKind where
  | slate
  | composed (target : Target) (planRevision : BitVec 16) (laneRevision : Option (BitVec 16))
  deriving DecidableEq, Repr

/-- A frame record (R59). -/
structure FrameRecord where
  kind : FrameKind
  checksum : BitVec 32
  sequence : BitVec 16
  deriving DecidableEq, Repr

/-- A frame held by a link: its record and its picture. -/
structure Frame where
  record : FrameRecord
  picture : Picture
  deriving DecidableEq, Repr

/-! ## Lane holds (chapter 7) -/

/-- A hold line (R143). -/
structure HoldLine where
  item : Nat
  variant : Nat
  quantity : Nat
  price : Nat
  generation : Nat
  promotion : Bool
  deriving DecidableEq, Repr

/-- A hold record; the key it stands under is its hold id (R142). -/
structure Hold where
  order : Nat
  lines : List HoldLine
  total : Nat
  deriving DecidableEq, Repr

/-- A lane record: its holds by hold id, focus, lane revision, and expired marks by hold id (R141). -/
structure Lane where
  holds : Table Hold
  focus : Option HoldId
  revision : BitVec 16
  expired : Table Nat
  deriving DecidableEq, Repr

/-! ## The Composer (chapter 3) -/

/-- The six reasons of a compose request (R45). -/
inductive Reason where
  | changeover
  | plan
  | hold
  | photo
  | lock
  | lagging
  deriving DecidableEq, Repr

/-- A reason set, one bit for each reason at its place (R201). -/
abbrev ReasonSet := BitVec 6

/-- An entry of the compose queue (R45). -/
structure QueueEntry where
  panel : PanelNo
  reasons : ReasonSet
  deriving DecidableEq, Repr

/-- What a lane panel's composition takes from the Hold Table at its start: the lane revision, and the focused hold or
the absence of a focus (R51). -/
structure HoldCopy where
  revision : BitVec 16
  hold : Option Hold
  deriving DecidableEq, Repr

/-- The composition in progress (R51): `todo` are the placements of the plan copy not painted yet, `picture` is the frame
so far. -/
structure Composition where
  panel : PanelNo
  reasons : ReasonSet
  target : Target
  planRevision : BitVec 16
  holdCopy : Option HoldCopy
  again : Bool
  againReasons : ReasonSet
  lost : Bool
  todo : List Placement
  picture : Picture
  deriving DecidableEq, Repr

/-- Outcome of a composition (R65). -/
inductive CompositionOutcome where
  | staged
  | discardedLink
  | discardedTarget
  | discardedGeneration
  | abandoned
  deriving DecidableEq, Repr

/-- A last-composition record (R65). -/
structure LastComposition where
  outcome : CompositionOutcome
  reasons : ReasonSet
  target : Target
  planRevision : BitVec 16
  laneRevision : Option (BitVec 16)
  deriving DecidableEq, Repr

/-- The Composer; the engine is idle when it is none. -/
structure Composer where
  queue : List QueueEntry
  engine : Option Composition
  last : PerPanel (Option LastComposition)
  deriving DecidableEq, Repr

/-! ## The Changeover Controller (chapters 4 and 9) -/

/-- The controller's state; in STAGING and ARMED the in-flight target is present (R68). -/
inductive Controller where
  | idle
  | staging (inFlight : Target)
  | armed (inFlight : Target)
  deriving DecidableEq, Repr

/-- Progress of a member (R74). -/
inductive Progress where
  | queued
  | staged
  | flipped
  | confirmed
  deriving DecidableEq, Repr

/-- Result of the last changeover (R76, R85). -/
inductive SettleResult where
  | done
  | partly
  deriving DecidableEq, Repr

/-- The Changeover Controller; a panel is a member when it has a progress. -/
structure Changeover where
  controller : Controller
  current : Target
  settled : Target
  members : PerPanel (Option Progress)
  lastResult : SettleResult
  lagging : PerPanel Bool
  deriving DecidableEq, Repr

/-- Mode of a freeze (R178). -/
inductive FreezeMode where
  | stopNow
  | stopAfter
  deriving DecidableEq, Repr

/-- State of the freeze, with the mode and the requesting port while it is in force (R178). -/
inductive FreezeState where
  | off
  | freezing (mode : FreezeMode) (requester : WritingRole)
  | frozen (mode : FreezeMode) (requester : WritingRole)
  deriving DecidableEq, Repr

/-- Cause of an end of the freeze (R178). -/
inductive FreezeCause where
  | unfreeze
  | limit
  | lease
  | promo
  | daypart
  deriving DecidableEq, Repr

/-- The freeze record (R178). -/
structure FreezeRecord where
  state : FreezeState
  targetChanged : Bool
  lastEnd : Option FreezeCause
  deriving DecidableEq, Repr

/-! ## Panel links (chapter 5) -/

/-- State of a link (R91). -/
inductive LinkState where
  | off
  | detached
  | training
  | locked
  | streaming
  | rejected
  | dark
  | test
  deriving DecidableEq, Repr

/-- A grid of columns and rows. -/
structure Grid where
  columns : Nat
  rows : Nat
  deriving DecidableEq, Repr

/-- A panel descriptor (R95). -/
structure Descriptor where
  grid : Grid
  period : Nat
  model : BitVec 16
  deriving DecidableEq, Repr

/-- A dark cause (R109). -/
inductive DarkCause where
  | request
  | closed
  deriving DecidableEq, Repr

/-- The dark cause set of a link (R109). -/
structure DarkSet where
  request : Bool
  closed : Bool
  deriving DecidableEq, Repr

/-- Mode of a link test (R113). -/
inductive TestMode where
  | latched
  | live
  deriving DecidableEq, Repr

/-- Result of a link test (R113 to R116). -/
inductive TestResult where
  | running
  | completed
  | stopped
  | aborted
  deriving DecidableEq, Repr

/-- A test record (R113). -/
structure TestRecord where
  mode : TestMode
  duration : Nat
  seconds : Nat
  reports : Nat
  errors : Nat
  flag : Bool
  result : TestResult
  deriving DecidableEq, Repr

/-- A link record (R91); its timers stand in the timer bank. `transmitting` holds the bytes of the frame whose
transmission began at the last frame boundary: its frame record and its picture data (R104, R205). -/
structure Link where
  state : LinkState
  descriptor : Option Descriptor
  causes : DarkSet
  showing : Option Frame
  staged : Option Frame
  confirmed : Option FrameRecord
  transmitting : Option (List Byte)
  sequence : BitVec 16
  restarts : Nat
  good : Nat
  bad : Nat
  mismatches : Nat
  mismatchMark : Bool
  lastFault : Option Byte
  faults : Nat
  test : Option TestRecord
  deriving DecidableEq, Repr

/-- What the forward path of a link carries (R91, R104); `elapsed` is how many milliseconds of the training pattern have
been sent since it last began (R97). -/
inductive ForwardPath where
  | poweredDown
  | silent
  | trainingPattern (elapsed : Nat)
  | testPattern
  | frames (bytes : List Byte)
  deriving DecidableEq, Repr

/-- Panel role (R206). -/
inductive PanelRole where
  | menu
  | lane (n : LaneNo)
  deriving DecidableEq, Repr

/-! ## Photo Memory (chapter 6) -/

/-- A block range: it lies within the DRAM's blocks (R120). -/
structure BlockRange where
  start : Nat
  count : Nat
  inside : start + count ≤ Config.dramBlocks
  deriving DecidableEq, Repr

/-- Damage cause of a slot (R119). -/
inductive DamageCause where
  | block (index : Nat)
  | loadChecksum
  | verifyChecksum
  deriving DecidableEq, Repr

/-- State of a slot that is not EMPTY (R119). -/
inductive SlotState where
  | loading
  | ready
  | unverified
  | verifying
  | damaged (cause : DamageCause)
  deriving DecidableEq, Repr

/-- The record of a slot that is not EMPTY (R119). An EMPTY slot has no entry, and its pin count is 0. -/
structure Slot where
  state : SlotState
  range : BlockRange
  width : Nat
  height : Nat
  checksum : BitVec 32
  pins : Nat
  deriving DecidableEq, Repr

/-- The load session (R123): `register` is the running CRC-32 register. -/
structure LoadSession where
  slot : Nat
  expected : Nat
  received : Nat
  register : BitVec 32
  deriving DecidableEq, Repr

/-- Outcome of a load session (R129). -/
inductive LoadOutcome where
  | ready
  | loadChecksum
  | blockCrc (index : Nat)
  | timeout
  | aborted
  deriving DecidableEq, Repr

/-- The last-load record (R129). -/
structure LastLoad where
  slot : Nat
  received : Nat
  outcome : LoadOutcome
  deriving DecidableEq, Repr

/-- The photo DRAM: (byte address, byte) cells, addresses strictly rising, no entry equal to what an unlisted address
reads as. -/
abbrev Memory := List Host.Cell

/-- Photo Memory; the verify engine is idle when `verifying` is none. -/
structure PhotoMemory where
  slots : Table Slot
  free : List BlockRange
  session : Option LoadSession
  lastLoad : Option LastLoad
  verifyQueue : List Nat
  verifying : Option Nat
  memory : Memory
  deriving DecidableEq, Repr

/-! ## Store Clock (chapter 8) -/

/-- A store state: an open day-part or CLOSED (R162). -/
inductive StoreState where
  | opened (d : DayPart)
  | closed
  deriving DecidableEq, Repr

/-- A schedule entry (R165). -/
structure ScheduleEntry where
  time : Nat
  days : BitVec 7
  destination : StoreState
  deriving DecidableEq, Repr

/-- The clock record (R162). The store state is computed from the override and the scheduled state; the tick source is
the profile's value in force. -/
structure StoreClock where
  time : Nat
  day : Nat
  valid : Bool
  schedule : List ScheduleEntry
  scheduled : StoreState
  override : Option StoreState
  lastOpen : DayPart
  deriving DecidableEq, Repr

/-! ## Request ports (chapter 10) -/

/-- The notice flags, in the bit order of R200. -/
inductive NoticeFlag where
  | restarted
  | requestLost
  | batchDiscarded
  | changeoverDone
  | changeoverPartial
  | panelEvent
  | freezeEnded
  | leaseExpired
  | promoEnded
  | daypartChanged
  | checksumMismatch
  | loadEnded
  | verifyDone
  | testEnded
  | holdExpired
  | pricesWithheld
  | pricesRestored
  deriving DecidableEq, Repr

/-- An answer: type and tag echoed from the request, a status code, a payload (R200). -/
structure Answer where
  typeByte : Byte
  tag : Byte
  status : Status
  payload : List Byte
  deriving DecidableEq, Repr

/-- State of a port; in ANSWER it holds the one answer (R190). -/
inductive PortState where
  | ready
  | working
  | answer (a : Answer)
  deriving DecidableEq, Repr

/-- A request port (R190, R196, R197). `dataOut` is the model's record of the bytes the port put out in its last
transaction (log 17). `receiving` is present while a message is being received that began while the port was not READY: it is lost
whole, even if the port becomes READY before it ends (R192, R193). It holds the port-state byte as the message began. -/
structure Port where
  state : PortState
  flags : BitVec 24
  mask : BitVec 24
  dataOut : List Byte
  receiving : Option Byte
  deriving DecidableEq, Repr

/-- The four ports. -/
structure Ports where
  store : Port
  media : Port
  lanes : PerLane Port
  deriving DecidableEq, Repr

/-! ## Timers, reset -/

/-- The timers of every block. -/
inductive TimerId where
  | batchIdle (role : WritingRole)
  | priceLease
  | minute
  | loadIdle
  | changeoverLimit
  | freezeLimit
  | second
  | lockSilence (p : PanelNo)
  | detach (p : PanelNo)
  | trainingLimit (p : PanelNo)
  | framePeriod (p : PanelNo)
  | testSecond (p : PanelNo)
  | holdLease (l : LaneNo) (h : HoldId)
  deriving DecidableEq, Repr

/-- Kind of a reset (R209). -/
inductive ResetKind where
  | pin
  | power
  deriving DecidableEq, Repr

/-- Whether the machine runs, awaits start-up after a reset, or is held in a reset of a kind by the RESET line, which is low
in that phase alone (R209, R210). -/
inductive Phase where
  | running
  | starting (kind : ResetKind)
  | resetLow (kind : ResetKind)
  deriving DecidableEq, Repr

/-! ## The state -/

/-- The state of the MC6. `timers` holds the milliseconds left on every running timer under the timer's key. `burned`
and `inForce` hold profile values by field number, in the layouts of R201; a field without an entry has its default
(R206). -/
structure State where
  phase : Phase
  ports : Ports
  burned : Table (List Byte)
  inForce : Table (List Byte)
  timers : Table Nat
  catalogue : Catalogue
  plans : PerPanel (PerDayPart Plan)
  composer : Composer
  changeover : Changeover
  freeze : FreezeRecord
  links : PerPanel Link
  photo : PhotoMemory
  lanes : PerLane Lane
  clock : StoreClock
  pending : List Instr
  deriving DecidableEq, Repr

/-! ## Reset values, block by block -/

/-- R28. -/
def Catalogue.reset : Catalogue := ⟨[], 0, none, none, .expired⟩

/-- R43. -/
def Plan.empty : Plan := ⟨[], 0⟩

/-- R43. -/
def resetPlans : PerPanel (PerDayPart Plan) := PerPanel.ofFn fun _ => PerDayPart.ofFn fun _ => Plan.empty

/-- R66. -/
def Composer.reset : Composer := ⟨[], none, PerPanel.ofFn fun _ => none⟩

/-- The target after a reset (R67). -/
def Target.reset : Target := ⟨0, 0, .withheld⟩

/-- R90. -/
def Changeover.reset : Changeover :=
  ⟨.idle, Target.reset, Target.reset, PerPanel.ofFn fun _ => none, .done, PerPanel.ofFn fun _ => false⟩

/-- R187. -/
def FreezeRecord.reset : FreezeRecord := ⟨.off, false, none⟩

/-- A link after reset, by whether the profile fits it (R118). -/
def Link.reset (fitted : Bool) : Link :=
  { state := if fitted then .detached else .off
    descriptor := none
    causes := ⟨false, fitted⟩
    showing := none
    staged := none
    confirmed := none
    transmitting := none
    sequence := 0
    restarts := 0
    good := 0
    bad := 0
    mismatches := 0
    mismatchMark := false
    lastFault := none
    faults := 0
    test := none }

/-- R139. -/
def PhotoMemory.reset : PhotoMemory :=
  { slots := []
    free := [⟨0, Config.dramBlocks, Nat.le_of_eq (Nat.zero_add _)⟩]
    session := none
    lastLoad := none
    verifyQueue := []
    verifying := none
    memory := [] }

/-- R161. -/
def Lane.reset : Lane := ⟨[], none, 0, []⟩

/-- R176. -/
def StoreClock.reset (schedule : List ScheduleEntry) : StoreClock := ⟨0, 0, false, schedule, .closed, none, 0⟩

/-- The flags of the store port's set: R196, in the bits of R200. -/
def storeFlagSet : BitVec 24 := 0x0003FF
/-- The flags of the media port's set. -/
def mediaFlagSet : BitVec 24 := 0x003C7F
/-- The flags of a lane port's set. -/
def laneFlagSet : BitVec 24 := 0x01C003

/-- A port after start-up: READY, RESTARTED set, mask all-enabled (R199). -/
def Port.started (flagSet : BitVec 24) : Port := ⟨.ready, 1, flagSet, [], none⟩

/-- The machine after a power-on start-up with no profile field burned (R210; log 3): the defaults of R206 fit six links
and both lane ports and take the tick from the second timer, so the minute timer (key 3) and the second timer (key 7)
run with their full periods. -/
def State.reset : State :=
  { phase := .running
    ports := ⟨Port.started storeFlagSet, Port.started mediaFlagSet,
      ⟨Port.started laneFlagSet, Port.started laneFlagSet⟩⟩
    burned := []
    inForce := []
    timers := [(3, Config.minuteMs), (7, Config.secondMs)]
    catalogue := Catalogue.reset
    plans := resetPlans
    composer := Composer.reset
    changeover := Changeover.reset
    freeze := FreezeRecord.reset
    links := PerPanel.ofFn fun _ => Link.reset true
    photo := PhotoMemory.reset
    lanes := ⟨Lane.reset, Lane.reset⟩
    clock := StoreClock.reset []
    pending := [] }

end Sys2Proof.Machine
end

