-- ==== Sys2Proof/Machine/Flags.lean ====
section
/-! DEFINITION. The notice flags of the ports: which port holds which flag, setting and clearing, and the notice line and
SPI port-state byte that follow them (R196, R197, R200). And the reason sets of compose requests. -/
namespace Sys2Proof.Machine

/-- The bit of a flag: R200. -/
def NoticeFlag.bit : NoticeFlag → Nat
  | .restarted => 0
  | .requestLost => 1
  | .batchDiscarded => 2
  | .changeoverDone => 3
  | .changeoverPartial => 4
  | .panelEvent => 5
  | .freezeEnded => 6
  | .leaseExpired => 7
  | .promoEnded => 8
  | .daypartChanged => 9
  | .checksumMismatch => 10
  | .loadEnded => 11
  | .verifyDone => 12
  | .testEnded => 13
  | .holdExpired => 14
  | .pricesWithheld => 15
  | .pricesRestored => 16

/-- A flag as a set of one. -/
def NoticeFlag.mask (f : NoticeFlag) : BitVec 24 := 1#24 <<< f.bit

/-- The flag set of each port: R196. -/
def flagSetOf : PortId → BitVec 24
  | .store => storeFlagSet
  | .media => mediaFlagSet
  | .lane _ => laneFlagSet

/-- Whether a flag set or mask names a flag outside the port's own set (R198). -/
def outsideSet (p : PortId) (flags : BitVec 24) : Bool := decide (flags &&& ~~~ (flagSetOf p) ≠ 0)

/-- Sets a flag, on a port whose set names it; setting a set flag leaves it set (R196). -/
def Port.setFlag (p : PortId) (f : NoticeFlag) (port : Port) : Port :=
  { port with flags := port.flags ||| (f.mask &&& flagSetOf p) }

/-- The notice line is driven low while a set flag is enabled by the mask (R197). -/
def Port.lineLow (port : Port) : Bool := decide (port.flags &&& port.mask ≠ 0)

/-- The port-state byte: state in bits 1 to 0, the notice line in bit 7 (R200). -/
def Port.stateByte (port : Port) : Byte :=
  (match port.state with
    | .ready => (0 : Byte)
    | .working => 1
    | .answer _ => 2) ||| (if port.lineLow then 0x80 else 0)

/-- The port-state byte that a request transaction clocks out, taken as the transaction begins (R192). -/
def Port.beginByte (port : Port) : Byte := port.receiving.getD port.stateByte

/-- The place of a reason in its set: R201. -/
def Reason.bit : Reason → Nat
  | .changeover => 0
  | .plan => 1
  | .hold => 2
  | .photo => 3
  | .lock => 4
  | .lagging => 5

/-- A reason as a set of one. -/
def Reason.set (r : Reason) : ReasonSet := 1#6 <<< r.bit

end Sys2Proof.Machine
end

