-- ==== Sys2Proof/Machine/Ops.lean ====
section
/-! DEFINITION. The shared operations over the state, from the bottom up: profile values, timers, memory, ports and
notices, the compose queue, the Changeover Controller, the freeze, the panel links, Photo Memory's ranges, the Store
Clock's transitions, and taking a reset. Every meaning is built from these. -/
namespace Sys2Proof.Machine

/-! ## Profile values in force (R206) -/

/-- The value an unburned field reads as, in the layout of R201. -/
def defaultField (n : Nat) : List Byte :=
  match n with
  | 1 => [6]
  | 2 | 3 | 4 | 5 | 6 | 7 => [0]
  | 8 | 9 | 10 | 11 | 12 | 13 => [16, 9]
  | 14 => [2]
  | 15 => [2]
  | 16 => [36, 0]
  | 17 => [3, 45, 45, 45]
  | 18 => [1, 88]
  | 19 => [0]
  | 20 => [60]
  | 21 => be 2 600
  | 22 => be 2 2000
  | 23 => [10]
  | 24 => [1]
  | 25 => [1]
  | _ => []

/-- The value a field reads as: its burned value, or its default. -/
def fieldValue (t : Table (List Byte)) (n : Nat) : List Byte := (Table.find n t).getD (defaultField n)

/-- A field's value in force, as a number. -/
def State.profileNat (s : State) (n : Nat) : Nat := natOf (fieldValue s.inForce n)

/-- The fitted links are links 0 to n − 1 (R92). -/
def State.linkFitted (s : State) (p : PanelNo) : Bool := decide (p.val < s.profileNat 1)

/-- Panel role in force: MENU, LANE0 or LANE1 (R201). -/
def State.role (s : State) (p : PanelNo) : PanelRole :=
  match s.profileNat (2 + p.val) with
  | 1 => .lane 0
  | 2 => .lane 1
  | _ => .menu

/-- Grid in force (R201). -/
def State.grid (s : State) (p : PanelNo) : Grid :=
  ⟨((fieldValue s.inForce (8 + p.val)).getD 0 0).toNat, ((fieldValue s.inForce (8 + p.val)).getD 1 0).toNat⟩

/-- The store and media ports are always fitted; of the lane ports the profile fits 0 to 2, lowest first (R188). -/
def State.portFitted (s : State) : PortId → Bool
  | .store => true
  | .media => true
  | .lane n => decide (n.val < s.profileNat 14)

/-- Slate colour in force (R62). -/
def State.slateColour (s : State) : BitVec 4 := BitVec.ofNat 4 (s.profileNat 19)
/-- Price lease period in force (R19). -/
def State.leaseMs (s : State) : Nat := s.profileNat 20 * 1000
/-- Hold lease period in force (R154). -/
def State.holdLeaseMs (s : State) : Nat := s.profileNat 21 * 1000
/-- Changeover limit in force (R84). -/
def State.changeoverLimitMs (s : State) : Nat := s.profileNat 22
/-- Freeze limit in force (R184). -/
def State.freezeLimitMs (s : State) : Nat := s.profileNat 23 * 60000
/-- Whether start-up is FULL (place 1 of R201). -/
def State.fullStartUp (s : State) : Bool := decide (s.profileNat 24 = 1)
/-- Whether the tick source is internal (place 1 of R201). -/
def State.internalTick (s : State) : Bool := decide (s.profileNat 25 = 1)

/-! ## Timers -/

/-- The key a timer stands under in the timer bank. -/
def TimerId.key : TimerId → Nat
  | .batchIdle .store => 0
  | .batchIdle .media => 1
  | .priceLease => 2
  | .minute => 3
  | .loadIdle => 4
  | .changeoverLimit => 5
  | .freezeLimit => 6
  | .second => 7
  | .lockSilence p => 8 + p.val
  | .detach p => 14 + p.val
  | .trainingLimit p => 20 + p.val
  | .framePeriod p => 26 + p.val
  | .testSecond p => 32 + p.val
  | .holdLease l h => 38 + 8 * l.val + h.val

/-- Milliseconds left on a timer; none when it is stopped. -/
def State.timeLeft (s : State) (t : TimerId) : Option Nat := Table.find t.key s.timers

/-- Starts or restarts a timer with a full period. -/
def State.startTimer (t : TimerId) (ms : Nat) (s : State) : State :=
  { s with timers := Table.insert t.key ms s.timers }

/-- Stops a timer: its expiry does not happen. -/
def State.stopTimer (t : TimerId) (s : State) : State := { s with timers := Table.erase t.key s.timers }

/-- Restarts a timer if it is running (R93). -/
def State.restartIfRunning (t : TimerId) (ms : Nat) (s : State) : State :=
  match s.timeLeft t with
  | none => s
  | some _ => s.startTimer t ms

/-- Time passes: every running timer has that much less left, down to 0. -/
def State.elapse (ms : Nat) (s : State) : State :=
  { s with timers := Table.mapValues (fun _ left => left - ms) s.timers }

/-- What an expiry command does: the time left on the timer passes, the timer has expired and stands stopped, and the
effect of the expiry is made. A timer that is not running does not expire (log 2). -/
def State.onExpiry (t : TimerId) (effect : State → State) (s : State) : State :=
  match s.timeLeft t with
  | none => s
  | some left => effect ((s.elapse left).stopTimer t)

/-! ## Photo DRAM (R120) -/

/-- What a byte that nothing has written reads as (DESIGN CHOICE, log 12). -/
def Memory.unlisted : Byte := 0

/-- The canonical form: addresses strictly rising, no entry equal to what an unlisted address reads as. -/
abbrev Memory.Wf (m : Memory) : Prop :=
  m.Pairwise (fun a b => a.1 < b.1) ∧ ∀ c ∈ m, c.2 ≠ Memory.unlisted

/-- The cells of bytes stored from an address on, in the canonical form. -/
def Memory.cells (address : Nat) : List Byte → Memory
  | [] => []
  | b :: bytes =>
    if b = Memory.unlisted then Memory.cells (address + 1) bytes
    else (address, b) :: Memory.cells (address + 1) bytes

/-- Stores bytes from an address on, keeping the canonical form. -/
def Memory.write (address : Nat) (bytes : List Byte) (m : Memory) : Memory :=
  m.filter (fun c => c.1 < address) ++ Memory.cells address bytes ++
    m.filter (fun c => address + bytes.length ≤ c.1)

/-- Reads one byte. -/
def Memory.read (m : Memory) (address : Nat) : Byte := (Table.find address m).getD Memory.unlisted

/-- Reads `n` bytes from an address on. -/
def Memory.readRange (m : Memory) (address : Nat) : Nat → List Byte
  | 0 => []
  | n + 1 => m.read address :: Memory.readRange m (address + 1) n

/-- The address of a block's first byte. -/
def blockAddress (block : Nat) : Nat := block * Config.blockBytes

/-- The picture data of a block range, in block index order (R120). -/
def Memory.photo (m : Memory) (r : BlockRange) : List Byte :=
  m.readRange (blockAddress r.start) (r.count * Config.blockBytes)

/-! ## Ports and notices (chapter 10) -/

/-- The record of a port. -/
def Ports.get (x : Ports) : PortId → Port
  | .store => x.store
  | .media => x.media
  | .lane n => x.lanes.get n

/-- Replaces the record of a port. -/
def Ports.set (x : Ports) (p : PortId) (v : Port) : Ports :=
  match p with
  | .store => { x with store := v }
  | .media => { x with media := v }
  | .lane n => { x with lanes := x.lanes.set n v }

/-- The record of a port. -/
def State.port (s : State) (p : PortId) : Port := s.ports.get p

/-- Replaces the record of a port. -/
def State.setPort (p : PortId) (v : Port) (s : State) : State := { s with ports := s.ports.set p v }

/-- Raises a notice on a port: its flag is set, on a fitted port whose set names it (R196). -/
def State.raise (f : NoticeFlag) (p : PortId) (s : State) : State :=
  if s.portFitted p then s.setPort p ((s.port p).setFlag p f) else s

/-- Raises a notice on the store port and the media port. -/
def State.raiseBoth (f : NoticeFlag) (s : State) : State := (s.raise f .store).raise f .media

/-- Raises a notice on each fitted lane port. -/
def State.raiseLanes (f : NoticeFlag) (s : State) : State := (s.raise f (.lane 0)).raise f (.lane 1)

/-- Whether a port is an SPI port (R192). -/
def isSpi : PortId → Bool
  | .store => true
  | .media => true
  | .lane _ => false

/-- Records the bytes a port put out in a transaction (log 17). -/
def State.putOut (p : PortId) (bytes : List Byte) (s : State) : State :=
  s.setPort p { s.port p with dataOut := bytes }

/-- A request that arrives at a port that is not READY is discarded whole and REQUEST_LOST is raised on that port, while
a reset is in force too (R190). The message is over with that (R193). A lane port that is not fitted ignores every byte
and holds no flag (R188; in a reset the profile still in force says which are fitted, log 16). -/
def State.loseRequest (p : PortId) (s : State) : State :=
  if s.portFitted p = false then s
  else s.setPort p { (s.port p).setFlag p .requestLost with receiving := none }

/-- The bytes of an answer message (R200). -/
def Answer.bytes (a : Answer) : List Byte :=
  let body := a.typeByte :: a.tag :: a.status.code :: (be 2 a.payload.length ++ a.payload)
  body ++ be 2 (crc16 body).toNat

/-- The answer message a port holds; no bytes outside ANSWER. -/
def Port.held (port : Port) : List Byte :=
  match port.state with
  | .answer a => a.bytes
  | .ready => []
  | .working => []

/-- The bytes an SPI port clocks out in a transaction with `n` bytes after the transaction code: the port-state byte, then
zeros while a request is clocked in, or the held answer and zeros after its end; of a poll only the state byte is read
(R192). -/
def Port.clocksOut (port : Port) (t : Transaction) (n : Nat) : List Byte :=
  match t with
  | .request => port.beginByte :: List.replicate n 0
  | .answerRead => port.stateByte :: (port.held.take n ++ List.replicate (n - port.held.length) 0)
  | .poll => [port.stateByte]

/-- What an SPI port puts out while a request of `size` bytes is clocked in (R192). -/
def State.clockIn (p : PortId) (size : Nat) (s : State) : State :=
  if isSpi p then s.putOut p ((s.port p).clocksOut .request size) else s

/-- A request of `size` bytes arrives at a port: taken if it began and ended in READY, lost otherwise (R190, R192, R193);
ignored by a lane port that is not fitted (R188). -/
def State.arrive (p : PortId) (size : Nat) (take : State → State) (s : State) : State :=
  if s.portFitted p = false then s
  else if (s.port p).state = .ready ∧ (s.port p).receiving = none then take (s.clockIn p size)
  else (s.clockIn p size).loseRequest p

/-- The answer exists, and the port enters ANSWER with it (R190). -/
def State.holdAnswer (p : PortId) (a : Answer) (s : State) : State :=
  s.setPort p { s.port p with state := .answer a }

/-- What an owning block answers: a status and the payload R204 gives for it. -/
structure Reply where
  status : Status
  payload : List Byte
  deriving DecidableEq, Repr

/-- An OK answer. -/
def Reply.ok (payload : List Byte) : Reply := ⟨.ok, payload⟩

/-- A refusal with an empty payload. -/
def Reply.refuse (status : Status) : Reply := ⟨status, []⟩

/-- A request message with a good CRC-16 arrives: the port's last two checks are made (R191), and a request that passes
is passed to `owner`. -/
def State.accept (t : RequestType) (p : PortId) (tag : Byte) (payload : List Byte) (owner : State → State)
    (s : State) : State :=
  s.arrive p (6 + payload.length) fun s =>
    if t.permission.holds p = false then s.holdAnswer p ⟨t.code, tag, .notPermitted, []⟩
    else if payload.length < t.lengths.1 ∨ t.lengths.2 < payload.length then
      s.holdAnswer p ⟨t.code, tag, .badField, []⟩
    else owner s

/-- A request whose owning block answers at once: the port carries the answer back unchanged, echoing the tag (R191). -/
def State.request (t : RequestType) (p : PortId) (tag : Byte) (payload : List Byte)
    (owner : State → Reply × State) (s : State) : State :=
  s.accept t p tag payload fun s =>
    let r := owner s
    r.2.holdAnswer p ⟨t.code, tag, r.1.status, r.1.payload⟩

/-- The writing role of a port (R189); asked only of the store port and the media port. -/
def roleOfPort : PortId → WritingRole
  | .media => .media
  | .store => .store
  | .lane _ => .store

/-- The port of a writing role. -/
def portOfRole : WritingRole → PortId
  | .store => .store
  | .media => .media

/-- The lane of a lane port (R189); asked only of lane ports. -/
def laneOfPort : PortId → LaneNo
  | .lane n => n
  | .store => 0
  | .media => 0

/-! ## Links: reading and writing the record (R91) -/

/-- The record of a link. -/
def State.link (s : State) (p : PanelNo) : Link := s.links.get p

/-- Replaces the record of a link. -/
def State.setLink (p : PanelNo) (v : Link) (s : State) : State := { s with links := s.links.set p v }

/-- A link in LOCKED or STREAMING is live (R91). -/
def LinkState.live : LinkState → Bool
  | .locked => true
  | .streaming => true
  | _ => false

/-- Whether a panel's link is live. -/
def State.live (s : State) (p : PanelNo) : Bool := (s.link p).state.live

/-- Counts up to 65,535, where a count stays (R93). -/
def countUp (n : Nat) : Nat := if n < 65535 then n + 1 else n

/-! ## The Composer's queue (R45 to R50) -/

/-- Replaces the Composer. -/
def State.setComposer (v : Composer) (s : State) : State := { s with composer := v }

/-- Merges a request into the panel's entry, or joins the panel at the tail (R46). -/
def joinQueue (p : PanelNo) (r : ReasonSet) (queue : List QueueEntry) : List QueueEntry :=
  if queue.any (fun e => e.panel = p) then
    queue.map (fun e => if e.panel = p then { e with reasons := e.reasons ||| r } else e)
  else queue ++ [⟨p, r⟩]

/-- Whether a composition of the panel is in progress. -/
def State.composing (s : State) (p : PanelNo) : Bool :=
  match s.composer.engine with
  | none => false
  | some c => decide (c.panel = p)

/-- The Composer takes a compose request: R46. -/
def State.composeRequest (p : PanelNo) (r : ReasonSet) (s : State) : State :=
  if s.live p = false then s
  else match s.composer.engine with
    | some c =>
      if c.panel = p then
        s.setComposer { s.composer with engine := some { c with again := true, againReasons := c.againReasons ||| r } }
      else s.setComposer { s.composer with queue := joinQueue p r s.composer.queue }
    | none => s.setComposer { s.composer with queue := joinQueue p r s.composer.queue }

/-- One compose request for each panel of a list, in its order (R47). -/
def State.composeRequests (ps : List PanelNo) (r : ReasonSet) (s : State) : State :=
  ps.foldl (fun s p => s.composeRequest p r) s

/-- The Composer takes a removal: the panel's entry goes, and a composition of it in progress has lost its panel (R48). -/
def State.composerRemoval (p : PanelNo) (s : State) : State :=
  s.setComposer
    { s.composer with
      queue := s.composer.queue.filter (fun e => e.panel ≠ p)
      engine := s.composer.engine.map (fun c => if c.panel = p then { c with lost := true } else c) }

/-- A composition is cut short: its panel goes back to the head of the queue with its reasons and the again reasons if
its link is live, the outcome ABANDONED is written, and the engine becomes idle (R63, R64). The queue holds a panel once
(R45). -/
def State.abandon (s : State) : State :=
  match s.composer.engine with
  | none => s
  | some c =>
    s.setComposer
      { queue :=
          if s.live c.panel then
            ⟨c.panel, c.reasons ||| c.againReasons⟩ :: s.composer.queue.filter (fun e => e.panel ≠ c.panel)
          else s.composer.queue
        engine := none
        last := s.composer.last.set c.panel
          (some ⟨.abandoned, c.reasons, c.target, c.planRevision, c.holdCopy.map HoldCopy.revision⟩) }

/-! ## The Changeover Controller (chapter 4) -/

/-- The in-flight target, present in STAGING and ARMED (R68). -/
def Controller.inFlight : Controller → Option Target
  | .idle => none
  | .staging t => some t
  | .armed t => some t

/-- Replaces the Changeover Controller. -/
def State.setChangeover (v : Changeover) (s : State) : State := { s with changeover := v }

/-- A panel's compose target: the in-flight target while it is a member, the settled target otherwise (R49, R68). -/
def State.composeTarget (s : State) (p : PanelNo) : Target :=
  match s.changeover.controller.inFlight, s.changeover.members.get p with
  | some t, some _ => t
  | _, _ => s.changeover.settled

/-- The members, lowest panel number first. -/
def Changeover.memberList (c : Changeover) : List PanelNo := allPanels.filter (fun p => (c.members.get p).isSome)

/-- The empty member set. -/
def noMembers : PerPanel (Option Progress) := PerPanel.ofFn fun _ => none

/-- The empty lagging set. -/
def noLagging : PerPanel Bool := PerPanel.ofFn fun _ => false

/-- A changeover settles with result DONE at a target: the target becomes the settled target, the member set and the
lagging set are emptied, the limit timer stops, and CHANGEOVER_DONE is raised (R71, R76, R79, R82, R89). -/
def State.settleDone (t : Target) (s : State) : State :=
  ((s.setChangeover
    { s.changeover with
      controller := .idle, settled := t, members := noMembers, lastResult := .done, lagging := noLagging }).stopTimer
    .changeoverLimit).raiseBoth .changeoverDone

/-- Every panel whose link is LOCKED or STREAMING, as a QUEUED member (R70, R79). -/
def State.liveMembers (s : State) : PerPanel (Option Progress) :=
  PerPanel.ofFn fun p => if s.live p then some .queued else none

/-- The staged frame of every live link is discarded; the sequence counters keep their values (R70). -/
def State.discardStaged (s : State) : State :=
  { s with links := PerPanel.ofFn fun p => if s.live p then { s.link p with staged := none } else s.link p }

/-- The current target becomes the in-flight target of a changeover with members: the members' staged frames are
discarded, every member is QUEUED and asked for with reason CHANGEOVER, and the controller is STAGING (R70 steps 4 to 7,
R79 steps 3 to 6). -/
def State.stageMembers (s : State) : State :=
  let s := s.discardStaged
  let s := s.setChangeover
    { s.changeover with controller := .staging s.changeover.current, members := s.liveMembers }
  s.composeRequests s.changeover.memberList (Reason.set .changeover)

/-- Whether any link is live. -/
def State.anyLive (s : State) : Bool := allPanels.any s.live

/-- A changeover starts (R70); with no live panel it settles at once (R71). -/
def State.startChangeover (s : State) : State :=
  if s.anyLive then (s.startTimer .changeoverLimit s.changeoverLimitMs).stageMembers
  else s.settleDone s.changeover.current

/-- The changeover in flight is superseded, keeping its limit timer; with no live panel it settles (R79). -/
def State.supersede (s : State) : State :=
  if s.anyLive then s.stageMembers else s.settleDone s.changeover.current

/-- Whether the freeze is in force (R178). -/
def FreezeState.inForce : FreezeState → Bool
  | .off => false
  | .freezing _ _ => true
  | .frozen _ _ => true

/-- Replaces the freeze record. -/
def State.setFreeze (v : FreezeRecord) (s : State) : State := { s with freeze := v }

/-- The controller takes a hand-off that makes the current target `t` (R69). A target equal to the old one is no change.
-/
def State.handTarget (t : Target) (s : State) : State :=
  if t = s.changeover.current then s
  else
    let s := s.setChangeover { s.changeover with current := t }
    match s.changeover.controller.inFlight with
    | some u => if t = u then s else s.supersede
    | none =>
      if s.freeze.state.inForce then s.setFreeze { s.freeze with targetChanged := true }
      else if t = s.changeover.settled then s
      else s.startChangeover

/-- A new generation is handed. -/
def State.handGeneration (g : Nat) (s : State) : State :=
  s.handTarget { s.changeover.current with generation := g }

/-- A visibility is handed. -/
def State.handVisibility (v : Visibility) (s : State) : State :=
  s.handTarget { s.changeover.current with visibility := v }

/-- A day-part is handed. -/
def State.handDayPart (d : DayPart) (s : State) : State :=
  s.handTarget { s.changeover.current with dayPart := d }

/-- How far a member has come: STAGED, FLIPPED and CONFIRMED let the controller arm (R75). -/
def Progress.pastQueued : Progress → Bool
  | .queued => false
  | _ => true

/-- The checks after each advance of progress and each change of the member set: an empty set settles (R82), a set all
CONFIRMED settles (R76), and in STAGING a set with no QUEUED member arms the controller (R75). -/
def State.checkMembers (s : State) : State :=
  match s.changeover.controller.inFlight with
  | none => s
  | some t =>
    let ps := s.changeover.memberList
    if ps.all (fun p => s.changeover.members.get p = some .confirmed) then s.settleDone t
    else if ps.all (fun p => ((s.changeover.members.get p).map Progress.pastQueued).getD true) then
      s.setChangeover { s.changeover with controller := .armed t }
    else s

/-- Sets a member's progress and makes the checks that follow an advance. -/
def State.advance (p : PanelNo) (v : Progress) (s : State) : State :=
  (s.setChangeover { s.changeover with members := s.changeover.members.set p (some v) }).checkMembers

/-- Whether a frame is a composed frame for this target. -/
def FrameKind.carries (k : FrameKind) (t : Target) : Bool :=
  match k with
  | .slate => false
  | .composed u _ _ => decide (u = t)

/-- An event of a member's link for a frame of kind `k` advances the member from `before` to `after` when the frame
carries the in-flight target (R74). -/
def State.advanceFrom (p : PanelNo) (before after : Progress) (k : FrameKind) (s : State) : State :=
  match s.changeover.controller.inFlight with
  | none => s
  | some t =>
    if s.changeover.members.get p = some before ∧ k.carries t = true then s.advance p after else s

/-- A confirmed frame carrying the settled target takes its panel out of the lagging set (R86). -/
def State.clearLagging (p : PanelNo) (k : FrameKind) (s : State) : State :=
  if k.carries s.changeover.settled then
    s.setChangeover { s.changeover with lagging := s.changeover.lagging.set p false }
  else s

/-- A panel's link has left LOCKED and STREAMING: a member leaves the set, and the set is checked again (R82). -/
def State.memberLeaves (p : PanelNo) (s : State) : State :=
  match s.changeover.members.get p with
  | none => s
  | some _ =>
    (s.setChangeover { s.changeover with members := s.changeover.members.set p none }).checkMembers

/-- A panel's link has reached LOCKED: while a changeover is in flight the panel joins QUEUED and is asked for (R81). -/
def State.memberJoins (p : PanelNo) (s : State) : State :=
  match s.changeover.controller.inFlight with
  | none => s
  | some _ => (s.advance p .queued).composeRequest p (Reason.set .changeover)

/-- The flip gate: whether a staged frame of kind `k` may become the showing frame (R77). -/
def State.gatePasses (k : FrameKind) (s : State) : Bool :=
  match k with
  | .slate => true
  | .composed t _ _ => decide (t = s.changeover.settled) || decide (s.changeover.controller = .armed t)

/-! ## Ending the freeze (R185) -/

/-- The freeze ends with a cause; a held-back change of the target starts its changeover. -/
def State.endFreeze (cause : FreezeCause) (s : State) : State :=
  let s := (s.setFreeze { s.freeze with state := .off, lastEnd := some cause }).stopTimer .freezeLimit
  let s := s.raiseBoth .freezeEnded
  let s := if s.changeover.current = s.changeover.settled then s else s.startChangeover
  s.setFreeze { s.freeze with targetChanged := false }

/-- The first step of the events that end a freeze in force (R184). -/
def State.endFreezeInForce (cause : FreezeCause) (s : State) : State :=
  if s.freeze.state.inForce then s.endFreeze cause else s

/-! ## Frames on a link (R59, R62, R105) -/

/-- The checksum of a picture: the CRC-32 over its picture data (R59). -/
def pictureChecksum (pic : Picture) : BitVec 32 := crc32 (Config.pictureData pic)

/-- A grid filled with one colour, without glyphs: the background of every frame (R52) and the slate (R62). -/
def filledPicture (g : Grid) (c : BitVec 4) : Picture :=
  ⟨g.columns, g.rows, List.replicate (g.columns * g.rows) ⟨.colour c, none, none, none⟩⟩

/-- The slate picture of a panel (R62). -/
def State.slatePicture (s : State) (p : PanelNo) : Picture := filledPicture (s.grid p) s.slateColour

/-- A frame is staged on a link: the counter rises by one, the frame takes the new value and replaces whatever is staged,
and the staging is handed to the controller (R105, R108). -/
def State.stage (p : PanelNo) (k : FrameKind) (pic : Picture) (s : State) : State :=
  let l := s.link p
  (s.setLink p
    { l with sequence := l.sequence + 1, staged := some ⟨⟨k, pictureChecksum pic, l.sequence + 1⟩, pic⟩ }).advanceFrom
    p .queued .staged k

/-! ## Link states (chapter 5) -/

/-- A live link leaves LOCKED and STREAMING: its frame records go, its lock silence and frame period timers stop, the
Composer takes a removal, and the controller learns of it (R99). -/
def State.leaveLive (p : PanelNo) (s : State) : State :=
  let s := s.setLink p
    { s.link p with
      showing := none, staged := none, confirmed := none, transmitting := none, mismatchMark := false }
  ((((s.stopTimer (.lockSilence p)).stopTimer (.framePeriod p)).composerRemoval p).memberLeaves p)

/-- The changes of R99 if the link is live. -/
def State.leaveIfLive (p : PanelNo) (s : State) : State := if s.live p then s.leaveLive p else s

/-- Sets a link's state alone. -/
def State.setLinkState (p : PanelNo) (v : LinkState) (s : State) : State :=
  s.setLink p { s.link p with state := v }

/-- Whether the descriptor's grid equals the profile's grid for the link (R95, R110). -/
def State.gridMatches (s : State) (p : PanelNo) : Bool :=
  match (s.link p).descriptor with
  | none => false
  | some d => decide (d.grid = s.grid p)

/-- The link enters TRAINING: the limit starts, and the restart count becomes 0 when it comes from another state (R97).
-/
def State.enterTraining (p : PanelNo) (s : State) : State :=
  let l := s.link p
  (s.setLink p { l with state := .training, restarts := if l.state = .training then l.restarts else 0 }).startTimer
    (.trainingLimit p) Config.trainingLimitMs

/-- The link enters REJECTED, and PANEL_EVENT is raised (R95, R96, R110, R115). -/
def State.enterRejected (p : PanelNo) (s : State) : State :=
  (s.setLinkState p .rejected).raiseBoth .panelEvent

/-- TRAINING when the grids are equal, REJECTED otherwise (R95, R110, R115). -/
def State.trainOrReject (p : PanelNo) (s : State) : State :=
  if s.gridMatches p then s.enterTraining p else s.enterRejected p

/-- A running test ends with a result: its timer stops, its record keeps counts and flag, TEST_ENDED is raised on the
media port (R115, R116). -/
def State.endTest (p : PanelNo) (result : TestResult) (s : State) : State :=
  let l := s.link p
  ((s.setLink p { l with test := l.test.map (fun t => { t with result := result }) }).stopTimer
    (.testSecond p)).raise .testEnded .media

/-- Adds a cause to a dark cause set. -/
def DarkSet.add (d : DarkSet) : DarkCause → DarkSet
  | .request => { d with request := true }
  | .closed => { d with closed := true }

/-- Removes a cause from a dark cause set. -/
def DarkSet.remove (d : DarkSet) : DarkCause → DarkSet
  | .request => { d with request := false }
  | .closed => { d with closed := false }

/-- Whether a dark cause set is empty. -/
def DarkSet.isEmpty (d : DarkSet) : Bool := !d.request && !d.closed

/-- The link enters DARK from the state it is in when the first cause is added (R109). -/
def State.enterDark (p : PanelNo) (s : State) : State :=
  match (s.link p).state with
  | .locked => (s.leaveLive p).setLinkState p .dark
  | .streaming => (s.leaveLive p).setLinkState p .dark
  | .training => (s.stopTimer (.trainingLimit p)).setLinkState p .dark
  | .rejected => s.setLinkState p .dark
  | .test => (s.endTest p .aborted).setLinkState p .dark
  | .off => s
  | .detached => s
  | .dark => s

/-- A dark cause is added to a link (R109). -/
def State.addCause (c : DarkCause) (p : PanelNo) (s : State) : State :=
  let l := s.link p
  let s' := s.setLink p { l with causes := l.causes.add c }
  if l.causes.isEmpty then s'.enterDark p else s'

/-- A dark cause is removed from a link; when the last one leaves, a DARK link trains or is rejected (R110). -/
def State.removeCause (c : DarkCause) (p : PanelNo) (s : State) : State :=
  let l := s.link p
  let s' := s.setLink p { l with causes := l.causes.remove c }
  if l.causes.isEmpty = false ∧ (l.causes.remove c).isEmpty = true ∧ l.state = .dark then s'.trainOrReject p else s'

/-- The fitted links, in link number order. -/
def State.fittedLinks (s : State) : List PanelNo := allPanels.filter s.linkFitted

/-! ## Photo Memory's ranges and queue (R121, R122, R131 to R133) -/

/-- Replaces Photo Memory. -/
def State.setPhoto (v : PhotoMemory) (s : State) : State := { s with photo := v }

/-- First fit: the first entry of the free list that holds `n` blocks gives the range at its start and keeps the rest
(R121). -/
def allocate (n : Nat) : List BlockRange → Option (BlockRange × List BlockRange)
  | [] => none
  | e :: es =>
    if h : n ≤ e.count then
      let taken : BlockRange := ⟨e.start, n, by have := e.inside; omega⟩
      if n = e.count then some (taken, es)
      else some (taken, ⟨e.start + n, e.count - n, by have := e.inside; omega⟩ :: es)
    else (allocate n es).map (fun x => (x.1, e :: x.2))

/-- Two ranges that touch, the first below the second, as one. -/
def BlockRange.join (a b : BlockRange) (h : a.start + a.count = b.start) : BlockRange :=
  ⟨a.start, a.count + b.count, by have := b.inside; omega⟩

/-- Puts a range at the front of a free list whose entries lie above it, merging it with a neighbour it touches. -/
def freeFront (r : BlockRange) : List BlockRange → List BlockRange
  | [] => [r]
  | e :: es => if h : r.start + r.count = e.start then r.join e h :: es else r :: e :: es

/-- A released range joins the free list in start order and is merged with its neighbours (R122). -/
def release (r : BlockRange) : List BlockRange → List BlockRange
  | [] => [r]
  | e :: es =>
    if h : e.start + e.count = r.start then freeFront (e.join r h) es
    else if r.start < e.start then freeFront r (e :: es)
    else e :: release r es

/-- Takes a range's blocks out of one free entry. -/
def BlockRange.without (e r : BlockRange) : List BlockRange :=
  if r.start + r.count ≤ e.start ∨ e.start + e.count ≤ r.start then [e]
  else
    (if e.start < r.start then [⟨e.start, min (r.start - e.start) e.count, by have := e.inside; omega⟩] else []) ++
    (if h : r.start + r.count < e.start + e.count then
      [⟨max e.start (r.start + r.count), e.start + e.count - max e.start (r.start + r.count),
        by have := e.inside; omega⟩] else [])

/-- The free-range list rebuilt as the blocks held by no slot, in start order (R140). -/
def freeOfSlots (slots : Table Slot) : List BlockRange :=
  slots.foldl (fun free e => free.flatMap (fun x => x.without e.2.range)) PhotoMemory.reset.free

/-- The sum of the free counts. -/
def freeTotal (free : List BlockRange) : Nat := free.foldl (fun n e => n + e.count) 0

/-- The largest free entry; of two with the same count, the one with the lower start (R123). -/
def largestFree : List BlockRange → Option BlockRange
  | [] => none
  | e :: es =>
    match largestFree es with
    | none => some e
    | some b => if b.count ≤ e.count then some e else some b

/-- Whether a slot is READY. -/
def PhotoMemory.ready (m : PhotoMemory) (slot : Nat) : Bool :=
  match Table.find slot m.slots with
  | none => false
  | some r => decide (r.state = .ready)

/-- A slot becomes EMPTY: its record goes, its range is released and it leaves the verify queue (R122, R127, R128, R130).
R120 gives a free block no contents; the model leaves the DRAM's bytes as they were (DESIGN CHOICE, log 26). -/
def PhotoMemory.empty (m : PhotoMemory) (slot : Nat) : PhotoMemory :=
  match Table.find slot m.slots with
  | none => m
  | some r =>
    { m with
      slots := Table.erase slot m.slots
      free := release r.range m.free
      verifyQueue := m.verifyQueue.filter (fun k => k ≠ slot) }

/-- The open load session ends with an outcome: the session closes and the last-load record is written (R129). -/
def PhotoMemory.endSession (m : PhotoMemory) (ls : LoadSession) (outcome : LoadOutcome) : PhotoMemory :=
  { m with session := none, lastLoad := some ⟨ls.slot, ls.received, outcome⟩ }

/-- Sets a slot's state, keeping its other fields. -/
def PhotoMemory.setState (m : PhotoMemory) (slot : Nat) (st : SlotState) : PhotoMemory :=
  match Table.find slot m.slots with
  | none => m
  | some r => { m with slots := Table.insert slot { r with state := st } m.slots }

/-- Applies handed pin differences: for each slot, `before` units of the old references go and `after` units of the new
come (R18, R42, R131). -/
def PhotoMemory.movePins (m : PhotoMemory) (before after : Nat → Nat) : PhotoMemory :=
  { m with slots := Table.mapValues (fun k r => { r with pins := r.pins + after k - before k }) m.slots }

/-- A slot joins the verify queue at its place by number, once (R132). -/
def joinVerify (slot : Nat) : List Nat → List Nat
  | [] => [slot]
  | k :: ks => if slot < k then slot :: k :: ks else if slot = k then k :: ks else k :: joinVerify slot ks

/-- The UNVERIFIED slots, in number order. -/
def PhotoMemory.unverified (m : PhotoMemory) : List Nat :=
  (m.slots.filter (fun e => e.2.state = .unverified)).map (fun e => e.1)

/-- The slot the idle verify engine takes next: the lowest-numbered UNVERIFIED slot of the queue (R133). -/
def PhotoMemory.nextVerify (m : PhotoMemory) : Option Nat :=
  match m.verifying with
  | some _ => none
  | none => m.verifyQueue.find? (fun k => m.unverified.contains k)

/-- The verify engine takes the next slot, if it is idle and one waits (R133). -/
def PhotoMemory.takeNext (m : PhotoMemory) : PhotoMemory :=
  match m.nextVerify with
  | none => m
  | some k => { m.setState k .verifying with verifying := some k }

/-- The PHOTO placements of one plan that name a slot (R42). -/
def Plan.pins (plan : Plan) (slot : Nat) : Nat :=
  plan.placements.countP (fun pl => pl.kind = .photo slot)

/-- Plan (p, D) (R29). -/
def State.plan (s : State) (p : PanelNo) (d : DayPart) : Plan := (s.plans.get p).get d

/-- The four open day-parts. -/
def allDayParts : List DayPart := [0, 1, 2, 3]

/-- The PHOTO placements of all 24 plans that name a slot (R42, R44). -/
def planPins (plans : PerPanel (PerDayPart Plan)) (slot : Nat) : Nat :=
  allPanels.foldl (fun n p => allDayParts.foldl (fun n d => n + ((plans.get p).get d).pins slot) n) 0

/-! ## Lanes (R157, R158) -/

/-- Replaces a lane record. -/
def State.setLane (l : LaneNo) (v : Lane) (s : State) : State := { s with lanes := s.lanes.set l v }

/-- The panels whose profile role names a lane. -/
def State.lanePanels (s : State) (l : LaneNo) : List PanelNo := allPanels.filter (fun p => s.role p = .lane l)

/-- The lane revision rises by one, and each panel of the lane is asked for with reason HOLD (R157, R158). -/
def State.raiseRevision (l : LaneNo) (s : State) : State :=
  (s.setLane l { s.lanes.get l with revision := (s.lanes.get l).revision + 1 }).composeRequests (s.lanePanels l)
    (Reason.set .hold)

/-! ## Store Clock (chapter 8) -/

/-- Replaces the clock record. -/
def State.setClock (v : StoreClock) (s : State) : State := { s with clock := v }

/-- The store state: the override while it is present, the scheduled state otherwise (R162). -/
def StoreClock.storeState (c : StoreClock) : StoreState := c.override.getD c.scheduled

/-- A transition from the store state `before` to the store state as it now stands, if they differ (R171): the last open
day-part, the freeze, the display target, the dark causes and DAYPART_CHANGED follow (R172, R173, R174). -/
def State.transition (before : StoreState) (s : State) : State :=
  if s.clock.storeState = before then s
  else
    match before, s.clock.storeState with
    | .opened _, .opened d =>
      let s := s.endFreezeInForce .daypart
      ((s.setClock { s.clock with lastOpen := d }).handDayPart d).raise .daypartChanged .store
    | .closed, .opened d =>
      let s := if d = s.clock.lastOpen then s else s.endFreezeInForce .daypart
      let s := (s.setClock { s.clock with lastOpen := d }).handDayPart d
      (s.fittedLinks.foldl (fun s p => s.removeCause .closed p) s).raise .daypartChanged .store
    | _, .closed =>
      (s.fittedLinks.foldl (fun s p => s.addCause .closed p) s).raise .daypartChanged .store

/-! ## Taking a reset (R209, and each chapter's last section) -/

/-- A port while a reset is in force: WORKING with nothing in hand, a transaction in progress cut off, every flag cleared,
mask all-enabled (R199). -/
def Port.inReset (p : PortId) : Port := ⟨.working, 0, flagSetOf p, [], none⟩

/-- Photo Memory while a pin reset is in force: session, verify queue and engine are gone, blocks and slots are kept for
start-up to deal with (R140). -/
def PhotoMemory.held (m : PhotoMemory) : PhotoMemory :=
  { m with session := none, lastLoad := none, verifyQueue := [], verifying := none }

/-- A reset is taken: every block takes its reset state for the kind of reset. Profile Memory keeps its burned fields.
A pin reset keeps the plans, the schedule and Photo Memory's slots and blocks, which start-up deals with. The values in
force stand until start-up reads the profile (log 16). -/
def State.takeReset (kind : ResetKind) (phase : Phase) (s : State) : State :=
  { s with
    phase := phase
    ports := ⟨Port.inReset .store, Port.inReset .media, ⟨Port.inReset (.lane 0), Port.inReset (.lane 1)⟩⟩
    timers := []
    catalogue := Catalogue.reset
    plans := match kind with
      | .pin => s.plans
      | .power => resetPlans
    composer := Composer.reset
    changeover := Changeover.reset
    freeze := FreezeRecord.reset
    links := PerPanel.ofFn fun p => Link.reset (s.linkFitted p)
    photo := match kind with
      | .pin => s.photo.held
      | .power => PhotoMemory.reset
    lanes := ⟨Lane.reset, Lane.reset⟩
    clock := StoreClock.reset (match kind with
      | .pin => s.clock.schedule
      | .power => []) }

end Sys2Proof.Machine
end

