-- ==== Sys2Proof/Machine/Operands.lean ====
section
/-! DEFINITION. The operand forms: how the fields of request payloads are read and checked for range (R8, R9, R30, R34,
R145, R165, R206, with the layouts of R201 and R202), and how the records of the state are written into answers (R201 to
R204). -/
namespace Sys2Proof.Machine

/-! ## Fields -/

/-- A number as an index below `n`, if it is one. -/
def index? (n : Nat) (v : Nat) : Option (Fin n) := if h : v < n then some ⟨v, h⟩ else none

/-- A day-part byte: 0 to 3 (R201). -/
def dayPart? (b : Byte) : Option DayPart := index? 4 b.toNat

/-- A panel byte: 0 to 5. -/
def panel? (b : Byte) : Option PanelNo := index? 6 b.toNat

/-- A hold id byte: 0 to 7. -/
def holdId? (b : Byte) : Option HoldId := index? 8 b.toNat

/-- A hold byte: a hold id, or 255 for none (R201); the outer option is the range check. -/
def holdOrNone? (b : Byte) : Option (Option HoldId) :=
  if b = 255 then some none else (holdId? b).map some

/-- A slot byte: 0 to 191. -/
def slot? (b : Byte) : Option Nat := if b.toNat < 192 then some b.toNat else none

/-- A store state byte: a day-part, or 4 for CLOSED (R201). -/
def storeState? (b : Byte) : Option StoreState :=
  if b = 4 then some .closed else (dayPart? b).map .opened

/-! ## Batch entries (R8, R9, R202) -/

/-- What stops the reading of a batch entry: the payload ends inside it, or a field, its kind or its role is wrong. -/
inductive EntryFault where
  | ends
  | range
  deriving DecidableEq, Repr

/-- Reads a field of `k` bytes that lies in `lo` to `hi`. -/
def takeField (k lo hi : Nat) (bytes : List Byte) : Except EntryFault (Nat × List Byte) :=
  if bytes.length < k then .error .ends
  else
    let n := natOf (bytes.take k)
    if lo ≤ n ∧ n ≤ hi then .ok (n, bytes.drop k) else .error .range

/-- Reads `n` glyph codes, each 1 to 255. -/
def takeGlyphs : Nat → List Byte → Except EntryFault (List Byte × List Byte)
  | 0, bytes => .ok ([], bytes)
  | n + 1, bytes =>
    match takeField 1 1 255 bytes with
    | .error e => .error e
    | .ok (g, rest) =>
      match takeGlyphs n rest with
      | .error e => .error e
      | .ok (gs, rest) => .ok (BitVec.ofNat 8 g :: gs, rest)

/-- Reads the fields after the kind byte, each in its range of R8; the first field that fails stops the reading (log 13).
-/
def readFields (kind : Nat) (bytes : List Byte) : Except EntryFault (BatchEntry × List Byte) := do
  let (item, bytes) ← takeField 2 0 511 bytes
  match kind with
  | 1 =>
    let (count, bytes) ← takeField 1 1 4 bytes
    let (mask, bytes) ← takeField 1 0 15 bytes
    pure (.itemDefine item count (BitVec.ofNat 4 mask), bytes)
  | 2 => pure (.itemRetire item, bytes)
  | 3 =>
    let (variant, bytes) ← takeField 1 0 3 bytes
    let (price, bytes) ← takeField 3 0 999999 bytes
    pure (.setPrice item variant price, bytes)
  | 4 =>
    let (variant, bytes) ← takeField 1 0 3 bytes
    let (a, bytes) ← takeField 1 0 1 bytes
    pure (.setAvail item variant (if a = 0 then .available else .soldOut), bytes)
  | 5 =>
    let (variant, bytes) ← takeField 1 0 3 bytes
    let (price, bytes) ← takeField 3 0 999999 bytes
    let (minutes, bytes) ← takeField 2 1 10080 bytes
    pure (.setPromo item variant price minutes, bytes)
  | 6 =>
    let (variant, bytes) ← takeField 1 0 3 bytes
    pure (.clearPromo item variant, bytes)
  | 7 =>
    let (mask, bytes) ← takeField 1 0 15 bytes
    pure (.setDayparts item (BitVec.ofNat 4 mask), bytes)
  | 8 =>
    let (count, bytes) ← takeField 1 0 24 bytes
    let (label, bytes) ← takeGlyphs count bytes
    pure (.setLabel item label, bytes)
  | 9 =>
    let (b, bytes) ← takeField 1 0 255 bytes
    if b = 255 then pure (.setPhoto item none, bytes)
    else if b < 192 then pure (.setPhoto item (some b), bytes)
    else .error .range
  | _ => .error .range

/-- Whether an entry kind code is one of the role's: 1 to 7 for the store role, 8 and 9 for the media role (R8, R202). -/
def kindOfRole (role : WritingRole) (kind : Nat) : Bool :=
  match role with
  | .store => decide (1 ≤ kind ∧ kind ≤ 7)
  | .media => decide (8 ≤ kind ∧ kind ≤ 9)

/-- Reads one batch entry for a role. -/
def readEntry (role : WritingRole) : List Byte → Except EntryFault (BatchEntry × List Byte)
  | [] => .error .ends
  | kind :: bytes => if kindOfRole role kind.toNat then readFields kind.toNat bytes else .error .range

/-- Reads `n` entries from position `i` on, to the end of the payload exactly. A failure gives the position R9 states:
the entry's own for a wrong kind or field, 0 for a payload that ends inside an entry or goes on after the last. -/
def readEntries (role : WritingRole) : Nat → Nat → List Byte → Except Nat (List BatchEntry)
  | 0, _, bytes => if bytes = [] then .ok [] else .error 0
  | n + 1, i, bytes =>
    match readEntry role bytes with
    | .error .ends => .error 0
    | .error .range => .error i
    | .ok (e, rest) =>
      match readEntries role n (i + 1) rest with
      | .error p => .error p
      | .ok es => .ok (e :: es)

/-- Reads the payload of a BATCH_ADD: an entry count of 1 to 8, then the entries (R9 step 1). -/
def readBatchAdd (role : WritingRole) : List Byte → Except Nat (List BatchEntry)
  | [] => .error 0
  | count :: bytes =>
    if count.toNat = 0 ∨ 8 < count.toNat then .error 0 else readEntries role count.toNat 0 bytes

/-! ## Placements (R30, R34, R35, R202) -/

/-- A placement as it stands in the payload: five bytes and the fields of its kind. -/
structure RawPlacement where
  column : Nat
  row : Nat
  width : Nat
  height : Nat
  kind : Nat
  fields : List Byte
  deriving DecidableEq, Repr

/-- The length of a placement's fields by its kind; a TEXT placement's depends on its count byte, taken as it stands
(log 14). None for a kind code not listed. -/
def placementLength (kind : Nat) (fields : List Byte) : Option Nat :=
  match kind with
  | 1 | 2 | 7 | 8 => some 1
  | 3 => some 2
  | 4 => some 3
  | 5 => some 4
  | 6 => some (2 + (fields.getD 1 0).toNat)
  | _ => none

/-- Reads `n` placements from index `i` on, to the end of the payload exactly (R34 step 1). -/
def readPlacements : Nat → Nat → List Byte → Except Nat (List RawPlacement)
  | 0, _, bytes => if bytes = [] then .ok [] else .error 0
  | n + 1, i, column :: row :: width :: height :: kind :: bytes =>
    match placementLength kind.toNat bytes with
    | none => .error i
    | some k =>
      if bytes.length < k then .error 0
      else
        match readPlacements n (i + 1) (bytes.drop k) with
        | .error p => .error p
        | .ok ps =>
          .ok (⟨column.toNat, row.toNat, width.toNat, height.toNat, kind.toNat, bytes.take k⟩ :: ps)
  | _ + 1, _, _ => .error 0

/-- A colour byte: 0 to 15. -/
def colour? (b : Byte) : Option (BitVec 4) := if b.toNat ≤ 15 then some (BitVec.ofNat 4 b.toNat) else none

/-- An item field: 0 to 511. -/
def item? (hi lo : Byte) : Option Nat := if natOf [hi, lo] ≤ 511 then some (natOf [hi, lo]) else none

/-- Glyph codes that make a glyph string: 0 to 24 of them, none of code 0. -/
def glyphsFit (glyphs : List Byte) : Bool := decide (glyphs.length ≤ 24) && glyphs.all (fun g => g ≠ 0)

/-- The fields of a kind, each in its range (second check of R35). -/
def kindFields (kind : Nat) (fields : List Byte) : Option PlacementKind :=
  match kind, fields with
  | 1, [c] => (colour? c).map .fill
  | 2, [s] => (slot? s).map .photo
  | 3, [i1, i0] => (item? i1 i0).map .itemPhoto
  | 4, [i1, i0, c] => (item? i1 i0).bind fun i => (colour? c).map (.label i)
  | 5, [i1, i0, v, c] =>
    (item? i1 i0).bind fun i => if v.toNat ≤ 3 then (colour? c).map (.price i v.toNat) else none
  | 6, c :: count :: glyphs =>
    if count.toNat = glyphs.length ∧ glyphsFit glyphs = true then (colour? c).map (fun c => .text c glyphs) else none
  | 7, [c] => (colour? c).map .order
  | 8, [c] => (colour? c).map .total
  | _, _ => none

/-- The placement of a raw one whose rectangle and fields lie in the ranges of R30. -/
def RawPlacement.placement? (r : RawPlacement) : Option Placement :=
  if r.column ≤ 15 ∧ r.row ≤ 8 ∧ 1 ≤ r.width ∧ r.width ≤ 16 ∧ 1 ≤ r.height ∧ r.height ≤ 9 then
    (kindFields r.kind r.fields).map fun k => ⟨⟨r.column, r.row, r.width, r.height⟩, k⟩
  else none

/-- A rectangle lies inside a grid (R31). -/
def Rect.insideGrid (r : Rect) (g : Grid) : Bool :=
  decide (r.column + r.width ≤ g.columns) && decide (r.row + r.height ≤ g.rows)

/-- ORDER and TOTAL are allowed on lane panels alone (R30, R31). -/
def PlacementKind.allowed (k : PlacementKind) (role : PanelRole) : Bool :=
  match k, role with
  | .order _, .menu => false
  | .total _, .menu => false
  | _, _ => true

/-- A placement fits a panel (R31). -/
def State.placementFits (s : State) (p : PanelNo) (pl : Placement) : Bool :=
  pl.rect.insideGrid (s.grid p) && pl.kind.allowed (s.role p)

/-- The fifth check of R35: the slot a PHOTO placement names is READY. -/
def State.photoReady (s : State) (k : PlacementKind) : Bool :=
  match k with
  | .photo slot => s.photo.ready slot
  | _ => true

/-- The checks of R35 on the placements from index `i` on: the list, or the refusal and the index of the first that fails.
-/
def State.checkPlacements (s : State) (p : PanelNo) : Nat → List RawPlacement → Except (Status × Nat) (List Placement)
  | _, [] => .ok []
  | i, r :: rs =>
    match r.placement? with
    | none => .error (.badField, i)
    | some pl =>
      if s.placementFits p pl = false then .error (.badField, i)
      else if s.photoReady pl.kind = false then .error (.slotState, i)
      else
        match s.checkPlacements p (i + 1) rs with
        | .error e => .error e
        | .ok pls => .ok (pl :: pls)

/-! ## Schedule entries (R165, R166) -/

/-- A schedule entry whose time, mask and destination lie in their ranges. -/
def scheduleEntry? (t2 t1 t0 mask dest : Byte) : Option ScheduleEntry :=
  if natOf [t2, t1, t0] ≤ 86399 ∧ 1 ≤ mask.toNat ∧ mask.toNat ≤ 127 then
    (storeState? dest).map fun d => ⟨natOf [t2, t1, t0], BitVec.ofNat 7 mask.toNat, d⟩
  else none

/-- Reads schedule entries from index `i` on; a failure gives the index of the first failing entry (second check of R166).
-/
def readSchedule : Nat → List Byte → Except Nat (List ScheduleEntry)
  | i, t2 :: t1 :: t0 :: mask :: dest :: bytes =>
    match scheduleEntry? t2 t1 t0 mask dest with
    | none => .error i
    | some e =>
      match readSchedule (i + 1) bytes with
      | .error p => .error p
      | .ok es => .ok (e :: es)
  | _, _ => .ok []

/-! ## Profile values (R206, R207) -/

/-- Whether bytes are a glyph string: a count byte, then that many glyphs. -/
def isGlyphString : List Byte → Bool
  | [] => false
  | count :: glyphs => decide (count.toNat = glyphs.length) && glyphsFit glyphs

/-- Whether a value is a number of one range, in its field's length. -/
def numberIn (size lo hi : Nat) (value : List Byte) : Bool :=
  decide (value.length = size) && decide (lo ≤ natOf value) && decide (natOf value ≤ hi)

/-- Whether a value lies in its field's range, in its field's layout (R201, R206). -/
def fieldInRange (n : Nat) (value : List Byte) : Bool :=
  match n with
  | 1 => numberIn 1 1 6 value
  | 2 | 3 | 4 | 5 | 6 | 7 => numberIn 1 0 2 value
  | 8 | 9 | 10 | 11 | 12 | 13 => numberIn 1 4 16 (value.take 1) && numberIn 1 2 9 (value.drop 1)
  | 14 => numberIn 1 0 2 value
  | 15 => numberIn 1 0 3 value
  | 16 => numberIn 1 1 255 (value.take 1) && numberIn 1 0 1 (value.drop 1)
  | 17 | 18 => isGlyphString value
  | 19 => numberIn 1 0 15 value
  | 20 => numberIn 1 5 255 value
  | 21 => numberIn 2 30 1800 value
  | 22 => numberIn 2 250 5000 value
  | 23 => numberIn 1 1 60 value
  | 24 => numberIn 1 0 1 value
  | 25 => numberIn 1 0 1 value
  | _ => false

/-! ## Records in answers (R201 to R204) -/

/-- Store state byte. -/
def StoreState.byte : StoreState → Byte
  | .opened d => BitVec.ofNat 8 d.val
  | .closed => 4

/-- Visibility byte. -/
def Visibility.byte : Visibility → Byte
  | .shown => 0
  | .withheld => 1

/-- Visibility that the lease gives (R19). -/
def Lease.visibility : Lease → Visibility
  | .live => .shown
  | .expired => .withheld

/-- Availability byte. -/
def Availability.byte : Availability → Byte
  | .available => 0
  | .soldOut => 1

/-- A target: generation (4), day-part (1), visibility (1). -/
def Target.bytes (t : Target) : List Byte := be 4 t.generation ++ [BitVec.ofNat 8 t.dayPart.val, t.visibility.byte]

/-- A target, or zeros where a record carries none. -/
def Target.bytesOrZero : Option Target → List Byte
  | none => [0, 0, 0, 0, 0, 0]
  | some t => t.bytes

/-- Panel role byte. -/
def PanelRole.byte : PanelRole → Byte
  | .menu => 0
  | .lane n => BitVec.ofNat 8 (n.val + 1)

/-- Link state byte. -/
def LinkState.byte : LinkState → Byte
  | .off => 0
  | .detached => 1
  | .training => 2
  | .locked => 3
  | .streaming => 4
  | .rejected => 5
  | .dark => 6
  | .test => 7

/-- A set of panels as one byte, bit n for panel n. -/
def panelSetByte (f : PanelNo → Bool) : Byte :=
  BitVec.ofNat 8 (allPanels.foldl (fun n p => if f p then n + 2 ^ p.val else n) 0)

/-- Progress byte. -/
def Progress.byte : Progress → Byte
  | .queued => 0
  | .staged => 1
  | .flipped => 2
  | .confirmed => 3

/-- Progress byte of a panel, 0 for a panel that is not a member. -/
def progressByte : Option Progress → Byte
  | none => 0
  | some v => v.byte

/-- Freeze state byte. -/
def FreezeState.byte : FreezeState → Byte
  | .off => 0
  | .freezing _ _ => 1
  | .frozen _ _ => 2

/-- Freeze mode byte. -/
def FreezeMode.byte : FreezeMode → Byte
  | .stopNow => 0
  | .stopAfter => 1

/-- Requesting port byte. -/
def requesterByte : WritingRole → Byte
  | .store => 0
  | .media => 1

/-- Mode and requesting port of the freeze in force (R178). -/
def FreezeState.holder : FreezeState → Option (FreezeMode × WritingRole)
  | .off => none
  | .freezing m r => some (m, r)
  | .frozen m r => some (m, r)

/-- Freeze end cause byte. -/
def FreezeCause.byte : FreezeCause → Byte
  | .unfreeze => 0
  | .limit => 1
  | .lease => 2
  | .promo => 3
  | .daypart => 4

/-- Composition outcome byte. -/
def CompositionOutcome.byte : CompositionOutcome → Byte
  | .staged => 0
  | .discardedLink => 1
  | .discardedTarget => 2
  | .discardedGeneration => 3
  | .abandoned => 4

/-- Slot state byte. -/
def SlotState.byte : SlotState → Byte
  | .loading => 1
  | .ready => 2
  | .unverified => 3
  | .verifying => 4
  | .damaged _ => 5

/-- Damage cause: cause (1), failing index (2), 0 unless the cause is BLOCK. -/
def DamageCause.bytes : DamageCause → List Byte
  | .block i => 0 :: be 2 i
  | .loadChecksum => [1, 0, 0]
  | .verifyChecksum => [2, 0, 0]

/-- Last-load outcome: outcome (1), failing index (2), 0 unless the outcome is BLOCK_CRC. -/
def LoadOutcome.bytes : LoadOutcome → List Byte
  | .ready => [0, 0, 0]
  | .loadChecksum => [1, 0, 0]
  | .blockCrc i => 2 :: be 2 i
  | .timeout => [3, 0, 0]
  | .aborted => [4, 0, 0]

/-- Test mode byte. -/
def TestMode.byte : TestMode → Byte
  | .latched => 0
  | .live => 1

/-- Test result byte. -/
def TestResult.byte : TestResult → Byte
  | .running => 0
  | .completed => 1
  | .stopped => 2
  | .aborted => 3

/-- A hold line: R203. -/
def HoldLine.bytes (l : HoldLine) : List Byte :=
  be 2 l.item ++ be 1 l.variant ++ be 1 l.quantity ++ be 3 l.price ++ be 4 l.generation ++ [flagByte l.promotion]

/-- The kind byte and fields of a placement: R202. -/
def PlacementKind.bytes : PlacementKind → List Byte
  | .fill c => [1, BitVec.ofNat 8 c.toNat]
  | .photo s => [2, BitVec.ofNat 8 s]
  | .itemPhoto i => 3 :: be 2 i
  | .label i c => 4 :: (be 2 i ++ [BitVec.ofNat 8 c.toNat])
  | .price i v c => 5 :: (be 2 i ++ [BitVec.ofNat 8 v, BitVec.ofNat 8 c.toNat])
  | .text c g => 6 :: BitVec.ofNat 8 c.toNat :: glyphBytes g
  | .order c => [7, BitVec.ofNat 8 c.toNat]
  | .total c => [8, BitVec.ofNat 8 c.toNat]

/-- A placement: R202. -/
def Placement.bytes (p : Placement) : List Byte :=
  be 1 p.rect.column ++ be 1 p.rect.row ++ be 1 p.rect.width ++ be 1 p.rect.height ++ p.kind.bytes

/-- A schedule entry: time (3), day mask (1), destination (1). -/
def ScheduleEntry.bytes (e : ScheduleEntry) : List Byte :=
  be 3 e.time ++ [BitVec.ofNat 8 e.days.toNat, e.destination.byte]

/-- A frame record as PANEL_STATUS gives it: sequence, kind, checksum, target, plan revision, lane revision, with the
fields it does not carry sent as 0 (R204). -/
def FrameRecord.bytes (r : FrameRecord) : List Byte :=
  be 2 r.sequence.toNat ++
    (match r.kind with
      | .slate => 1 :: (be 4 r.checksum.toNat ++ Target.bytesOrZero none ++ be 2 0 ++ be 2 0)
      | .composed t p l =>
        0 :: (be 4 r.checksum.toNat ++ t.bytes ++ be 2 p.toNat ++ be 2 (l.getD 0).toNat))

/-- The frame record that begins a transmitted frame: kind, sequence, checksum, target (R205). -/
def FrameRecord.transmitted (r : FrameRecord) : List Byte :=
  match r.kind with
  | .slate => 1 :: (be 2 r.sequence.toNat ++ be 4 r.checksum.toNat ++ Target.bytesOrZero none)
  | .composed t _ _ => 0 :: (be 2 r.sequence.toNat ++ be 4 r.checksum.toNat ++ t.bytes)

/-- A transmitted frame: its frame record, then its picture data (R104, R205). -/
def Frame.transmission (f : Frame) : List Byte := f.record.transmitted ++ Config.pictureData f.picture

end Sys2Proof.Machine
end

