-- ==== Sys2Proof/Machine/Changeover.lean ====
section
/-! DEFINITION. The Changeover Controller's own commands (chapter 4): the changeover limit and the changeover status. -/
namespace Sys2Proof.Machine

/-- The members of a given progress, in panel number order. -/
def Changeover.membersAt (c : Changeover) (v : Progress) : List PanelNo :=
  allPanels.filter fun p => c.members.get p = some v

/-- Whether a member lags when the limit expires: it is not CONFIRMED (R85 step 1). -/
def lags (progress : Option Progress) : Bool :=
  match progress with
  | none => false
  | some .confirmed => false
  | some .queued => true
  | some .staged => true
  | some .flipped => true

/-- The changeover in flight settles PARTIAL at its target (R85). -/
def State.settlePartial (t : Target) (s : State) : State :=
  let before := s.changeover
  let queued := before.membersAt .queued
  let s := queued.foldl (fun s p => s.stage p .slate (s.slatePicture p)) s
  let s := s.setChangeover
    { s.changeover with
      controller := .idle
      settled := t
      members := noMembers
      lastResult := .partly
      lagging := PerPanel.ofFn fun p => lags (before.members.get p) }
  (s.composeRequests queued (Reason.set .lagging)).raiseBoth .changeoverPartial

/-- CHANGEOVER_LIMIT_EXPIRY: R85. -/
def execChangeoverLimitExpiry (s : State) : Host.Outcome State Fault Refusal :=
  .next (s.onExpiry .changeoverLimit fun s =>
    match s.changeover.controller.inFlight with
    | none => s
    | some t => s.settlePartial t)

/-- Controller state byte (R201). -/
def Controller.byte : Controller → Byte
  | .idle => 0
  | .staging _ => 1
  | .armed _ => 2

/-- Last result byte (R201). -/
def SettleResult.byte : SettleResult → Byte
  | .done => 0
  | .partly => 1

/-- The controller's part of CHANGEOVER_STATUS (R88, R204). -/
def State.controllerBytes (s : State) : List Byte :=
  let c := s.changeover
  [c.controller.byte] ++ c.current.bytes ++ c.settled.bytes ++ optBytes 6 (c.controller.inFlight.map Target.bytes) ++
    optBytes 2 ((s.timeLeft .changeoverLimit).map (be 2)) ++
    [flagByte (decide (c.controller = .idle) && decide (c.current ≠ c.settled)),
      panelSetByte fun p => (c.members.get p).isSome] ++
    allPanels.map (fun p => progressByte (c.members.get p)) ++ [c.lastResult.byte, panelSetByte c.lagging.get]

/-- The freeze record's part of CHANGEOVER_STATUS (R186, R204). -/
def State.freezeBytes (s : State) : List Byte :=
  let f := s.freeze
  [f.state.byte] ++ optBytes 1 (f.state.holder.map fun h => [h.1.byte]) ++
    optBytes 1 (f.state.holder.map fun h => [requesterByte h.2]) ++
    optBytes 2 ((s.timeLeft .freezeLimit).map fun ms => be 2 (secondsLeft ms)) ++ [flagByte f.targetChanged] ++
    optBytes 1 (f.lastEnd.map fun c => [c.byte])

/-- R88, R186. -/
def changeoverStatus (s : State) : Reply × State := (.ok (s.controllerBytes ++ s.freezeBytes), s)

/-- CHANGEOVER_STATUS: R88, R186. -/
def execChangeoverStatus (port : PortId) (tag : Byte) (payload : List Byte) (s : State) :
    Host.Outcome State Fault Refusal :=
  .next (s.request .changeoverStatus port tag payload changeoverStatus)

end Sys2Proof.Machine
end

