-- ==== Sys2Proof/Machine/Clock.lean ====
section
/-! DEFINITION. The Store Clock (chapter 8): ticks, the schedule with its evaluation and firing, the override, and the
schedule read. -/
namespace Sys2Proof.Machine

/-- Seconds of a day (R162). -/
abbrev daySeconds : Nat := 86400

/-- An entry is due at time t on day d (R165). -/
def ScheduleEntry.due (e : ScheduleEntry) (t d : Nat) : Bool := decide (e.time = t) && e.days.getLsbD d

/-! ## Evaluation and the next firing (R167, R175) -/

/-- Seconds of a week. -/
abbrev weekSeconds : Nat := 604800

/-- The moments of the week at which an entry is due, in seconds from the start of day 0 (R165). -/
def ScheduleEntry.moments (e : ScheduleEntry) : List Nat :=
  if e.time < daySeconds then
    ((List.range 7).filter fun d => e.days.getLsbD d).map fun d => d * daySeconds + e.time
  else []

/-- The moments at which the entries of a schedule are due, each with its entry. -/
def dueMoments (schedule : List ScheduleEntry) : List (ScheduleEntry × Nat) :=
  schedule.flatMap fun e => e.moments.map fun m => (e, m)

/-- The present moment of the week. -/
def StoreClock.moment (c : StoreClock) : Nat := (c.day * daySeconds + c.time) % weekSeconds

/-- The first of a list's elements whose distance is the least. -/
def nearest {α : Type} (distance : α → Nat) : List α → Option α
  | [] => none
  | x :: xs =>
    match nearest distance xs with
    | none => some x
    | some y => if distance x ≤ distance y then some x else some y

/-- The entry due at the most recent moment of the week that ends at the present moment, that moment included (R167). -/
def StoreClock.lastDue (c : StoreClock) : Option ScheduleEntry :=
  (nearest (fun x => (c.moment + weekSeconds - x.2) % weekSeconds) (dueMoments c.schedule)).map fun x => x.1

/-- Evaluation of the scheduled state (R167). -/
def StoreClock.evaluated (c : StoreClock) : StoreClock :=
  { c with
    scheduled :=
      if c.valid then
        match c.lastDue with
        | none => .closed
        | some e => e.destination
      else .closed }

/-- The next firing: the entry due at the first moment after the present one, up to the same time seven days ahead, with
its day; absent while the clock is invalid (R175). -/
def StoreClock.nextFiring (c : StoreClock) : Option (ScheduleEntry × Nat) :=
  if c.valid then
    (nearest (fun x => (x.2 + weekSeconds - c.moment - 1) % weekSeconds) (dueMoments c.schedule)).map fun x =>
      (x.1, x.2 / daySeconds)
  else none

/-! ## Requests that change the clock (R164, R166, R169, R170) -/

/-- The clock record changes, and a transition is made if the store state has changed (R171). -/
def State.changeClock (f : StoreClock → StoreClock) (s : State) : State :=
  (s.setClock (f s.clock)).transition s.clock.storeState

/-- The answer of the clock's requests: the store state after the request. -/
def storeStateReply (s : State) : Reply × State := (.ok [s.clock.storeState.byte], s)

/-- R164. -/
def clockSet (payload : List Byte) (s : State) : Reply × State :=
  let time := natOf (payload.take 3)
  let day := natOf (payload.drop 3)
  if 86399 < time ∨ 6 < day then (.refuse .badField, s)
  else
    let s := if s.internalTick then s.startTimer .second Config.secondMs else s
    storeStateReply
      (s.changeClock fun c => ({ c with time := time, day := day, valid := true } : StoreClock).evaluated)

/-- Whether two entries have the same time and a day in common (R166). -/
def ScheduleEntry.conflicts (e f : ScheduleEntry) : Bool := decide (e.time = f.time) && decide (e.days &&& f.days ≠ 0)

/-- The first entry of `rest`, at index `i`, that conflicts with an earlier one, with the lowest such earlier index; the
entries before it are `earlier` (R166). -/
def firstConflict (earlier : List ScheduleEntry) : Nat → List ScheduleEntry → Option (Nat × Nat)
  | _, [] => none
  | i, e :: rest =>
    match earlier.findIdx? fun f => f.conflicts e with
    | some j => some (i, j)
    | none => firstConflict (earlier ++ [e]) (i + 1) rest

/-- Puts an entry into a list in time order, behind the entries of equal time (R165). -/
def insertEntry (e : ScheduleEntry) : List ScheduleEntry → List ScheduleEntry
  | [] => [e]
  | f :: rest => if e.time < f.time then e :: f :: rest else f :: insertEntry e rest

/-- A list of entries in time order, entries of equal time in the order given (R165). -/
def timeOrder (entries : List ScheduleEntry) : List ScheduleEntry :=
  entries.foldl (fun done e => insertEntry e done) []

/-- R166. -/
def scheduleLoad (payload : List Byte) (s : State) : Reply × State :=
  let count := (payload.getD 0 0).toNat
  let body := payload.drop 1
  if 16 < count ∨ body.length ≠ 5 * count then (⟨.badField, [0]⟩, s)
  else
    match readSchedule 0 body with
    | .error i => (⟨.badField, be 1 i⟩, s)
    | .ok entries =>
      match firstConflict [] 0 entries with
      | some (later, earlier) => (⟨.conflict, be 1 later ++ be 1 earlier⟩, s)
      | none => storeStateReply (s.changeClock fun c => { c with schedule := timeOrder entries }.evaluated)

/-- R169. -/
def daypartForce (payload : List Byte) (s : State) : Reply × State :=
  match storeState? (payload.getD 0 0) with
  | none => (.refuse .badField, s)
  | some v => storeStateReply (s.changeClock fun c => { c with override := some v })

/-- R170. -/
def daypartAuto (s : State) : Reply × State :=
  storeStateReply (s.changeClock fun c => { c with override := none }.evaluated)

/-! ## Ticks and firing (R163, R168) -/

/-- Time and day a second later (R163). -/
def StoreClock.nextSecond (c : StoreClock) : StoreClock :=
  if c.time + 1 < daySeconds then { c with time := c.time + 1 } else { c with time := 0, day := (c.day + 1) % 7 }

/-- The entry due at the present moment fires, while the clock is valid (R168). -/
def State.fire (s : State) : State :=
  if s.clock.valid then
    match s.clock.schedule.find? fun e => e.due s.clock.time s.clock.day with
    | none => s
    | some e => s.changeClock fun c => { c with scheduled := e.destination, override := none }
  else s

/-- A tick: a valid clock advances and the entry then due fires (R163, R168). -/
def State.tick (s : State) : State := if s.clock.valid then (s.setClock s.clock.nextSecond).fire else s

/-! ## The schedule read (R175) -/

/-- R175. -/
def scheduleRead (s : State) : Reply × State :=
  let c := s.clock
  (.ok (be 3 c.time ++ be 1 c.day ++ [flagByte c.valid, flagByte s.internalTick, c.storeState.byte, c.scheduled.byte] ++
    optBytes 1 (c.override.map fun v => [v.byte]) ++ be 1 c.lastOpen.val ++ be 1 c.schedule.length ++
    c.schedule.flatMap ScheduleEntry.bytes ++
    optBytes 5 (c.nextFiring.map fun x => be 3 x.1.time ++ be 1 x.2 ++ [x.1.destination.byte])), s)

/-! ## The meanings -/

/-- CLOCK_SET: R164. -/
def execClockSet (port : PortId) (tag : Byte) (payload : List Byte) (s : State) : Host.Outcome State Fault Refusal :=
  .next (s.request .clockSet port tag payload (clockSet payload))

/-- SCHEDULE_LOAD: R166. -/
def execScheduleLoad (port : PortId) (tag : Byte) (payload : List Byte) (s : State) : Host.Outcome State Fault Refusal :=
  .next (s.request .scheduleLoad port tag payload (scheduleLoad payload))

/-- DAYPART_FORCE: R169. -/
def execDaypartForce (port : PortId) (tag : Byte) (payload : List Byte) (s : State) : Host.Outcome State Fault Refusal :=
  .next (s.request .daypartForce port tag payload (daypartForce payload))

/-- DAYPART_AUTO: R170. -/
def execDaypartAuto (port : PortId) (tag : Byte) (payload : List Byte) (s : State) : Host.Outcome State Fault Refusal :=
  .next (s.request .daypartAuto port tag payload daypartAuto)

/-- SCHEDULE_READ: R175. -/
def execScheduleRead (port : PortId) (tag : Byte) (payload : List Byte) (s : State) : Host.Outcome State Fault Refusal :=
  .next (s.request .scheduleRead port tag payload scheduleRead)

/-- SECOND_TIMER_TICK: R163, with the firing of R168 in the same event (log 6). -/
def execSecondTimerTick (s : State) : Host.Outcome State Fault Refusal :=
  .next (s.onExpiry .second fun s => (s.startTimer .second Config.secondMs).tick)

/-- TICK_EDGE: R163; the TICK pin is ignored under the internal source. -/
def execTickEdge (s : State) : Host.Outcome State Fault Refusal :=
  .next (if s.phase = .running ∧ s.internalTick = false then s.tick else s)

/-- SCHEDULE_ENTRY_FIRE: R168, on the entry due at the present moment (log 6). -/
def execScheduleEntryFire (s : State) : Host.Outcome State Fault Refusal :=
  .next s.fire

end Sys2Proof.Machine
end

