-- ==== Sys2Proof/Machine/Catalogue.lean ====
section
/-! DEFINITION. The Catalogue Unit (chapter 1): batches and their commit, the price lease, promotions, catalogue reads. -/
namespace Sys2Proof.Machine

/-- Replaces the Catalogue Unit. -/
def State.setCatalogue (v : Catalogue) (s : State) : State := { s with catalogue := v }

/-- A role's batch; none while its slot is CLOSED (R6). -/
def Catalogue.batch (c : Catalogue) : WritingRole → Option (List BatchEntry)
  | .store => c.storeBatch
  | .media => c.mediaBatch

/-- Replaces a role's batch. -/
def Catalogue.setBatch (c : Catalogue) (role : WritingRole) (v : Option (List BatchEntry)) : Catalogue :=
  match role with
  | .store => { c with storeBatch := v }
  | .media => { c with mediaBatch := v }

/-- Opens or changes a role's batch, with its idle timer started anew (R7, R9, R17). -/
def State.keepBatch (role : WritingRole) (entries : List BatchEntry) (s : State) : State :=
  (s.setCatalogue (s.catalogue.setBatch role (some entries))).startTimer (.batchIdle role) Config.batchIdleMs

/-- Closes a role's batch: its entries are dropped and its idle timer stops (R10, R16). -/
def State.closeBatch (role : WritingRole) (s : State) : State :=
  (s.setCatalogue (s.catalogue.setBatch role none)).stopTimer (.batchIdle role)

/-! ## Batch requests -/

/-- R7. -/
def batchOpen (role : WritingRole) (s : State) : Reply × State :=
  match s.catalogue.batch role with
  | some _ => (.refuse .batchOpen, s)
  | none => (.ok [], s.keepBatch role [])

/-- R9. The idle timer restarts whatever the outcome. -/
def batchAdd (role : WritingRole) (payload : List Byte) (s : State) : Reply × State :=
  match s.catalogue.batch role with
  | none => (.refuse .noBatch, s)
  | some entries =>
    match readBatchAdd role payload with
    | .error position => (⟨.badField, be 1 position⟩, s.keepBatch role entries)
    | .ok added =>
      if Config.batchCapacity < entries.length + added.length then
        (⟨.batchFull, be 1 entries.length⟩, s.keepBatch role entries)
      else (.ok (be 1 (entries.length + added.length)), s.keepBatch role (entries ++ added))

/-- R10. -/
def batchDiscard (role : WritingRole) (s : State) : Reply × State :=
  match s.catalogue.batch role with
  | none => (.refuse .noBatch, s)
  | some _ => (.ok [], s.closeBatch role)

/-! ## Committing a batch (R12 to R18) -/

/-- Why a commit is refused (R13, R12). -/
inductive CommitReason where
  | noItem
  | noVariant
  | itemExists
  | slotState
  | held
  | frozen
  deriving DecidableEq, Repr

/-- Commit reason byte (R201). -/
def CommitReason.byte : CommitReason → Byte
  | .noItem => 0
  | .noVariant => 1
  | .itemExists => 2
  | .slotState => 3
  | .held => 4
  | .frozen => 5

/-- Whether any line of a lane's holds names an item (R159). -/
def Lane.names (l : Lane) (item : Nat) : Bool := l.holds.any fun h => h.2.lines.any fun x => x.item = item

/-- Whether an item is held on either lane (R13, R159). -/
def State.itemHeld (s : State) (item : Nat) : Bool := s.lanes.l0.names item || s.lanes.l1.names item

/-- A newly defined item: label empty, no photo, each variant at price 0, SOLD_OUT, no promotion (R2). -/
def Item.fresh (count : Nat) (dayParts : BitVec 4) : Item := ⟨dayParts, [], none, List.replicate count ⟨0, .soldOut, none⟩⟩

/-- Checks that an item is present and changes its record (R13, R14). -/
def changeItem (t : Table Item) (item : Nat) (f : Item → Item) : Except CommitReason (Table Item) :=
  match Table.find item t with
  | none => .error .noItem
  | some r => .ok (Table.insert item (f r) t)

/-- Checks that an item is present and a variant below its count, and changes the variant's record (R13, R14). -/
def changeVariant (t : Table Item) (item variant : Nat) (f : Variant → Variant) : Except CommitReason (Table Item) :=
  match Table.find item t with
  | none => .error .noItem
  | some r =>
    match r.variants[variant]? with
    | none => .error .noVariant
    | some v => .ok (Table.insert item { r with variants := r.variants.set variant (f v) } t)

/-- One entry's checks against the working copy (R13) and its effect on it (R14, R15). -/
def State.applyEntry (s : State) (t : Table Item) : BatchEntry → Except CommitReason (Table Item)
  | .itemDefine item count dayParts =>
    match Table.find item t with
    | some _ => .error .itemExists
    | none => .ok (Table.insert item (Item.fresh count dayParts) t)
  | .itemRetire item =>
    match Table.find item t with
    | none => .error .noItem
    | some _ => if s.itemHeld item then .error .held else .ok (Table.erase item t)
  | .setPrice item variant price => changeVariant t item variant fun v => { v with price := price }
  | .setAvail item variant a => changeVariant t item variant fun v => { v with availability := a }
  | .setPromo item variant price minutes =>
    changeVariant t item variant fun v => { v with promotion := some ⟨price, minutes⟩ }
  | .clearPromo item variant => changeVariant t item variant fun v => { v with promotion := none }
  | .setDayparts item dayParts => changeItem t item fun r => { r with dayParts := dayParts }
  | .setLabel item label => changeItem t item fun r => { r with label := label }
  | .setPhoto item none => changeItem t item fun r => { r with photo := none }
  | .setPhoto item (some slot) =>
    match Table.find item t with
    | none => .error .noItem
    | some r => if s.photo.ready slot then .ok (Table.insert item { r with photo := some slot } t) else .error .slotState

/-- Validation of the entries from index `i` on: the working copy after the last, or the reason and the index of the first
that fails (R13). -/
def State.validate (s : State) : Nat → Table Item → List BatchEntry → Except (CommitReason × Nat) (Table Item)
  | _, t, [] => .ok t
  | i, t, e :: es =>
    match s.applyEntry t e with
    | .error r => .error (r, i)
    | .ok t => s.validate (i + 1) t es

/-- The present items whose photo reference names a slot (R18). -/
def photoRefs (t : Table Item) (slot : Nat) : Nat := t.countP fun e => e.2.photo = some slot

/-- The generation after a commit: one more, from 4,294,967,295 to 1 (R5). -/
def nextGeneration (g : Nat) : Nat := if g = 4294967295 then 1 else g + 1

/-- The lease is renewed: its timer starts with the full period, and an EXPIRED lease becomes LIVE (R20, R21). -/
def State.makeLive (s : State) : State :=
  (s.setCatalogue { s.catalogue with lease := .live }).startTimer .priceLease s.leaseMs

/-- Steps 1 to 4 of a successful commit (R16): the working copy, the generation, the batch, the photo pins. -/
def State.installCommit (role : WritingRole) (items : Table Item) (s : State) : State :=
  let before := s.catalogue.items
  let s := s.setCatalogue
    { s.catalogue with items := items, generation := nextGeneration s.catalogue.generation }
  let s := s.closeBatch role
  s.setPhoto (s.photo.movePins (photoRefs before) (photoRefs items))

/-- Steps 5 and 6 (R16, R21): a store commit renews the lease, and a lease that was EXPIRED hands its visibility together
with the generation, as one change. -/
def State.finishCommit (role : WritingRole) (wasExpired : Bool) (s : State) : State :=
  match role with
  | .media => s.handGeneration s.catalogue.generation
  | .store =>
    if wasExpired then
      let s := s.makeLive
      (s.handTarget
        { s.changeover.current with generation := s.catalogue.generation, visibility := .shown }).raiseLanes .pricesRestored
    else s.makeLive.handGeneration s.catalogue.generation

/-- R12 to R18. -/
def batchCommit (role : WritingRole) (s : State) : Reply × State :=
  match s.catalogue.batch role with
  | none => (.refuse .noBatch, s)
  | some entries =>
    if role = .store ∧ s.freeze.state.inForce = true then
      (⟨.commitRefused, [CommitReason.frozen.byte, 255]⟩, s.keepBatch role entries)
    else
      match s.validate 0 s.catalogue.items entries with
      | .error (r, i) => (⟨.commitRefused, r.byte :: be 1 i⟩, s.keepBatch role entries)
      | .ok items =>
        let wasExpired := decide (role = .store ∧ s.catalogue.lease = .expired)
        let t := (s.installCommit role items).finishCommit role wasExpired
        (.ok (be 4 t.catalogue.generation ++ [flagByte wasExpired]), t)

/-! ## The price lease (R20 to R22) -/

/-- R20. -/
def leaseRenew (s : State) : Reply × State :=
  match s.catalogue.lease with
  | .live => (.ok [flagByte false], s.makeLive)
  | .expired =>
    (.ok [flagByte true],
      (((s.endFreezeInForce .lease).makeLive).handVisibility .shown).raiseLanes .pricesRestored)

/-- A composition painting shown prices is cut short as the lease expires (R64). -/
def State.cutShort (s : State) : State :=
  match s.composer.engine with
  | none => s
  | some c => if c.target.visibility = .shown then s.abandon else s

/-- The lease expires (R22). -/
def State.expireLease (s : State) : State :=
  let s := s.endFreezeInForce .lease
  let s := (s.setCatalogue { s.catalogue with lease := .expired }).cutShort
  ((s.handVisibility .withheld).raiseLanes .pricesWithheld).raise .leaseExpired .store

/-! ## Promotions (R24, R25) -/

/-- Changes the promotion of every variant of every item. -/
def mapPromotions (f : Option Promotion → Option Promotion) (t : Table Item) : Table Item :=
  Table.mapValues
    (fun _ (r : Item) => { r with variants := r.variants.map fun v => { v with promotion := f v.promotion } }) t

/-- Lowers a countdown by one minute. -/
def lowerPromotion : Option Promotion → Option Promotion
  | none => none
  | some p => some { p with minutes := p.minutes - 1 }

/-- Removes a promotion whose countdown has reached 0. -/
def endPromotion : Option Promotion → Option Promotion
  | none => none
  | some p => if p.minutes = 0 then none else some p

/-- Whether a variant's promotion has reached 0. -/
def Variant.promotionOver (v : Variant) : Bool :=
  match v.promotion with
  | none => false
  | some p => decide (p.minutes = 0)

/-- Whether any countdown has reached 0. -/
def anyPromotionOver (t : Table Item) : Bool := t.any fun e => e.2.variants.any Variant.promotionOver

/-- The promotion-end commit (R25), when a countdown has reached 0. -/
def State.endPromotions (s : State) : State :=
  if anyPromotionOver s.catalogue.items then
    let s := s.endFreezeInForce .promo
    let s := s.setCatalogue
      { s.catalogue with
        items := mapPromotions endPromotion s.catalogue.items
        generation := nextGeneration s.catalogue.generation }
    (s.handGeneration s.catalogue.generation).raise .promoEnded .store
  else s

/-- The minute timer expires: it restarts, and every countdown is lowered (R24); the countdowns that reach 0 end in the
same event (R23, R25). -/
def State.minutePasses (s : State) : State :=
  let s := s.startTimer .minute Config.minuteMs
  (s.setCatalogue { s.catalogue with items := mapPromotions lowerPromotion s.catalogue.items }).endPromotions

/-! ## Reads (R26, R27) -/

/-- The effective price (R3). -/
def Variant.effectivePrice (v : Variant) : Nat :=
  match v.promotion with
  | none => v.price
  | some p => p.price

/-- A variant in the answer to ITEM_READ (R204). -/
def Variant.bytes (v : Variant) : List Byte :=
  be 3 v.price ++ [v.availability.byte] ++ optBytes 5 (v.promotion.map fun p => be 3 p.price ++ be 2 p.minutes)

/-- Whether an item is offered in a day-part (R2). -/
def Item.offeredIn (r : Item) (d : DayPart) : Bool := r.dayParts.getLsbD d.val

/-- R26. -/
def itemRead (payload : List Byte) (s : State) : Reply × State :=
  let item := natOf payload
  if 511 < item then (.refuse .badField, s)
  else
    match Table.find item s.catalogue.items with
    | none => (.refuse .noItem, s)
    | some r =>
      (.ok (be 4 s.catalogue.generation ++ be 1 r.variants.length ++ be 1 r.dayParts.toNat ++ glyphBytes r.label ++
        [noneByte r.photo] ++ r.variants.flatMap Variant.bytes), s)

/-- Whether an item is offered now: the store is open and the mask has the current day-part (R27). -/
def State.offeredNow (s : State) (r : Item) : Bool :=
  match s.clock.storeState with
  | .closed => false
  | .opened d => r.offeredIn d

/-- R27. -/
def priceQuery (payload : List Byte) (s : State) : Reply × State :=
  let item := natOf (payload.take 2)
  let variant := natOf (payload.drop 2)
  if 511 < item ∨ 3 < variant then (.refuse .badField, s)
  else
    match Table.find item s.catalogue.items with
    | none => (.refuse .noItem, s)
    | some r =>
      match r.variants[variant]? with
      | none => (.refuse .noVariant, s)
      | some v =>
        (.ok (be 3 v.effectivePrice ++ [v.availability.byte, s.catalogue.lease.visibility.byte] ++
          be 4 s.catalogue.generation ++ [flagByte (s.offeredNow r)]), s)

/-! ## The meanings -/

/-- BATCH_OPEN: R7. -/
def execBatchOpen (port : PortId) (tag : Byte) (payload : List Byte) (s : State) : Host.Outcome State Fault Refusal :=
  .next (s.request .batchOpen port tag payload (batchOpen (roleOfPort port)))

/-- BATCH_ADD: R8, R9. -/
def execBatchAdd (port : PortId) (tag : Byte) (payload : List Byte) (s : State) : Host.Outcome State Fault Refusal :=
  .next (s.request .batchAdd port tag payload (batchAdd (roleOfPort port) payload))

/-- BATCH_COMMIT: R12 to R18. -/
def execBatchCommit (port : PortId) (tag : Byte) (payload : List Byte) (s : State) : Host.Outcome State Fault Refusal :=
  .next (s.request .batchCommit port tag payload (batchCommit (roleOfPort port)))

/-- BATCH_DISCARD: R10. -/
def execBatchDiscard (port : PortId) (tag : Byte) (payload : List Byte) (s : State) : Host.Outcome State Fault Refusal :=
  .next (s.request .batchDiscard port tag payload (batchDiscard (roleOfPort port)))

/-- LEASE_RENEW: R20. -/
def execLeaseRenew (port : PortId) (tag : Byte) (payload : List Byte) (s : State) : Host.Outcome State Fault Refusal :=
  .next (s.request .leaseRenew port tag payload leaseRenew)

/-- ITEM_READ: R26. -/
def execItemRead (port : PortId) (tag : Byte) (payload : List Byte) (s : State) : Host.Outcome State Fault Refusal :=
  .next (s.request .itemRead port tag payload (itemRead payload))

/-- PRICE_QUERY: R27. -/
def execPriceQuery (port : PortId) (tag : Byte) (payload : List Byte) (s : State) : Host.Outcome State Fault Refusal :=
  .next (s.request .priceQuery port tag payload (priceQuery payload))

/-- BATCH_IDLE_EXPIRY: R11. -/
def execBatchIdleExpiry (role : WritingRole) (s : State) : Host.Outcome State Fault Refusal :=
  .next (s.onExpiry (.batchIdle role) fun s => (s.closeBatch role).raise .batchDiscarded (portOfRole role))

/-- PRICE_LEASE_EXPIRY: R22, R64. -/
def execPriceLeaseExpiry (s : State) : Host.Outcome State Fault Refusal :=
  .next (s.onExpiry .priceLease State.expireLease)

/-- MINUTE_TIMER_EXPIRY: R24, with R25 in the same event (R23; log 6). -/
def execMinuteTimerExpiry (s : State) : Host.Outcome State Fault Refusal :=
  .next (s.onExpiry .minute State.minutePasses)

/-- PROMOTION_END_COMMIT: R25, on the countdowns that stand at 0 (log 6). -/
def execPromotionEndCommit (s : State) : Host.Outcome State Fault Refusal :=
  .next s.endPromotions

end Sys2Proof.Machine
end

