-- ==== Sys2Proof/Machine/Paint.lean ====
section
/-! DEFINITION. Painting (section 3.3): how each kind of placement changes the picture of a frame, from the catalogue,
Photo Memory and the hold copy as they stand when it is painted. -/
namespace Sys2Proof.Machine

/-- Changes every cell by its column and row; `i` is the number of the first cell of the list. -/
def paintCells (columns : Nat) (f : Nat → Nat → Cell → Cell) : Nat → List Cell → List Cell
  | _, [] => []
  | i, c :: cs => f (i % columns) (i / columns) c :: paintCells columns f (i + 1) cs

/-- Changes every cell of a picture by its column and row. -/
def mapPicture (f : Nat → Nat → Cell → Cell) (pic : Picture) : Picture :=
  { pic with cells := paintCells pic.columns f 0 pic.cells }

/-- Whether a rectangle covers the cell at (x, y) (R30). -/
def Rect.covers (r : Rect) (x y : Nat) : Bool :=
  decide (r.column ≤ x ∧ x < r.column + r.width ∧ r.row ≤ y ∧ y < r.row + r.height)

/-- A ground that covers a cell whole, glyphs and all (log 9). -/
def wholeCell (g : Ground) : Cell := ⟨g, none, none, none⟩

/-- FILL fills every cell of its rectangle with its colour (R56). -/
def drawFill (r : Rect) (c : BitVec 4) (pic : Picture) : Picture :=
  mapPicture (fun x y cell => if r.covers x y then wholeCell (.colour c) else cell) pic

/-- A glyph drawn at a position covers it; a position the string does not reach keeps what it had (R56). -/
def overGlyph (old new : Option Glyph) : Option Glyph :=
  match new with
  | none => old
  | some g => some g

/-- The glyph that a string beginning at glyph position `first` draws at a position. -/
def glyphAt (first : Nat) (glyphs : List Byte) (c : BitVec 4) (position : Nat) : Option Glyph :=
  if position < first then none else (glyphs[position - first]?).map fun g => ⟨g, c⟩

/-- Draws a string on one cell row of a rectangle, from glyph position `first` of that line on; glyphs beyond the line's
last position are not drawn (R52, R56). -/
def drawLine (r : Rect) (row first : Nat) (glyphs : List Byte) (c : BitVec 4) (pic : Picture) : Picture :=
  mapPicture
    (fun x y cell =>
      if y = row ∧ r.column ≤ x ∧ x < r.column + r.width then
        let k := 3 * (x - r.column)
        { cell with
          left := overGlyph cell.left (glyphAt first glyphs c k)
          middle := overGlyph cell.middle (glyphAt first glyphs c (k + 1))
          right := overGlyph cell.right (glyphAt first glyphs c (k + 2)) }
      else cell) pic

/-- Glyph positions of a line of a rectangle: three for each cell (R52). -/
def Rect.lineLength (r : Rect) : Nat := 3 * r.width

/-- A string drawn left-aligned on the top line, cut at its end (R56). -/
def drawText (r : Rect) (glyphs : List Byte) (c : BitVec 4) (pic : Picture) : Picture :=
  drawLine r r.row 0 glyphs c pic

/-- A price drawn right-aligned on a line; one too long for the line renders nothing (R54, R58). -/
def drawRight (r : Rect) (row : Nat) (glyphs : List Byte) (c : BitVec 4) (pic : Picture) : Picture :=
  if glyphs.length ≤ r.lineLength then drawLine r row (r.lineLength - glyphs.length) glyphs c pic else pic

/-- A digit's glyph code: 48 to 57 (R55). -/
def digitGlyph (n : Nat) : Byte := BitVec.ofNat 8 (48 + n % 10)

/-- The last `k` digits of a number. -/
def digitsExactly : Nat → Nat → List Byte
  | 0, _ => []
  | k + 1, n => digitGlyph (n / 10 ^ k) :: digitsExactly k n

/-- A number without leading zeros, 0 for zero (R55). -/
def digits (n : Nat) : List Byte := (Nat.toDigits 10 n).map fun c => BitVec.ofNat 8 c.toNat

/-- The price format: decimals, point and currency glyph of the profile in force (R55). -/
def State.priceGlyphs (s : State) (price : Nat) : List Byte :=
  let d := s.profileNat 15
  let number := if d = 0 then digits price else digits (price / 10 ^ d) ++ 46 :: digitsExactly d price
  let currency := (fieldValue s.inForce 16).getD 0 0
  if (fieldValue s.inForce 16).getD 1 0 = 0 then currency :: number else number ++ [currency]

/-- The withheld text in force. -/
def State.withheldText (s : State) : List Byte := (fieldValue s.inForce 17).drop 1
/-- The sold-out text in force. -/
def State.soldOutText (s : State) : List Byte := (fieldValue s.inForce 18).drop 1

/-- Draws a slot's photo with its top-left cell on the rectangle's, clipped to the rectangle; a slot that is not READY
renders nothing (R57). -/
def State.drawPhoto (s : State) (r : Rect) (slot : Nat) (pic : Picture) : Picture :=
  match Table.find slot s.photo.slots with
  | none => pic
  | some rec =>
    if rec.state = .ready then
      let bytes := s.photo.memory.photo rec.range
      mapPicture
        (fun x y cell =>
          if r.covers x y = true ∧ x - r.column < rec.width ∧ y - r.row < rec.height then
            wholeCell (.photo (Config.photoCell bytes rec.width rec.height (x - r.column) (y - r.row)))
          else cell) pic
    else pic

/-- A present item offered in the recorded target's day-part (R53). -/
def State.offeredItem (s : State) (item : Nat) (d : DayPart) : Option Item :=
  match Table.find item s.catalogue.items with
  | none => none
  | some r => if r.offeredIn d then some r else none

/-- A PRICE placement: the withheld text, the sold-out text, or the effective price (R53, R54). -/
def State.drawPrice (s : State) (t : Target) (r : Rect) (item variant : Nat) (c : BitVec 4) (pic : Picture) : Picture :=
  match s.offeredItem item t.dayPart with
  | none => pic
  | some rec =>
    match rec.variants[variant]? with
    | none => pic
    | some v =>
      if t.visibility = .withheld then drawText r s.withheldText c pic
      else if v.availability = .soldOut then drawText r s.soldOutText c pic
      else drawRight r r.row (s.priceGlyphs v.effectivePrice) c pic

/-- A held item's label, read as the row is painted; a held item is present (R58, R159). -/
def State.labelOf (s : State) (item : Nat) : List Byte :=
  match Table.find item s.catalogue.items with
  | none => []
  | some r => r.label

/-- One row of an ORDER placement: quantity, gap glyph, label cut to leave a position free, snapshot price on the right
(R58). -/
def State.drawOrderRow (s : State) (r : Rect) (row : Nat) (line : HoldLine) (c : BitVec 4) (pic : Picture) : Picture :=
  let quantity := digits line.quantity
  let price := s.priceGlyphs line.price
  if r.lineLength < quantity.length + 2 + price.length then pic
  else
    let room := r.lineLength - (quantity.length + 2 + price.length)
    drawRight r row price c (drawLine r row 0 (quantity ++ 32 :: (s.labelOf line.item).take room) c pic)

/-- The rows of an ORDER placement, one line of the hold per cell row from `row` on. -/
def State.drawOrderRows (s : State) (r : Rect) (c : BitVec 4) : Nat → List HoldLine → Picture → Picture
  | _, [], pic => pic
  | row, l :: ls, pic => s.drawOrderRows r c (row + 1) ls (s.drawOrderRow r row l c pic)

/-- The focused hold of a composition's hold copy. -/
def Composition.hold (c : Composition) : Option Hold := c.holdCopy.bind HoldCopy.hold

/-- Paints one placement of a composition over the picture so far (R53 to R58). -/
def State.paint (s : State) (c : Composition) (pl : Placement) (pic : Picture) : Picture :=
  match pl.kind with
  | .fill colour => drawFill pl.rect colour pic
  | .photo slot => s.drawPhoto pl.rect slot pic
  | .itemPhoto item =>
    match (s.offeredItem item c.target.dayPart).bind Item.photo with
    | none => pic
    | some slot => s.drawPhoto pl.rect slot pic
  | .label item colour =>
    match s.offeredItem item c.target.dayPart with
    | none => pic
    | some r => drawText pl.rect r.label colour pic
  | .price item variant colour => s.drawPrice c.target pl.rect item variant colour pic
  | .text colour glyphs => drawText pl.rect glyphs colour pic
  | .order colour =>
    match c.hold with
    | none => pic
    | some h => s.drawOrderRows pl.rect colour pl.rect.row (h.lines.drop (h.lines.length - pl.rect.height)) pic
  | .total colour =>
    match c.hold with
    | none => pic
    | some h => drawRight pl.rect pl.rect.row (s.priceGlyphs h.total) colour pic

/-- Paints all placements still to be painted, first to last (R32, R52). -/
def State.paintAll (s : State) (c : Composition) (pls : List Placement) (pic : Picture) : Picture :=
  pls.foldl (fun pic pl => s.paint c pl pic) pic

/-- The engine, if it is composing, paints its next placement (log 7). -/
def State.paintNext (s : State) : State :=
  match s.composer.engine with
  | none => s
  | some c =>
    match c.todo with
    | [] => s
    | pl :: rest =>
      s.setComposer
        { s.composer with engine := some { c with todo := rest, picture := s.paint c pl c.picture } }

end Sys2Proof.Machine
end

