-- ==== Sys2Proof/Machine/Composition.lean ====
section
/-! DEFINITION. The composer engine (chapter 3): the start check, the start and the completion of a composition. -/
namespace Sys2Proof.Machine

/-- The start check of a panel: its compose target carries the committed generation and, while the lease is EXPIRED, is
WITHHELD (R50). -/
def State.startCheck (s : State) (p : PanelNo) : Bool :=
  decide ((s.composeTarget p).generation = s.catalogue.generation) &&
    (decide (s.catalogue.lease = .live) || decide ((s.composeTarget p).visibility = .withheld))

/-- The entry the engine would start: with the engine idle and the freeze OFF, the first in queue order that passes the
start check (R50). -/
def State.nextEntry (s : State) : Option QueueEntry :=
  match s.composer.engine with
  | some _ => none
  | none => if s.freeze.state = .off then s.composer.queue.find? (fun e => s.startCheck e.panel) else none

/-- What a lane panel's composition copies from the Hold Table; a MENU panel copies nothing (R51 step 4). -/
def State.holdCopy (s : State) (p : PanelNo) : Option HoldCopy :=
  match s.role p with
  | .menu => none
  | .lane l =>
    let lane := s.lanes.get l
    some ⟨lane.revision, lane.focus.bind fun h => Table.find h.val lane.holds⟩

/-- The composition of an entry as it starts (R51), its picture the background (R52). -/
def State.newComposition (s : State) (e : QueueEntry) : Composition :=
  let t := s.composeTarget e.panel
  let plan := s.plan e.panel t.dayPart
  { panel := e.panel
    reasons := e.reasons
    target := t
    planRevision := plan.revision
    holdCopy := s.holdCopy e.panel
    again := false
    againReasons := 0
    lost := false
    todo := plan.placements
    picture := filledPicture (s.grid e.panel) s.slateColour }

/-- The engine starts the next composition, if an entry passes (R50, R51). -/
def State.startNext (s : State) : State :=
  match s.nextEntry with
  | none => s
  | some e =>
    s.setComposer
      { s.composer with
        queue := s.composer.queue.filter (fun x => x.panel ≠ e.panel)
        engine := some (s.newComposition e) }

/-- The outcome of a composition as its completion is taken: the first check of R60 that fails, or STAGED (R65). -/
def State.judge (s : State) (c : Composition) : CompositionOutcome :=
  if c.lost then .discardedLink
  else if s.composeTarget c.panel ≠ c.target then .discardedTarget
  else if s.catalogue.generation ≠ c.target.generation then .discardedGeneration
  else .staged

/-- What a composed frame's record carries (R59). -/
def Composition.frameKind (c : Composition) : FrameKind :=
  .composed c.target c.planRevision (c.holdCopy.map HoldCopy.revision)

/-- The completion after staging or discarding: the record, the again mark, the idle engine (R61 steps 1 to 3). -/
def State.closeComposition (c : Composition) (outcome : CompositionOutcome) (s : State) : State :=
  let again := c.again && s.live c.panel
  s.setComposer
    { queue := if again then s.composer.queue ++ [⟨c.panel, c.againReasons⟩] else s.composer.queue
      engine := none
      last := s.composer.last.set c.panel
        (some ⟨outcome, c.reasons, c.target, c.planRevision, c.holdCopy.map HoldCopy.revision⟩) }

/-- A FREEZING freeze becomes FROZEN as the composition in progress ends (R61 step 4, R180). -/
def State.reportEnded (s : State) : State :=
  match s.freeze.state with
  | .freezing m r => s.setFreeze { s.freeze with state := .frozen m r }
  | _ => s

/-- A composition completes: what is left is painted, the frame is staged or discarded, and the completion goes on in the
same event (R60, R61). -/
def State.complete (c : Composition) (s : State) : State :=
  let pic := s.paintAll c c.todo c.picture
  let outcome := s.judge c
  let s := if outcome = .staged then s.stage c.panel c.frameKind pic else s
  -- the staging leaves the engine as it was, so the again mark is the one `c` holds
  ((s.closeComposition c outcome).reportEnded).startNext

/-- COMPOSITION_START: R50, R51 (log 5). -/
def execCompositionStart (s : State) : Host.Outcome State Fault Refusal :=
  .next s.startNext

/-- COMPOSITION_COMPLETE: R52 to R61; with the engine idle nothing completes. -/
def execCompositionComplete (s : State) : Host.Outcome State Fault Refusal :=
  match s.composer.engine with
  | none => .next s
  | some c => .next (s.complete c)

end Sys2Proof.Machine
end

