-- ==== Sys2Proof/Machine/Freeze.lean ====
section
/-! DEFINITION. The Maintenance Freeze (chapter 9): taking it, lifting it, and its limit. -/
namespace Sys2Proof.Machine

/-- A freeze mode byte (R201). -/
def freezeMode? (b : Byte) : Option FreezeMode :=
  match b.toNat with
  | 0 => some .stopNow
  | 1 => some .stopAfter
  | _ => none

/-- The state a freeze reaches, by its mode and whether a composition is in progress (R180). -/
def freezeReached (mode : FreezeMode) (requester : WritingRole) (composing : Bool) : FreezeState :=
  match mode with
  | .stopNow => .frozen mode requester
  | .stopAfter => if composing then .freezing mode requester else .frozen mode requester

/-- The freeze is taken (R179, R180). -/
def State.takeFreeze (mode : FreezeMode) (requester : WritingRole) (s : State) : State :=
  let reached := freezeReached mode requester s.composer.engine.isSome
  let s := (s.setFreeze { s.freeze with state := reached, targetChanged := false }).startTimer .freezeLimit
    s.freezeLimitMs
  match mode with
  | .stopNow => s.abandon
  | .stopAfter => s

/-- R179. -/
def freeze (requester : WritingRole) (payload : List Byte) (s : State) : Reply × State :=
  match freezeMode? (payload.getD 0 0) with
  | none => (.refuse .badField, s)
  | some mode =>
    match s.freeze.state.holder with
    | some (m, r) => (⟨.freezeActive, [s.freeze.state.byte, m.byte, requesterByte r]⟩, s)
    | none =>
      if s.changeover.controller ≠ .idle then (.refuse .busy, s)
      else
        let t := s.takeFreeze mode requester
        (.ok [t.freeze.state.byte], t)

/-- R183. -/
def unfreeze (requester : WritingRole) (s : State) : Reply × State :=
  match s.freeze.state.holder with
  | none => (.ok [flagByte false], s)
  | some (_, owner) =>
    if requester = .media ∧ owner = .store then (.refuse .notOwner, s)
    else (.ok [flagByte true], s.endFreeze .unfreeze)

/-- FREEZE: R179, R180. -/
def execFreeze (port : PortId) (tag : Byte) (payload : List Byte) (s : State) : Host.Outcome State Fault Refusal :=
  .next (s.request .freeze port tag payload (freeze (roleOfPort port) payload))

/-- UNFREEZE: R183, R185. -/
def execUnfreeze (port : PortId) (tag : Byte) (payload : List Byte) (s : State) : Host.Outcome State Fault Refusal :=
  .next (s.request .unfreeze port tag payload (unfreeze (roleOfPort port)))

/-- FREEZE_LIMIT_EXPIRY: R184, R185. -/
def execFreezeLimitExpiry (s : State) : Host.Outcome State Fault Refusal :=
  .next (s.onExpiry .freezeLimit (State.endFreezeInForce .limit))

end Sys2Proof.Machine
end

