-- ==== Sys2Proof/Machine/Holds.lean ====
section
/-! DEFINITION. The Hold Table (chapter 7): the hold requests, the hold lease, and the lane summary. -/
namespace Sys2Proof.Machine

/-- The record of a lane. -/
def State.lane (s : State) (l : LaneNo) : Lane := s.lanes.get l

/-- An open hold under a hold id. -/
def Lane.hold (x : Lane) (h : HoldId) : Option Hold := Table.find h.val x.holds

/-- Puts a hold under a hold id. -/
def State.setHold (l : LaneNo) (h : HoldId) (v : Hold) (s : State) : State :=
  s.setLane l { s.lane l with holds := Table.insert h.val v (s.lane l).holds }

/-- The hold's lease timer restarts with the full period (R154). -/
def State.refresh (l : LaneNo) (h : HoldId) (s : State) : State := s.startTimer (.holdLease l h) s.holdLeaseMs

/-- The lane revision as an answer carries it (R145). -/
def State.revisionBytes (s : State) (l : LaneNo) : List Byte := be 2 (s.lane l).revision.toNat

/-- Looks a hold id up in its lane: HOLD_EXPIRED with the mark's order number, NO_HOLD, or the request goes on (R145). -/
def withHold (l : LaneNo) (h : HoldId) (s : State) (effect : Hold → Reply × State) : Reply × State :=
  match (s.lane l).hold h with
  | some x => effect x
  | none =>
    match Table.find h.val (s.lane l).expired with
    | some order => (⟨.holdExpired, be 2 order⟩, s)
    | none => (.refuse .noHold, s)

/-! ## HOLD_OPEN (R146) -/

/-- The open hold of a lane that has an order number. -/
def Lane.idOfOrder (x : Lane) (order : Nat) : Option Nat :=
  (x.holds.find? fun e => e.2.order = order).map fun e => e.1

/-- The lowest hold id that has no open hold. -/
def Lane.freeId (x : Lane) : Option HoldId := allHoldIds.find? fun h => (x.hold h).isNone

/-- R146. -/
def holdOpen (l : LaneNo) (payload : List Byte) (s : State) : Reply × State :=
  let order := natOf payload
  if order < 1 ∨ 9999 < order then (.refuse .badField, s)
  else
    match (s.lane l).idOfOrder order with
    | some h => (⟨.duplicateOrder, be 1 h⟩, s)
    | none =>
      match (s.lane l).freeId with
      | none => (.refuse .holdFull, s)
      | some h =>
        let lane := s.lane l
        let t := (s.setLane l
          { lane with
            holds := Table.insert h.val ⟨order, [], 0⟩ lane.holds
            expired := Table.erase h.val lane.expired }).refresh l h
        (.ok (be 1 h.val ++ t.revisionBytes l), t)

/-! ## HOLD_ADD and HOLD_REMOVE (R147 to R149) -/

/-- The fields of HOLD_ADD and HOLD_REMOVE, in their ranges. -/
structure LineRequest where
  hold : HoldId
  item : Nat
  variant : Nat
  quantity : Nat
  deriving DecidableEq, Repr

/-- Reads them: hold, item (2), variant, quantity (R145, R201). -/
def lineRequest? (payload : List Byte) : Option LineRequest :=
  let item := natOf ((payload.drop 1).take 2)
  let variant := (payload.getD 3 0).toNat
  let quantity := (payload.getD 4 0).toNat
  match holdId? (payload.getD 0 0) with
  | none => none
  | some h =>
    if item ≤ 511 ∧ variant ≤ 3 ∧ 1 ≤ quantity ∧ quantity ≤ 99 then some ⟨h, item, variant, quantity⟩ else none

/-- Whether a line is for an item and variant. -/
def HoldLine.isFor (x : HoldLine) (r : LineRequest) : Bool := decide (x.item = r.item) && decide (x.variant = r.variant)

/-- The line of a hold for an item and variant. -/
def Hold.line (x : Hold) (r : LineRequest) : Option HoldLine := x.lines.find? fun y => y.isFor r

/-- The first six checks of R147: the variant, or the refusal. -/
def State.addable (s : State) (r : LineRequest) : Except Status Variant :=
  match s.clock.storeState with
  | .closed => .error .storeClosed
  | .opened d =>
    match Table.find r.item s.catalogue.items with
    | none => .error .noItem
    | some item =>
      match item.variants[r.variant]? with
      | none => .error .noVariant
      | some v =>
        if item.offeredIn d = false then .error .notInDaypart
        else if v.availability = .soldOut then .error .soldOut
        else if s.catalogue.lease = .expired then .error .pricesWithheld
        else .ok v

/-- The line that HOLD_ADD makes or raises: the existing line with its snapshot, or a new snapshot (R144, R148). -/
def State.lineAfterAdd (s : State) (x : Hold) (r : LineRequest) (v : Variant) : HoldLine :=
  match x.line r with
  | some y => { y with quantity := y.quantity + r.quantity }
  | none => ⟨r.item, r.variant, r.quantity, v.effectivePrice, s.catalogue.generation, v.promotion.isSome⟩

/-- A hold with a line made or raised: a raised line keeps its place, a new one stands at the end (R143, R148). -/
def Hold.add (x : Hold) (r : LineRequest) (y : HoldLine) : Hold :=
  { x with
    lines := if (x.line r).isSome then x.lines.map (fun z => if z.isFor r then y else z) else x.lines ++ [y]
    total := x.total + r.quantity * y.price }

/-- A hold changes: it is stored, its lease restarts, and the revision rises if it is the focus (R148, R149). -/
def State.changeHold (l : LaneNo) (h : HoldId) (x : Hold) (s : State) : State :=
  let s := (s.setHold l h x).refresh l h
  if (s.lane l).focus = some h then s.raiseRevision l else s

/-- R147, R148. -/
def holdAdd (l : LaneNo) (payload : List Byte) (s : State) : Reply × State :=
  match lineRequest? payload with
  | none => (.refuse .badField, s)
  | some r =>
    withHold l r.hold s fun x =>
      match s.addable r with
      | .error status => (.refuse status, s)
      | .ok v =>
        let y := s.lineAfterAdd x r v
        let x' := x.add r y
        if 99 < y.quantity then (⟨.badField, be 1 (y.quantity - r.quantity)⟩, s)
        else if Config.holdLines < x'.lines.length then (.refuse .linesFull, s)
        else if Config.holdTotalMax < x'.total then (⟨.totalRange, be 3 x.total⟩, s)
        else
          let t := s.changeHold l r.hold x'
          (.ok (be 1 y.quantity ++ be 3 y.price ++ [flagByte y.promotion] ++ be 3 x'.total ++ t.revisionBytes l), t)

/-- A hold with a quantity taken off its line; a line that reaches 0 is removed (R149). -/
def Hold.remove (x : Hold) (r : LineRequest) (y : HoldLine) : Hold :=
  { x with
    lines :=
      if y.quantity = r.quantity then x.lines.filter (fun z => !z.isFor r)
      else x.lines.map (fun z => if z.isFor r then { y with quantity := y.quantity - r.quantity } else z)
    total := x.total - r.quantity * y.price }

/-- R149. -/
def holdRemove (l : LaneNo) (payload : List Byte) (s : State) : Reply × State :=
  match lineRequest? payload with
  | none => (.refuse .badField, s)
  | some r =>
    withHold l r.hold s fun x =>
      match x.line r with
      | none => (.refuse .noItem, s)
      | some y =>
        if y.quantity < r.quantity then (⟨.badField, be 1 y.quantity⟩, s)
        else
          let t := s.changeHold l r.hold (x.remove r y)
          (.ok (be 1 (y.quantity - r.quantity) ++ be 3 (x.remove r y).total ++ t.revisionBytes l), t)

/-! ## HOLD_FOCUS, HOLD_REFRESH, HOLD_CLOSE (R150 to R152) -/

/-- Sets the focus of a lane; the revision rises if it changed (R150, R157). -/
def State.setFocus (l : LaneNo) (v : Option HoldId) (s : State) : State :=
  if (s.lane l).focus = v then s else (s.setLane l { s.lane l with focus := v }).raiseRevision l

/-- R150. -/
def holdFocus (l : LaneNo) (payload : List Byte) (s : State) : Reply × State :=
  match holdOrNone? (payload.getD 0 0) with
  | none => (.refuse .badField, s)
  | some none =>
    let t := s.setFocus l none
    (.ok (t.revisionBytes l), t)
  | some (some h) =>
    withHold l h s fun _ =>
      let t := (s.refresh l h).setFocus l (some h)
      (.ok (t.revisionBytes l), t)

/-- R151. -/
def holdRefresh (l : LaneNo) (payload : List Byte) (s : State) : Reply × State :=
  match holdId? (payload.getD 0 0) with
  | none => (.refuse .badField, s)
  | some h =>
    withHold l h s fun _ => (.ok (be 2 (secondsLeft s.holdLeaseMs) ++ s.revisionBytes l), s.refresh l h)

/-- A hold leaves its lane: its lines and total go with it, and a focus on it becomes absent (R152, R155). -/
def State.dropHold (l : LaneNo) (h : HoldId) (s : State) : State :=
  let s := (s.setLane l { s.lane l with holds := Table.erase h.val (s.lane l).holds }).stopTimer (.holdLease l h)
  if (s.lane l).focus = some h then s.setFocus l none else s

/-- R152. -/
def holdClose (l : LaneNo) (payload : List Byte) (s : State) : Reply × State :=
  match holdId? (payload.getD 0 0) with
  | none => (.refuse .badField, s)
  | some h =>
    withHold l h s fun x =>
      let t := s.dropHold l h
      (.ok (be 2 x.order ++ be 3 x.total ++ t.revisionBytes l), t)

/-! ## HOLD_READ (R153) -/

/-- The seconds left on a hold's lease. -/
def State.leaseLeft (s : State) (l : LaneNo) (h : HoldId) : Nat := secondsLeft ((s.timeLeft (.holdLease l h)).getD 0)

/-- One hold id in the lane summary. -/
def State.summaryOf (s : State) (l : LaneNo) (h : HoldId) : List Byte :=
  (match (s.lane l).hold h with
    | some x => [1] ++ be 2 x.order ++ be 1 x.lines.length ++ be 3 x.total ++ be 2 (s.leaseLeft l h)
    | none => List.replicate 9 0) ++
  optBytes 2 ((Table.find h.val (s.lane l).expired).map (be 2))

/-- R153. -/
def holdRead (l : LaneNo) (payload : List Byte) (s : State) : Reply × State :=
  match holdOrNone? (payload.getD 0 0) with
  | none => (.refuse .badField, s)
  | some none =>
    (.ok ([noneByte ((s.lane l).focus.map fun h => h.val)] ++ s.revisionBytes l ++ be 2 (s.holdLeaseMs / 1000) ++
      allHoldIds.flatMap (s.summaryOf l)), s)
  | some (some h) =>
    withHold l h s fun x =>
      (.ok (be 2 x.order ++ [flagByte (decide ((s.lane l).focus = some h))] ++ be 3 x.total ++
        be 2 (secondsLeft s.holdLeaseMs) ++ be 1 x.lines.length ++ x.lines.flatMap HoldLine.bytes ++
        s.revisionBytes l), s.refresh l h)

/-! ## The hold lease (R155) -/

/-- A hold expires (R155). -/
def State.expireHold (l : LaneNo) (h : HoldId) (s : State) : State :=
  match (s.lane l).hold h with
  | none => s
  | some x =>
    let s := s.setLane l { s.lane l with expired := Table.insert h.val x.order (s.lane l).expired }
    (s.dropHold l h).raise .holdExpired (.lane l)

/-! ## The meanings -/

/-- HOLD_OPEN: R146. -/
def execHoldOpen (port : PortId) (tag : Byte) (payload : List Byte) (s : State) : Host.Outcome State Fault Refusal :=
  .next (s.request .holdOpen port tag payload (holdOpen (laneOfPort port) payload))

/-- HOLD_ADD: R147, R148. -/
def execHoldAdd (port : PortId) (tag : Byte) (payload : List Byte) (s : State) : Host.Outcome State Fault Refusal :=
  .next (s.request .holdAdd port tag payload (holdAdd (laneOfPort port) payload))

/-- HOLD_REMOVE: R149. -/
def execHoldRemove (port : PortId) (tag : Byte) (payload : List Byte) (s : State) : Host.Outcome State Fault Refusal :=
  .next (s.request .holdRemove port tag payload (holdRemove (laneOfPort port) payload))

/-- HOLD_FOCUS: R150. -/
def execHoldFocus (port : PortId) (tag : Byte) (payload : List Byte) (s : State) : Host.Outcome State Fault Refusal :=
  .next (s.request .holdFocus port tag payload (holdFocus (laneOfPort port) payload))

/-- HOLD_REFRESH: R151. -/
def execHoldRefresh (port : PortId) (tag : Byte) (payload : List Byte) (s : State) : Host.Outcome State Fault Refusal :=
  .next (s.request .holdRefresh port tag payload (holdRefresh (laneOfPort port) payload))

/-- HOLD_CLOSE: R152. -/
def execHoldClose (port : PortId) (tag : Byte) (payload : List Byte) (s : State) : Host.Outcome State Fault Refusal :=
  .next (s.request .holdClose port tag payload (holdClose (laneOfPort port) payload))

/-- HOLD_READ: R153. -/
def execHoldRead (port : PortId) (tag : Byte) (payload : List Byte) (s : State) : Host.Outcome State Fault Refusal :=
  .next (s.request .holdRead port tag payload (holdRead (laneOfPort port) payload))

/-- HOLD_LEASE_EXPIRY: R155. -/
def execHoldLeaseExpiry (lane : LaneNo) (hold : HoldId) (s : State) : Host.Outcome State Fault Refusal :=
  .next (s.onExpiry (.holdLease lane hold) (State.expireHold lane hold))

end Sys2Proof.Machine
end

