-- ==== Sys2Proof/Machine/Links.lean ====
section
/-! DEFINITION. Panel Links (chapter 5): reports, training and lock, losing the panel, frame boundaries, dark causes, link
tests, and the panel status. -/
namespace Sys2Proof.Machine

/-! ## Reports (R93 to R112) -/

/-- Whether a link takes reports: it is fitted, and no reset is in force (R92, R93; log 16). -/
def State.listens (s : State) (p : PanelNo) : Bool :=
  decide (s.phase = .running) && decide ((s.link p).state ≠ .off)

/-- A PRESENT report taken in each state: R95 in DETACHED, R96 in the others. -/
def State.takePresent (p : PanelNo) (d : Descriptor) (s : State) : State :=
  let l := s.link p
  let t := s.setLink p { l with descriptor := some d }
  match l.state with
  | .off => s
  | .detached =>
    let t := t.startTimer (.detach p) Config.detachMs
    if l.causes.isEmpty then t.trainOrReject p else t.setLinkState p .dark
  | .training =>
    if t.gridMatches p then t else (t.stopTimer (.trainingLimit p)).enterRejected p
  | .locked => ((t.leaveLive p).raiseBoth .panelEvent).trainOrReject p
  | .streaming => ((t.leaveLive p).raiseBoth .panelEvent).trainOrReject p
  | .rejected => if t.gridMatches p then t.enterTraining p else t
  | .dark => t
  | .test => t

/-- The frame period of the descriptor; a link that locks has one (R98). -/
def Link.framePeriodMs (l : Link) : Nat :=
  match l.descriptor with
  | none => 0
  | some d => d.period

/-- The link record as its lock leaves it, with the slate showing (R98 steps 2 and 3); the lock is the first frame
boundary (R102, R104). -/
def Link.lockedWith (l : Link) (slate : Picture) : Link :=
  let record : FrameRecord := ⟨.slate, pictureChecksum slate, l.sequence + 1⟩
  { l with
    state := .locked
    sequence := l.sequence + 1
    showing := some ⟨record, slate⟩
    staged := none
    confirmed := none
    transmitting := some (Frame.transmission ⟨record, slate⟩)
    mismatchMark := false }

/-- A LOCKED report taken in TRAINING (R98); in any other state it has no effect. -/
def State.takeLocked (p : PanelNo) (s : State) : State :=
  if (s.link p).state = .training then
    let s := (s.stopTimer (.trainingLimit p)).setLink p ((s.link p).lockedWith (s.slatePicture p))
    let s := (s.startTimer (.lockSilence p) Config.lockSilenceMs).startTimer (.framePeriod p) (s.link p).framePeriodMs
    ((s.memberJoins p).composeRequest p (Reason.set .lock)).raiseBoth .panelEvent
  else s

/-- A lock is lost and the link trains again (R99, R100). -/
def State.loseLock (p : PanelNo) (s : State) : State :=
  if s.live p then ((s.leaveLive p).raiseBoth .panelEvent).enterTraining p else s

/-- The panel has displayed the showing frame intact (R106): the record is confirmed and handed on (R108). -/
def State.confirm (p : PanelNo) (record : FrameRecord) (s : State) : State :=
  if (s.link p).confirmed = some record then s
  else
    ((s.setLink p { s.link p with confirmed := some record }).advanceFrom p .flipped .confirmed record.kind).clearLagging
      p record.kind

/-- The panel has displayed another picture than the showing frame's (R107). -/
def State.mismatch (p : PanelNo) (s : State) : State :=
  if (s.link p).mismatchMark then s
  else
    (s.setLink p
      { s.link p with mismatchMark := true, mismatches := countUp (s.link p).mismatches }).raise .checksumMismatch .media

/-- A SHOWN report matched against the showing frame of a live link (R106, R107). -/
def State.takeShown (p : PanelNo) (sequence : BitVec 16) (checksum : BitVec 32) (s : State) : State :=
  if s.live p then
    match (s.link p).showing with
    | none => s
    | some f =>
      if f.record.sequence ≠ sequence then s
      else if f.record.checksum = checksum then s.confirm p f.record
      else s.mismatch p
  else s

/-- A test record after a TEST_REPORT (R114). -/
def TestRecord.add (t : TestRecord) (errors : Nat) : TestRecord :=
  { t with
    reports := t.reports + 1
    errors := min 65535 (t.errors + errors)
    flag := match t.mode with
      | .latched => t.flag || decide (errors ≠ 0)
      | .live => decide (errors ≠ 0) }

/-- A TEST_REPORT taken in TEST (R114). -/
def State.takeTestReport (p : PanelNo) (errors : Nat) (s : State) : State :=
  let l := s.link p
  if l.state = .test then s.setLink p { l with test := l.test.map fun t => t.add errors } else s

/-- A PANEL_FAULT report (R112). -/
def State.takeFault (p : PanelNo) (code : Byte) (s : State) : State :=
  let l := s.link p
  (s.setLink p { l with lastFault := some code, faults := countUp l.faults }).raiseBoth .panelEvent

/-- What a good report does by its kind, after the counts and timers. -/
def State.takeKind (p : PanelNo) (r : Report) (s : State) : State :=
  match r with
  | .present columns rows period model =>
    s.takePresent p ⟨⟨columns.toNat, rows.toNat⟩, period.toNat, model⟩
  | .locked => s.takeLocked p
  | .unlocked => s.loseLock p
  | .shown sequence checksum => s.takeShown p sequence checksum
  | .testReport errors => s.takeTestReport p errors.toNat
  | .panelFault code => s.takeFault p code

/-- The count and the silence timers at a good report (R93, R94). -/
def State.countGood (p : PanelNo) (s : State) : State :=
  ((s.setLink p { s.link p with good := countUp (s.link p).good }).restartIfRunning (.lockSilence p)
    Config.lockSilenceMs).restartIfRunning (.detach p) Config.detachMs

/-- A good report arrives on a link (R93). -/
def State.takeReport (p : PanelNo) (r : Report) (s : State) : State :=
  if s.listens p then (s.countGood p).takeKind p r else s

/-- A bad report arrives on a link (R93). -/
def State.takeBad (p : PanelNo) (s : State) : State :=
  if s.listens p then s.setLink p { s.link p with bad := countUp (s.link p).bad } else s

/-- PRESENT: R95, R96; with a field out of range it is a bad report (R93). -/
def execPresent (panel : PanelNo) (columns rows period : Byte) (model : BitVec 16) (s : State) :
    Host.Outcome State Fault Refusal :=
  .next (if Report.presentInRange columns rows period then s.takeReport panel (.present columns rows period model)
    else s.takeBad panel)

/-- LOCKED: R98. -/
def execLocked (panel : PanelNo) (s : State) : Host.Outcome State Fault Refusal :=
  .next (s.takeReport panel .locked)

/-- UNLOCKED: R100. -/
def execUnlocked (panel : PanelNo) (s : State) : Host.Outcome State Fault Refusal :=
  .next (s.takeReport panel .unlocked)

/-- SHOWN: R106, R107. -/
def execShown (panel : PanelNo) (sequence : BitVec 16) (checksum : BitVec 32) (s : State) :
    Host.Outcome State Fault Refusal :=
  .next (s.takeReport panel (.shown sequence checksum))

/-- TEST_REPORT: R114. -/
def execTestReport (panel : PanelNo) (errors : BitVec 16) (s : State) : Host.Outcome State Fault Refusal :=
  .next (s.takeReport panel (.testReport errors))

/-- PANEL_FAULT: R112. -/
def execPanelFault (panel : PanelNo) (code : Byte) (s : State) : Host.Outcome State Fault Refusal :=
  .next (s.takeReport panel (.panelFault code))

/-- A report as its CRC-8, kind and fields make it arrives on a link: a good one, or a bad one (R93). -/
def State.takeEither (p : PanelNo) (s : State) (r : Option Report) : State :=
  match r with
  | none => s.takeBad p
  | some r => s.takeReport p r

/-- BAD_REPORT: R93, R203, on the bytes received up to the idle gap, so that the discarding after an unknown kind is over
with the command. Good reports among them are taken as those reports (log 19). -/
def execBadReport (panel : PanelNo) (bytes : List Byte) (s : State) : Host.Outcome State Fault Refusal :=
  .next ((Report.stream bytes).foldl (State.takeEither panel) s)

/-! ## Timers of a link (R94, R97, R101) -/

/-- The link detaches (R101). -/
def State.detach (p : PanelNo) (s : State) : State :=
  let s := match (s.link p).state with
    | .locked => s.leaveLive p
    | .streaming => s.leaveLive p
    | .test => s.endTest p .aborted
    | .training => s.stopTimer (.trainingLimit p)
    | .off => s
    | .detached => s
    | .rejected => s
    | .dark => s
  (s.setLink p { s.link p with descriptor := none, state := .detached }).raiseBoth .panelEvent

/-- The training pattern restarts (R97). -/
def State.restartTraining (p : PanelNo) (s : State) : State :=
  let l := s.link p
  if l.state = .training then
    (s.setLink p { l with restarts := if l.restarts < 255 then l.restarts + 1 else l.restarts }).startTimer
      (.trainingLimit p) Config.trainingLimitMs
  else s

/-- LOCK_SILENCE_EXPIRY: R94, R100. -/
def execLockSilenceExpiry (panel : PanelNo) (s : State) : Host.Outcome State Fault Refusal :=
  .next (s.onExpiry (.lockSilence panel) (State.loseLock panel))

/-- DETACH_TIMER_EXPIRY: R101. The timer runs in every state but OFF and DETACHED (R94). -/
def execDetachTimerExpiry (panel : PanelNo) (s : State) : Host.Outcome State Fault Refusal :=
  .next (s.onExpiry (.detach panel) fun s => if (s.link panel).state = .off then s else s.detach panel)

/-- TRAINING_LIMIT_EXPIRY: R97. -/
def execTrainingLimitExpiry (panel : PanelNo) (s : State) : Host.Outcome State Fault Refusal :=
  .next (s.onExpiry (.trainingLimit panel) (State.restartTraining panel))

/-! ## Frame boundaries (R102 to R104) -/

/-- The state a flip leaves: STREAMING with a composed frame showing, LOCKED with a slate (R103 step 3). -/
def FrameKind.liveState : FrameKind → LinkState
  | .slate => .locked
  | .composed _ _ _ => .streaming

/-- The staged frame flips, if the gate passes it (R103). -/
def State.flip (p : PanelNo) (s : State) : State :=
  let l := s.link p
  match l.staged with
  | none => s
  | some f =>
    if s.gatePasses f.record.kind then
      (s.setLink p
        { l with
          showing := some f
          staged := none
          mismatchMark := false
          state := f.record.kind.liveState }).advanceFrom p .staged .flipped f.record.kind
    else s

/-- The showing frame's transmission begins (R104). -/
def State.transmit (p : PanelNo) (s : State) : State :=
  let l := s.link p
  s.setLink p { l with transmitting := l.showing.map Frame.transmission }

/-- What the forward path of a link carries, by the link state (R91, R104). In TRAINING it has carried the training pattern
since the training limit last started, which is when the pattern began or restarted (R97). -/
def State.forwardPath (s : State) (p : PanelNo) : ForwardPath :=
  match (s.link p).state with
  | .off => .poweredDown
  | .dark => .poweredDown
  | .detached => .silent
  | .rejected => .silent
  | .training =>
    .trainingPattern (Config.trainingLimitMs - (s.timeLeft (.trainingLimit p)).getD Config.trainingLimitMs)
  | .test => .testPattern
  | .locked => .frames ((s.link p).transmitting.getD [])
  | .streaming => .frames ((s.link p).transmitting.getD [])

/-- A frame boundary of a live link: the frame period timer starts again, the staged frame is dealt with, the showing
frame is transmitted (R102, R103, R104). -/
def State.boundary (p : PanelNo) (s : State) : State :=
  if s.live p then ((s.startTimer (.framePeriod p) (s.link p).framePeriodMs).flip p).transmit p else s

/-- FRAME_BOUNDARY: R102, R103, R104. -/
def execFrameBoundary (panel : PanelNo) (s : State) : Host.Outcome State Fault Refusal :=
  .next (s.onExpiry (.framePeriod panel) (State.boundary panel))

/-! ## Dark (R111) -/

/-- A request on a fitted panel: a panel outside 0 to 5 is refused with BAD_FIELD, a panel whose link is OFF with
PANEL_STATE (R111). -/
def onFittedPanel (payload : List Byte) (s : State) (effect : PanelNo → Reply × State) : Reply × State :=
  match panel? (payload.getD 0 0) with
  | none => (.refuse .badField, s)
  | some p => if (s.link p).state = .off then (.refuse .panelState, s) else effect p

/-- The answer of PANEL_DARK and PANEL_LIGHT: the link state after the request. -/
def linkStateReply (p : PanelNo) (s : State) : Reply × State := (.ok [(s.link p).state.byte], s)

/-- R111, R109. -/
def panelDark (payload : List Byte) (s : State) : Reply × State :=
  onFittedPanel payload s fun p => linkStateReply p (s.addCause .request p)

/-- R111, R110. -/
def panelLight (payload : List Byte) (s : State) : Reply × State :=
  onFittedPanel payload s fun p => linkStateReply p (s.removeCause .request p)

/-- PANEL_DARK: R111, R109. -/
def execPanelDark (port : PortId) (tag : Byte) (payload : List Byte) (s : State) : Host.Outcome State Fault Refusal :=
  .next (s.request .panelDark port tag payload (panelDark payload))

/-- PANEL_LIGHT: R111, R110. -/
def execPanelLight (port : PortId) (tag : Byte) (payload : List Byte) (s : State) : Host.Outcome State Fault Refusal :=
  .next (s.request .panelLight port tag payload (panelLight payload))

/-! ## Link tests (R113 to R116) -/

/-- A test mode byte (R201). -/
def testMode? (b : Byte) : Option TestMode :=
  match b.toNat with
  | 0 => some .latched
  | 1 => some .live
  | _ => none

/-- A test begins on a live link (R113). -/
def State.startTest (p : PanelNo) (mode : TestMode) (duration : Nat) (s : State) : State :=
  let s := s.leaveLive p
  (s.setLink p { s.link p with state := .test, test := some ⟨mode, duration, 0, 0, 0, false, .running⟩ }).startTimer
    (.testSecond p) Config.secondMs

/-- R113. -/
def linkTest (payload : List Byte) (s : State) : Reply × State :=
  let duration := natOf (payload.drop 2)
  match panel? (payload.getD 0 0), testMode? (payload.getD 1 0) with
  | some p, some mode =>
    if duration < 1 ∨ 600 < duration then (.refuse .badField, s)
    else if s.live p then (.ok [], s.startTest p mode duration)
    else (.refuse .panelState, s)
  | _, _ => (.refuse .badField, s)

/-- A test ends by a stop or by its expiry, and the link trains or is rejected (R115). -/
def State.leaveTest (p : PanelNo) (result : TestResult) (s : State) : State := (s.endTest p result).trainOrReject p

/-- R115. -/
def linkTestStop (payload : List Byte) (s : State) : Reply × State :=
  match panel? (payload.getD 0 0) with
  | none => (.refuse .badField, s)
  | some p => if (s.link p).state = .test then (.ok [], s.leaveTest p .stopped) else (.refuse .noTest, s)

/-- LINK_TEST: R113. -/
def execLinkTest (port : PortId) (tag : Byte) (payload : List Byte) (s : State) : Host.Outcome State Fault Refusal :=
  .next (s.request .linkTest port tag payload (linkTest payload))

/-- LINK_TEST_STOP: R115. -/
def execLinkTestStop (port : PortId) (tag : Byte) (payload : List Byte) (s : State) : Host.Outcome State Fault Refusal :=
  .next (s.request .linkTestStop port tag payload (linkTestStop payload))

/-- Sets the seconds run of a link's test record. -/
def State.setSecondsRun (p : PanelNo) (n : Nat) (s : State) : State :=
  let l := s.link p
  s.setLink p { l with test := l.test.map fun t => { t with seconds := n } }

/-- A second of a test has passed: the test ends when seconds run reaches the duration, and the timer starts again
otherwise (R114, R115). -/
def State.testSecond (p : PanelNo) (t : TestRecord) (s : State) : State :=
  let s := s.setSecondsRun p (t.seconds + 1)
  if t.duration ≤ t.seconds + 1 then s.leaveTest p .completed else s.startTimer (.testSecond p) Config.secondMs

/-- The test record of a link in TEST. -/
def State.runningTest (s : State) (p : PanelNo) : Option TestRecord :=
  if (s.link p).state = .test then (s.link p).test else none

/-- TEST_SECOND_EXPIRY: R114, with the end of R115 in the same event when seconds run reaches the duration (log 6). -/
def execTestSecondExpiry (panel : PanelNo) (s : State) : Host.Outcome State Fault Refusal :=
  .next (match s.runningTest panel with
    | none => s
    | some t => s.onExpiry (.testSecond panel) (State.testSecond panel t))

/-- LINK_TEST_EXPIRY: R115. The whole seconds before the last pass first, then the last expiry of the one-second timer
(log 2, log 6). -/
def execLinkTestExpiry (panel : PanelNo) (s : State) : Host.Outcome State Fault Refusal :=
  .next (match s.runningTest panel with
    | none => s
    | some t =>
      s.onExpiry (.testSecond panel) fun s =>
        ((s.elapse (1000 * (t.duration - t.seconds - 1))).setSecondsRun panel t.duration).leaveTest panel .completed)

/-! ## Panel status (R117, R204) -/

/-- A last-composition record in PANEL_STATUS. R204 gives the record a lane revision and says nothing of a MENU panel, whose
record has none (R65): the model sends 0 (DESIGN CHOICE, log 25). -/
def LastComposition.bytes (c : LastComposition) : List Byte :=
  [c.outcome.byte, c.reasons.zeroExtend 8] ++ c.target.bytes ++ be 2 c.planRevision.toNat ++
    be 2 (c.laneRevision.getD 0).toNat

/-- A test record in PANEL_STATUS. -/
def TestRecord.bytes (t : TestRecord) : List Byte :=
  [t.mode.byte] ++ be 2 t.duration ++ be 2 t.seconds ++ countBytes t.reports ++ be 2 t.errors ++
    [flagByte t.flag, t.result.byte]

/-- A panel descriptor in PANEL_STATUS. -/
def Descriptor.bytes (d : Descriptor) : List Byte :=
  be 1 d.grid.columns ++ be 1 d.grid.rows ++ be 1 d.period ++ be 2 d.model.toNat

/-- A dark cause set. -/
def DarkSet.byte (d : DarkSet) : Byte := (if d.request then 1 else 0) ||| (if d.closed then 2 else 0)

/-- What other blocks hold of a panel (R117). -/
structure PanelPart where
  progress : Option Progress
  lagging : Bool
  last : Option LastComposition
  entry : Option (ReasonSet × Nat)
  composing : Bool
  deriving DecidableEq, Repr

/-- The place of a panel's queue entry from position `i` on, with its reasons (R65). -/
def queueEntry (p : PanelNo) : Nat → List QueueEntry → Option (ReasonSet × Nat)
  | _, [] => none
  | i, e :: es => if e.panel = p then some (e.reasons, i) else queueEntry p (i + 1) es

/-- What the Changeover Controller and the Composer hold of a panel. -/
def State.panelPart (s : State) (p : PanelNo) : PanelPart :=
  ⟨s.changeover.members.get p, s.changeover.lagging.get p, s.composer.last.get p, queueEntry p 0 s.composer.queue,
    s.composing p⟩

/-- The items of PANEL_STATUS after role and grid. -/
def statusItems (l : Link) (x : PanelPart) : List Byte :=
  optBytes 5 (l.descriptor.map Descriptor.bytes) ++ [l.causes.byte] ++ be 2 l.sequence.toNat ++
    optBytes 17 (l.showing.map fun f => f.record.bytes) ++ optBytes 17 (l.staged.map fun f => f.record.bytes) ++
    optBytes 17 (l.confirmed.map FrameRecord.bytes) ++
    [flagByte x.progress.isSome, progressByte x.progress, flagByte x.lagging] ++
    optBytes 12 (x.last.map LastComposition.bytes) ++
    optBytes 2 (x.entry.map fun e => [e.1.zeroExtend 8, BitVec.ofNat 8 e.2]) ++ [flagByte x.composing] ++
    be 1 l.restarts ++ be 2 l.good ++ be 2 l.bad ++ be 2 l.mismatches ++
    optBytes 1 (l.lastFault.map fun c => [c]) ++ be 2 l.faults ++ optBytes 11 (l.test.map TestRecord.bytes)

/-- R117: of a link that is OFF every item after role and grid is absent or 0. -/
def panelStatus (payload : List Byte) (s : State) : Reply × State :=
  match panel? (payload.getD 0 0) with
  | none => (.refuse .badField, s)
  | some p =>
    let l := s.link p
    (.ok ([l.state.byte, (s.role p).byte] ++ be 1 (s.grid p).columns ++ be 1 (s.grid p).rows ++
      (if l.state = .off then statusItems (Link.reset false) ⟨none, false, none, none, false⟩
        else statusItems l (s.panelPart p))), s)

/-- PANEL_STATUS: R117. -/
def execPanelStatus (port : PortId) (tag : Byte) (payload : List Byte) (s : State) : Host.Outcome State Fault Refusal :=
  .next (s.request .panelStatus port tag payload (panelStatus payload))

end Sys2Proof.Machine
end

