-- ==== Sys2Proof/Machine/Plans.lean ====
section
/-! DEFINITION. The Plan Store (chapter 2): loading, clearing and reading plans, their pins and the compose requests of
live plans. -/
namespace Sys2Proof.Machine

/-- Whether plan (p, D) is live for panel p: D is the day-part of the panel's compose target (R40). -/
def State.planLive (s : State) (p : PanelNo) (d : DayPart) : Bool := decide ((s.composeTarget p).dayPart = d)

/-- A new list replaces plan (p, D): the revision rises by one, the pins move, and a live plan's panel is asked for (R36,
R38, R42). -/
def State.replacePlan (p : PanelNo) (d : DayPart) (placements : List Placement) (s : State) : State :=
  let old := s.plan p d
  let new : Plan := ⟨placements, old.revision + 1⟩
  let s := { s with plans := s.plans.set p ((s.plans.get p).set d new) }
  let s := s.setPhoto (s.photo.movePins old.pins new.pins)
  if s.planLive p d then s.composeRequest p (Reason.set .plan) else s

/-- R34, R35, R36. -/
def planLoad (payload : List Byte) (s : State) : Reply × State :=
  match payload with
  | panel :: dayPart :: count :: bytes =>
    match panel? panel, dayPart? dayPart with
    | some p, some d =>
      if 48 < count.toNat then (⟨.badField, [0]⟩, s)
      else
        match readPlacements count.toNat 0 bytes with
        | .error i => (⟨.badField, be 1 i⟩, s)
        | .ok raw =>
          if s.linkFitted p = false then (⟨.badField, [0]⟩, s)
          else
            match s.checkPlacements p 0 raw with
            | .error (status, i) => (⟨status, be 1 i⟩, s)
            | .ok placements =>
              let t := s.replacePlan p d placements
              (.ok (be 2 (t.plan p d).revision.toNat), t)
    | _, _ => (⟨.badField, [0]⟩, s)
  | _ => (⟨.badField, [0]⟩, s)

/-- R38. -/
def planClear (payload : List Byte) (s : State) : Reply × State :=
  match payload with
  | [panel, dayPart] =>
    match panel? panel, dayPart? dayPart with
    | some p, some d =>
      if s.linkFitted p = false then (.refuse .badField, s)
      else
        let t := s.replacePlan p d []
        (.ok (be 2 (t.plan p d).revision.toNat), t)
    | _, _ => (.refuse .badField, s)
  | _ => (.refuse .badField, s)

/-- R39. -/
def planRead (payload : List Byte) (s : State) : Reply × State :=
  match payload with
  | [panel, dayPart] =>
    match panel? panel, dayPart? dayPart with
    | some p, some d =>
      let plan := s.plan p d
      (.ok (be 2 plan.revision.toNat ++ be 1 plan.placements.length ++ plan.placements.flatMap Placement.bytes), s)
    | _, _ => (.refuse .badField, s)
  | _ => (.refuse .badField, s)

/-- PLAN_LOAD: R34 to R36, R40, R42. -/
def execPlanLoad (port : PortId) (tag : Byte) (payload : List Byte) (s : State) : Host.Outcome State Fault Refusal :=
  .next (s.request .planLoad port tag payload (planLoad payload))

/-- PLAN_CLEAR: R38. -/
def execPlanClear (port : PortId) (tag : Byte) (payload : List Byte) (s : State) : Host.Outcome State Fault Refusal :=
  .next (s.request .planClear port tag payload (planClear payload))

/-- PLAN_READ: R39. -/
def execPlanRead (port : PortId) (tag : Byte) (payload : List Byte) (s : State) : Host.Outcome State Fault Refusal :=
  .next (s.request .planRead port tag payload (planRead payload))

end Sys2Proof.Machine
end

