-- ==== Sys2Proof/Machine/Photo.lean ====
section
/-! DEFINITION. Photo Memory (chapter 6): the load session, erasing, verification, and its reads. -/
namespace Sys2Proof.Machine

/-! ## The load session (R123 to R129) -/

/-- The largest free entry as an optional field: start (2), count (2) (R123, R204). -/
def largestBytes (free : List BlockRange) : List Byte :=
  optBytes 4 ((largestFree free).map fun r => be 2 r.start ++ be 2 r.count)

/-- A load session opens on an EMPTY slot with its allocated range (R123). -/
def State.openSession (slot : Nat) (range : BlockRange) (free : List BlockRange) (width height : Nat)
    (checksum : BitVec 32) (s : State) : State :=
  (s.setPhoto
    { s.photo with
      slots := Table.insert slot ⟨.loading, range, width, height, checksum, 0⟩ s.photo.slots
      free := free
      session := some ⟨slot, 0, 0, crc32Start⟩ }).startTimer .loadIdle Config.loadIdleMs

/-- R123, R121. -/
def loadBegin (payload : List Byte) (s : State) : Reply × State :=
  let slot := natOf (payload.take 1)
  let count := natOf ((payload.drop 1).take 2)
  let width := natOf ((payload.drop 3).take 1)
  let height := natOf ((payload.drop 4).take 1)
  if 191 < slot ∨ count < 1 ∨ 320 < count ∨ width < 1 ∨ 16 < width ∨ height < 1 ∨ 9 < height then
    (.refuse .badField, s)
  else if s.photo.session.isSome then (.refuse .busy, s)
  else if (Table.find slot s.photo.slots).isSome then (.refuse .slotState, s)
  else
    match allocate count s.photo.free with
    | none => (⟨.noSpace, be 2 (freeTotal s.photo.free) ++ largestBytes s.photo.free⟩, s)
    | some (range, free) =>
      (.ok (be 2 range.start ++ be 2 range.count),
        s.openSession slot range free width height (BitVec.ofNat 32 (natOf (payload.drop 5))))

/-- The open session ends with its slot in a new state: the idle limit stops, the last-load record is written, and
LOAD_ENDED is raised (R125, R126, R129). -/
def State.closeSession (ls : LoadSession) (st : SlotState) (outcome : LoadOutcome) (s : State) : State :=
  ((s.setPhoto ((s.photo.setState ls.slot st).endSession ls outcome)).stopTimer .loadIdle).raise .loadEnded .media

/-- A block with the expected index and a good checksum is stored; the last one completes the load (R125, R126). -/
def State.storeBlock (ls : LoadSession) (slot : Slot) (data : List Byte) (s : State) : Reply × State :=
  let ls' : LoadSession := { ls with
    expected := ls.expected + 1, received := ls.received + 1, register := crc32Take ls.register data }
  let t := s.setPhoto
    { s.photo with
      memory := Memory.write (blockAddress (slot.range.start + ls.expected)) data s.photo.memory
      session := some ls' }
  if ls'.expected < slot.range.count then (.ok (be 2 ls'.expected ++ [SlotState.loading.byte]), t)
  else if ~~~ ls'.register = slot.checksum then
    (.ok (be 2 ls'.expected ++ [SlotState.ready.byte]), t.closeSession ls' .ready .ready)
  else
    (.ok (be 2 ls'.expected ++ [(SlotState.damaged .loadChecksum).byte]),
      t.closeSession ls' (.damaged .loadChecksum) .loadChecksum)

/-- The checks of R124 and R125 on a block, with the session open. -/
def State.takeBlock (ls : LoadSession) (slot : Slot) (payload : List Byte) (s : State) : Reply × State :=
  let index := natOf (payload.take 2)
  let checksum := natOf ((payload.drop 2).take 4)
  let data := payload.drop 6
  if 319 < index ∨ data.length ≠ Config.blockBytes then (.refuse .badField, s)
  else if index ≠ ls.expected then (⟨.outOfOrder, be 2 ls.expected⟩, s)
  else if (crc32 data).toNat ≠ checksum then
    (⟨.blockCrc, be 2 index⟩, s.closeSession ls (.damaged (.block index)) (.blockCrc index))
  else s.storeBlock ls slot data

/-- R124: with no session NO_LOAD; with one, the idle limit restarts whatever the outcome. -/
def loadBlock (payload : List Byte) (open_ : Option (LoadSession × Slot)) (s : State) : Reply × State :=
  match open_ with
  | none => (.refuse .noLoad, s)
  | some (ls, slot) => (s.startTimer .loadIdle Config.loadIdleMs).takeBlock ls slot payload

/-- The open session with its slot's record. A session whose slot is not LOADING, or that expects an index past the
slot's range, is a state no run reaches (log 21). -/
def PhotoMemory.openLoad (m : PhotoMemory) : Except Fault (Option (LoadSession × Slot)) :=
  match m.session with
  | none => .ok none
  | some ls =>
    match Table.find ls.slot m.slots with
    | none => .error .loadSessionBroken
    | some r => if r.state = .loading ∧ ls.expected < r.range.count then .ok (some (ls, r)) else .error .loadSessionBroken

/-- The open session ends and its slot becomes EMPTY (R127, R128). -/
def State.dropSession (ls : LoadSession) (outcome : LoadOutcome) (s : State) : State :=
  (s.setPhoto ((s.photo.empty ls.slot).endSession ls outcome)).stopTimer .loadIdle

/-- R128. -/
def loadAbort (s : State) : Reply × State :=
  match s.photo.session with
  | none => (.refuse .noLoad, s)
  | some ls => (.ok [], s.dropSession ls .aborted)

/-- The load idle limit expires (R127). -/
def State.loadTimeout (s : State) : State :=
  match s.photo.session with
  | none => s
  | some ls => (s.dropSession ls .timeout).raise .loadEnded .media

/-! ## Erasing (R130) -/

/-- VERIFY_DONE is raised when the verify queue has emptied with no verification in progress (R130, R135). -/
def State.verifyDoneIfEmpty (s : State) : State :=
  if s.photo.verifyQueue = [] ∧ s.photo.verifying = none then s.raise .verifyDone .media else s

/-- A slot is erased; if it waited for verification, the queue may have emptied (R130). -/
def State.erase (slot : Nat) (s : State) : State :=
  let t := s.setPhoto (s.photo.empty slot)
  if s.photo.verifyQueue.contains slot then t.verifyDoneIfEmpty else t

/-- R130. -/
def slotErase (payload : List Byte) (s : State) : Reply × State :=
  match slot? (payload.getD 0 0) with
  | none => (.refuse .badField, s)
  | some slot =>
    match Table.find slot s.photo.slots with
    | none => (.refuse .slotState, s)
    | some r =>
      if r.state = .loading then (.refuse .slotState, s)
      else if r.state = .verifying then (.refuse .busy, s)
      else if r.pins ≠ 0 then (⟨.inUse, be 2 r.pins⟩, s)
      else (.ok [], s.erase slot)

/-! ## Verification (R132 to R136) -/

/-- R134; the engine takes the slot as an event of its own (log 5). -/
def slotVerify (payload : List Byte) (s : State) : Reply × State :=
  match slot? (payload.getD 0 0) with
  | none => (.refuse .badField, s)
  | some slot =>
    match Table.find slot s.photo.slots with
    | none => (.refuse .slotState, s)
    | some r =>
      if r.state = .unverified then
        (.ok [], s.setPhoto { s.photo with verifyQueue := joinVerify slot s.photo.verifyQueue })
      else if r.state = .verifying then (.ok [], s)
      else (.refuse .slotState, s)

/-- Every UNVERIFIED slot joins the verify queue (R135, R140). -/
def PhotoMemory.joinAll (m : PhotoMemory) : PhotoMemory :=
  { m with verifyQueue := m.unverified.foldl (fun q k => joinVerify k q) m.verifyQueue }

/-- R135. -/
def verifyAll (s : State) : Reply × State :=
  let t := s.setPhoto s.photo.joinAll
  (.ok (be 1 t.photo.verifyQueue.length),
    if t.photo.verifyQueue = [] then t.raise .verifyDone .media else t)

/-- Whether a placement draws a slot, given the catalogue's items (R136 step 3). -/
def Placement.draws (pl : Placement) (items : Table Item) (slot : Nat) : Bool :=
  match pl.kind with
  | .photo k => decide (k = slot)
  | .itemPhoto item => decide ((Table.find item items).bind Item.photo = some slot)
  | _ => false

/-- Whether a live panel uses a slot (R136 step 3). -/
def State.usesSlot (s : State) (slot : Nat) (p : PanelNo) : Bool :=
  s.live p &&
    (s.plan p (s.composeTarget p).dayPart).placements.any fun pl => pl.draws s.catalogue.items slot

/-- Whether the photo of a slot passes its whole-photo check (R136 step 1). -/
def PhotoMemory.intact (m : PhotoMemory) (slot : Nat) : Bool :=
  match Table.find slot m.slots with
  | none => false
  | some r => decide (crc32 (m.memory.photo r.range) = r.checksum)

/-- A verification leaves the queue and the engine with its verdict (R136 steps 1 and 2). -/
def PhotoMemory.judged (m : PhotoMemory) (slot : Nat) : PhotoMemory :=
  { m.setState slot (if m.intact slot then .ready else .damaged .verifyChecksum) with
    verifyQueue := m.verifyQueue.filter (fun k => k ≠ slot)
    verifying := none }

/-- A verification completes (R136). -/
def State.verified (slot : Nat) (s : State) : State :=
  let t := s.setPhoto (s.photo.judged slot)
  let t := if s.photo.intact slot then t.composeRequests (allPanels.filter (t.usesSlot slot)) (Reason.set .photo) else t
  if t.photo.verifyQueue = [] then t.raise .verifyDone .media else t.setPhoto t.photo.takeNext

/-! ## Reads (R137, R138) -/

/-- Range and size of a slot record in SLOT_READ. -/
def Slot.rangeBytes (r : Slot) : List Byte :=
  be 2 r.range.start ++ be 2 r.range.count ++ be 1 r.width ++ be 1 r.height ++ be 4 r.checksum.toNat

/-- Damage cause of a slot record in SLOT_READ. -/
def Slot.causeBytes (r : Slot) : List Byte :=
  optBytes 3 (match r.state with
    | .damaged c => some c.bytes
    | _ => none)

/-- The load progress of a LOADING slot in SLOT_READ. -/
def PhotoMemory.progressBytes (m : PhotoMemory) (slot : Nat) : List Byte :=
  optBytes 4 (match m.session with
    | none => none
    | some ls => if ls.slot = slot then some (be 2 ls.expected ++ be 2 ls.received) else none)

/-- R137. -/
def slotRead (payload : List Byte) (s : State) : Reply × State :=
  match slot? (payload.getD 0 0) with
  | none => (.refuse .badField, s)
  | some slot =>
    match Table.find slot s.photo.slots with
    | none => (.ok ([0] ++ optBytes 10 none ++ be 2 0 ++ [0] ++ optBytes 3 none ++ optBytes 4 none), s)
    | some r =>
      (.ok ([r.state.byte] ++ optBytes 10 (some r.rangeBytes) ++ be 2 r.pins ++
        [flagByte (s.photo.verifyQueue.contains slot)] ++ r.causeBytes ++ s.photo.progressBytes slot), s)

/-- How many slots are in the state with a given byte; EMPTY slots have no record (R138). -/
def PhotoMemory.countOf (m : PhotoMemory) (code : Byte) : Nat :=
  if code = 0 then 192 - m.slots.length else m.slots.countP fun e => e.2.state.byte = code

/-- The load session in SPACE_READ, with the time left on its idle limit in milliseconds. -/
def LoadSession.bytes (ls : LoadSession) (left : Nat) : List Byte :=
  be 1 ls.slot ++ be 2 ls.expected ++ be 2 ls.received ++ be 2 left

/-- R138. -/
def spaceRead (s : State) : Reply × State :=
  let m := s.photo
  (.ok (be 2 (freeTotal m.free) ++ be 1 m.free.length ++ m.free.flatMap (fun r => be 2 r.start ++ be 2 r.count) ++
    largestBytes m.free ++ [0, 1, 2, 3, 4, 5].flatMap (fun code => be 1 (m.countOf code)) ++
    optBytes 7 (m.session.map fun ls => ls.bytes ((s.timeLeft .loadIdle).getD 0)) ++
    optBytes 6 (m.lastLoad.map fun r => be 1 r.slot ++ be 2 r.received ++ r.outcome.bytes) ++
    be 1 m.verifyQueue.length ++ m.verifyQueue.flatMap (fun k => be 1 k) ++ [noneByte m.verifying]), s)

/-! ## The meanings -/

/-- LOAD_BEGIN: R123, R121. -/
def execLoadBegin (port : PortId) (tag : Byte) (payload : List Byte) (s : State) : Host.Outcome State Fault Refusal :=
  .next (s.request .loadBegin port tag payload (loadBegin payload))

/-- LOAD_BLOCK: R124 to R126, R129. -/
def execLoadBlock (port : PortId) (tag : Byte) (payload : List Byte) (s : State) : Host.Outcome State Fault Refusal :=
  match s.photo.openLoad with
  | .error f => .fault f
  | .ok found => .next (s.request .loadBlock port tag payload (loadBlock payload found))

/-- LOAD_ABORT: R128. -/
def execLoadAbort (port : PortId) (tag : Byte) (payload : List Byte) (s : State) : Host.Outcome State Fault Refusal :=
  .next (s.request .loadAbort port tag payload loadAbort)

/-- SLOT_ERASE: R130, R122. -/
def execSlotErase (port : PortId) (tag : Byte) (payload : List Byte) (s : State) : Host.Outcome State Fault Refusal :=
  .next (s.request .slotErase port tag payload (slotErase payload))

/-- SLOT_VERIFY: R134. -/
def execSlotVerify (port : PortId) (tag : Byte) (payload : List Byte) (s : State) : Host.Outcome State Fault Refusal :=
  .next (s.request .slotVerify port tag payload (slotVerify payload))

/-- VERIFY_ALL: R135. -/
def execVerifyAll (port : PortId) (tag : Byte) (payload : List Byte) (s : State) : Host.Outcome State Fault Refusal :=
  .next (s.request .verifyAll port tag payload verifyAll)

/-- SPACE_READ: R138. -/
def execSpaceRead (port : PortId) (tag : Byte) (payload : List Byte) (s : State) : Host.Outcome State Fault Refusal :=
  .next (s.request .spaceRead port tag payload spaceRead)

/-- SLOT_READ: R137. -/
def execSlotRead (port : PortId) (tag : Byte) (payload : List Byte) (s : State) : Host.Outcome State Fault Refusal :=
  .next (s.request .slotRead port tag payload (slotRead payload))

/-- LOAD_IDLE_EXPIRY: R127. -/
def execLoadIdleExpiry (s : State) : Host.Outcome State Fault Refusal :=
  .next (s.onExpiry .loadIdle State.loadTimeout)

/-- VERIFY_START: R133 (log 5). -/
def execVerifyStart (s : State) : Host.Outcome State Fault Refusal :=
  .next (s.setPhoto s.photo.takeNext)

/-- VERIFICATION_COMPLETE: R136; with the engine idle nothing completes. -/
def execVerificationComplete (s : State) : Host.Outcome State Fault Refusal :=
  .next (match s.photo.verifying with
    | none => s
    | some slot => s.verified slot)

end Sys2Proof.Machine
end

