-- ==== Sys2Proof/Machine/Reset.lean ====
section
/-! DEFINITION. Profile Memory, resets and start-up (chapter 11, with R44, R140, R199). -/
namespace Sys2Proof.Machine

/-! ## Profile Memory (R206 to R208, R211) -/

/-- The numbers of the 25 profile fields. -/
def fieldNumbers : List Nat := (List.range 25).map (· + 1)

/-- R207. -/
def profileBurn (payload : List Byte) (s : State) : Reply × State :=
  let n := (payload.getD 0 0).toNat
  let value := payload.drop 1
  if n < 1 ∨ 25 < n then (.refuse .badField, s)
  else if fieldInRange n value = false then (.refuse .badField, s)
  else
    match Table.find n s.burned with
    | some burned => (⟨.profileBurned, burned⟩, s)
    | none => (.ok (be 1 n ++ value), { s with burned := Table.insert n value s.burned })

/-- One field in PROFILE_READ: burned flag, value read now, value in force. -/
def State.profileBytes (s : State) (n : Nat) : List Byte :=
  [flagByte (Table.find n s.burned).isSome] ++ fieldValue s.burned n ++ fieldValue s.inForce n

/-- R208. -/
def profileRead (s : State) : Reply × State := (.ok (fieldNumbers.flatMap s.profileBytes), s)

/-- The burned-field set as a number, bit n − 1 for field n (R204). -/
def State.burnedSet (s : State) : Nat :=
  fieldNumbers.foldl (fun v n => if (Table.find n s.burned).isSome then v + 2 ^ (n - 1) else v) 0

/-- R211. -/
def describe (s : State) : Reply × State :=
  (.ok (be 2 0x4D36 ++ be 1 1 ++ be 2 512 ++ be 1 4 ++ be 1 64 ++ be 1 6 ++ be 1 48 ++ be 1 192 ++ be 2 6144 ++ be 2 4096 ++
    be 2 320 ++ be 1 2 ++ be 1 8 ++ be 1 24 ++ be 1 16 ++ be 2 4104 ++ be 4 s.burnedSet), s)

/-- PROFILE_BURN: R207. -/
def execProfileBurn (port : PortId) (tag : Byte) (payload : List Byte) (s : State) : Host.Outcome State Fault Refusal :=
  .next (s.request .profileBurn port tag payload (profileBurn payload))

/-- PROFILE_READ: R208. -/
def execProfileRead (port : PortId) (tag : Byte) (payload : List Byte) (s : State) : Host.Outcome State Fault Refusal :=
  .next (s.request .profileRead port tag payload profileRead)

/-- DESCRIBE: R211. -/
def execDescribe (port : PortId) (tag : Byte) (payload : List Byte) (s : State) : Host.Outcome State Fault Refusal :=
  .next (s.request .describe port tag payload describe)

/-! ## The events that start a reset (R209) -/

/-- A RESTART option byte: AS_PIN or AS_POWER (R201). -/
def restartOption? (b : Byte) : Option ResetKind :=
  match b.toNat with
  | 0 => some .pin
  | 1 => some .power
  | _ => none

/-- RESTART: R194, R209. A valid option is not answered: the reset is taken, and start-up follows. -/
def execRestart (port : PortId) (tag : Byte) (payload : List Byte) (s : State) : Host.Outcome State Fault Refusal :=
  .next (s.accept .restart port tag payload fun s =>
    match restartOption? (payload.getD 0 0) with
    | none => s.holdAnswer port ⟨RequestType.restart.code, tag, .badField, []⟩
    | some kind => s.takeReset kind (.starting kind))

/-- The phase that a power-on reset leaves: start-up is awaited, and while the RESET line is low every block is held until
the line is released (R209, log 24). -/
def Phase.poweredOn : Phase → Phase
  | .running => .starting .power
  | .starting _ => .starting .power
  | .resetLow _ => .resetLow .power

/-- POWER_ON: R209. -/
def execPowerOn (s : State) : Host.Outcome State Fault Refusal := .next (s.takeReset .power s.phase.poweredOn)

/-- RESET_LINE_ASSERTED: R209. -/
def execResetLineAsserted (s : State) : Host.Outcome State Fault Refusal :=
  .next (s.takeReset .pin (.resetLow .pin))

/-! ## Start-up (R210) -/

/-- A retained plan is kept if its panel's link is fitted and every placement fits the panel; one that is not is emptied,
and its revision rises by one (R44). -/
def State.retainPlan (s : State) (p : PanelNo) (plan : Plan) : Plan :=
  if plan.placements = [] then plan
  else if s.linkFitted p && plan.placements.all (s.placementFits p) then plan
  else ⟨[], plan.revision + 1⟩

/-- All 24 plans after the check (R44). -/
def State.retainedPlans (s : State) : PerPanel (PerDayPart Plan) :=
  PerPanel.ofFn fun p => PerDayPart.ofFn fun d => s.retainPlan p (s.plan p d)

/-- A slot after a pin reset, by its state before (R140). A LOADING slot becomes EMPTY. -/
def Slot.retained (r : Slot) : Option Slot :=
  match r.state with
  | .loading => none
  | .damaged _ => some r
  | .ready => some { r with state := .unverified }
  | .unverified => some r
  | .verifying => some { r with state := .unverified }

/-- The slots after a pin reset, each with the pin count the Plan Store hands (R140, R44). -/
def retainedSlots (pins : Nat → Nat) (slots : Table Slot) : Table Slot :=
  slots.filterMap fun e => e.2.retained.map fun r => (e.1, { r with pins := pins e.1 })

/-- Photo Memory after a pin reset (R140); under FULL start-up every UNVERIFIED slot is queued and the engine takes the
lowest-numbered one (R210 step 4). -/
def PhotoMemory.retained (m : PhotoMemory) (pins : Nat → Nat) (full : Bool) : PhotoMemory :=
  let slots := retainedSlots pins m.slots
  let kept : PhotoMemory := { m.held with slots := slots, free := freeOfSlots slots }
  if full then kept.joinAll.takeNext else kept

/-- A port at the end of start-up (R199): READY with RESTARTED, keeping a REQUEST_LOST raised meanwhile, if it is fitted;
without flags and out of use if it is not. A message that began in the reset and is still being received stays one
that is lost (R192, R193). -/
def State.startedPort (s : State) (p : PortId) : Port :=
  if s.portFitted p then
    { s.port p with
      state := .ready
      flags := NoticeFlag.restarted.mask ||| ((s.port p).flags &&& NoticeFlag.requestLost.mask)
      mask := flagSetOf p }
  else Port.inReset p

/-- What start-up deals with after a pin reset (R210 steps 3 and 4); nothing after a power-on. -/
def State.dealRetained (kind : ResetKind) (s : State) : State :=
  match kind with
  | .power => s
  | .pin =>
    let s := { s with plans := s.retainedPlans }
    s.setPhoto (s.photo.retained (planPins s.plans) s.fullStartUp)

/-- The minute timer starts, and the second timer when it is the tick source (step 5 of R210). -/
def State.startTickTimers (s : State) : State :=
  let s := s.startTimer .minute Config.minuteMs
  if s.internalTick then s.startTimer .second Config.secondMs else s

/-- Start-up after a reset of a kind (R210). -/
def State.startUp (kind : ResetKind) (s : State) : State :=
  let s : State := { s with inForce := s.burned }
  let ports : Ports :=
    ⟨s.startedPort .store, s.startedPort .media, ⟨s.startedPort (.lane 0), s.startedPort (.lane 1)⟩⟩
  { ((s.takeReset kind .running).dealRetained kind).startTickTimers with ports := ports }

/-- START_UP: R210, at the release of the RESET line if it is low. With no reset in force there is nothing to start. -/
def execStartUp (s : State) : Host.Outcome State Fault Refusal :=
  .next (match s.phase with
    | .running => s
    | .starting kind => s.startUp kind
    | .resetLow kind => s.startUp kind)

end Sys2Proof.Machine
end

