-- ==== Sys2Proof/Machine/Ports.lean ====
section
/-! DEFINITION. The request ports' own commands (chapter 10): lost requests, bad messages, answer reads, and the notice
requests. -/
namespace Sys2Proof.Machine

/-! ## Notices (R198) -/

/-- NOTICE_READ: R198. -/
def execNoticeRead (port : PortId) (tag : Byte) (payload : List Byte) (s : State) : Host.Outcome State Fault Refusal :=
  .next (s.request .noticeRead port tag payload fun s =>
    (.ok (be 3 (s.port port).flags.toNat ++ be 3 (s.port port).mask.toNat), s))

/-- The 3-byte flag set of a payload (R200). -/
def flagsOf (payload : List Byte) : BitVec 24 := BitVec.ofNat 24 (natOf payload)

/-- NOTICE_CLEAR: R198. -/
def noticeClear (port : PortId) (payload : List Byte) (s : State) : Reply × State :=
  if outsideSet port (flagsOf payload) then (.refuse .badField, s)
  else
    let flags := (s.port port).flags &&& ~~~ (flagsOf payload)
    (.ok (be 3 flags.toNat), s.setPort port { s.port port with flags := flags })

/-- NOTICE_MASK: R198. -/
def noticeMask (port : PortId) (payload : List Byte) (s : State) : Reply × State :=
  if outsideSet port (flagsOf payload) then (.refuse .badField, s)
  else (.ok (be 3 (flagsOf payload).toNat), s.setPort port { s.port port with mask := flagsOf payload })

/-- NOTICE_CLEAR: R198. -/
def execNoticeClear (port : PortId) (tag : Byte) (payload : List Byte) (s : State) : Host.Outcome State Fault Refusal :=
  .next (s.request .noticeClear port tag payload (noticeClear port payload))

/-- NOTICE_MASK: R198. -/
def execNoticeMask (port : PortId) (tag : Byte) (payload : List Byte) (s : State) : Host.Outcome State Fault Refusal :=
  .next (s.request .noticeMask port tag payload (noticeMask port payload))

/-! ## Messages (R190, R191, R193) -/

/-- The meaning of a good request message of each type. -/
def execRequest (t : RequestType) (port : PortId) (tag : Byte) (payload : List Byte) (s : State) :
    Host.Outcome State Fault Refusal :=
  match t with
  | .batchOpen => execBatchOpen port tag payload s
  | .batchAdd => execBatchAdd port tag payload s
  | .batchCommit => execBatchCommit port tag payload s
  | .batchDiscard => execBatchDiscard port tag payload s
  | .leaseRenew => execLeaseRenew port tag payload s
  | .itemRead => execItemRead port tag payload s
  | .priceQuery => execPriceQuery port tag payload s
  | .planLoad => execPlanLoad port tag payload s
  | .planClear => execPlanClear port tag payload s
  | .planRead => execPlanRead port tag payload s
  | .loadBegin => execLoadBegin port tag payload s
  | .loadBlock => execLoadBlock port tag payload s
  | .loadAbort => execLoadAbort port tag payload s
  | .slotErase => execSlotErase port tag payload s
  | .slotVerify => execSlotVerify port tag payload s
  | .verifyAll => execVerifyAll port tag payload s
  | .spaceRead => execSpaceRead port tag payload s
  | .slotRead => execSlotRead port tag payload s
  | .panelDark => execPanelDark port tag payload s
  | .panelLight => execPanelLight port tag payload s
  | .linkTest => execLinkTest port tag payload s
  | .linkTestStop => execLinkTestStop port tag payload s
  | .panelStatus => execPanelStatus port tag payload s
  | .changeoverStatus => execChangeoverStatus port tag payload s
  | .holdOpen => execHoldOpen port tag payload s
  | .holdAdd => execHoldAdd port tag payload s
  | .holdRemove => execHoldRemove port tag payload s
  | .holdFocus => execHoldFocus port tag payload s
  | .holdRefresh => execHoldRefresh port tag payload s
  | .holdClose => execHoldClose port tag payload s
  | .holdRead => execHoldRead port tag payload s
  | .clockSet => execClockSet port tag payload s
  | .scheduleLoad => execScheduleLoad port tag payload s
  | .daypartForce => execDaypartForce port tag payload s
  | .daypartAuto => execDaypartAuto port tag payload s
  | .scheduleRead => execScheduleRead port tag payload s
  | .freeze => execFreeze port tag payload s
  | .unfreeze => execUnfreeze port tag payload s
  | .profileBurn => execProfileBurn port tag payload s
  | .profileRead => execProfileRead port tag payload s
  | .describe => execDescribe port tag payload s
  | .restart => execRestart port tag payload s
  | .noticeRead => execNoticeRead port tag payload s
  | .noticeClear => execNoticeClear port tag payload s
  | .noticeMask => execNoticeMask port tag payload s

/-- A message that a port will lose has begun and is still being received (R193); a lane port that is not fitted ignores
it (R188). -/
def State.beginLost (p : PortId) (s : State) : State :=
  if s.portFitted p = false then s
  else s.setPort p { s.port p with receiving := some (s.port p).beginByte }

/-- REQUEST_DISCARDED: R190, with what an SPI port clocks out meanwhile (R192). A message still being received is held as
such, and REQUEST_LOST is raised when it is over. The command is the discarding itself: it raises REQUEST_LOST on a port
in READY too (DEDUCED, log 4). -/
def execRequestDiscarded (lost : Discarded) (s : State) : Host.Outcome State Fault Refusal :=
  .next (if lost.ended then (s.clockIn lost.port lost.size).loseRequest lost.port else s.beginLost lost.port)

/-- One message arrives with these bytes: the request it spells, or the port's own answer (R191). -/
def takeMessage (port : PortId) (message : List Byte) (s : State) : Host.Outcome State Fault Refusal :=
  match Message.read message with
  | .good t tag payload => execRequest t port tag payload s
  | .bad status typeByte tag =>
    .next (s.arrive port message.length fun s => s.holdAnswer port ⟨typeByte, tag, status, []⟩)

/-- The messages that bytes on a UART make, at most `n` of them: each is complete at the length its header gives, and the
bytes after it begin the next (R193). -/
def takeMessages (port : PortId) : Nat → List Byte → State → Host.Outcome State Fault Refusal
  | 0, _, s => .next s
  | n + 1, bytes, s =>
    if bytes = [] then .next s
    else
      match takeMessage port (Message.first bytes) s with
      | .next t => takeMessages port n (Message.rest bytes) t
      | .fault f => .fault f
      | .refused r => .refused r

/-- FRAME_ERROR: R191, on the bytes received: those of one transaction on an SPI port, those of messages in turn on a
lane port (R193). Bytes that pass the port's checks are the request they spell (log 19). -/
def execFrameError (port : PortId) (message : List Byte) (s : State) : Host.Outcome State Fault Refusal :=
  if isSpi port then takeMessage port message s else takeMessages port message.length message s

/-- UART_IDLE_GAP: R193. The gap ends the message whose bytes are cut short; bytes before it that are whole messages are
those messages, and a gap with no byte before it ends nothing (log 19). -/
def execUartIdleGap (lane : LaneNo) (received : List Byte) (s : State) : Host.Outcome State Fault Refusal :=
  takeMessages (.lane lane) received.length received s

/-! ## Answers (R192, R193, R200) -/

/-- The state of a port after an answer read of `clocked` bytes: READY when the whole answer was read (R192). -/
def PortState.afterRead (v : PortState) (clocked : Nat) : PortState :=
  match v with
  | .answer a => if a.bytes.length ≤ clocked then .ready else .answer a
  | .ready => .ready
  | .working => .working

/-- An answer read on an SPI port, with the bytes clocked after the state byte (R192). -/
def State.readAnswer (p : PortId) (clocked : Nat) (s : State) : State :=
  let port := s.port p
  s.setPort p
    { port with
      state := port.state.afterRead clocked
      dataOut := port.clocksOut .answerRead clocked }

/-- ANSWER_READ: R192; a lane port is no SPI port. -/
def execAnswerRead (port : PortId) (clocked : Nat) (s : State) : Host.Outcome State Fault Refusal :=
  .next (if isSpi port then s.readAnswer port clocked else s)

/-- ANSWER_SENT: R193; outside ANSWER a lane port sends nothing. A message being received that began before goes on being
lost. -/
def execAnswerSent (lane : LaneNo) (s : State) : Host.Outcome State Fault Refusal :=
  .next (match (s.port (.lane lane)).state with
    | .answer a => s.setPort (.lane lane) { s.port (.lane lane) with state := .ready, dataOut := a.bytes }
    | .ready => s
    | .working => s)

end Sys2Proof.Machine
end

