-- ==== Sys2Proof/Machine/Dispatch.lean ====
section
/-! DEFINITION. The dispatcher: one arm per command, each a call of that command's meaning. -/
namespace Sys2Proof.Machine

def exec (i : Instr) (s : State) : Host.Outcome State Fault Refusal :=
  match i with
  | .batchOpen port tag payload => Sys2Proof.Machine.execBatchOpen port tag payload s
  | .batchAdd port tag payload => Sys2Proof.Machine.execBatchAdd port tag payload s
  | .batchCommit port tag payload => Sys2Proof.Machine.execBatchCommit port tag payload s
  | .batchDiscard port tag payload => Sys2Proof.Machine.execBatchDiscard port tag payload s
  | .leaseRenew port tag payload => Sys2Proof.Machine.execLeaseRenew port tag payload s
  | .itemRead port tag payload => Sys2Proof.Machine.execItemRead port tag payload s
  | .priceQuery port tag payload => Sys2Proof.Machine.execPriceQuery port tag payload s
  | .planLoad port tag payload => Sys2Proof.Machine.execPlanLoad port tag payload s
  | .planClear port tag payload => Sys2Proof.Machine.execPlanClear port tag payload s
  | .planRead port tag payload => Sys2Proof.Machine.execPlanRead port tag payload s
  | .loadBegin port tag payload => Sys2Proof.Machine.execLoadBegin port tag payload s
  | .loadBlock port tag payload => Sys2Proof.Machine.execLoadBlock port tag payload s
  | .loadAbort port tag payload => Sys2Proof.Machine.execLoadAbort port tag payload s
  | .slotErase port tag payload => Sys2Proof.Machine.execSlotErase port tag payload s
  | .slotVerify port tag payload => Sys2Proof.Machine.execSlotVerify port tag payload s
  | .verifyAll port tag payload => Sys2Proof.Machine.execVerifyAll port tag payload s
  | .spaceRead port tag payload => Sys2Proof.Machine.execSpaceRead port tag payload s
  | .slotRead port tag payload => Sys2Proof.Machine.execSlotRead port tag payload s
  | .panelDark port tag payload => Sys2Proof.Machine.execPanelDark port tag payload s
  | .panelLight port tag payload => Sys2Proof.Machine.execPanelLight port tag payload s
  | .linkTest port tag payload => Sys2Proof.Machine.execLinkTest port tag payload s
  | .linkTestStop port tag payload => Sys2Proof.Machine.execLinkTestStop port tag payload s
  | .panelStatus port tag payload => Sys2Proof.Machine.execPanelStatus port tag payload s
  | .changeoverStatus port tag payload => Sys2Proof.Machine.execChangeoverStatus port tag payload s
  | .holdOpen port tag payload => Sys2Proof.Machine.execHoldOpen port tag payload s
  | .holdAdd port tag payload => Sys2Proof.Machine.execHoldAdd port tag payload s
  | .holdRemove port tag payload => Sys2Proof.Machine.execHoldRemove port tag payload s
  | .holdFocus port tag payload => Sys2Proof.Machine.execHoldFocus port tag payload s
  | .holdRefresh port tag payload => Sys2Proof.Machine.execHoldRefresh port tag payload s
  | .holdClose port tag payload => Sys2Proof.Machine.execHoldClose port tag payload s
  | .holdRead port tag payload => Sys2Proof.Machine.execHoldRead port tag payload s
  | .clockSet port tag payload => Sys2Proof.Machine.execClockSet port tag payload s
  | .scheduleLoad port tag payload => Sys2Proof.Machine.execScheduleLoad port tag payload s
  | .daypartForce port tag payload => Sys2Proof.Machine.execDaypartForce port tag payload s
  | .daypartAuto port tag payload => Sys2Proof.Machine.execDaypartAuto port tag payload s
  | .scheduleRead port tag payload => Sys2Proof.Machine.execScheduleRead port tag payload s
  | .freeze port tag payload => Sys2Proof.Machine.execFreeze port tag payload s
  | .unfreeze port tag payload => Sys2Proof.Machine.execUnfreeze port tag payload s
  | .profileBurn port tag payload => Sys2Proof.Machine.execProfileBurn port tag payload s
  | .profileRead port tag payload => Sys2Proof.Machine.execProfileRead port tag payload s
  | .describe port tag payload => Sys2Proof.Machine.execDescribe port tag payload s
  | .restart port tag payload => Sys2Proof.Machine.execRestart port tag payload s
  | .noticeRead port tag payload => Sys2Proof.Machine.execNoticeRead port tag payload s
  | .noticeClear port tag payload => Sys2Proof.Machine.execNoticeClear port tag payload s
  | .noticeMask port tag payload => Sys2Proof.Machine.execNoticeMask port tag payload s
  | .requestDiscarded lost => Sys2Proof.Machine.execRequestDiscarded lost s
  | .frameError port message => Sys2Proof.Machine.execFrameError port message s
  | .answerRead port clocked => Sys2Proof.Machine.execAnswerRead port clocked s
  | .answerSent lane => Sys2Proof.Machine.execAnswerSent lane s
  | .uartIdleGap lane received => Sys2Proof.Machine.execUartIdleGap lane received s
  | .present panel columns rows period model => Sys2Proof.Machine.execPresent panel columns rows period model s
  | .locked panel => Sys2Proof.Machine.execLocked panel s
  | .unlocked panel => Sys2Proof.Machine.execUnlocked panel s
  | .shown panel sequence checksum => Sys2Proof.Machine.execShown panel sequence checksum s
  | .testReport panel errors => Sys2Proof.Machine.execTestReport panel errors s
  | .panelFault panel code => Sys2Proof.Machine.execPanelFault panel code s
  | .badReport panel bytes => Sys2Proof.Machine.execBadReport panel bytes s
  | .batchIdleExpiry role => Sys2Proof.Machine.execBatchIdleExpiry role s
  | .priceLeaseExpiry => Sys2Proof.Machine.execPriceLeaseExpiry s
  | .minuteTimerExpiry => Sys2Proof.Machine.execMinuteTimerExpiry s
  | .promotionEndCommit => Sys2Proof.Machine.execPromotionEndCommit s
  | .lockSilenceExpiry panel => Sys2Proof.Machine.execLockSilenceExpiry panel s
  | .detachTimerExpiry panel => Sys2Proof.Machine.execDetachTimerExpiry panel s
  | .trainingLimitExpiry panel => Sys2Proof.Machine.execTrainingLimitExpiry panel s
  | .frameBoundary panel => Sys2Proof.Machine.execFrameBoundary panel s
  | .testSecondExpiry panel => Sys2Proof.Machine.execTestSecondExpiry panel s
  | .linkTestExpiry panel => Sys2Proof.Machine.execLinkTestExpiry panel s
  | .loadIdleExpiry => Sys2Proof.Machine.execLoadIdleExpiry s
  | .changeoverLimitExpiry => Sys2Proof.Machine.execChangeoverLimitExpiry s
  | .holdLeaseExpiry lane hold => Sys2Proof.Machine.execHoldLeaseExpiry lane hold s
  | .freezeLimitExpiry => Sys2Proof.Machine.execFreezeLimitExpiry s
  | .secondTimerTick => Sys2Proof.Machine.execSecondTimerTick s
  | .tickEdge => Sys2Proof.Machine.execTickEdge s
  | .scheduleEntryFire => Sys2Proof.Machine.execScheduleEntryFire s
  | .compositionStart => Sys2Proof.Machine.execCompositionStart s
  | .compositionComplete => Sys2Proof.Machine.execCompositionComplete s
  | .verifyStart => Sys2Proof.Machine.execVerifyStart s
  | .verificationComplete => Sys2Proof.Machine.execVerificationComplete s
  | .powerOn => Sys2Proof.Machine.execPowerOn s
  | .resetLineAsserted => Sys2Proof.Machine.execResetLineAsserted s
  | .startUp => Sys2Proof.Machine.execStartUp s

end Sys2Proof.Machine
end

