-- ==== Sys2Proof/Machine/Idle.lean ====
section
/-! DEFINITION. What the MC6 does while no command waits (log 1): its own next event, in one fixed order, or one
millisecond passes. -/
namespace Sys2Proof.Machine

/-- Every timer, in the order in which expiries due together are taken. -/
def allTimers : List TimerId :=
  [.batchIdle .store, .batchIdle .media, .priceLease, .minute, .loadIdle, .changeoverLimit, .freezeLimit, .second] ++
    allPanels.map .lockSilence ++ allPanels.map .detach ++ allPanels.map .trainingLimit ++ allPanels.map .framePeriod ++
    allPanels.map .testSecond ++ allHoldIds.map (.holdLease 0) ++ allHoldIds.map (.holdLease 1)

/-- The command that a timer's expiry is. -/
def TimerId.expiry : TimerId → Instr
  | .batchIdle role => .batchIdleExpiry role
  | .priceLease => .priceLeaseExpiry
  | .minute => .minuteTimerExpiry
  | .loadIdle => .loadIdleExpiry
  | .changeoverLimit => .changeoverLimitExpiry
  | .freezeLimit => .freezeLimitExpiry
  | .second => .secondTimerTick
  | .lockSilence p => .lockSilenceExpiry p
  | .detach p => .detachTimerExpiry p
  | .trainingLimit p => .trainingLimitExpiry p
  | .framePeriod p => .frameBoundary p
  | .testSecond p => .testSecondExpiry p
  | .holdLease l h => .holdLeaseExpiry l h

/-- The event that is due without any command: start-up after a reset whose line is not held, a composition or
verification that can start, a timer with no time left. -/
def State.ownEvent (s : State) : Option Instr :=
  match s.phase with
  | .starting _ => some .startUp
  | .resetLow _ => none
  | .running =>
    if s.nextEntry.isSome then some .compositionStart
    else if s.photo.nextVerify.isSome then some .verifyStart
    else (allTimers.find? fun t => s.timeLeft t = some 0).map TimerId.expiry

/-- One step with no command waiting: the event that is due, or a millisecond in which the composer engine paints one
placement (log 1, log 7). -/
def idle (s : State) : Host.Outcome State Fault Refusal :=
  match s.ownEvent with
  | some c => exec c s
  | none => .next (s.elapse 1).paintNext

end Sys2Proof.Machine
end

