-- ==== Sys2Proof/Layouts.lean ====
section
/-! DEFINITION. The layouts of R201, R203 and R204 as the statements say them, field by field, for the answers whose
payload is a whole record (PANEL_STATUS, CHANGEOVER_STATUS, SPACE_READ and HOLD_READ) and for a schedule entry, and of R205
for a transmitted frame. Nothing here is used by a meaning. -/
namespace Sys2Proof.Layout

open Sys2Proof.Machine

/-- A value of a listed set: its place in the set's list (R201). -/
def place {α : Type} [DecidableEq α] (list : List α) (v : α) : Byte := BitVec.ofNat 8 (list.idxOf v)

/-- A set of panels: bit n for panel n (R201). -/
def panelSet (has : PanelNo → Bool) : Byte :=
  BitVec.ofNat 8 ((if has 0 then 1 else 0) + (if has 1 then 2 else 0) + (if has 2 then 4 else 0) +
    (if has 3 then 8 else 0) + (if has 4 then 16 else 0) + (if has 5 then 32 else 0))

/-- A target: generation (4), day-part (1), visibility (1). -/
def target (u : Target) : List Byte :=
  be 4 u.generation ++ [BitVec.ofNat 8 u.dayPart.val, place [Visibility.shown, .withheld] u.visibility]

/-! ## PANEL_STATUS -/

/-- A frame record: sequence (2), kind (1), checksum (4), target (6), plan revision (2), lane revision (2), with the
fields a record does not carry sent as 0. -/
def frameRecord (r : FrameRecord) : List Byte :=
  be 2 r.sequence.toNat ++
    match r.kind with
    | .composed u plan lane =>
      [0] ++ be 4 r.checksum.toNat ++ target u ++ be 2 plan.toNat ++ be 2 (lane.getD 0).toNat
    | .slate => [1] ++ be 4 r.checksum.toNat ++ [0, 0, 0, 0, 0, 0] ++ [0, 0] ++ [0, 0]

/-- A last-composition record: outcome (1), reason set (1), recorded target (6), plan revision (2), lane revision (2). That
a MENU panel's record, which has no lane revision, gives 0 there is the model's choice (log 25). -/
def lastComposition (c : LastComposition) : List Byte :=
  [place [CompositionOutcome.staged, .discardedLink, .discardedTarget, .discardedGeneration, .abandoned] c.outcome,
    BitVec.ofNat 8 c.reasons.toNat] ++ target c.target ++ be 2 c.planRevision.toNat ++
    be 2 (match c.laneRevision with | none => 0 | some v => v.toNat)

/-- A test record: mode (1), duration in s (2), seconds run (2), reports received (2), error total (2), error flag (1),
result (1). -/
def testRecord (t : TestRecord) : List Byte :=
  [place [TestMode.latched, .live] t.mode] ++ be 2 t.duration ++ be 2 t.seconds ++ countBytes t.reports ++
    be 2 t.errors ++
    [flagByte t.flag, place [TestResult.running, .completed, .stopped, .aborted] t.result]

/-- The progress of a panel: 0 for a panel that is not a member. -/
def progress (v : Option Progress) : Byte :=
  match v with
  | none => 0
  | some v => place [Progress.queued, .staged, .flipped, .confirmed] v

/-- The queue entry of a panel: reason set (1), position (1). -/
def queueEntry (queue : List QueueEntry) (p : PanelNo) : Option (List Byte) :=
  (queue.find? fun e => e.panel = p).map fun e =>
    [BitVec.ofNat 8 e.reasons.toNat, BitVec.ofNat 8 (queue.findIdx fun e => e.panel = p)]

/-- The payload of PANEL_STATUS for a link that is not OFF, in the order of R204. -/
def panelStatus (s : State) (p : PanelNo) : List Byte :=
  let l := s.link p
  [place [LinkState.off, .detached, .training, .locked, .streaming, .rejected, .dark, .test] l.state,
    place [PanelRole.menu, .lane 0, .lane 1] (s.role p)] ++
    be 1 (s.grid p).columns ++ be 1 (s.grid p).rows ++
    optBytes 5 (l.descriptor.map fun d =>
      be 1 d.grid.columns ++ be 1 d.grid.rows ++ be 1 d.period ++ be 2 d.model.toNat) ++
    [BitVec.ofNat 8 ((if l.causes.request then 1 else 0) + (if l.causes.closed then 2 else 0))] ++
    be 2 l.sequence.toNat ++
    optBytes 17 (l.showing.map fun f => frameRecord f.record) ++
    optBytes 17 (l.staged.map fun f => frameRecord f.record) ++
    optBytes 17 (l.confirmed.map frameRecord) ++
    [flagByte (s.changeover.members.get p).isSome, progress (s.changeover.members.get p),
      flagByte (s.changeover.lagging.get p)] ++
    optBytes 12 ((s.composer.last.get p).map lastComposition) ++
    optBytes 2 (queueEntry s.composer.queue p) ++
    [flagByte (match s.composer.engine with | none => false | some c => decide (c.panel = p))] ++
    be 1 l.restarts ++ be 2 l.good ++ be 2 l.bad ++ be 2 l.mismatches ++
    optBytes 1 (l.lastFault.map fun c => [c]) ++ be 2 l.faults ++ optBytes 11 (l.test.map testRecord)

/-- A transmitted frame (R205): kind (1), sequence (2), checksum (4), target generation (4), target day-part (1) and target
visibility (1), 0 for a slate, then the picture data. -/
def transmitted (f : Frame) : List Byte :=
  (match f.record.kind with
    | .composed u _ _ => [0] ++ be 2 f.record.sequence.toNat ++ be 4 f.record.checksum.toNat ++ target u
    | .slate => [1] ++ be 2 f.record.sequence.toNat ++ be 4 f.record.checksum.toNat ++ [0, 0, 0, 0, 0, 0]) ++
    Config.pictureData f.picture

/-! ## CHANGEOVER_STATUS -/

/-- The payload of CHANGEOVER_STATUS: the controller's part of R88, then the freeze record of R186, in the order of
R204. -/
def changeoverStatus (s : State) : List Byte :=
  let c := s.changeover
  (match c.controller with
    | .idle => [0]
    | .staging _ => [1]
    | .armed _ => [2]) ++
    target c.current ++ target c.settled ++
    optBytes 6 (match c.controller with
      | .idle => none
      | .staging u => some (target u)
      | .armed u => some (target u)) ++
    optBytes 2 ((s.timeLeft .changeoverLimit).map fun ms => be 2 ms) ++
    [flagByte (decide (c.controller = .idle ∧ c.current ≠ c.settled)),
      panelSet fun p => (c.members.get p).isSome,
      progress (c.members.get 0), progress (c.members.get 1), progress (c.members.get 2), progress (c.members.get 3),
      progress (c.members.get 4), progress (c.members.get 5),
      place [SettleResult.done, .partly] c.lastResult,
      panelSet fun p => c.lagging.get p] ++
    (match s.freeze.state with
      | .off => [0, 0, 0, 0, 0]
      | .freezing m r =>
        [1, 1, place [FreezeMode.stopNow, .stopAfter] m, 1, place [WritingRole.store, .media] r]
      | .frozen m r =>
        [2, 1, place [FreezeMode.stopNow, .stopAfter] m, 1, place [WritingRole.store, .media] r]) ++
    optBytes 2 ((s.timeLeft .freezeLimit).map fun ms => be 2 (secondsLeft ms)) ++
    [flagByte s.freeze.targetChanged] ++
    optBytes 1 (s.freeze.lastEnd.map fun c =>
      [place [FreezeCause.unfreeze, .limit, .lease, .promo, .daypart] c])

/-! ## SPACE_READ -/

/-- A slot state by its place in the slot state set, without a damage cause. -/
def slotState (v : SlotState) : Nat :=
  match v with
  | .loading => 1
  | .ready => 2
  | .unverified => 3
  | .verifying => 4
  | .damaged _ => 5

/-- A last-load record: slot (1), blocks received (2), outcome (1), failing index (2), 0 unless the outcome is
BLOCK_CRC. -/
def lastLoad (r : LastLoad) : List Byte :=
  be 1 r.slot ++ be 2 r.received ++
    match r.outcome with
    | .ready => [0, 0, 0]
    | .loadChecksum => [1, 0, 0]
    | .blockCrc index => [2] ++ be 2 index
    | .timeout => [3, 0, 0]
    | .aborted => [4, 0, 0]

/-- The payload of SPACE_READ in the order of R204, with this range as the largest free entry. A slot without a record is
EMPTY. -/
def spaceRead (s : State) (largest : Option BlockRange) : List Byte :=
  let m := s.photo
  be 2 (m.free.map BlockRange.count).sum ++ be 1 m.free.length ++
    m.free.flatMap (fun r => be 2 r.start ++ be 2 r.count) ++
    optBytes 4 (largest.map fun r => be 2 r.start ++ be 2 r.count) ++
    be 1 (192 - m.slots.length) ++ be 1 (m.slots.countP fun e => slotState e.2.state = 1) ++
    be 1 (m.slots.countP fun e => slotState e.2.state = 2) ++ be 1 (m.slots.countP fun e => slotState e.2.state = 3) ++
    be 1 (m.slots.countP fun e => slotState e.2.state = 4) ++ be 1 (m.slots.countP fun e => slotState e.2.state = 5) ++
    optBytes 7 (m.session.map fun x =>
      be 1 x.slot ++ be 2 x.expected ++ be 2 x.received ++ be 2 ((s.timeLeft .loadIdle).getD 0)) ++
    optBytes 6 (m.lastLoad.map lastLoad) ++ be 1 m.verifyQueue.length ++ m.verifyQueue.flatMap (fun k => be 1 k) ++
    [noneByte m.verifying]

/-! ## HOLD_READ -/

/-- A hold line (R203): item (2), variant (1), quantity (1), snapshot price (3), snapshot generation (4), and the promotion
flag in bit 0. -/
def holdLine (x : HoldLine) : List Byte :=
  be 2 x.item ++ be 1 x.variant ++ be 1 x.quantity ++ be 3 x.price ++ be 4 x.generation ++ [if x.promotion then 1 else 0]

/-- One hold id in the answer to HOLD_READ with none: open flag (1), order number (2), line count (1), total (3) and lease
time left in s (2), each 0 when no hold is open, and the expired mark (optional: order number (2)). -/
def holdSummary (s : State) (l : LaneNo) (h : HoldId) : List Byte :=
  (match (s.lane l).hold h with
    | none => [0, 0, 0, 0, 0, 0, 0, 0, 0]
    | some x =>
      [1] ++ be 2 x.order ++ be 1 x.lines.length ++ be 3 x.total ++
        be 2 (secondsLeft ((s.timeLeft (.holdLease l h)).getD 0))) ++
    optBytes 2 ((Table.find h.val (s.lane l).expired).map fun order => be 2 order)

/-! ## The Store Clock -/

/-- A store state (R201): 0 to 3 for a day-part and 4 for CLOSED. -/
def storeState (v : StoreState) : Byte :=
  match v with
  | .closed => 4
  | .opened d => BitVec.ofNat 8 d.val

/-- A schedule entry: time (3), day mask (1) with bits 0 to 6 for days 0 to 6, destination (1). -/
def scheduleEntry (e : ScheduleEntry) : List Byte :=
  be 3 e.time ++ [e.days.zeroExtend 8, storeState e.destination]

end Sys2Proof.Layout
end

