-- ==== Sys2Proof/Painting.lean ====
section
/-! DEFINITION. What each kind of placement makes of a picture, cell by cell, as the statements say it: R32 and R52 to R58.
`a` is the picture before and `b` the picture after. Nothing here is used by a meaning. -/
namespace Sys2Proof.Painting

open Sys2Proof.Machine

/-- The picture of a grid filled with one colour, without glyphs (R52). -/
def Filled (pic : Picture) (g : Grid) (colour : BitVec 4) : Prop :=
  pic.columns = g.columns ∧ pic.rows = g.rows ∧ pic.cells.length = g.columns * g.rows ∧
    ∀ cell ∈ pic.cells, cell = ⟨.colour colour, none, none, none⟩

/-- Every cell of `b` is what `f` makes, by its column and its row, of the cell of `a`; the cells stand row by row from the
top left. -/
def Redrawn (a b : Picture) (f : Nat → Nat → Cell → Cell) : Prop :=
  b.columns = a.columns ∧ b.rows = a.rows ∧ b.cells.length = a.cells.length ∧
    ∀ (i : Nat) (cell : Cell), a.cells[i]? = some cell →
      b.cells[i]? = some (f (i % a.columns) (i / a.columns) cell)

/-- What a glyph position holds after a text that begins at glyph position `first` of a line: the text's glyph there, in
the colour, or what it held (R56). -/
def position (first : Nat) (text : List Byte) (colour : BitVec 4) (k : Nat) (held : Option Glyph) : Option Glyph :=
  if first ≤ k then
    match text[k - first]? with
    | some glyph => some ⟨glyph, colour⟩
    | none => held
  else held

/-- A text drawn on the cell row `row` of a rectangle from glyph position `first` of that line: three positions to a cell,
of which the first cell's are 0, 1 and 2; what lies beyond the line is not drawn (R52, R56). -/
def LineDrawn (a b : Picture) (r : Rect) (row first : Nat) (text : List Byte) (colour : BitVec 4) : Prop :=
  Redrawn a b fun x y cell =>
    if y = row ∧ r.column ≤ x ∧ x < r.column + r.width then
      { cell with
        left := position first text colour (3 * (x - r.column)) cell.left
        middle := position first text colour (3 * (x - r.column) + 1) cell.middle
        right := position first text colour (3 * (x - r.column) + 2) cell.right }
    else cell

/-- A text left-aligned on the top line (R56). -/
def TextDrawn (a b : Picture) (r : Rect) (text : List Byte) (colour : BitVec 4) : Prop :=
  LineDrawn a b r r.row 0 text colour

/-- A price right-aligned on a line of 3 positions a cell; one that is too long draws nothing (R54, R58). -/
def PriceDrawn (a b : Picture) (r : Rect) (row : Nat) (text : List Byte) (colour : BitVec 4) : Prop :=
  (text.length ≤ 3 * r.width → LineDrawn a b r row (3 * r.width - text.length) text colour) ∧
  (3 * r.width < text.length → b = a)

/-- A number without leading zeros, 0 for zero, in the glyph codes 48 to 57 (R55). -/
def number (n : Nat) : List Byte := (Nat.toDigits 10 n).map fun c => BitVec.ofNat 8 c.toNat

/-- The last `d` decimal digits of a number, leading zeros with them (R55). -/
def fraction (d n : Nat) : List Byte :=
  (List.range d).map fun k => BitVec.ofNat 8 (48 + n / 10 ^ (d - 1 - k) % 10)

/-- A price in the price format of the profile in force: field 15 gives the decimals, field 16 the currency glyph and its
position, 0 for before the number (R55, R201, R206). -/
def priceText (s : State) (price : Nat) : List Byte :=
  let d := s.profileNat 15
  let amount := if d = 0 then number price else number (price / 10 ^ d) ++ [46] ++ fraction d price
  let currency := [(fieldValue s.inForce 16).getD 0 0]
  if (fieldValue s.inForce 16).getD 1 0 = 0 then currency ++ amount else amount ++ currency

/-- A slot's photo drawn in a rectangle: from its top-left cell, clipped to the rectangle, covering each cell whole (log 9);
a slot that is not READY draws nothing (R57). What a photo's cell looks like is a free value (log 8). -/
def PhotoDrawn (s : State) (a b : Picture) (r : Rect) (slot : Nat) : Prop :=
  (∀ p, Table.find slot s.photo.slots = some p → p.state = .ready →
    Redrawn a b fun x y cell =>
      if r.column ≤ x ∧ x < r.column + min r.width p.width ∧ r.row ≤ y ∧ y < r.row + min r.height p.height then
        ⟨.photo (Config.photoCell (s.photo.memory.photo p.range) p.width p.height (x - r.column) (y - r.row)),
          none, none, none⟩
      else cell) ∧
  ((∀ p, Table.find slot s.photo.slots = some p → p.state ≠ .ready) → b = a)

/-- A present item, offered in a day-part (R53). -/
def Offered (s : State) (item : Nat) (d : DayPart) (r : Item) : Prop :=
  Table.find item s.catalogue.items = some r ∧ r.dayParts.getLsbD d.val = true

/-- One row of an ORDER placement: the quantity, the gap glyph 32, and the label, cut to leave one position free before the
price, which is right-aligned; a row too short for quantity, gap, free position and price draws nothing (R58). An absent
item, which no held item is, draws an empty label. -/
def OrderRowDrawn (s : State) (a b : Picture) (r : Rect) (row : Nat) (x : HoldLine) (colour : BitVec 4) : Prop :=
  let quantity := number x.quantity
  let price := priceText s x.price
  let label := match Table.find x.item s.catalogue.items with
    | none => []
    | some item => item.label
  (3 * r.width < quantity.length + 1 + 1 + price.length → b = a) ∧
  (quantity.length + 1 + 1 + price.length ≤ 3 * r.width →
    ∃ m, LineDrawn a m r row 0
        (quantity ++ [32] ++ label.take (3 * r.width - (quantity.length + 1 + 1 + price.length))) colour ∧
      LineDrawn m b r row (3 * r.width - price.length) price colour)

/-- Hold lines drawn one to a cell row, from `row` down (R58). -/
def OrderDrawn (s : State) (r : Rect) (colour : BitVec 4) : Nat → List HoldLine → Picture → Picture → Prop
  | _, [], a, b => b = a
  | row, x :: rest, a, b => ∃ m, OrderRowDrawn s a m r row x colour ∧ OrderDrawn s r colour (row + 1) rest m b

/-- What one placement makes of the picture, in a composition with this recorded target and hold copy (R53 to R58). A FILL
covers its cells whole (log 9). -/
def Painted (s : State) (target : Target) (copy : Option HoldCopy) (pl : Placement) (a b : Picture) : Prop :=
  match pl.kind with
  | .fill colour =>
    Redrawn a b fun x y cell =>
      if pl.rect.column ≤ x ∧ x < pl.rect.column + pl.rect.width ∧ pl.rect.row ≤ y ∧
          y < pl.rect.row + pl.rect.height then
        ⟨.colour colour, none, none, none⟩
      else cell
  | .photo slot => PhotoDrawn s a b pl.rect slot
  | .itemPhoto item =>
    (∀ r slot, Offered s item target.dayPart r → r.photo = some slot → PhotoDrawn s a b pl.rect slot) ∧
    ((∀ r, Offered s item target.dayPart r → r.photo = none) → b = a)
  | .label item colour =>
    (∀ r, Offered s item target.dayPart r → TextDrawn a b pl.rect r.label colour) ∧
    ((∀ r, ¬ Offered s item target.dayPart r) → b = a)
  | .price item variant colour =>
    (∀ r v, Offered s item target.dayPart r → r.variants[variant]? = some v →
      (target.visibility = .withheld → TextDrawn a b pl.rect ((fieldValue s.inForce 17).drop 1) colour) ∧
      (target.visibility = .shown → v.availability = .soldOut →
        TextDrawn a b pl.rect ((fieldValue s.inForce 18).drop 1) colour) ∧
      (target.visibility = .shown → v.availability = .available →
        PriceDrawn a b pl.rect pl.rect.row
          (priceText s (match v.promotion with | none => v.price | some x => x.price)) colour)) ∧
    ((∀ r, Offered s item target.dayPart r → r.variants.length ≤ variant) → b = a)
  | .text colour glyphs => TextDrawn a b pl.rect glyphs colour
  | .order colour =>
    (∀ x h, copy = some x → x.hold = some h →
      OrderDrawn s pl.rect colour pl.rect.row (h.lines.drop (h.lines.length - pl.rect.height)) a b) ∧
    ((∀ x, copy = some x → x.hold = none) → b = a)
  | .total colour =>
    (∀ x h, copy = some x → x.hold = some h →
      PriceDrawn a b pl.rect pl.rect.row (priceText s h.total) colour) ∧
    ((∀ x, copy = some x → x.hold = none) → b = a)

/-- Placements painted from the first to the last, each on what the one before it has left (R32, R52). -/
def AllPainted (s : State) (target : Target) (copy : Option HoldCopy) : List Placement → Picture → Picture → Prop
  | [], a, b => b = a
  | pl :: rest, a, b => ∃ m, Painted s target copy pl a m ∧ AllPainted s target copy rest m b

end Sys2Proof.Painting
end

