-- ==== Sys2Proof/Payloads.lean ====
section
/-! DEFINITION. The payloads of BATCH_ADD, PLAN_LOAD and PROFILE_BURN as the statements say them: the entries and placements
of R202 byte by byte, their ranges (R8, R30), the faults of R9 and R34 with the positions they give, and the values of the
profile's fields (R206). Nothing here is used by a
meaning. -/
namespace Sys2Proof.Payload

open Sys2Proof.Machine

/-! ## Batch entries -/

/-- A batch entry: kind (1), item (2), then the fields of its kind (R202). -/
def entry : BatchEntry → List Byte
  | .itemDefine item count dayParts => [1] ++ be 2 item ++ be 1 count ++ be 1 dayParts.toNat
  | .itemRetire item => [2] ++ be 2 item
  | .setPrice item variant price => [3] ++ be 2 item ++ be 1 variant ++ be 3 price
  | .setAvail item variant .available => [4] ++ be 2 item ++ be 1 variant ++ [0]
  | .setAvail item variant .soldOut => [4] ++ be 2 item ++ be 1 variant ++ [1]
  | .setPromo item variant price minutes => [5] ++ be 2 item ++ be 1 variant ++ be 3 price ++ be 2 minutes
  | .clearPromo item variant => [6] ++ be 2 item ++ be 1 variant
  | .setDayparts item dayParts => [7] ++ be 2 item ++ be 1 dayParts.toNat
  | .setLabel item label => [8] ++ be 2 item ++ be 1 label.length ++ label
  | .setPhoto item (some slot) => [9] ++ be 2 item ++ be 1 slot
  | .setPhoto item none => [9] ++ be 2 item ++ [255]

/-- An entry passes the range check of R8 for a role. -/
def EntryInRange (role : WritingRole) : BatchEntry → Prop
  | .itemDefine item count _ => role = .store ∧ item ≤ 511 ∧ 1 ≤ count ∧ count ≤ 4
  | .itemRetire item => role = .store ∧ item ≤ 511
  | .setPrice item variant price => role = .store ∧ item ≤ 511 ∧ variant ≤ 3 ∧ price ≤ 999999
  | .setAvail item variant _ => role = .store ∧ item ≤ 511 ∧ variant ≤ 3
  | .setPromo item variant price minutes =>
    role = .store ∧ item ≤ 511 ∧ variant ≤ 3 ∧ price ≤ 999999 ∧ 1 ≤ minutes ∧ minutes ≤ 10080
  | .clearPromo item variant => role = .store ∧ item ≤ 511 ∧ variant ≤ 3
  | .setDayparts item _ => role = .store ∧ item ≤ 511
  | .setLabel item label => role = .media ∧ item ≤ 511 ∧ label.length ≤ 24 ∧ ∀ g ∈ label, g ≠ 0
  | .setPhoto item none => role = .media ∧ item ≤ 511
  | .setPhoto item (some slot) => role = .media ∧ item ≤ 511 ∧ slot ≤ 191

/-- The field of a batch entry that follows the values already read of it: its length, and whether a value lies in its range
(R8, R202). None when the entry is complete. -/
def nextField (kind : Nat) (read : List Nat) : Option (Nat × (Nat → Bool)) :=
  match kind, read with
  | _, [] => some (2, fun item => decide (item ≤ 511))
  | 1, [_] => some (1, fun count => decide (1 ≤ count ∧ count ≤ 4))
  | 1, [_, _] => some (1, fun dayParts => decide (dayParts ≤ 15))
  | 3, [_] => some (1, fun variant => decide (variant ≤ 3))
  | 3, [_, _] => some (3, fun price => decide (price ≤ 999999))
  | 4, [_] => some (1, fun variant => decide (variant ≤ 3))
  | 4, [_, _] => some (1, fun availability => decide (availability ≤ 1))
  | 5, [_] => some (1, fun variant => decide (variant ≤ 3))
  | 5, [_, _] => some (3, fun price => decide (price ≤ 999999))
  | 5, [_, _, _] => some (2, fun minutes => decide (1 ≤ minutes ∧ minutes ≤ 10080))
  | 6, [_] => some (1, fun variant => decide (variant ≤ 3))
  | 7, [_] => some (1, fun dayParts => decide (dayParts ≤ 15))
  | 8, [_] => some (1, fun count => decide (count ≤ 24))
  | 8, _ :: count :: glyphs => if glyphs.length < count then some (1, fun glyph => decide (1 ≤ glyph)) else none
  | 9, [_] => some (1, fun slot => decide (slot ≤ 191 ∨ slot = 255))
  | _, _ => none

/-- Fields of an entry that follow the values already read of it, each in its range, with their bytes. -/
def FieldsRead (kind : Nat) : List Nat → List Nat → List Byte → Prop
  | _, [], bytes => bytes = []
  | read, v :: vs, bytes => ∃ size inRange rest, nextField kind read = some (size, inRange) ∧ v < 256 ^ size ∧
      inRange v = true ∧ bytes = be size v ++ rest ∧ FieldsRead kind (read ++ [v]) vs rest

/-- A kind code of the role (R8, R202). -/
def KindOf : WritingRole → Byte → Prop
  | .store, kind => 1 ≤ kind.toNat ∧ kind.toNat ≤ 7
  | .media, kind => kind.toNat = 8 ∨ kind.toNat = 9

/-- The payload ends inside an entry whose fields so far are right (R9; fields are checked as they are read, log 13). -/
def EntryEnds (role : WritingRole) (bytes : List Byte) : Prop :=
  bytes = [] ∨ ∃ kind values good tail size inRange, KindOf role kind ∧ bytes = kind :: (good ++ tail) ∧
    FieldsRead kind.toNat [] values good ∧ nextField kind.toNat values = some (size, inRange) ∧ tail.length < size

/-- An entry's kind is unknown or the other role's, or its first field that is not right is whole and out of its range (R8,
R9, log 13). -/
def EntryWrong (role : WritingRole) (bytes : List Byte) : Prop :=
  (∃ kind tail, bytes = kind :: tail ∧ ¬ KindOf role kind) ∨
  ∃ kind values good tail size inRange, KindOf role kind ∧ bytes = kind :: (good ++ tail) ∧
    FieldsRead kind.toNat [] values good ∧ nextField kind.toNat values = some (size, inRange) ∧ size ≤ tail.length ∧
    inRange (natOf (tail.take size)) = false

/-- A payload of 1 to 8 entries, each in its range (R8, R9). -/
def EntriesAre (role : WritingRole) (payload : List Byte) (entries : List BatchEntry) : Prop :=
  1 ≤ entries.length ∧ entries.length ≤ 8 ∧ (∀ e ∈ entries, EntryInRange role e) ∧
    payload = be 1 entries.length ++ entries.flatMap entry

/-- The first fault of a BATCH_ADD payload, and the position that the answer gives (R9 step 1): a count of 0 or above 8,
bytes after the last counted entry, or an end inside an entry give 0; a wrong kind or field gives the entry's position. -/
def BatchFault (role : WritingRole) (payload : List Byte) (position : Nat) : Prop :=
  ∃ count bytes, payload = count :: bytes ∧
    ((count.toNat = 0 ∨ 8 < count.toNat) ∧ position = 0 ∨
      1 ≤ count.toNat ∧ count.toNat ≤ 8 ∧ ∃ (good : List BatchEntry) (rest : List Byte),
        (∀ e ∈ good, EntryInRange role e) ∧ bytes = good.flatMap entry ++ rest ∧
        (good.length = count.toNat ∧ rest ≠ [] ∧ position = 0 ∨
          good.length < count.toNat ∧ EntryEnds role rest ∧ position = 0 ∨
          good.length < count.toNat ∧ EntryWrong role rest ∧ position = good.length))

/-! ## Profile fields -/

/-- A number of a range, in a field of this many bytes. -/
def NumberIn (size low high : Nat) (value : List Byte) : Prop := ∃ v, low ≤ v ∧ v ≤ high ∧ value = be size v

/-- Two one-byte numbers, each of its range. -/
def PairIn (low high low' high' : Nat) (value : List Byte) : Prop :=
  ∃ v w, low ≤ v ∧ v ≤ high ∧ low' ≤ w ∧ w ≤ high' ∧ value = be 1 v ++ be 1 w

/-- A glyph string: a count of 0 to 24, then that many glyphs, none of code 0 (R202, R207). -/
def IsGlyphString (value : List Byte) : Prop :=
  ∃ glyphs : List Byte, glyphs.length ≤ 24 ∧ (∀ g ∈ glyphs, g ≠ 0) ∧ value = be 1 glyphs.length ++ glyphs

/-- The values of each profile field, in the field's layout: the ranges of R206, with the places of R201. -/
def ProfileValue (field : Nat) (value : List Byte) : Prop :=
  match field with
  | 1 => NumberIn 1 1 6 value
  | 2 | 3 | 4 | 5 | 6 | 7 => NumberIn 1 0 2 value
  | 8 | 9 | 10 | 11 | 12 | 13 => PairIn 4 16 2 9 value
  | 14 => NumberIn 1 0 2 value
  | 15 => NumberIn 1 0 3 value
  | 16 => PairIn 1 255 0 1 value
  | 17 | 18 => IsGlyphString value
  | 19 => NumberIn 1 0 15 value
  | 20 => NumberIn 1 5 255 value
  | 21 => NumberIn 2 30 1800 value
  | 22 => NumberIn 2 250 5000 value
  | 23 => NumberIn 1 1 60 value
  | 24 => NumberIn 1 0 1 value
  | 25 => NumberIn 1 0 1 value
  | _ => False

/-! ## Placements -/

/-- A placement: column, row, width, height and kind (1 each), then the fields of its kind (R202). -/
def placement (pl : Placement) : List Byte :=
  be 1 pl.rect.column ++ be 1 pl.rect.row ++ be 1 pl.rect.width ++ be 1 pl.rect.height ++
    match pl.kind with
    | .fill colour => [1] ++ be 1 colour.toNat
    | .photo slot => [2] ++ be 1 slot
    | .itemPhoto item => [3] ++ be 2 item
    | .label item colour => [4] ++ be 2 item ++ be 1 colour.toNat
    | .price item variant colour => [5] ++ be 2 item ++ be 1 variant ++ be 1 colour.toNat
    | .text colour glyphs => [6] ++ be 1 colour.toNat ++ be 1 glyphs.length ++ glyphs
    | .order colour => [7] ++ be 1 colour.toNat
    | .total colour => [8] ++ be 1 colour.toNat

/-- A placement's rectangle and fields lie in the ranges of R30. -/
def PlacementInRange (pl : Placement) : Prop :=
  pl.rect.column ≤ 15 ∧ pl.rect.row ≤ 8 ∧ 1 ≤ pl.rect.width ∧ pl.rect.width ≤ 16 ∧ 1 ≤ pl.rect.height ∧
    pl.rect.height ≤ 9 ∧
    match pl.kind with
    | .photo slot => slot ≤ 191
    | .itemPhoto item => item ≤ 511
    | .label item _ => item ≤ 511
    | .price item variant _ => item ≤ 511 ∧ variant ≤ 3
    | .text _ glyphs => glyphs.length ≤ 24 ∧ ∀ g ∈ glyphs, g ≠ 0
    | _ => True

/-- Bytes as long as a placement of their kind code is, whatever its fields hold (R202, R34); the count byte of a TEXT
placement is taken as it stands (log 14). -/
def WholePlacement (bytes : List Byte) : Prop :=
  ∃ column row width height kind fields, bytes = column :: row :: width :: height :: kind :: fields ∧
    ((kind.toNat = 1 ∨ kind.toNat = 2 ∨ kind.toNat = 7 ∨ kind.toNat = 8) ∧ fields.length = 1 ∨
      kind.toNat = 3 ∧ fields.length = 2 ∨
      kind.toNat = 4 ∧ fields.length = 3 ∨
      kind.toNat = 5 ∧ fields.length = 4 ∨
      kind.toNat = 6 ∧ ∃ colour count glyphs, fields = colour :: count :: glyphs ∧ glyphs.length = count.toNat)

/-- Bytes that are exactly `count` placements, by their lengths (R34 step 1). -/
def PlacementsWhole (count : Nat) (bytes : List Byte) (placements : List (List Byte)) : Prop :=
  placements.length = count ∧ (∀ w ∈ placements, WholePlacement w) ∧ bytes = placements.flatten

/-- The first fault of structure of a PLAN_LOAD's placements, and the index that the answer gives (R34 step 1): an unknown
kind code gives the placement's own; an end inside a placement and bytes after the last give 0. -/
def PlanFault (count : Nat) (bytes : List Byte) (index : Nat) : Prop :=
  ∃ (whole : List (List Byte)) (rest : List Byte), (∀ w ∈ whole, WholePlacement w) ∧ bytes = whole.flatten ++ rest ∧
    (whole.length = count ∧ rest ≠ [] ∧ index = 0 ∨
      whole.length < count ∧ (∃ more, more ≠ [] ∧ WholePlacement (rest ++ more)) ∧ index = 0 ∨
      whole.length < count ∧ index = whole.length ∧ ∃ column row width height kind tail,
        rest = column :: row :: width :: height :: kind :: tail ∧ (kind.toNat = 0 ∨ 8 < kind.toNat))

/-- A placement passes every check of R35 on a panel: ranges, fit (R31), and READY for the slot of a PHOTO placement. -/
def PlacementPasses (s : State) (p : PanelNo) (pl : Placement) : Prop :=
  PlacementInRange pl ∧ s.placementFits p pl = true ∧
    ∀ slot, pl.kind = .photo slot → ∃ r, Table.find slot s.photo.slots = some r ∧ r.state = .ready

/-- What the first placement that fails a check of R35 is refused with: BAD_FIELD for a range or the fit, SLOT_STATE for a
slot that is not READY. -/
def PlacementRefused (s : State) (p : PanelNo) (bytes : List Byte) (status : Status) : Prop :=
  (∀ pl, PlacementInRange pl → placement pl = bytes → s.placementFits p pl = false) ∧ status = .badField ∨
  ∃ pl slot, PlacementInRange pl ∧ placement pl = bytes ∧ s.placementFits p pl = true ∧ pl.kind = .photo slot ∧
    (∀ r, Table.find slot s.photo.slots = some r → r.state ≠ .ready) ∧ status = .slotState

end Sys2Proof.Payload
end

