-- ==== Sys2Proof/Safety.lean ====
section
/-! DEFINITION. What counts as a safe run, the words the statements are made of, and the invariants. -/
namespace Sys2Proof.Machine

/-- A step that answers a next state: neither a fault nor a refusal. -/
def Completes (o : Host.Outcome State Fault Refusal) : Prop := ∃ t, o = .next t

/-- A port takes the next request: no reset is in force, the port is fitted, it is READY, and no message that it is losing
is still being received (R188, R190, R192, R193). -/
def State.Takes (s : State) (p : PortId) : Prop :=
  s.phase = .running ∧ s.portFitted p = true ∧ (s.port p).state = .ready ∧ (s.port p).receiving = none

/-- An OK answer to a request (R200). -/
def okTo (t : RequestType) (tag : Byte) (payload : List Byte) : Answer := ⟨t.code, tag, .ok, payload⟩

/-- A refusal of a request (R200). -/
def refusalOf (t : RequestType) (tag : Byte) (status : Status) (payload : List Byte) : Answer :=
  ⟨t.code, tag, status, payload⟩

/-- What an answered request leaves of the ports: its port holds the answer and has kept its flags and mask, and every
other port is as it was. -/
def AnsweredOn (s t : State) (p : PortId) (a : Answer) : Prop :=
  (t.port p).state = .answer a ∧ (t.port p).flags = (s.port p).flags ∧ (t.port p).mask = (s.port p).mask ∧
    ∀ q, q ≠ p → t.port q = s.port q

/-- A port holds an answer; nothing is said of flags, which the request's own effect may have set. -/
def Holds (t : State) (p : PortId) (a : Answer) : Prop := (t.port p).state = .answer a

/-- A flag of a port is set. -/
def FlagSet (t : State) (p : PortId) (f : NoticeFlag) : Prop := (t.port p).flags &&& f.mask = f.mask

/-- A command that is answered on its port and changes nothing else (a read, a refusal). -/
def AnswersOnly (s : State) (c : Instr) (p : PortId) (a : Answer) : Prop :=
  ∃ t, exec c s = .next t ∧ AnsweredOn s t p a ∧ t = { s with ports := t.ports }

/-- A changeover has settled DONE at the target `u`, the controller's record before being `c` (R71, R76, R79, R82, R89). -/
def SettledDone (c : Changeover) (t : State) (u : Target) : Prop :=
  t.changeover = { c with
    controller := .idle, settled := u, members := noMembers, lastResult := .done, lagging := noLagging } ∧
  t.timeLeft .changeoverLimit = none ∧ FlagSet t .store .changeoverDone ∧ FlagSet t .media .changeoverDone

/-- The panels whose links are live, in panel number order. -/
def livePanels (s : State) : List PanelNo := allPanels.filter fun p => s.live p

/-- The Composer after a compose request with reason CHANGEOVER for each live panel, in panel number order (R47, R70, R79;
what one request does: R46). -/
def changeoverAsked (s : State) : Composer := (s.composeRequests (livePanels s) (Reason.set .changeover)).composer

/-- A changeover to the target `u`, now the current target, is in STAGING: every live panel is a QUEUED member with no staged
frame, asked for with reason CHANGEOVER, and no other panel is a member (R70, R79). -/
def StagedAnew (s t : State) (u : Target) : Prop :=
  t.changeover = { s.changeover with
    current := u, controller := .staging u, members := PerPanel.ofFn fun p => if s.live p then some .queued else none } ∧
  (∀ p, t.link p = if s.live p = true then { s.link p with staged := none } else s.link p) ∧
  t.composer = changeoverAsked s

/-- The controller starts nothing: links and Composer stand. -/
def NothingStarted (s t : State) : Prop := t.links = s.links ∧ t.composer = s.composer

/-- What the controller makes of a target `u` that has been handed to it in state `s` (R69): no change; in a changeover to
it, the current target alone; in a changeover to another, a supersede that keeps the limit timer, or settles with no live
panel (R79); idle under a freeze, the target-changed flag (R72); idle without one, nothing more when `u` is the settled
target, and otherwise a changeover, which settles at once with no live panel (R70, R71). -/
def TargetHanded (s t : State) (u : Target) : Prop :=
  (u = s.changeover.current → t.changeover = s.changeover ∧ t.freeze = s.freeze ∧ NothingStarted s t) ∧
  (∀ v, u ≠ s.changeover.current → s.changeover.controller.inFlight = some v → t.freeze = s.freeze ∧
    (u = v → t.changeover = { s.changeover with current := u } ∧ NothingStarted s t) ∧
    (u ≠ v → (∃ p, s.live p = true) →
      StagedAnew s t u ∧ t.timeLeft .changeoverLimit = s.timeLeft .changeoverLimit) ∧
    (u ≠ v → (∀ p, s.live p = false) →
      SettledDone { s.changeover with current := u } t u ∧ NothingStarted s t)) ∧
  (u ≠ s.changeover.current → s.changeover.controller = .idle →
    (s.freeze.state.inForce = true →
      t.changeover = { s.changeover with current := u } ∧ t.freeze = { s.freeze with targetChanged := true } ∧
      NothingStarted s t) ∧
    (s.freeze.state.inForce = false → t.freeze = s.freeze ∧
      (u = s.changeover.settled → t.changeover = { s.changeover with current := u } ∧ NothingStarted s t) ∧
      (u ≠ s.changeover.settled → (∃ p, s.live p = true) →
        StagedAnew s t u ∧ t.timeLeft .changeoverLimit = some s.changeoverLimitMs) ∧
      (u ≠ s.changeover.settled → (∀ p, s.live p = false) →
        SettledDone { s.changeover with current := u } t u ∧ NothingStarted s t)))

/-- The same for a command that first ends a freeze in force (R184): a freeze's end starts the changeover it held back
(R185), and the handed target supersedes it. -/
def TargetHandedAfterFreeze (s t : State) (u : Target) : Prop :=
  (s.freeze.state.inForce = false → TargetHanded s t u) ∧
  (s.freeze.state.inForce = true → s.changeover.controller = .idle →
    (u = s.changeover.current → s.changeover.current = s.changeover.settled →
      t.changeover = s.changeover ∧ NothingStarted s t) ∧
    (¬ (u = s.changeover.current ∧ s.changeover.current = s.changeover.settled) → (∃ p, s.live p = true) →
      StagedAnew s t u ∧ t.timeLeft .changeoverLimit = some s.changeoverLimitMs) ∧
    (¬ (u = s.changeover.current ∧ s.changeover.current = s.changeover.settled) → (∀ p, s.live p = false) →
      SettledDone { s.changeover with current := u } t u ∧ NothingStarted s t))

/-- The Composer after the composition `c` has been cut short (R63, R64): the panel of a live link stands at the head of
the queue, which holds it once (R45), with its reasons and its again reasons, the outcome ABANDONED is recorded, and the
engine is idle. -/
def compositionCut (s : State) (c : Composition) : Composer :=
  { queue :=
      if s.live c.panel = true then
        ⟨c.panel, c.reasons ||| c.againReasons⟩ :: s.composer.queue.filter (fun e => e.panel ≠ c.panel)
      else s.composer.queue
    engine := none
    last := s.composer.last.set c.panel
      (some ⟨.abandoned, c.reasons, c.target, c.planRevision, c.holdCopy.map HoldCopy.revision⟩) }

/-- The Composer as the lease expires: a composition that paints shown prices is cut short, any other runs on (R64). -/
def leaseCut (s : State) : Composer :=
  match s.composer.engine with
  | none => s.composer
  | some c => if c.target.visibility = .shown then compositionCut s c else s.composer

/-- What the checks after an advance of progress or a change of the member set make of the controller's record `c`, in a
changeover to `u`: with every member CONFIRMED, or no member, it settles DONE (R76, R82); otherwise with no member QUEUED
it is ARMED (R75); otherwise it stays. -/
def MembersChecked (c r : Changeover) (u : Target) : Prop :=
  ((∀ p v, c.members.get p = some v → v = .confirmed) →
    r = { c with controller := .idle, settled := u, members := noMembers, lastResult := .done, lagging := noLagging }) ∧
  ((∃ p v, c.members.get p = some v ∧ v ≠ .confirmed) → (∀ p, c.members.get p ≠ some .queued) →
    r = { c with controller := .armed u }) ∧
  ((∃ p, c.members.get p = some .queued) → r = c)

/-- The Composer after the removals that a set of panels hands it as their links leave LOCKED and STREAMING (R48): their
entries go and the others keep their order, a composition of one of them has lost its panel, and the last-composition
records stand. -/
def composerWithout (s : State) (gone : PanelNo → Bool) : Composer :=
  { queue := s.composer.queue.filter (fun e => gone e.panel = false)
    engine := s.composer.engine.map fun c => if gone c.panel = true then { c with lost := true } else c
    last := s.composer.last }

/-- What a set of panels whose links have left LOCKED and STREAMING leaves of the changeover (R82): with no member among
them it stands; otherwise the checks are made on the members that remain, and a changeover that settles stops its limit
timer and raises CHANGEOVER_DONE. -/
def MembersLeft (s t : State) (gone : PanelNo → Bool) : Prop :=
  ((∀ p, gone p = true → s.changeover.members.get p = none) →
    t.changeover = s.changeover ∧ t.timeLeft .changeoverLimit = s.timeLeft .changeoverLimit) ∧
  ∀ u p v, s.changeover.controller.inFlight = some u → gone p = true → s.changeover.members.get p = some v →
    MembersChecked { s.changeover with
      members := PerPanel.ofFn fun q => if gone q = true then none else s.changeover.members.get q } t.changeover u ∧
    (t.changeover.controller = .idle → t.timeLeft .changeoverLimit = none ∧ FlagSet t .store .changeoverDone ∧
      FlagSet t .media .changeoverDone) ∧
    (t.changeover.controller ≠ .idle → t.timeLeft .changeoverLimit = s.timeLeft .changeoverLimit)

/-- A live link has left LOCKED and STREAMING (R99): its frame records are absent, its sequence stands, its lock silence and
frame period timers are stopped, the Composer has taken the removal, and the controller has learned of it. -/
def LeftLive (s t : State) (p : PanelNo) : Prop :=
  (t.link p).showing = none ∧ (t.link p).staged = none ∧ (t.link p).confirmed = none ∧
  (t.link p).sequence = (s.link p).sequence ∧ t.timeLeft (.lockSilence p) = none ∧ t.timeLeft (.framePeriod p) = none ∧
  t.composer = composerWithout s (fun q => q = p) ∧ MembersLeft s t (fun q => q = p)

/-- What an added cause leaves of a fitted link's record and timers, its causes then being `causes` (R109): the first cause
takes it DARK, from a live state with its frame records gone, from TEST with the test ABORTED and TEST_ENDED raised, from
TRAINING with the training limit stopped; a DETACHED link stays so. The descriptor stands and the detach timer runs on. -/
def CauseAdded (s t : State) (p : PanelNo) (causes : DarkSet) : Prop :=
  t.timeLeft (.detach p) = s.timeLeft (.detach p) ∧
  ((s.link p).causes ≠ ⟨false, false⟩ → t.link p = { s.link p with causes := causes }) ∧
  ((s.link p).causes = ⟨false, false⟩ →
    (s.live p = true → t.link p = { s.link p with
        causes := causes, state := .dark, showing := none, staged := none, confirmed := none, transmitting := none
        mismatchMark := false } ∧
      t.timeLeft (.lockSilence p) = none ∧ t.timeLeft (.framePeriod p) = none) ∧
    ((s.link p).state = .training → t.link p = { s.link p with causes := causes, state := .dark } ∧
      t.timeLeft (.trainingLimit p) = none) ∧
    ((s.link p).state = .rejected → t.link p = { s.link p with causes := causes, state := .dark }) ∧
    ((s.link p).state = .test → t.link p = { s.link p with
        causes := causes, state := .dark, test := (s.link p).test.map fun r => { r with result := .aborted } } ∧
      t.timeLeft (.testSecond p) = none ∧ FlagSet t .media .testEnded) ∧
    ((s.link p).state = .detached ∨ (s.link p).state = .dark ∨ (s.link p).state = .off →
      t.link p = { s.link p with causes := causes }))

/-- The panels that a first dark cause takes out of LOCKED and STREAMING (R109). -/
def leavesForDark (s : State) (p : PanelNo) : Bool := s.live p && decide ((s.link p).causes = ⟨false, false⟩)

/-- The cause CLOSED joins every fitted link (R109, R173): each live link that it takes DARK leaves the Composer's queue and
the member set (R83). -/
def ClosedAdded (s t : State) : Prop :=
  (∀ p, s.linkFitted p = false → t.link p = s.link p) ∧
  (∀ p, s.linkFitted p = true → CauseAdded s t p { (s.link p).causes with closed := true }) ∧
  t.composer = composerWithout s (fun p => s.linkFitted p && leavesForDark s p) ∧
  MembersLeft s t (fun p => s.linkFitted p && leavesForDark s p)

/-- Some promotion's countdown stands at `n` minutes or below. -/
def CountdownDue (items : Table Item) (n : Nat) : Prop :=
  ∃ e ∈ items, ∃ v ∈ e.2.variants, ∃ x, v.promotion = some x ∧ x.minutes ≤ n

/-- Promotions have been lowered or ended: under each item number stands the record that stood there, with its mask, label,
photo reference and each variant's price and availability, and with each promotion as `f` makes it (R24, R25). -/
def PromotionsChanged (before after : Table Item) (f : Promotion → Option Promotion) : Prop :=
  (∀ item, Table.find item before = none → Table.find item after = none) ∧
  ∀ item r, Table.find item before = some r → ∃ q, Table.find item after = some q ∧ q.dayParts = r.dayParts ∧
    q.label = r.label ∧ q.photo = r.photo ∧ q.variants.length = r.variants.length ∧
    ∀ (n : Nat) (v : Variant), r.variants[n]? = some v → ∃ w : Variant, q.variants[n]? = some w ∧ w.price = v.price ∧
      w.availability = v.availability ∧ w.promotion = v.promotion.bind f

/-- The item that a batch entry names (R8). -/
def entryItem : BatchEntry → Nat
  | .itemDefine item _ _ => item
  | .itemRetire item => item
  | .setPrice item _ _ => item
  | .setAvail item _ _ => item
  | .setPromo item _ _ _ => item
  | .clearPromo item _ => item
  | .setDayparts item _ => item
  | .setLabel item _ => item
  | .setPhoto item _ => item

/-- A hold line on either lane names the item (R13, R159). -/
def HeldOnALane (s : State) (item : Nat) : Prop := ∃ l, ∃ h ∈ (s.lane l).holds, ∃ x ∈ h.2.lines, x.item = item

/-- The checks of an entry that changes one present item, and the record it leaves (R13, R14). -/
def ItemChecked (t : Table Item) (item : Nat) (f : Item → Item) (o : Except CommitReason (Option Item)) : Prop :=
  (Table.find item t = none → o = .error .noItem) ∧ ∀ r, Table.find item t = some r → o = .ok (some (f r))

/-- The checks of an entry that changes one variant of a present item, and the record it leaves (R13, R14). -/
def VariantChecked (t : Table Item) (item variant : Nat) (f : Variant → Variant)
    (o : Except CommitReason (Option Item)) : Prop :=
  (Table.find item t = none → o = .error .noItem) ∧
  ∀ r, Table.find item t = some r →
    (r.variants.length ≤ variant → o = .error .noVariant) ∧
    ∀ v, r.variants[variant]? = some v → o = .ok (some { r with variants := r.variants.set variant (f v) })

/-- What one batch entry comes to on a working copy `t`, kind by kind (R13, R14, R15): the reason of the first check that
fails, or what it leaves under its item, none for a retirement. -/
def EntryChecked (s : State) (t : Table Item) (e : BatchEntry) (o : Except CommitReason (Option Item)) : Prop :=
  match e with
  | .itemDefine item count dayParts =>
    (Table.find item t ≠ none → o = .error .itemExists) ∧
    (Table.find item t = none →
      o = .ok (some ⟨dayParts, [], none, List.replicate count ⟨0, .soldOut, none⟩⟩))
  | .itemRetire item =>
    (Table.find item t = none → o = .error .noItem) ∧
    (Table.find item t ≠ none → HeldOnALane s item → o = .error .held) ∧
    (Table.find item t ≠ none → ¬ HeldOnALane s item → o = .ok none)
  | .setPrice item variant price => VariantChecked t item variant (fun v => { v with price := price }) o
  | .setAvail item variant a => VariantChecked t item variant (fun v => { v with availability := a }) o
  | .setPromo item variant price minutes =>
    VariantChecked t item variant (fun v => { v with promotion := some ⟨price, minutes⟩ }) o
  | .clearPromo item variant => VariantChecked t item variant (fun v => { v with promotion := none }) o
  | .setDayparts item dayParts => ItemChecked t item (fun r => { r with dayParts := dayParts }) o
  | .setLabel item label => ItemChecked t item (fun r => { r with label := label }) o
  | .setPhoto item none => ItemChecked t item (fun r => { r with photo := none }) o
  | .setPhoto item (some slot) =>
    (Table.find item t = none → o = .error .noItem) ∧
    ∀ r, Table.find item t = some r →
      ((∀ q, Table.find slot s.photo.slots = some q → q.state ≠ .ready) → o = .error .slotState) ∧
      ((∃ q, Table.find slot s.photo.slots = some q ∧ q.state = .ready) → o = .ok (some { r with photo := some slot }))

/-- The PHOTO placements of all 24 plans that name a slot (R42, R44). -/
def photoPlacements (s : State) (slot : Nat) : Nat :=
  (allPanels.flatMap fun p => allDayParts.flatMap fun d => (s.plan p d).placements).countP fun pl => pl.kind = .photo slot

/-- An entry was due `n` seconds before the present moment of a clock: times and days are counted round the week
(R165). -/
def DueAgo (c : StoreClock) (e : ScheduleEntry) (n : Nat) : Prop :=
  e.time = (c.day * 86400 + c.time + (604800 - n)) % 604800 % 86400 ∧
    e.days.getLsbD ((c.day * 86400 + c.time + (604800 - n)) % 604800 / 86400) = true

/-- An entry will be due `n` seconds after the present moment of a clock (R165). -/
def DueAhead (c : StoreClock) (e : ScheduleEntry) (n : Nat) : Prop :=
  e.time = (c.day * 86400 + c.time + n) % 604800 % 86400 ∧
    e.days.getLsbD ((c.day * 86400 + c.time + n) % 604800 / 86400) = true

/-- What evaluation gives the scheduled state (R167): CLOSED with the clock invalid or the schedule empty; otherwise the
destination of the entry most recently due in the week that ends at the present moment, that moment included. That a
schedule none of whose entries is ever due, which no run reaches, gives CLOSED is the model's choice (log 27). -/
def Evaluated (c : StoreClock) (v : StoreState) : Prop :=
  ((c.valid = false ∨ c.schedule = []) → v = .closed) ∧
  (c.valid = true →
    ((∃ e ∈ c.schedule, ∃ n < 604800, DueAgo c e n) →
      ∃ e ∈ c.schedule, ∃ n < 604800, DueAgo c e n ∧ v = e.destination ∧
        ∀ f ∈ c.schedule, ∀ k < n, ¬ DueAgo c f k) ∧
    ((∀ e ∈ c.schedule, ∀ n < 604800, ¬ DueAgo c e n) → v = .closed))

/-- The next firing with its day (R175): that of the entry due at the first moment after the present one, up to and
including the same time seven days ahead; absent with the clock invalid or the schedule empty, and, by the model's choice,
with no entry that is ever due (log 27). -/
def NextFiring (c : StoreClock) (x : Option (ScheduleEntry × Nat)) : Prop :=
  ((c.valid = false ∨ c.schedule = []) → x = none) ∧
  (c.valid = true →
    ((∃ e ∈ c.schedule, ∃ n, 1 ≤ n ∧ n ≤ 604800 ∧ DueAhead c e n) →
      ∃ e ∈ c.schedule, ∃ n, 1 ≤ n ∧ n ≤ 604800 ∧ DueAhead c e n ∧
        x = some (e, (c.day * 86400 + c.time + n) % 604800 / 86400) ∧
        ∀ f ∈ c.schedule, ∀ k, 1 ≤ k → k < n → ¬ DueAhead c f k) ∧
    ((∀ e ∈ c.schedule, ∀ n, 1 ≤ n → n ≤ 604800 → ¬ DueAhead c e n) → x = none))

/-- A schedule holds the given entries in time order, those of equal time in the order given (R165). -/
def InTimeOrder (given schedule : List ScheduleEntry) : Prop :=
  schedule.Pairwise (fun a b => a.time ≤ b.time) ∧
  ∀ time, schedule.filter (fun e => e.time = time) = given.filter (fun e => e.time = time)

/-- The cause CLOSED leaves every fitted link, and one whose only cause it was leaves DARK (R110, R174). -/
def ClosedLifted (r t : State) : Prop :=
  (∀ p, r.linkFitted p = false → t.link p = r.link p) ∧
  ∀ p, r.linkFitted p = true → (t.link p).causes = { (r.link p).causes with closed := false } ∧
    (t.link p).state = (if (r.link p).causes = ⟨false, true⟩ ∧ (r.link p).state = .dark then
      (if r.gridMatches p then .training else .rejected) else (r.link p).state)

/-- What a transition of the store state leaves, and that with no change of the store state nothing follows (R171 to
R174). The hand-off of the day-part is said in full: in a change between open day-parts on the state after, and in an
opening on the state `r` before the dark causes leave the links. So is a closing, by the cause that joins the links. -/
def TransitionMade (s t : State) : Prop :=
  (t.clock.storeState = s.clock.storeState →
    t.clock.lastOpen = s.clock.lastOpen ∧ t.changeover = s.changeover ∧ t.links = s.links ∧ t.freeze = s.freeze ∧
      t.composer = s.composer) ∧
  (t.clock.storeState ≠ s.clock.storeState → FlagSet t .store .daypartChanged) ∧
  (∀ d, t.clock.storeState = .opened d → s.clock.storeState ≠ .opened d →
    t.clock.lastOpen = d ∧ t.changeover.current = { s.changeover.current with dayPart := d } ∧
    ((s.clock.storeState ≠ .closed ∨ d ≠ s.clock.lastOpen) →
      t.freeze.state.inForce = false ∧ (s.freeze.state.inForce = true → t.freeze.lastEnd = some .daypart)) ∧
    (s.clock.storeState = .closed → d = s.clock.lastOpen → t.freeze.state = s.freeze.state) ∧
    (s.clock.storeState = .closed → ∀ p, s.linkFitted p = true → (t.link p).causes.closed = false) ∧
    (s.clock.storeState ≠ .closed → ∀ p, (t.link p).causes = (s.link p).causes) ∧
    (s.clock.storeState ≠ .closed → TargetHandedAfterFreeze s t { s.changeover.current with dayPart := d }) ∧
    (s.clock.storeState = .closed → ∃ r : State,
      (d ≠ s.clock.lastOpen → TargetHandedAfterFreeze s r { s.changeover.current with dayPart := d }) ∧
      (d = s.clock.lastOpen → TargetHanded s r { s.changeover.current with dayPart := d }) ∧
      t.changeover = r.changeover ∧ t.freeze = r.freeze ∧ t.composer = r.composer ∧
      t.timeLeft .changeoverLimit = r.timeLeft .changeoverLimit ∧ (∀ q f, FlagSet r q f → FlagSet t q f) ∧
      r.inForce = s.inForce ∧ ClosedLifted r t)) ∧
  (t.clock.storeState = .closed → s.clock.storeState ≠ .closed →
    t.clock.lastOpen = s.clock.lastOpen ∧ t.changeover.current = s.changeover.current ∧ t.freeze = s.freeze ∧
    (∀ p, s.linkFitted p = true → (t.link p).causes.closed = true) ∧ ClosedAdded s t)

/-- A link as its reset table gives it, by whether the profile fits it (R118). -/
def LinkAtReset (l : Link) (fitted : Bool) : Prop :=
  l.state = (if fitted = true then .detached else .off) ∧ l.descriptor = none ∧
  l.causes = (if fitted = true then ⟨false, true⟩ else ⟨false, false⟩) ∧
  l.showing = none ∧ l.staged = none ∧ l.confirmed = none ∧ l.transmitting = none ∧ l.sequence = 0 ∧ l.restarts = 0 ∧
  l.good = 0 ∧ l.bad = 0 ∧ l.mismatches = 0 ∧ l.mismatchMark = false ∧ l.lastFault = none ∧ l.faults = 0 ∧ l.test = none

/-- The blocks that power-on and pin reset leave in the same state, as their reset tables give it: the Catalogue Unit (R28),
the Composer (R66), the controller (R90), the freeze record (R187), the links (R118), the Hold Table (R161), and the Store
Clock but for its schedule (R176). -/
def BlocksAtReset (t : State) (fitted : PanelNo → Bool) : Prop :=
  t.catalogue = ⟨[], 0, none, none, .expired⟩ ∧
  t.composer.queue = [] ∧ t.composer.engine = none ∧ (∀ p, t.composer.last.get p = none) ∧
  t.changeover.controller = .idle ∧ t.changeover.current = ⟨0, 0, .withheld⟩ ∧
  t.changeover.settled = ⟨0, 0, .withheld⟩ ∧ (∀ p, t.changeover.members.get p = none) ∧
  t.changeover.lastResult = .done ∧ (∀ p, t.changeover.lagging.get p = false) ∧
  t.freeze = ⟨.off, false, none⟩ ∧ (∀ p, LinkAtReset (t.link p) (fitted p)) ∧ (∀ l, t.lane l = ⟨[], none, 0, []⟩) ∧
  t.clock.time = 0 ∧ t.clock.day = 0 ∧ t.clock.valid = false ∧ t.clock.scheduled = .closed ∧ t.clock.override = none ∧
  t.clock.storeState = .closed ∧ t.clock.lastOpen = 0

/-- Photo Memory after power-on (R139); that a block whose contents are lost reads as 0 is the model's choice (log 12). -/
def PhotoAtPowerOn (m : PhotoMemory) : Prop :=
  m.slots = [] ∧ m.free.map (fun r => (r.start, r.count)) = [(0, 6144)] ∧ m.session = none ∧ m.lastLoad = none ∧
  m.verifyQueue = [] ∧ m.verifying = none ∧ m.memory = []

/-- A panel uses a photo slot (R136): its link is live, and the plan of its compose target's day-part holds a PHOTO
placement that names the slot, or an ITEM_PHOTO placement that names a present item whose photo reference is the slot. -/
def UsesPhoto (s : State) (slot : Nat) (p : PanelNo) : Prop :=
  s.live p = true ∧ ∃ pl ∈ (s.plan p (s.composeTarget p).dayPart).placements,
    pl.kind = .photo slot ∨
    ∃ item r, pl.kind = .itemPhoto item ∧ Table.find item s.catalogue.items = some r ∧ r.photo = some slot

/-- A block lies in a range. -/
def BlockRange.has (r : BlockRange) (b : Nat) : Prop := r.start ≤ b ∧ b < r.start + r.count

/-- A free list in start order, with no empty entry and no two entries that touch (R121). -/
def FreeListOrdered (free : List BlockRange) : Prop :=
  free.Pairwise (fun a b => a.start + a.count < b.start) ∧ ∀ e ∈ free, 1 ≤ e.count

/-! ## Invariants -/

/-- The load session fits its slot: the slot is LOADING, and the index expected lies in its range (R123 to R126). -/
def SessionSound (s : State) : Prop := ∃ x, s.photo.openLoad = .ok x

/-- The photo DRAM is in its canonical form. -/
def DramCanonical (s : State) : Prop := Memory.Wf s.photo.memory

/-- Photo Memory is sound: its slots stand in one canonical table and each holds at least one block, the load session fits
its slot, the verify queue is in slot number order and holds a slot once, and the slot the verify engine works on is
VERIFYING (R119, R132, R133); and the photo DRAM is in its canonical form. -/
def PhotoSound (s : State) : Prop :=
  DramCanonical s ∧ Table.Wf s.photo.slots ∧ (∀ e ∈ s.photo.slots, 1 ≤ e.2.range.count) ∧ SessionSound s ∧
    s.photo.verifyQueue.Pairwise (fun a b => a < b) ∧
    ∀ k, s.photo.verifying = some k → ∃ r, Table.find k s.photo.slots = some r ∧ r.state = .verifying

/-- Every block of the DRAM is either in the free list, which is in its canonical form, or in the range of exactly one slot
(R119, R121). -/
def BlocksAccounted (s : State) : Prop :=
  FreeListOrdered s.photo.free ∧
  (∀ b, b < 6144 → ((∃ e ∈ s.photo.free, e.has b) ↔ ∀ k r, Table.find k s.photo.slots = some r → ¬ r.range.has b)) ∧
  ∀ j k q r b, Table.find j s.photo.slots = some q → Table.find k s.photo.slots = some r → q.range.has b →
    r.range.has b → j = k

/-- While the freeze is in force the Changeover Controller is IDLE (R178). -/
def FreezeHoldsController (s : State) : Prop := s.freeze.state.inForce = true → s.changeover.controller = .idle

end Sys2Proof.Machine
end

