-- ==== Sys2Proof/Certificates/Slice0/Obligations.lean ====
section
/-! DEFINITION. The statements for the provers, chapter by chapter of the manual. `t` is the next state throughout, and
`t = { s with ... }` says the frame: every field not named is as it was. Timer periods are written out in milliseconds. -/

open Sys2Proof Sys2Proof.Machine

/-! ## The queue (the model's own) -/

/-- A step takes the command at the front of the queue and runs it on the state with the queue's rest. On an empty queue the
step is the model's choice: the event that is due, or one millisecond passes (log 1), in which the composer engine paints
one placement; with no composition, or none of its placements left, nothing changes there (log 7). -/
def Obligations.StepRunsFrontCommandOrOwnEvent : Prop :=
  (∀ (c : Instr) (s : State), step { s with pending := c :: s.pending } = exec c s) ∧
  (∀ s : State, s.pending = [] →
      (∀ c, s.ownEvent = some c → step s = exec c s) ∧ (s.ownEvent = none → step s = .next (s.elapse 1).paintNext)) ∧
  (∀ s : State,
    (s.composer.engine = none → s.paintNext = s) ∧
    ∀ c, s.composer.engine = some c →
      (c.todo = [] → s.paintNext = s) ∧
      ∀ pl rest, c.todo = pl :: rest → ∃ pic, Painting.Painted s c.target c.holdCopy pl c.picture pic ∧
        s.paintNext = { s with composer := { s.composer with
          engine := some { c with todo := rest, picture := pic } } })

/-! ## The catalogue (chapter 1) -/

/-- BATCH_OPEN: R7. -/
def Obligations.BatchOpenOpensClosedSlotOrRefuses : Prop :=
  ∀ (s : State) (role : WritingRole) (tag : Byte), s.Takes (portOfRole role) →
    (s.catalogue.batch role = none →
      ∃ t, exec (.batchOpen (portOfRole role) tag []) s = .next t ∧
        AnsweredOn s t (portOfRole role) (okTo .batchOpen tag []) ∧
        t = { s with
          ports := t.ports
          catalogue := s.catalogue.setBatch role (some [])
          timers := (s.startTimer (.batchIdle role) 30000).timers }) ∧
    (∀ entries, s.catalogue.batch role = some entries →
      ∃ t, exec (.batchOpen (portOfRole role) tag []) s = .next t ∧
        AnsweredOn s t (portOfRole role) (refusalOf .batchOpen tag .batchOpen []) ∧ t = { s with ports := t.ports })

/-- BATCH_ADD: R9, with the range checks of R8 and the layouts of R202, in the words of Sys2Proof/Payloads.lean. That an
entry's fields are checked as they are read is the model's reading (log 13). -/
def Obligations.BatchAddAppendsOrRefuses : Prop :=
  (∀ (s : State) (role : WritingRole) (tag : Byte) (payload : List Byte), s.Takes (portOfRole role) →
    1 ≤ payload.length → payload.length ≤ 4104 → s.catalogue.batch role = none →
    AnswersOnly s (.batchAdd (portOfRole role) tag payload) (portOfRole role) (refusalOf .batchAdd tag .noBatch [])) ∧
  ∀ (s : State) (role : WritingRole) (tag : Byte) (payload : List Byte) (entries : List BatchEntry),
    s.Takes (portOfRole role) → 1 ≤ payload.length → payload.length ≤ 4104 → s.catalogue.batch role = some entries →
    ∃ t, exec (.batchAdd (portOfRole role) tag payload) s = .next t ∧
      (∀ position, Payload.BatchFault role payload position →
        AnsweredOn s t (portOfRole role) (refusalOf .batchAdd tag .badField (be 1 position)) ∧
          t.catalogue = s.catalogue) ∧
      (∀ added, Payload.EntriesAre role payload added → 64 < entries.length + added.length →
        AnsweredOn s t (portOfRole role) (refusalOf .batchAdd tag .batchFull (be 1 entries.length)) ∧
          t.catalogue = s.catalogue) ∧
      (∀ added, Payload.EntriesAre role payload added → entries.length + added.length ≤ 64 →
        AnsweredOn s t (portOfRole role) (okTo .batchAdd tag (be 1 (entries.length + added.length))) ∧
          t.catalogue = s.catalogue.setBatch role (some (entries ++ added))) ∧
      t = { s with
        ports := t.ports, catalogue := t.catalogue, timers := (s.startTimer (.batchIdle role) 30000).timers }

/-- BATCH_DISCARD: R10. -/
def Obligations.BatchDiscardClosesOrRefuses : Prop :=
  ∀ (s : State) (role : WritingRole) (tag : Byte), s.Takes (portOfRole role) →
    (∀ entries, s.catalogue.batch role = some entries →
      ∃ t, exec (.batchDiscard (portOfRole role) tag []) s = .next t ∧
        AnsweredOn s t (portOfRole role) (okTo .batchDiscard tag []) ∧
        t = { s with
          ports := t.ports
          catalogue := s.catalogue.setBatch role none
          timers := (s.stopTimer (.batchIdle role)).timers }) ∧
    (s.catalogue.batch role = none →
      ∃ t, exec (.batchDiscard (portOfRole role) tag []) s = .next t ∧
        AnsweredOn s t (portOfRole role) (refusalOf .batchDiscard tag .noBatch []) ∧ t = { s with ports := t.ports })

/-- A successful BATCH_COMMIT: R16, with R5, R18, R20 and R21, and what its hand-off makes of the controller: R69 to R72,
R79. A refused one: R12, R13, R17. What validation comes to, entry by entry and kind by kind: R13, R14, R15. -/
def Obligations.BatchCommitInstallsBatchOrKeepsIt : Prop :=
  (∀ (s : State) (t : Table Item) (i : Nat), s.validate i t [] = .ok t) ∧
  (∀ (s : State) (t : Table Item) (i : Nat) (e : BatchEntry) (rest : List BatchEntry), ∃ o, EntryChecked s t e o ∧
    (∀ reason, o = .error reason → s.validate i t (e :: rest) = .error (reason, i)) ∧
    (∀ r, o = .ok r → ∃ u, Table.find (entryItem e) u = r ∧
      (∀ k, k ≠ entryItem e → Table.find k u = Table.find k t) ∧
      s.validate i t (e :: rest) = s.validate (i + 1) u rest)) ∧
  (∀ (s : State) (role : WritingRole) (tag : Byte), s.Takes (portOfRole role) → s.catalogue.batch role = none →
    AnswersOnly s (.batchCommit (portOfRole role) tag []) (portOfRole role)
      (refusalOf .batchCommit tag .noBatch [])) ∧
  (∀ (s : State) (role : WritingRole) (tag : Byte) (entries : List BatchEntry) (items : Table Item),
      s.Takes (portOfRole role) → s.catalogue.batch role = some entries →
      ¬ (role = .store ∧ s.freeze.state.inForce = true) → s.validate 0 s.catalogue.items entries = .ok items →
      ∃ t, exec (.batchCommit (portOfRole role) tag []) s = .next t ∧
        Holds t (portOfRole role) (okTo .batchCommit tag (be 4 t.catalogue.generation ++
          [flagByte (decide (role = .store ∧ s.catalogue.lease = .expired))])) ∧
        t.catalogue.items = items ∧
        t.catalogue.generation = (if s.catalogue.generation = 4294967295 then 1 else s.catalogue.generation + 1) ∧
        t.catalogue.batch role = none ∧ t.timeLeft (.batchIdle role) = none ∧
        (∀ other, other ≠ role → t.catalogue.batch other = s.catalogue.batch other) ∧
        t.photo = s.photo.movePins (photoRefs s.catalogue.items) (photoRefs items) ∧
        (role = .media → t.catalogue.lease = s.catalogue.lease ∧ t.timeLeft .priceLease = s.timeLeft .priceLease) ∧
        (role = .store → t.catalogue.lease = .live ∧ t.timeLeft .priceLease = some s.leaseMs) ∧
        (role = .store → s.catalogue.lease = .expired → ∀ l, s.portFitted (.lane l) = true →
          FlagSet t (.lane l) .pricesRestored) ∧
        t.changeover.current = { s.changeover.current with
          generation := t.catalogue.generation
          visibility := if role = .store ∧ s.catalogue.lease = .expired then .shown else s.changeover.current.visibility } ∧
        TargetHanded s t t.changeover.current ∧
        t = { s with
          ports := t.ports, catalogue := t.catalogue, timers := t.timers, photo := t.photo, changeover := t.changeover
          freeze := t.freeze, links := t.links, composer := t.composer }) ∧
  (∀ (s : State) (role : WritingRole) (tag : Byte) (entries : List BatchEntry),
      s.Takes (portOfRole role) → s.catalogue.batch role = some entries →
      (role = .store → s.freeze.state.inForce = true →
        ∃ t, exec (.batchCommit (portOfRole role) tag []) s = .next t ∧
          AnsweredOn s t (portOfRole role) (refusalOf .batchCommit tag .commitRefused [5, 255]) ∧
          t = { s with ports := t.ports, timers := (s.startTimer (.batchIdle role) 30000).timers }) ∧
      (∀ reason i, ¬ (role = .store ∧ s.freeze.state.inForce = true) →
        s.validate 0 s.catalogue.items entries = .error (reason, i) →
        ∃ t, exec (.batchCommit (portOfRole role) tag []) s = .next t ∧
          AnsweredOn s t (portOfRole role) (refusalOf .batchCommit tag .commitRefused (reason.byte :: be 1 i)) ∧
          t = { s with ports := t.ports, timers := (s.startTimer (.batchIdle role) 30000).timers }))

/-- LEASE_RENEW: R20. The price lease expires: R22, with the composition it cuts short, R64. What the handed visibility makes
of the controller: R69 to R72, R79, after the end of a freeze in force, R184 and R185. That the time left on the lease
timer passes on every timer, that of the changeover limit among them, is the model's choice (log 2). -/
def Obligations.LeaseRenewalAndExpiryMoveVisibility : Prop :=
  (∀ (s : State) (tag : Byte), s.Takes .store →
      ∃ t, exec (.leaseRenew .store tag []) s = .next t ∧
        t.catalogue = { s.catalogue with lease := .live } ∧ t.timeLeft .priceLease = some s.leaseMs ∧
        (s.catalogue.lease = .live →
          AnsweredOn s t .store (okTo .leaseRenew tag [0]) ∧
          t = { s with ports := t.ports, timers := (s.startTimer .priceLease s.leaseMs).timers }) ∧
        (s.catalogue.lease = .expired →
          Holds t .store (okTo .leaseRenew tag [1]) ∧ t.freeze.state.inForce = false ∧
          (s.freeze.state.inForce = true → t.freeze.lastEnd = some .lease ∧ t.timeLeft .freezeLimit = none) ∧
          t.changeover.current = { s.changeover.current with visibility := .shown } ∧
          TargetHandedAfterFreeze s t { s.changeover.current with visibility := .shown } ∧
          (∀ l, s.portFitted (.lane l) = true → FlagSet t (.lane l) .pricesRestored) ∧
          t = { s with
            ports := t.ports, catalogue := t.catalogue, timers := t.timers, changeover := t.changeover
            freeze := t.freeze, links := t.links, composer := t.composer })) ∧
  (∀ (s : State) (left : Nat), s.timeLeft .priceLease = some left →
      ∃ t, exec .priceLeaseExpiry s = .next t ∧
        t.catalogue = { s.catalogue with lease := .expired } ∧ t.timeLeft .priceLease = none ∧
        t.freeze.state.inForce = false ∧ (s.freeze.state.inForce = true → t.freeze.lastEnd = some .lease) ∧
        t.changeover.current = { s.changeover.current with visibility := .withheld } ∧
        TargetHandedAfterFreeze { s.elapse left with composer := leaseCut s } t
          { s.changeover.current with visibility := .withheld } ∧
        (∀ l, s.portFitted (.lane l) = true → FlagSet t (.lane l) .pricesWithheld) ∧ FlagSet t .store .leaseExpired ∧
        t = { s with
          ports := t.ports, catalogue := t.catalogue, timers := t.timers, changeover := t.changeover
          freeze := t.freeze, links := t.links, composer := t.composer })

/-- A batch's idle timer expires: R11. -/
def Obligations.BatchIdleExpiryDiscardsBatch : Prop :=
  ∀ (s : State) (role : WritingRole) (left : Nat), s.timeLeft (.batchIdle role) = some left →
    ∃ t, exec (.batchIdleExpiry role) s = .next t ∧
      t.catalogue = s.catalogue.setBatch role none ∧ t.timeLeft (.batchIdle role) = none ∧
      FlagSet t (portOfRole role) .batchDiscarded ∧
      t = { s with ports := t.ports, catalogue := t.catalogue, timers := t.timers }

/-- The minute timer expires: R24; that the time left on it passes on every timer is the model's choice (log 2). The
promotion-end commit: R25, on countdowns that stand at 0 (a row of its own: log 6). What the handed generation makes of the
controller: R69 to R72, R79, after the end of a freeze in force, R184 and R185. -/
def Obligations.MinutesLowerAndEndPromotions : Prop :=
  (∀ (s : State) (left : Nat), s.timeLeft .minute = some left →
      ∃ t, exec .minuteTimerExpiry s = .next t ∧ t.timeLeft .minute = some 60000 ∧
        PromotionsChanged s.catalogue.items t.catalogue.items
          (fun x => if x.minutes ≤ 1 then none else some { x with minutes := x.minutes - 1 }) ∧
        (¬ CountdownDue s.catalogue.items 1 →
          t = { s with
            timers := (((s.elapse left).stopTimer .minute).startTimer .minute 60000).timers
            catalogue := { s.catalogue with items := t.catalogue.items } }) ∧
        (CountdownDue s.catalogue.items 1 →
          t.catalogue = { s.catalogue with
            items := t.catalogue.items
            generation := if s.catalogue.generation = 4294967295 then 1 else s.catalogue.generation + 1 } ∧
          TargetHandedAfterFreeze (s.elapse left) t
            { s.changeover.current with generation := t.catalogue.generation } ∧
          t.freeze.state.inForce = false ∧ (s.freeze.state.inForce = true → t.freeze.lastEnd = some .promo) ∧
          t.changeover.current = { s.changeover.current with generation := t.catalogue.generation } ∧
          FlagSet t .store .promoEnded) ∧
        t = { s with
          ports := t.ports, catalogue := t.catalogue, timers := t.timers, changeover := t.changeover
          freeze := t.freeze, links := t.links, composer := t.composer }) ∧
  (∀ s : State,
      (¬ CountdownDue s.catalogue.items 0 → exec .promotionEndCommit s = .next s) ∧
      (CountdownDue s.catalogue.items 0 →
        ∃ t, exec .promotionEndCommit s = .next t ∧
          PromotionsChanged s.catalogue.items t.catalogue.items (fun x => if x.minutes = 0 then none else some x) ∧
          t.catalogue = { s.catalogue with
            items := t.catalogue.items
            generation := if s.catalogue.generation = 4294967295 then 1 else s.catalogue.generation + 1 } ∧
          t.freeze.state.inForce = false ∧ (s.freeze.state.inForce = true → t.freeze.lastEnd = some .promo) ∧
          t.changeover.current = { s.changeover.current with generation := t.catalogue.generation } ∧
          TargetHandedAfterFreeze s t { s.changeover.current with generation := t.catalogue.generation } ∧
          FlagSet t .store .promoEnded ∧
          t = { s with
            ports := t.ports, catalogue := t.catalogue, timers := t.timers, changeover := t.changeover
            freeze := t.freeze, links := t.links, composer := t.composer }))

/-- ITEM_READ: R26. PRICE_QUERY: R27. The layouts of the answers are those of R204. -/
def Obligations.CatalogueReadsGiveCommittedRecords : Prop :=
  (∀ (s : State) (p : PortId) (tag : Byte) (item : Nat) (r : Item), s.Takes p → item ≤ 511 →
      Table.find item s.catalogue.items = some r →
      ∃ t, exec (.itemRead p tag (be 2 item)) s = .next t ∧
        AnsweredOn s t p (okTo .itemRead tag (be 4 s.catalogue.generation ++ be 1 r.variants.length ++
          be 1 r.dayParts.toNat ++ glyphBytes r.label ++ [noneByte r.photo] ++
          r.variants.flatMap fun v =>
            be 3 v.price ++ [v.availability.byte] ++ optBytes 5 (v.promotion.map fun x => be 3 x.price ++ be 2 x.minutes))) ∧
        t = { s with ports := t.ports }) ∧
  (∀ (s : State) (p : PortId) (tag : Byte) (item variant : Nat) (r : Item) (v : Variant), s.Takes p → item ≤ 511 →
      variant ≤ 3 → Table.find item s.catalogue.items = some r → r.variants[variant]? = some v →
      ∃ t, exec (.priceQuery p tag (be 2 item ++ be 1 variant)) s = .next t ∧
        AnsweredOn s t p (okTo .priceQuery tag (be 3 (match v.promotion with | none => v.price | some x => x.price) ++
          [v.availability.byte, if s.catalogue.lease = .live then 0 else 1] ++ be 4 s.catalogue.generation ++
          [flagByte (match s.clock.storeState with | .closed => false | .opened d => r.dayParts.getLsbD d.val)])) ∧
        t = { s with ports := t.ports })

/-! ## Board plans (chapter 2) -/

/-- PLAN_LOAD: R34, R35 and R36, with R30, R40, R42 and the layout of R202, in the words of Sys2Proof/Payloads.lean; the
length of a TEXT placement whose count is above 24 is the model's reading (log 14). PLAN_CLEAR: R38. -/
def Obligations.PlanRequestsReplacePlan : Prop :=
  (∀ (s : State) (tag : Byte) (p : PanelNo) (d : DayPart) (placements : List Placement),
      s.Takes .media → placements.length ≤ 48 → s.linkFitted p = true →
      (∀ pl ∈ placements, Payload.PlacementPasses s p pl) →
      ∃ t, exec (.planLoad .media tag (be 1 p.val ++ be 1 d.val ++ be 1 placements.length ++
          placements.flatMap Payload.placement)) s = .next t ∧
        AnsweredOn s t .media (okTo .planLoad tag (be 2 ((s.plan p d).revision + 1).toNat)) ∧
        t.plan p d = ⟨placements, (s.plan p d).revision + 1⟩ ∧
        (∀ q e, (q ≠ p ∨ e ≠ d) → t.plan q e = s.plan q e) ∧
        t.photo = s.photo.movePins (s.plan p d).pins (Plan.pins ⟨placements, (s.plan p d).revision + 1⟩) ∧
        t.composer = (if (s.composeTarget p).dayPart = d then s.composeRequest p (Reason.set .plan) else s).composer ∧
        t = { s with ports := t.ports, plans := t.plans, photo := t.photo, composer := t.composer }) ∧
  (∀ (s : State) (tag panel dayPart count : Byte) (bytes : List Byte), s.Takes .media → bytes.length ≤ 4101 →
      ((5 < panel.toNat ∨ 3 < dayPart.toNat ∨ 48 < count.toNat) →
        AnswersOnly s (.planLoad .media tag (panel :: dayPart :: count :: bytes)) .media
          (refusalOf .planLoad tag .badField (be 1 0))) ∧
      (panel.toNat ≤ 5 → dayPart.toNat ≤ 3 → count.toNat ≤ 48 →
        ∀ index, Payload.PlanFault count.toNat bytes index →
          AnswersOnly s (.planLoad .media tag (panel :: dayPart :: count :: bytes)) .media
            (refusalOf .planLoad tag .badField (be 1 index))) ∧
      (∀ (p : PanelNo) (placements : List (List Byte)), panel.toNat = p.val → dayPart.toNat ≤ 3 → count.toNat ≤ 48 →
        Payload.PlacementsWhole count.toNat bytes placements →
        (s.linkFitted p = false →
          AnswersOnly s (.planLoad .media tag (panel :: dayPart :: count :: bytes)) .media
            (refusalOf .planLoad tag .badField (be 1 0))) ∧
        (s.linkFitted p = true → ∀ (good : List Placement) (w : List Byte) (later : List (List Byte)) (status : Status),
          placements = good.map Payload.placement ++ w :: later →
          (∀ pl ∈ good, Payload.PlacementPasses s p pl) → Payload.PlacementRefused s p w status →
          AnswersOnly s (.planLoad .media tag (panel :: dayPart :: count :: bytes)) .media
            (refusalOf .planLoad tag status (be 1 good.length))))) ∧
  (∀ (s : State) (tag : Byte) (p : PanelNo) (d : DayPart), s.Takes .media → s.linkFitted p = true →
      ∃ t, exec (.planClear .media tag (be 1 p.val ++ be 1 d.val)) s = .next t ∧
        AnsweredOn s t .media (okTo .planClear tag (be 2 ((s.plan p d).revision + 1).toNat)) ∧
        t.plan p d = ⟨[], (s.plan p d).revision + 1⟩ ∧
        (∀ q e, (q ≠ p ∨ e ≠ d) → t.plan q e = s.plan q e) ∧
        t.photo = s.photo.movePins (s.plan p d).pins (fun _ => 0) ∧
        t.composer = (if (s.composeTarget p).dayPart = d then s.composeRequest p (Reason.set .plan) else s).composer ∧
        t = { s with ports := t.ports, plans := t.plans, photo := t.photo, composer := t.composer }) ∧
  (∀ (s : State) (tag panel dayPart : Byte), s.Takes .media →
      (5 < panel.toNat ∨ 3 < dayPart.toNat ∨ ∃ p : PanelNo, panel.toNat = p.val ∧ s.linkFitted p = false) →
      AnswersOnly s (.planClear .media tag [panel, dayPart]) .media (refusalOf .planClear tag .badField []))

/-- A placement fits a panel: R31. -/
def Obligations.PlacementFitsInsideGridAndRole : Prop :=
  ∀ (s : State) (p : PanelNo) (pl : Placement),
    s.placementFits p pl = true ↔
      pl.rect.column + pl.rect.width ≤ (s.grid p).columns ∧ pl.rect.row + pl.rect.height ≤ (s.grid p).rows ∧
      (s.role p = .menu → ∀ c, pl.kind ≠ .order c ∧ pl.kind ≠ .total c)

/-! ## Composition (chapter 3) -/

/-- What the Composer does with a compose request, by the panel's state: R46. -/
def Obligations.ComposeRequestByPanelState : Prop :=
  ∀ (s : State) (p : PanelNo) (r : ReasonSet),
    (s.live p = false → s.composeRequest p r = s) ∧
    (∀ c, s.live p = true → s.composer.engine = some c → c.panel = p →
      s.composeRequest p r =
        { s with composer := { s.composer with
          engine := some { c with again := true, againReasons := c.againReasons ||| r } } }) ∧
    (s.live p = true → s.composing p = false → (∃ e ∈ s.composer.queue, e.panel = p) →
      s.composeRequest p r =
        { s with composer := { s.composer with
          queue := s.composer.queue.map fun e => if e.panel = p then { e with reasons := e.reasons ||| r } else e } }) ∧
    (s.live p = true → s.composing p = false → (∀ e ∈ s.composer.queue, e.panel ≠ p) →
      s.composeRequest p r =
        { s with composer := { s.composer with queue := s.composer.queue ++ [⟨p, r⟩] } })

/-- The compose target of a panel, and when two targets are equal: R49. -/
def Obligations.ComposeTargetFollowsMembership : Prop :=
  (∀ (s : State) (p : PanelNo) (u : Target), s.changeover.controller.inFlight = some u →
    (s.changeover.members.get p).isSome = true → s.composeTarget p = u) ∧
  (∀ (s : State) (p : PanelNo), (s.changeover.controller.inFlight = none ∨ s.changeover.members.get p = none) →
    s.composeTarget p = s.changeover.settled) ∧
  (∀ a b : Target, a = b ↔ a.generation = b.generation ∧ a.dayPart = b.dayPart ∧ a.visibility = b.visibility)

/-- COMPOSITION_START: R50 and R51, with the background of R52; the start check: R50. -/
def Obligations.CompositionStartCopiesAndBusies : Prop :=
  (∀ (s : State) (p : PanelNo), s.startCheck p = true ↔
    (s.composeTarget p).generation = s.catalogue.generation ∧
    (s.catalogue.lease = .expired → (s.composeTarget p).visibility = .withheld)) ∧
  ∀ (s : State) (e : QueueEntry), s.composer.engine = none → s.freeze.state = .off →
    s.composer.queue.find? (fun x => s.startCheck x.panel) = some e →
    ∃ t c, exec .compositionStart s = .next t ∧
      t = { s with composer := { s.composer with
        queue := s.composer.queue.filter (fun x => x.panel ≠ e.panel), engine := some c } } ∧
      c.panel = e.panel ∧ c.reasons = e.reasons ∧ c.target = s.composeTarget e.panel ∧
      c.planRevision = (s.plan e.panel (s.composeTarget e.panel).dayPart).revision ∧
      c.todo = (s.plan e.panel (s.composeTarget e.panel).dayPart).placements ∧
      (s.role e.panel = .menu → c.holdCopy = none) ∧
      (∀ l, s.role e.panel = .lane l → ∃ x, c.holdCopy = some x ∧ x.revision = (s.lanes.get l).revision ∧
        x.hold = (s.lanes.get l).focus.bind fun h => Table.find h.val (s.lanes.get l).holds) ∧
      c.again = false ∧ c.againReasons = 0 ∧ c.lost = false ∧
      Painting.Filled c.picture (s.grid e.panel) (BitVec.ofNat 4 (s.profileNat 19))

/-- COMPOSITION_COMPLETE: the judgement and the staging of R60, the record, the engine and the freeze report of R61, and a
member's progress with the checks that follow: R74, R75. That the placements left are painted at the completion, from the
state as it then stands, is the model's choice (log 7); what each kind of placement draws: R53 to R58. `closed` is the Composer as steps 1 to 3 of R61 leave it; with the
freeze OFF the engine goes on to the first entry that passes the start check (step 5, R50, R51). -/
def Obligations.CompositionCompleteStagesOrDiscards : Prop :=
  ∀ (s : State) (c : Composition), s.composer.engine = some c →
    ∃ t closed, exec .compositionComplete s = .next t ∧
      (t.composer.last.get c.panel).map LastComposition.outcome = some (s.judge c) ∧
      (s.judge c = .staged ↔ c.lost = false ∧ s.composeTarget c.panel = c.target ∧
        s.catalogue.generation = c.target.generation) ∧
      (s.judge c = .staged → ∃ f, (t.link c.panel).staged = some f ∧
        (t.link c.panel).sequence = (s.link c.panel).sequence + 1 ∧
        f.record.sequence = (s.link c.panel).sequence + 1 ∧ f.record.kind = c.frameKind ∧
        f.record.checksum = crc32 (Config.pictureData f.picture) ∧
        Painting.AllPainted s c.target c.holdCopy c.todo c.picture f.picture) ∧
      (s.judge c ≠ .staged → t.links = s.links ∧ t.changeover = s.changeover) ∧
      (∀ u, s.judge c = .staged → s.changeover.controller.inFlight = some u →
        s.changeover.members.get c.panel = some .queued →
        MembersChecked { s.changeover with members := s.changeover.members.set c.panel (some .staged) }
          t.changeover u) ∧
      ((s.changeover.controller = .idle ∨ s.changeover.members.get c.panel ≠ some .queued) →
        t.changeover = s.changeover) ∧
      (∀ q, q ≠ c.panel → t.link q = s.link q) ∧
      (∀ m r, s.freeze.state = .freezing m r → t.freeze = { s.freeze with state := .frozen m r }) ∧
      closed = ({
        queue := if c.again = true ∧ s.live c.panel = true then s.composer.queue ++ [⟨c.panel, c.againReasons⟩]
          else s.composer.queue
        engine := none
        last := s.composer.last.set c.panel
          (some ⟨s.judge c, c.reasons, c.target, c.planRevision, c.holdCopy.map HoldCopy.revision⟩) } : Composer) ∧
      (s.freeze.state.inForce = true → t.composer = closed) ∧
      (s.freeze.state.inForce = false → (∀ e ∈ closed.queue, t.startCheck e.panel = false) → t.composer = closed) ∧
      (∀ before e after, s.freeze.state.inForce = false → closed.queue = before ++ e :: after →
        (∀ x ∈ before, t.startCheck x.panel = false) → t.startCheck e.panel = true →
        ∃ d, t.composer = { closed with
          queue := closed.queue.filter (fun x => x.panel ≠ e.panel), engine := some d } ∧
          d.panel = e.panel ∧ d.reasons = e.reasons ∧ d.target = t.composeTarget e.panel) ∧
      t = { s with
        ports := t.ports, composer := t.composer, links := t.links, changeover := t.changeover, timers := t.timers
        freeze := t.freeze }

/-! ## Changeover and freeze (chapters 4 and 9) -/

/-- A changeover starts or settles at once: R70, R71; the compose requests of a start: R47. -/
def Obligations.ChangeoverStartQueuesLivePanels : Prop :=
  ∀ s : State,
    (s.anyLive = true →
      s.startChangeover.changeover.controller = .staging s.changeover.current ∧
      (∀ p, s.startChangeover.changeover.members.get p = if s.live p then some .queued else none) ∧
      (∀ p, s.live p = true →
        s.startChangeover.link p = { s.link p with staged := none }) ∧
      (∀ p, s.live p = false → s.startChangeover.link p = s.link p) ∧
      s.startChangeover.composer = changeoverAsked s ∧
      s.startChangeover.timeLeft .changeoverLimit = some s.changeoverLimitMs) ∧
    (s.anyLive = false →
      s.startChangeover.changeover = { s.changeover with
        controller := .idle, settled := s.changeover.current, members := noMembers, lastResult := .done
        lagging := noLagging } ∧
      s.startChangeover.links = s.links ∧ s.startChangeover.composer = s.composer ∧
      FlagSet s.startChangeover .store .changeoverDone ∧ FlagSet s.startChangeover .media .changeoverDone)

/-- The changeover limit expires: R85, with one compose request for each member that was QUEUED, in panel number order
(R47). -/
def Obligations.ChangeoverLimitSettlesPartial : Prop :=
  ∀ (s : State) (left : Nat) (u : Target), s.timeLeft .changeoverLimit = some left →
    s.changeover.controller.inFlight = some u →
    ∃ t, exec .changeoverLimitExpiry s = .next t ∧
      t.changeover = { s.changeover with
        controller := .idle, settled := u, members := noMembers, lastResult := .partly
        lagging := PerPanel.ofFn fun p => lags (s.changeover.members.get p) } ∧
      (∀ p, s.changeover.members.get p ≠ some .queued → t.link p = s.link p) ∧
      (∀ p, s.changeover.members.get p = some .queued → ∃ f, (t.link p).staged = some f ∧ f.record.kind = .slate ∧
        Painting.Filled f.picture (s.grid p) (BitVec.ofNat 4 (s.profileNat 19)) ∧
        f.record.sequence = (s.link p).sequence + 1 ∧
        (t.link p).sequence = (s.link p).sequence + 1) ∧
      t.composer = (s.composeRequests (allPanels.filter fun p => s.changeover.members.get p = some .queued)
        (Reason.set .lagging)).composer ∧
      t.timeLeft .changeoverLimit = none ∧ FlagSet t .store .changeoverPartial ∧ FlagSet t .media .changeoverPartial ∧
      t = { s with
        ports := t.ports, composer := t.composer, links := t.links, changeover := t.changeover, timers := t.timers }

/-- Which staged frames the flip gate lets through: R77. A frame boundary of a live link: R102, R103, R104, with the frame
put out in the layout of R205, and a member's progress with the checks that follow: R74, R75. What the forward path carries
in each state: R91, R104. -/
def Obligations.FrameBoundaryFlipsThroughGate : Prop :=
  (∀ (s : State) (k : FrameKind),
      s.gatePasses k = true ↔
        k = .slate ∨ (∃ u r l, k = .composed u r l ∧ (u = s.changeover.settled ∨ s.changeover.controller = .armed u))) ∧
  (∀ (s : State) (p : PanelNo) (left : Nat) (d : Descriptor), s.timeLeft (.framePeriod p) = some left →
      s.live p = true → (s.link p).descriptor = some d →
      ∃ t, exec (.frameBoundary p) s = .next t ∧ t.timeLeft (.framePeriod p) = some d.period ∧
        (∀ f, (s.link p).staged = some f → s.gatePasses f.record.kind = true →
          t.link p = { s.link p with
            showing := some f, staged := none, mismatchMark := false
            transmitting := some (Layout.transmitted f)
            state := if f.record.kind = .slate then .locked else .streaming }) ∧
        (((s.link p).staged = none ∨ ∃ f, (s.link p).staged = some f ∧ s.gatePasses f.record.kind = false) →
          t.link p = { s.link p with transmitting := (s.link p).showing.map Layout.transmitted } ∧
          t.changeover = s.changeover) ∧
        (∀ f, (t.link p).showing = some f → t.forwardPath p = .frames (Layout.transmitted f)) ∧
        (∀ f u, (s.link p).staged = some f → s.gatePasses f.record.kind = true →
          s.changeover.controller.inFlight = some u → s.changeover.members.get p = some .staged →
          f.record.kind.carries u = true →
          MembersChecked { s.changeover with members := s.changeover.members.set p (some .flipped) } t.changeover u) ∧
        (∀ f, (s.link p).staged = some f →
          (∀ u, s.changeover.controller.inFlight = some u → s.changeover.members.get p = some .staged →
            f.record.kind.carries u = false) → t.changeover = s.changeover) ∧
        (∀ q, q ≠ p → t.link q = s.link q) ∧
        t = { s with ports := t.ports, links := t.links, timers := t.timers, changeover := t.changeover }) ∧
  (∀ (s : State) (p : PanelNo),
      ((s.link p).state = .off ∨ (s.link p).state = .dark → s.forwardPath p = .poweredDown) ∧
      ((s.link p).state = .detached ∨ (s.link p).state = .rejected → s.forwardPath p = .silent) ∧
      (∀ left, (s.link p).state = .training → s.timeLeft (.trainingLimit p) = some left →
        s.forwardPath p = .trainingPattern (250 - left)) ∧
      ((s.link p).state = .test → s.forwardPath p = .testPattern) ∧
      (∀ bytes, s.live p = true → (s.link p).transmitting = some bytes → s.forwardPath p = .frames bytes))

/-- FREEZE with the freeze OFF and the controller IDLE: R179, R180, with the composition that STOP_NOW abandons: R63. The
refusals of R179, in the order of its checks. -/
def Obligations.FreezeTakesHold : Prop :=
  (∀ (s : State) (role : WritingRole) (tag mode : Byte) (status : Status) (payload : List Byte),
    s.Takes (portOfRole role) →
    ((1 < mode.toNat ∧ status = .badField ∧ payload = []) ∨
      (mode.toNat ≤ 1 ∧ status = .freezeActive ∧ ∃ m r,
        (s.freeze.state = .freezing m r ∧
          payload = [1, Layout.place [FreezeMode.stopNow, .stopAfter] m, Layout.place [WritingRole.store, .media] r] ∨
        s.freeze.state = .frozen m r ∧
          payload = [2, Layout.place [FreezeMode.stopNow, .stopAfter] m, Layout.place [WritingRole.store, .media] r])) ∨
      (mode.toNat ≤ 1 ∧ s.freeze.state = .off ∧ s.changeover.controller ≠ .idle ∧ status = .busy ∧ payload = [])) →
    AnswersOnly s (.freeze (portOfRole role) tag [mode]) (portOfRole role) (refusalOf .freeze tag status payload)) ∧
  ∀ (s : State) (role : WritingRole) (tag : Byte), s.Takes (portOfRole role) → s.freeze.state = .off →
    s.changeover.controller = .idle →
    (∃ t, exec (.freeze (portOfRole role) tag [0]) s = .next t ∧
      AnsweredOn s t (portOfRole role) (okTo .freeze tag [2]) ∧
      t.freeze = { s.freeze with state := .frozen .stopNow role, targetChanged := false } ∧
      t.composer.engine = none ∧ t.timeLeft .freezeLimit = some s.freezeLimitMs ∧
      (s.composer.engine = none → t.composer = s.composer) ∧
      (∀ c, s.composer.engine = some c → t.composer = compositionCut s c) ∧
      t = { s with ports := t.ports, freeze := t.freeze, composer := t.composer, timers := t.timers }) ∧
    (∃ t, exec (.freeze (portOfRole role) tag [1]) s = .next t ∧
      AnsweredOn s t (portOfRole role) (okTo .freeze tag [if s.composer.engine.isSome then 1 else 2]) ∧
      t.freeze = { s.freeze with
        state := if s.composer.engine.isSome then .freezing .stopAfter role else .frozen .stopAfter role
        targetChanged := false } ∧
      t = { s with
        ports := t.ports, freeze := t.freeze, timers := (s.startTimer .freezeLimit s.freezeLimitMs).timers })

/-- UNFREEZE: R183. The freeze limit expires: R184. What an end of the freeze makes of a change of the target held back:
R185 with R70 to R72, the controller being IDLE under a freeze (R178). -/
def Obligations.UnfreezeOrLimitEndsFreeze : Prop :=
  (∀ (s : State) (role : WritingRole) (tag : Byte), s.Takes (portOfRole role) →
      (s.freeze.state.inForce = false →
        ∃ t, exec (.unfreeze (portOfRole role) tag []) s = .next t ∧
          AnsweredOn s t (portOfRole role) (okTo .unfreeze tag [0]) ∧ t = { s with ports := t.ports }) ∧
      (∀ m owner, s.freeze.state.holder = some (m, owner) → (role = .store ∨ owner = .media) →
        ∃ t, exec (.unfreeze (portOfRole role) tag []) s = .next t ∧ Holds t (portOfRole role) (okTo .unfreeze tag [1]) ∧
          t.freeze = ⟨.off, false, some .unfreeze⟩ ∧ t.timeLeft .freezeLimit = none ∧
          FlagSet t .store .freezeEnded ∧ FlagSet t .media .freezeEnded ∧
          t.changeover.current = s.changeover.current ∧ TargetHandedAfterFreeze s t s.changeover.current ∧
          t = { s with
            ports := t.ports, freeze := t.freeze, timers := t.timers, changeover := t.changeover, links := t.links
            composer := t.composer }) ∧
      (∀ m, s.freeze.state.holder = some (m, .store) → role = .media →
        ∃ t, exec (.unfreeze (portOfRole role) tag []) s = .next t ∧
          AnsweredOn s t (portOfRole role) (refusalOf .unfreeze tag .notOwner []) ∧ t = { s with ports := t.ports })) ∧
  (∀ (s : State) (left : Nat), s.timeLeft .freezeLimit = some left → s.freeze.state.inForce = true →
      ∃ t, exec .freezeLimitExpiry s = .next t ∧ t.freeze = ⟨.off, false, some .limit⟩ ∧
        t.timeLeft .freezeLimit = none ∧ FlagSet t .store .freezeEnded ∧ FlagSet t .media .freezeEnded ∧
        t.changeover.current = s.changeover.current ∧ TargetHandedAfterFreeze s t s.changeover.current ∧
        t = { s with
          ports := t.ports, freeze := t.freeze, timers := t.timers, changeover := t.changeover, links := t.links
          composer := t.composer })

/-! ## Panel links (chapter 5) -/

/-- A PRESENT report taken in DETACHED: R95. One taken in a live state is a lock loss: R96, R99, R100, with the departure of
its panel from the Composer and the member set: R48, R82. One taken in TRAINING,
REJECTED, DARK or TEST: R96; the detach timer restarts at every good report (R94). -/
def Obligations.PresentReportAnnouncesPanel : Prop :=
  (∀ (s : State) (p : PanelNo) (columns rows period : Byte) (model : BitVec 16),
      s.phase = .running → (s.link p).state = .detached → Report.presentInRange columns rows period = true →
      ∃ t, exec (.present p columns rows period model) s = .next t ∧
        (t.link p).descriptor = some ⟨⟨columns.toNat, rows.toNat⟩, period.toNat, model⟩ ∧
        (t.link p).good = countUp (s.link p).good ∧ t.timeLeft (.detach p) = some 2000 ∧
        (t.link p).state = (if (s.link p).causes.isEmpty = false then .dark
          else if (⟨columns.toNat, rows.toNat⟩ : Grid) = s.grid p then .training else .rejected) ∧
        ((t.link p).state = .training → t.timeLeft (.trainingLimit p) = some 250 ∧ (t.link p).restarts = 0) ∧
        ((t.link p).state = .rejected → FlagSet t .store .panelEvent ∧ FlagSet t .media .panelEvent) ∧
        (∀ q, q ≠ p → t.link q = s.link q) ∧
        t = { s with ports := t.ports, links := t.links, timers := t.timers }) ∧
  (∀ (s : State) (p : PanelNo) (columns rows period : Byte) (model : BitVec 16),
      s.phase = .running → s.live p = true → Report.presentInRange columns rows period = true →
      ∃ t, exec (.present p columns rows period model) s = .next t ∧
        (t.link p).descriptor = some ⟨⟨columns.toNat, rows.toNat⟩, period.toNat, model⟩ ∧
        (t.link p).state = (if (⟨columns.toNat, rows.toNat⟩ : Grid) = s.grid p then .training else .rejected) ∧
        LeftLive s t p ∧ t.changeover.members.get p = none ∧ (∀ e ∈ t.composer.queue, e.panel ≠ p) ∧
        FlagSet t .store .panelEvent ∧ FlagSet t .media .panelEvent ∧ (∀ q, q ≠ p → t.link q = s.link q) ∧
        t = { s with
          ports := t.ports, links := t.links, timers := t.timers, composer := t.composer, changeover := t.changeover }) ∧
  (∀ (s : State) (p : PanelNo) (columns rows period : Byte) (model : BitVec 16) (v : LinkState),
      s.phase = .running → (s.link p).state = v → Report.presentInRange columns rows period = true →
      (v = .training ∨ v = .rejected ∨ v = .dark ∨ v = .test) →
      ∃ t, exec (.present p columns rows period model) s = .next t ∧
        t.link p = { s.link p with
          descriptor := some ⟨⟨columns.toNat, rows.toNat⟩, period.toNat, model⟩
          good := countUp (s.link p).good
          restarts := (t.link p).restarts
          state :=
            if v = .training ∧ (⟨columns.toNat, rows.toNat⟩ : Grid) ≠ s.grid p then .rejected
            else if v = .rejected ∧ (⟨columns.toNat, rows.toNat⟩ : Grid) = s.grid p then .training
            else v } ∧
        (t.link p).restarts = (if v = .rejected ∧ (⟨columns.toNat, rows.toNat⟩ : Grid) = s.grid p then 0
          else (s.link p).restarts) ∧
        t.timeLeft (.trainingLimit p) =
          (if v = .training ∧ (⟨columns.toNat, rows.toNat⟩ : Grid) ≠ s.grid p then none
            else if v = .rejected ∧ (⟨columns.toNat, rows.toNat⟩ : Grid) = s.grid p then some 250
            else s.timeLeft (.trainingLimit p)) ∧
        (v = .rejected → (⟨columns.toNat, rows.toNat⟩ : Grid) = s.grid p → t.forwardPath p = .trainingPattern 0) ∧
        t.timeLeft (.detach p) = (s.timeLeft (.detach p)).map (fun _ => 2000) ∧
        (v = .training ∧ (⟨columns.toNat, rows.toNat⟩ : Grid) ≠ s.grid p →
          FlagSet t .store .panelEvent ∧ FlagSet t .media .panelEvent) ∧
        (¬ (v = .training ∧ (⟨columns.toNat, rows.toNat⟩ : Grid) ≠ s.grid p) → t.ports = s.ports) ∧
        (∀ q, q ≠ p → t.link q = s.link q) ∧
        t = { s with ports := t.ports, links := t.links, timers := t.timers })

/-- A LOCKED report taken in TRAINING: R98, with R81; the compose requests with reasons CHANGEOVER and LOCK merge (R46).
The training limit expires in TRAINING and the training pattern restarts from its beginning: R97. -/
def Obligations.TrainingLocksOrRestarts : Prop :=
  (∀ (s : State) (p : PanelNo) (d : Descriptor), s.phase = .running → (s.link p).state = .training →
      (s.link p).descriptor = some d →
      ∃ t f, exec (.locked p) s = .next t ∧ (t.link p).state = .locked ∧ (t.link p).showing = some f ∧
        Painting.Filled f.picture (s.grid p) (BitVec.ofNat 4 (s.profileNat 19)) ∧
        f.record = ⟨.slate, crc32 (Config.pictureData f.picture), (s.link p).sequence + 1⟩ ∧
        (t.link p).sequence = (s.link p).sequence + 1 ∧ (t.link p).staged = none ∧ (t.link p).confirmed = none ∧
        (t.link p).transmitting = some (Layout.transmitted f) ∧ t.forwardPath p = .frames (Layout.transmitted f) ∧
        t.timeLeft (.trainingLimit p) = none ∧
        t.timeLeft (.lockSilence p) = some 100 ∧ t.timeLeft (.framePeriod p) = some d.period ∧
        (s.changeover.controller ≠ .idle → t.changeover = { s.changeover with
          members := s.changeover.members.set p (some .queued) }) ∧
        (s.changeover.controller = .idle → t.changeover = s.changeover) ∧
        t.composer = (({ s with links := t.links } : State).composeRequest p
          (if s.changeover.controller = .idle then Reason.set .lock
            else Reason.set .changeover ||| Reason.set .lock)).composer ∧
        FlagSet t .store .panelEvent ∧ FlagSet t .media .panelEvent ∧ (∀ q, q ≠ p → t.link q = s.link q) ∧
        t = { s with
          ports := t.ports, links := t.links, timers := t.timers, composer := t.composer, changeover := t.changeover }) ∧
  (∀ (s : State) (p : PanelNo) (left : Nat), s.timeLeft (.trainingLimit p) = some left →
      (s.link p).state = .training →
      ∃ t, exec (.trainingLimitExpiry p) s = .next t ∧
        t.link p = { s.link p with restarts := if (s.link p).restarts < 255 then (s.link p).restarts + 1
          else (s.link p).restarts } ∧
        t.timeLeft (.trainingLimit p) = some 250 ∧ t.forwardPath p = .trainingPattern 0 ∧
        (∀ q, q ≠ p → t.link q = s.link q) ∧ t = { s with links := t.links, timers := t.timers })

/-- An UNLOCKED report and a lock silence expiry on a live link lose the lock: R94, R97, R99, R100; its panel leaves the
Composer and the member set, with the checks that follow: R48, R82. That the time left on the lock silence timer passes on
every timer is the model's choice (log 2): the expiry acts on the state `r` after it has passed. -/
def Obligations.LockLossReturnsLinkToTraining : Prop :=
  ∀ (s : State) (p : PanelNo) (c : Instr) (r : State), s.phase = .running → s.live p = true →
    (c = .unlocked p ∧ r = s ∨
      c = .lockSilenceExpiry p ∧ ∃ left, s.timeLeft (.lockSilence p) = some left ∧ r = s.elapse left) →
    ∃ t, exec c s = .next t ∧ (t.link p).state = .training ∧ (t.link p).restarts = 0 ∧
      (t.link p).descriptor = (s.link p).descriptor ∧ LeftLive r t p ∧
      t.timeLeft (.trainingLimit p) = some 250 ∧ t.forwardPath p = .trainingPattern 0 ∧
      t.changeover.members.get p = none ∧ (∀ e ∈ t.composer.queue, e.panel ≠ p) ∧ FlagSet t .store .panelEvent ∧
      FlagSet t .media .panelEvent ∧ (∀ q, q ≠ p → t.link q = s.link q) ∧
      t = { s with
        ports := t.ports, links := t.links, timers := t.timers, composer := t.composer, changeover := t.changeover }

/-- A SHOWN report on a live link: R106 and R107. A frame it newly confirms moves a member on, with the checks that follow,
and takes its panel out of the lagging set: R74, R75, R76, R86. That the confirmed record already holds the frame is read as
equality of the two records (log 20). -/
def Obligations.ShownReportConfirmsOrMarks : Prop :=
  ∀ (s : State) (p : PanelNo) (q : BitVec 16) (sum : BitVec 32) (f : Frame), s.phase = .running → s.live p = true →
    (s.link p).showing = some f →
    ∃ t, exec (.shown p q sum) s = .next t ∧ (t.link p).good = countUp (s.link p).good ∧
      (t.link p).confirmed =
        (if f.record.sequence = q ∧ f.record.checksum = sum then some f.record else (s.link p).confirmed) ∧
      (t.link p).mismatchMark =
        ((s.link p).mismatchMark || decide (f.record.sequence = q ∧ f.record.checksum ≠ sum)) ∧
      (t.link p).mismatches =
        (if f.record.sequence = q ∧ f.record.checksum ≠ sum ∧ (s.link p).mismatchMark = false
          then countUp (s.link p).mismatches else (s.link p).mismatches) ∧
      (f.record.sequence = q → f.record.checksum ≠ sum → (s.link p).mismatchMark = false →
        FlagSet t .media .checksumMismatch) ∧
      (t.link p).state = (s.link p).state ∧ (t.link p).showing = (s.link p).showing ∧
      (t.link p).staged = (s.link p).staged ∧
      ((f.record.sequence ≠ q ∨ f.record.checksum ≠ sum ∨ (s.link p).confirmed = some f.record) →
        t.changeover = s.changeover) ∧
      (f.record.sequence = q → f.record.checksum = sum → (s.link p).confirmed ≠ some f.record → ∃ r : Changeover,
        t.changeover =
          (if f.record.kind.carries r.settled = true then { r with lagging := r.lagging.set p false } else r) ∧
        (∀ u, s.changeover.controller.inFlight = some u → s.changeover.members.get p = some .flipped →
          f.record.kind.carries u = true →
          MembersChecked { s.changeover with members := s.changeover.members.set p (some .confirmed) } r u ∧
          (r.controller = .idle → t.timeLeft .changeoverLimit = none ∧ FlagSet t .store .changeoverDone ∧
            FlagSet t .media .changeoverDone)) ∧
        ((∀ u, s.changeover.controller.inFlight = some u → s.changeover.members.get p = some .flipped →
          f.record.kind.carries u = false) → r = s.changeover)) ∧
      (∀ o, o ≠ p → t.link o = s.link o) ∧
      t = { s with ports := t.ports, links := t.links, timers := t.timers, changeover := t.changeover }

/-- A TEST_REPORT taken in TEST, and a second of a test that passes before the last: R114. -/
def Obligations.TestReportsAndSecondsAreCounted : Prop :=
  (∀ (s : State) (p : PanelNo) (errors : BitVec 16) (r : TestRecord), s.phase = .running →
      (s.link p).state = .test → (s.link p).test = some r →
      ∃ t, exec (.testReport p errors) s = .next t ∧
        (t.link p).test = some { r with
          reports := r.reports + 1
          errors := min 65535 (r.errors + errors.toNat)
          flag := if r.mode = .latched then r.flag || decide (errors ≠ 0) else decide (errors ≠ 0) } ∧
        (t.link p).good = countUp (s.link p).good ∧ (t.link p).state = .test ∧ (∀ q, q ≠ p → t.link q = s.link q) ∧
        t = { s with links := t.links, timers := t.timers }) ∧
  (∀ (s : State) (p : PanelNo) (r : TestRecord) (left : Nat), (s.link p).state = .test → (s.link p).test = some r →
      s.timeLeft (.testSecond p) = some left → r.seconds + 1 < r.duration →
      ∃ t, exec (.testSecondExpiry p) s = .next t ∧
        t.link p = { s.link p with test := some { r with seconds := r.seconds + 1 } } ∧
        t.timeLeft (.testSecond p) = some 1000 ∧ (∀ q, q ≠ p → t.link q = s.link q) ∧
        t = { s with links := t.links, timers := t.timers })

/-- A PANEL_FAULT report on a fitted link: R112. A bad report on a fitted link is counted and does nothing else: R93. How
bytes up to an idle gap make reports: by the length of each kind, one cut short and one of an unknown kind being one bad
report: R203. -/
def Obligations.FaultAndBadReportsAreCounted : Prop :=
  (∀ (s : State) (p : PanelNo) (code : Byte), s.phase = .running → (s.link p).state ≠ .off →
      ∃ t, exec (.panelFault p code) s = .next t ∧
        t.link p = { s.link p with
          good := countUp (s.link p).good, lastFault := some code, faults := countUp (s.link p).faults } ∧
        (∀ q, q ≠ p → t.link q = s.link q) ∧ FlagSet t .store .panelEvent ∧ FlagSet t .media .panelEvent ∧
        (∀ u, u ≠ .lockSilence p → u ≠ .detach p → t.timeLeft u = s.timeLeft u) ∧
        t = { s with ports := t.ports, links := t.links, timers := t.timers }) ∧
  (∀ (s : State) (p : PanelNo) (bytes : List Byte), s.phase = .running → (s.link p).state ≠ .off →
      Report.stream bytes = [none] →
      ∃ t, exec (.badReport p bytes) s = .next t ∧ t.link p = { s.link p with bad := countUp (s.link p).bad } ∧
        (∀ q, q ≠ p → t.link q = s.link q) ∧ t = { s with links := t.links }) ∧
  (∀ bytes rest r, Report.read bytes = some r → Report.stream (bytes ++ rest) = some r :: Report.stream rest) ∧
  (∀ kind rest, Report.length kind = none → Report.stream (kind :: rest) = [none]) ∧
  (∀ kind rest n, Report.length kind = some n → rest.length + 1 < n → Report.stream (kind :: rest) = [none]) ∧
  (∀ kind : Byte, Report.length kind = match kind.toNat with
    | 1 => some 7 | 2 => some 2 | 3 => some 2 | 4 => some 8 | 5 => some 4 | 6 => some 3 | _ => none)

/-- The detach timer expires on a link that is neither OFF nor DETACHED: R101, R99, R116; the panel of a live link leaves the
Composer and the member set: R48, R82. That the time left on the detach timer passes on every timer is the model's choice
(log 2). -/
def Obligations.DetachForgetsPanel : Prop :=
  ∀ (s : State) (p : PanelNo) (left : Nat), s.timeLeft (.detach p) = some left → (s.link p).state ≠ .off →
    (s.link p).state ≠ .detached →
    ∃ t, exec (.detachTimerExpiry p) s = .next t ∧ (t.link p).state = .detached ∧
      t.forwardPath p = .silent ∧ (t.link p).descriptor = none ∧
      (t.link p).causes = (s.link p).causes ∧ (t.link p).sequence = (s.link p).sequence ∧
      (s.live p = true → LeftLive (s.elapse left) t p ∧ t.changeover.members.get p = none) ∧
      (s.live p = false → t.composer = s.composer ∧ t.changeover = s.changeover) ∧
      ((s.link p).state = .test → (t.link p).test = (s.link p).test.map (fun r => { r with result := .aborted }) ∧
        t.timeLeft (.testSecond p) = none ∧ FlagSet t .media .testEnded) ∧
      ((s.link p).state = .training → t.timeLeft (.trainingLimit p) = none) ∧ t.timeLeft (.detach p) = none ∧
      FlagSet t .store .panelEvent ∧ FlagSet t .media .panelEvent ∧ (∀ q, q ≠ p → t.link q = s.link q) ∧
      t = { s with
        ports := t.ports, links := t.links, timers := t.timers, composer := t.composer, changeover := t.changeover }

/-- PANEL_DARK and PANEL_LIGHT on a fitted link: R109, R110, R111; the panel of a live link that goes DARK leaves the Composer
and the member set: R48, R82, R99. The refusals of R111. -/
def Obligations.PanelDarkAndLightMoveRequestCause : Prop :=
  (∀ (s : State) (tag panel : Byte), s.Takes .store →
    (5 < panel.toNat →
      AnswersOnly s (.panelDark .store tag [panel]) .store (refusalOf .panelDark tag .badField []) ∧
      AnswersOnly s (.panelLight .store tag [panel]) .store (refusalOf .panelLight tag .badField [])) ∧
    (∀ p, panel? panel = some p → (s.link p).state = .off →
      AnswersOnly s (.panelDark .store tag [panel]) .store (refusalOf .panelDark tag .panelState []) ∧
      AnswersOnly s (.panelLight .store tag [panel]) .store (refusalOf .panelLight tag .panelState []))) ∧
  (∀ (s : State) (tag panel : Byte) (p : PanelNo), s.Takes .store → panel? panel = some p → (s.link p).state ≠ .off →
      ∃ t, exec (.panelDark .store tag [panel]) s = .next t ∧
        Holds t .store (okTo .panelDark tag [(t.link p).state.byte]) ∧
        CauseAdded s t p { (s.link p).causes with request := true } ∧
        (leavesForDark s p = true → LeftLive s t p ∧ t.changeover.members.get p = none) ∧
        (leavesForDark s p = false → t.composer = s.composer ∧ t.changeover = s.changeover) ∧
        ((t.link p).state = .dark → t.forwardPath p = .poweredDown) ∧
        ((s.link p).causes.isEmpty = false → t = { s with ports := t.ports, links := t.links }) ∧
        (∀ q, q ≠ p → t.link q = s.link q) ∧
        t = { s with
          ports := t.ports, links := t.links, timers := t.timers, composer := t.composer, changeover := t.changeover }) ∧
  (∀ (s : State) (tag panel : Byte) (p : PanelNo), s.Takes .store → panel? panel = some p → (s.link p).state ≠ .off →
      ∃ t, exec (.panelLight .store tag [panel]) s = .next t ∧
        Holds t .store (okTo .panelLight tag [(t.link p).state.byte]) ∧
        (t.link p).causes = { (s.link p).causes with request := false } ∧
        (t.link p).state = (if (s.link p).causes = ⟨true, false⟩ ∧ (s.link p).state = .dark then
          (if s.gridMatches p then .training else .rejected) else (s.link p).state) ∧
        ((t.link p).state ≠ (s.link p).state → (t.link p).state = .rejected →
          FlagSet t .store .panelEvent ∧ FlagSet t .media .panelEvent) ∧
        (∀ q, q ≠ p → t.link q = s.link q) ∧
        t = { s with ports := t.ports, links := t.links, timers := t.timers })

/-- LINK_TEST on a live link: R113, R99, with the departure of its panel: R48, R82. The refusals of R113, in the order of the
checks. -/
def Obligations.LinkTestTakesLinkOutOfService : Prop :=
  (∀ (s : State) (tag panel mode : Byte) (duration : Nat), s.Takes .media → duration < 65536 →
    ((5 < panel.toNat ∨ 1 < mode.toNat ∨ duration < 1 ∨ 600 < duration) →
      AnswersOnly s (.linkTest .media tag ([panel, mode] ++ be 2 duration)) .media
        (refusalOf .linkTest tag .badField [])) ∧
    (∀ p, panel? panel = some p → mode.toNat ≤ 1 → 1 ≤ duration → duration ≤ 600 → s.live p = false →
      AnswersOnly s (.linkTest .media tag ([panel, mode] ++ be 2 duration)) .media
        (refusalOf .linkTest tag .panelState []))) ∧
  ∀ (s : State) (tag panel mode : Byte) (p : PanelNo) (m : TestMode) (duration : Nat), s.Takes .media →
    panel? panel = some p → testMode? mode = some m → 1 ≤ duration → duration ≤ 600 → s.live p = true →
    ∃ t, exec (.linkTest .media tag ([panel, mode] ++ be 2 duration)) s = .next t ∧
      Holds t .media (okTo .linkTest tag []) ∧ (t.link p).state = .test ∧ t.forwardPath p = .testPattern ∧
      (t.link p).test = some ⟨m, duration, 0, 0, 0, false, .running⟩ ∧ t.timeLeft (.testSecond p) = some 1000 ∧
      LeftLive s t p ∧ t.changeover.members.get p = none ∧
      (∀ e ∈ t.composer.queue, e.panel ≠ p) ∧ (∀ q, q ≠ p → t.link q = s.link q) ∧
      t = { s with
        ports := t.ports, links := t.links, timers := t.timers, composer := t.composer, changeover := t.changeover }

/-- A test ends by LINK_TEST_STOP, by its last second, or by its expiry row: R114, R115. The refusals of LINK_TEST_STOP:
R115. -/
def Obligations.LinkTestEndsAndLinkTrains : Prop :=
  (∀ (s : State) (tag panel : Byte), s.Takes .media →
    (5 < panel.toNat →
      AnswersOnly s (.linkTestStop .media tag [panel]) .media (refusalOf .linkTestStop tag .badField [])) ∧
    (∀ p, panel? panel = some p → (s.link p).state ≠ .test →
      AnswersOnly s (.linkTestStop .media tag [panel]) .media (refusalOf .linkTestStop tag .noTest []))) ∧
  ∀ (s : State) (p : PanelNo) (r : TestRecord) (left : Nat) (c : Instr) (result : TestResult) (seconds : Nat),
    (s.link p).state = .test → (s.link p).test = some r → s.timeLeft (.testSecond p) = some left →
    ((∃ tag panel, c = .linkTestStop .media tag [panel] ∧ s.Takes .media ∧ panel? panel = some p ∧
        result = .stopped ∧ seconds = r.seconds) ∨
      (c = .testSecondExpiry p ∧ r.duration = r.seconds + 1 ∧ result = .completed ∧ seconds = r.duration) ∨
      (c = .linkTestExpiry p ∧ result = .completed ∧ seconds = r.duration)) →
    ∃ t, exec c s = .next t ∧
      (∀ tag panel, c = .linkTestStop .media tag [panel] → Holds t .media (okTo .linkTestStop tag [])) ∧
      (t.link p).test = some { r with result := result, seconds := seconds } ∧
      (t.link p).state = (if s.gridMatches p then .training else .rejected) ∧ t.timeLeft (.testSecond p) = none ∧
      ((t.link p).state = .rejected → FlagSet t .store .panelEvent ∧ FlagSet t .media .panelEvent) ∧
      FlagSet t .media .testEnded ∧ (∀ q, q ≠ p → t.link q = s.link q) ∧
      t = { s with ports := t.ports, links := t.links, timers := t.timers }

/-! ## Photo Memory (chapter 6) -/

/-- LOAD_BEGIN that passes every check: R123, with the first fit of R121. The refusals of R123, in the order of its checks;
the largest free entry is the first of the greatest count. -/
def Obligations.LoadBeginAllocatesFirstFit : Prop :=
  (∀ (s : State) (tag : Byte) (slot count width height : Nat) (sum : BitVec 32) (status : Status) (payload : List Byte),
    s.Takes .media → slot < 256 → count < 65536 → width < 256 → height < 256 →
    ((¬ (slot ≤ 191 ∧ 1 ≤ count ∧ count ≤ 320 ∧ 1 ≤ width ∧ width ≤ 16 ∧ 1 ≤ height ∧ height ≤ 9) ∧
        status = .badField ∧ payload = []) ∨
      (slot ≤ 191 ∧ 1 ≤ count ∧ count ≤ 320 ∧ 1 ≤ width ∧ width ≤ 16 ∧ 1 ≤ height ∧ height ≤ 9 ∧
        ((s.photo.session ≠ none ∧ status = .busy ∧ payload = []) ∨
        (s.photo.session = none ∧ Table.find slot s.photo.slots ≠ none ∧ status = .slotState ∧ payload = []) ∨
        (s.photo.session = none ∧ Table.find slot s.photo.slots = none ∧ (∀ e ∈ s.photo.free, e.count < count) ∧
          status = .noSpace ∧
          ((s.photo.free = [] ∧ payload = be 2 0 ++ optBytes 4 none) ∨
          ∃ before e after, s.photo.free = before ++ e :: after ∧ (∀ x ∈ before, x.count < e.count) ∧
            (∀ x ∈ after, x.count ≤ e.count) ∧
            payload = be 2 (s.photo.free.map BlockRange.count).sum ++
              optBytes 4 (some (be 2 e.start ++ be 2 e.count))))))) →
    AnswersOnly s (.loadBegin .media tag (be 1 slot ++ be 2 count ++ be 1 width ++ be 1 height ++ be 4 sum.toNat)) .media
      (refusalOf .loadBegin tag status payload)) ∧
  ∀ (s : State) (tag : Byte) (slot count width height : Nat) (sum : BitVec 32) (before after : List BlockRange)
    (e : BlockRange),
    s.Takes .media → slot ≤ 191 → 1 ≤ count → count ≤ 320 → 1 ≤ width → width ≤ 16 → 1 ≤ height → height ≤ 9 →
    s.photo.session = none → Table.find slot s.photo.slots = none → s.photo.free = before ++ e :: after →
    (∀ x ∈ before, x.count < count) → count ≤ e.count →
    ∃ t r, exec (.loadBegin .media tag
        (be 1 slot ++ be 2 count ++ be 1 width ++ be 1 height ++ be 4 sum.toNat)) s = .next t ∧
      AnsweredOn s t .media (okTo .loadBegin tag (be 2 e.start ++ be 2 count)) ∧
      Table.find slot t.photo.slots = some r ∧ r.state = .loading ∧ r.range.start = e.start ∧ r.range.count = count ∧
      r.width = width ∧ r.height = height ∧ r.checksum = sum ∧ r.pins = 0 ∧
      (∀ k, k ≠ slot → Table.find k t.photo.slots = Table.find k s.photo.slots) ∧
      t.photo.session = some ⟨slot, 0, 0, 0xFFFFFFFF⟩ ∧
      (count = e.count → t.photo.free = before ++ after) ∧
      (count < e.count → ∃ x, t.photo.free = before ++ x :: after ∧ x.start = e.start + count ∧
        x.count = e.count - count) ∧
      t.photo.memory = s.photo.memory ∧ t.timeLeft .loadIdle = some 5000 ∧
      t = { s with ports := t.ports, photo := t.photo, timers := t.timers }

/-- LOAD_BLOCK at the expected index with a good checksum: the block is stored, and the last one completes the load
(R125, R126). -/
def Obligations.LoadBlockStoresBlock : Prop :=
  ∀ (s : State) (tag : Byte) (ls : LoadSession) (slot : Slot) (data : List Byte),
    s.Takes .media → s.photo.openLoad = .ok (some (ls, slot)) → ls.expected ≤ 319 → data.length = 4096 →
    ∃ t, exec (.loadBlock .media tag (be 2 ls.expected ++ be 4 (crc32 data).toNat ++ data)) s = .next t ∧
      (∀ i, i < 4096 → t.photo.memory.read ((slot.range.start + ls.expected) * 4096 + i) = data.getD i 0) ∧
      (∀ a, (a < (slot.range.start + ls.expected) * 4096 ∨ (slot.range.start + ls.expected) * 4096 + 4096 ≤ a) →
        t.photo.memory.read a = s.photo.memory.read a) ∧
      (ls.expected + 1 < slot.range.count →
        AnsweredOn s t .media (okTo .loadBlock tag (be 2 (ls.expected + 1) ++ [1])) ∧
        t.photo.session =
          some ⟨ls.slot, ls.expected + 1, ls.received + 1, crc32Take ls.register data⟩ ∧
        t.photo.slots = s.photo.slots ∧ t.timeLeft .loadIdle = some 5000) ∧
      (ls.expected + 1 = slot.range.count →
        Holds t .media (okTo .loadBlock tag (be 2 (ls.expected + 1) ++
          [if ~~~ (crc32Take ls.register data) = slot.checksum then 2 else 5])) ∧
        Table.find ls.slot t.photo.slots = some { slot with
          state := if ~~~ (crc32Take ls.register data) = slot.checksum then .ready else .damaged .loadChecksum } ∧
        t.photo.session = none ∧ t.timeLeft .loadIdle = none ∧ FlagSet t .media .loadEnded ∧
        t.photo.lastLoad = some ⟨ls.slot, ls.received + 1,
          if ~~~ (crc32Take ls.register data) = slot.checksum then .ready else .loadChecksum⟩) ∧
      (∀ k, k ≠ ls.slot → Table.find k t.photo.slots = Table.find k s.photo.slots) ∧ t.photo.free = s.photo.free ∧
      t = { s with ports := t.ports, photo := t.photo, timers := t.timers }

/-- LOAD_BLOCK that is turned away or fails its block check: R124, R125. On a load session that no run reaches the model
stops (log 21). -/
def Obligations.LoadBlockRefusals : Prop :=
  ∀ (s : State) (tag : Byte) (index : Nat) (sum : BitVec 32) (data : List Byte),
    s.Takes .media → index < 65536 → data.length ≤ 4098 →
    (¬ SessionSound s →
      exec (.loadBlock .media tag (be 2 index ++ be 4 sum.toNat ++ data)) s = .fault .loadSessionBroken) ∧
    (s.photo.session = none →
      ∃ t, exec (.loadBlock .media tag (be 2 index ++ be 4 sum.toNat ++ data)) s = .next t ∧
        AnsweredOn s t .media (refusalOf .loadBlock tag .noLoad []) ∧ t = { s with ports := t.ports }) ∧
    (∀ ls slot, s.photo.openLoad = .ok (some (ls, slot)) →
      ∃ t, exec (.loadBlock .media tag (be 2 index ++ be 4 sum.toNat ++ data)) s = .next t ∧
        ((319 < index ∨ data.length ≠ 4096) →
          AnsweredOn s t .media (refusalOf .loadBlock tag .badField []) ∧
          t = { s with ports := t.ports, timers := (s.startTimer .loadIdle 5000).timers }) ∧
        (index ≤ 319 → data.length = 4096 → index ≠ ls.expected →
          AnsweredOn s t .media (refusalOf .loadBlock tag .outOfOrder (be 2 ls.expected)) ∧
          t = { s with ports := t.ports, timers := (s.startTimer .loadIdle 5000).timers }) ∧
        (index ≤ 319 → data.length = 4096 → index = ls.expected → crc32 data ≠ sum →
          Holds t .media (refusalOf .loadBlock tag .blockCrc (be 2 index)) ∧
          Table.find ls.slot t.photo.slots = some { slot with state := .damaged (.block index) } ∧
          t.photo.session = none ∧ t.timeLeft .loadIdle = none ∧ FlagSet t .media .loadEnded ∧
          t.photo.lastLoad = some ⟨ls.slot, ls.received, .blockCrc index⟩ ∧
          (∀ k, k ≠ ls.slot → Table.find k t.photo.slots = Table.find k s.photo.slots) ∧
          t.photo.memory = s.photo.memory ∧
          t = { s with ports := t.ports, photo := t.photo, timers := t.timers }))

/-- LOAD_ABORT and the load idle limit empty the slot and release its range: R127, R128, R122. A block is free afterwards
exactly when it was free or lies in the released range; in a state in which every block is accounted for, which every step
keeps, the free list stays in start order with no two entries that touch. That the released blocks keep their bytes is the
model's choice (log 26). -/
def Obligations.LoadAbortAndTimeoutEmptySlot : Prop :=
  ∀ (s : State) (ls : LoadSession) (slot : Slot) (c : Instr) (outcome : LoadOutcome),
    s.photo.session = some ls → Table.find ls.slot s.photo.slots = some slot →
    ((∃ tag, c = .loadAbort .media tag [] ∧ s.Takes .media ∧ outcome = .aborted) ∨
      (c = .loadIdleExpiry ∧ (∃ left, s.timeLeft .loadIdle = some left) ∧ outcome = .timeout)) →
    ∃ t, exec c s = .next t ∧ t.photo.session = none ∧ Table.find ls.slot t.photo.slots = none ∧
      (∀ k, k ≠ ls.slot → Table.find k t.photo.slots = Table.find k s.photo.slots) ∧
      t.photo.free = release slot.range s.photo.free ∧
      (∀ b, (∃ e ∈ t.photo.free, e.has b) ↔ (∃ e ∈ s.photo.free, e.has b) ∨ slot.range.has b) ∧
      (BlocksAccounted s → 1 ≤ slot.range.count → FreeListOrdered t.photo.free) ∧ t.timeLeft .loadIdle = none ∧
      t.photo.lastLoad = some ⟨ls.slot, ls.received, outcome⟩ ∧ t.photo.memory = s.photo.memory ∧
      (c = .loadIdleExpiry → FlagSet t .media .loadEnded) ∧
      (∀ tag, c = .loadAbort .media tag [] → AnsweredOn s t .media (okTo .loadAbort tag [])) ∧
      t = { s with ports := t.ports, photo := t.photo, timers := t.timers }

/-- SLOT_ERASE: R130, with the release of R122 in blocks. That the released blocks keep their bytes is the model's choice
(log 26). -/
def Obligations.SlotEraseChecksInOrder : Prop :=
  ∀ (s : State) (tag : Byte) (k : Nat), s.Takes .media → k ≤ 191 →
    (∀ r, Table.find k s.photo.slots = some r → r.state ≠ .loading → r.state ≠ .verifying → r.pins = 0 →
      ∃ t, exec (.slotErase .media tag (be 1 k)) s = .next t ∧ Holds t .media (okTo .slotErase tag []) ∧
        Table.find k t.photo.slots = none ∧
        (∀ j, j ≠ k → Table.find j t.photo.slots = Table.find j s.photo.slots) ∧
        t.photo.free = release r.range s.photo.free ∧
        (∀ b, (∃ e ∈ t.photo.free, e.has b) ↔ (∃ e ∈ s.photo.free, e.has b) ∨ r.range.has b) ∧
        (BlocksAccounted s → 1 ≤ r.range.count → FreeListOrdered t.photo.free) ∧
        t.photo.verifyQueue = s.photo.verifyQueue.filter (fun j => j ≠ k) ∧
        (s.photo.verifyQueue = [k] → s.photo.verifying = none → FlagSet t .media .verifyDone) ∧
        t.photo.memory = s.photo.memory ∧ t = { s with ports := t.ports, photo := t.photo }) ∧
    (∀ status payload,
      ((Table.find k s.photo.slots = none ∧ status = .slotState ∧ payload = []) ∨
        (∃ r, Table.find k s.photo.slots = some r ∧ r.state = .loading ∧ status = .slotState ∧ payload = []) ∨
        (∃ r, Table.find k s.photo.slots = some r ∧ r.state = .verifying ∧ status = .busy ∧ payload = []) ∨
        (∃ r, Table.find k s.photo.slots = some r ∧ r.state ≠ .loading ∧ r.state ≠ .verifying ∧ r.pins ≠ 0 ∧
          status = .inUse ∧ payload = be 2 r.pins)) →
      ∃ t, exec (.slotErase .media tag (be 1 k)) s = .next t ∧
        AnsweredOn s t .media (refusalOf .slotErase tag status payload) ∧ t = { s with ports := t.ports })

/-- SLOT_VERIFY and VERIFY_ALL: R132, R134, R135. VERIFY_START: R133. -/
def Obligations.VerifyRequestsQueueAndEngineTakesLowest : Prop :=
  (∀ (s : State) (tag : Byte), s.Takes .media →
      (∀ k r, k ≤ 191 → Table.find k s.photo.slots = some r → r.state = .unverified →
        ∃ t, exec (.slotVerify .media tag (be 1 k)) s = .next t ∧ AnsweredOn s t .media (okTo .slotVerify tag []) ∧
          t.photo = { s.photo with verifyQueue := joinVerify k s.photo.verifyQueue } ∧
          (∀ j, j ∈ t.photo.verifyQueue ↔ j ∈ s.photo.verifyQueue ∨ j = k) ∧
          t = { s with ports := t.ports, photo := t.photo }) ∧
      (∀ k r, k ≤ 191 → Table.find k s.photo.slots = some r → r.state = .verifying →
        AnswersOnly s (.slotVerify .media tag (be 1 k)) .media (okTo .slotVerify tag [])) ∧
      (∀ k, k ≤ 191 → (∀ r, Table.find k s.photo.slots = some r → r.state ≠ .unverified ∧ r.state ≠ .verifying) →
        AnswersOnly s (.slotVerify .media tag (be 1 k)) .media (refusalOf .slotVerify tag .slotState [])) ∧
      (∀ k, 191 < k → k < 256 →
        AnswersOnly s (.slotVerify .media tag (be 1 k)) .media (refusalOf .slotVerify tag .badField [])) ∧
      (∃ t, exec (.verifyAll .media tag []) s = .next t ∧
        Holds t .media (okTo .verifyAll tag (be 1 t.photo.verifyQueue.length)) ∧
        t.photo = { s.photo with verifyQueue := t.photo.verifyQueue } ∧
        (∀ k, k ∈ t.photo.verifyQueue ↔ k ∈ s.photo.verifyQueue ∨ k ∈ s.photo.unverified) ∧
        (t.photo.verifyQueue = [] → FlagSet t .media .verifyDone) ∧ t = { s with ports := t.ports, photo := t.photo })) ∧
  (∀ (s : State) (k : Nat) (r : Slot), PhotoSound s → s.photo.verifying = none → k ∈ s.photo.verifyQueue →
      Table.find k s.photo.slots = some r → r.state = .unverified →
      (∀ j q, j ∈ s.photo.verifyQueue → j < k → Table.find j s.photo.slots = some q → q.state ≠ .unverified) →
      ∃ t, exec .verifyStart s = .next t ∧
        t.photo = { s.photo with
          verifying := some k, slots := Table.insert k { r with state := .verifying } s.photo.slots } ∧
        t = { s with photo := t.photo }) ∧
  (∀ s : State, PhotoSound s →
      (s.photo.verifying ≠ none ∨
        ∀ j q, j ∈ s.photo.verifyQueue → Table.find j s.photo.slots = some q → q.state ≠ .unverified) →
      exec .verifyStart s = .next s)

/-- VERIFICATION_COMPLETE: R136; step 3 asks for each panel that uses the slot, in panel number order (R47). Another slot
changes only if the engine takes it next, which makes it VERIFYING (R133). -/
def Obligations.VerificationJudgesSlot : Prop :=
  ∀ (s : State) (k : Nat) (r : Slot), s.photo.verifying = some k → Table.find k s.photo.slots = some r →
    ∃ t, exec .verificationComplete s = .next t ∧
      (Table.find k t.photo.slots = some { r with
        state := if crc32 (s.photo.memory.photo r.range) = r.checksum then .ready
          else .damaged .verifyChecksum }) ∧
      t.photo.verifyQueue = s.photo.verifyQueue.filter (fun j => j ≠ k) ∧ t.photo.verifying ≠ some k ∧
      (t.photo.verifyQueue = [] → t.photo.verifying = none ∧ FlagSet t .media .verifyDone) ∧
      (∀ j, j ≠ k → Table.find j t.photo.slots =
        if t.photo.verifying = some j then (Table.find j s.photo.slots).map (fun q => { q with state := .verifying })
        else Table.find j s.photo.slots) ∧
      (∀ j, t.photo.verifying = some j → j ∈ t.photo.verifyQueue) ∧
      t.photo.memory = s.photo.memory ∧ t.photo.free = s.photo.free ∧
      (crc32 (s.photo.memory.photo r.range) ≠ r.checksum → t.composer = s.composer) ∧
      (∀ users : List PanelNo, users.Pairwise (fun a b => a < b) → (∀ p, p ∈ users ↔ UsesPhoto s k p) →
        crc32 (s.photo.memory.photo r.range) = r.checksum →
        t.composer = (s.composeRequests users (Reason.set .photo)).composer) ∧
      t = { s with ports := t.ports, photo := t.photo, composer := t.composer }

/-- SLOT_READ: R137, in the layout of R204. -/
def Obligations.SlotReadGivesRecord : Prop :=
  ∀ (s : State) (p : PortId) (tag : Byte) (k : Nat), s.Takes p → k ≤ 191 →
    (Table.find k s.photo.slots = none →
      ∃ t, exec (.slotRead p tag (be 1 k)) s = .next t ∧
        AnsweredOn s t p (okTo .slotRead tag (List.replicate 24 0)) ∧ t = { s with ports := t.ports }) ∧
    (∀ r, Table.find k s.photo.slots = some r →
      ∃ t, exec (.slotRead p tag (be 1 k)) s = .next t ∧
        AnsweredOn s t p (okTo .slotRead tag ([r.state.byte, 1] ++ be 2 r.range.start ++ be 2 r.range.count ++
          be 1 r.width ++ be 1 r.height ++ be 4 r.checksum.toNat ++ be 2 r.pins ++
          [flagByte (s.photo.verifyQueue.contains k)] ++
          optBytes 3 (match r.state with | .damaged c => some c.bytes | _ => none) ++
          optBytes 4 (match s.photo.session with
            | some ls => if ls.slot = k then some (be 2 ls.expected ++ be 2 ls.received) else none
            | none => none))) ∧
        t = { s with ports := t.ports })

/-! ## Lane holds (chapter 7) -/

/-- HOLD_OPEN: R146, with the order number's range of R145. -/
def Obligations.HoldOpenTakesLowestFreeId : Prop :=
  ∀ (s : State) (l : LaneNo) (tag : Byte) (order : Nat), s.Takes (.lane l) → order < 65536 →
    ((order < 1 ∨ 9999 < order) →
      AnswersOnly s (.holdOpen (.lane l) tag (be 2 order)) (.lane l) (refusalOf .holdOpen tag .badField [])) ∧
    (∀ e ∈ (s.lane l).holds, 1 ≤ order → order ≤ 9999 → e.2.order = order →
      (∀ x ∈ (s.lane l).holds, x.2.order = order → x.1 = e.1) →
      AnswersOnly s (.holdOpen (.lane l) tag (be 2 order)) (.lane l)
        (refusalOf .holdOpen tag .duplicateOrder (be 1 e.1))) ∧
    (1 ≤ order → order ≤ 9999 → (∀ e ∈ (s.lane l).holds, e.2.order ≠ order) →
      (∀ h, ((s.lane l).hold h).isSome = true) →
      AnswersOnly s (.holdOpen (.lane l) tag (be 2 order)) (.lane l) (refusalOf .holdOpen tag .holdFull [])) ∧
    (∀ h, 1 ≤ order → order ≤ 9999 → (∀ e ∈ (s.lane l).holds, e.2.order ≠ order) → (s.lane l).hold h = none →
      (∀ j, j < h → ((s.lane l).hold j).isSome = true) →
      ∃ t, exec (.holdOpen (.lane l) tag (be 2 order)) s = .next t ∧
        AnsweredOn s t (.lane l) (okTo .holdOpen tag (be 1 h.val ++ be 2 (s.lane l).revision.toNat)) ∧
        t.lane l = { s.lane l with
          holds := Table.insert h.val ⟨order, [], 0⟩ (s.lane l).holds
          expired := Table.erase h.val (s.lane l).expired } ∧
        (∀ m, m ≠ l → t.lane m = s.lane m) ∧
        t = { s with
          ports := t.ports, lanes := t.lanes, timers := (s.startTimer (.holdLease l h) s.holdLeaseMs).timers })

/-- HOLD_ADD that passes every check of R147: R144, R148, R157 and R158. The refusals of R145 and R147, in the order of the
checks (a hold id without an open hold has a statement of its own). -/
def Obligations.HoldAddMakesOrRaisesLine : Prop :=
  (∀ (s : State) (l : LaneNo) (tag hold variant quantity : Byte) (item : Nat), s.Takes (.lane l) → item < 65536 →
    (7 < hold.toNat ∨ 511 < item ∨ 3 < variant.toNat ∨ quantity.toNat < 1 ∨ 99 < quantity.toNat) →
    AnswersOnly s (.holdAdd (.lane l) tag ([hold] ++ be 2 item ++ [variant, quantity])) (.lane l)
      (refusalOf .holdAdd tag .badField [])) ∧
  (∀ (s : State) (l : LaneNo) (tag : Byte) (h : HoldId) (item variant quantity : Nat) (x : Hold) (status : Status)
      (payload : List Byte),
    s.Takes (.lane l) → item ≤ 511 → variant ≤ 3 → 1 ≤ quantity → quantity ≤ 99 → (s.lane l).hold h = some x →
    ((s.clock.storeState = .closed ∧ status = .storeClosed ∧ payload = []) ∨
      ∃ d, s.clock.storeState = .opened d ∧
        ((Table.find item s.catalogue.items = none ∧ status = .noItem ∧ payload = []) ∨
        ∃ r, Table.find item s.catalogue.items = some r ∧
          ((r.variants[variant]? = none ∧ status = .noVariant ∧ payload = []) ∨
          ∃ v, r.variants[variant]? = some v ∧
            ((r.dayParts.getLsbD d.val = false ∧ status = .notInDaypart ∧ payload = []) ∨
            (r.dayParts.getLsbD d.val = true ∧
              ((v.availability = .soldOut ∧ status = .soldOut ∧ payload = []) ∨
              (v.availability = .available ∧ s.catalogue.lease = .expired ∧ status = .pricesWithheld ∧ payload = []) ∨
              (v.availability = .available ∧ s.catalogue.lease = .live ∧
                ((∃ z, x.lines.find? (fun z => z.item = item ∧ z.variant = variant) = some z ∧
                  ((99 < z.quantity + quantity ∧ status = .badField ∧ payload = be 1 z.quantity) ∨
                  (z.quantity + quantity ≤ 99 ∧ 24 < x.lines.length ∧ status = .linesFull ∧ payload = []) ∨
                  (z.quantity + quantity ≤ 99 ∧ x.lines.length ≤ 24 ∧ 9999999 < x.total + quantity * z.price ∧
                    status = .totalRange ∧ payload = be 3 x.total))) ∨
                (x.lines.find? (fun z => z.item = item ∧ z.variant = variant) = none ∧
                  ((24 < x.lines.length + 1 ∧ status = .linesFull ∧ payload = []) ∨
                  (x.lines.length + 1 ≤ 24 ∧
                    9999999 < x.total + quantity * (match v.promotion with | none => v.price | some p => p.price) ∧
                    status = .totalRange ∧ payload = be 3 x.total))))))))))) →
    AnswersOnly s (.holdAdd (.lane l) tag (be 1 h.val ++ be 2 item ++ be 1 variant ++ be 1 quantity)) (.lane l)
      (refusalOf .holdAdd tag status payload)) ∧
  ∀ (s : State) (l : LaneNo) (tag : Byte) (h : HoldId) (item variant quantity : Nat) (x : Hold) (d : DayPart) (r : Item)
    (v : Variant) (y : HoldLine) (lines : List HoldLine),
    s.Takes (.lane l) → item ≤ 511 → variant ≤ 3 → 1 ≤ quantity → quantity ≤ 99 → (s.lane l).hold h = some x →
    s.clock.storeState = .opened d → Table.find item s.catalogue.items = some r → r.variants[variant]? = some v →
    r.dayParts.getLsbD d.val = true → v.availability = .available → s.catalogue.lease = .live →
    ((∃ z, x.lines.find? (fun z => z.item = item ∧ z.variant = variant) = some z ∧
        y = { z with quantity := z.quantity + quantity } ∧
        lines = x.lines.map (fun z => if z.item = item ∧ z.variant = variant then y else z)) ∨
      (x.lines.find? (fun z => z.item = item ∧ z.variant = variant) = none ∧
        y = ⟨item, variant, quantity, match v.promotion with | none => v.price | some p => p.price,
          s.catalogue.generation, v.promotion.isSome⟩ ∧
        lines = x.lines ++ [y])) →
    y.quantity ≤ 99 → lines.length ≤ 24 → x.total + quantity * y.price ≤ 9999999 →
    ∃ t, exec (.holdAdd (.lane l) tag (be 1 h.val ++ be 2 item ++ be 1 variant ++ be 1 quantity)) s = .next t ∧
      AnsweredOn s t (.lane l) (okTo .holdAdd tag (be 1 y.quantity ++ be 3 y.price ++ [flagByte y.promotion] ++
        be 3 (x.total + quantity * y.price) ++ be 2 (t.lane l).revision.toNat)) ∧
      t.lane l = { s.lane l with
        holds := Table.insert h.val { x with lines := lines, total := x.total + quantity * y.price } (s.lane l).holds
        revision := if (s.lane l).focus = some h then (s.lane l).revision + 1 else (s.lane l).revision } ∧
      (∀ m, m ≠ l → t.lane m = s.lane m) ∧
      t.composer = (if (s.lane l).focus = some h then s.composeRequests (s.lanePanels l) (Reason.set .hold)
        else s).composer ∧
      t = { s with
        ports := t.ports, lanes := t.lanes, composer := t.composer
        timers := (s.startTimer (.holdLease l h) s.holdLeaseMs).timers }

/-- HOLD_REMOVE of a quantity the line has: R149, R157 and R158. The refusals of R145 and R149, in the order of the
checks. -/
def Obligations.HoldRemoveLowersOrDropsLine : Prop :=
  (∀ (s : State) (l : LaneNo) (tag hold variant quantity : Byte) (item : Nat), s.Takes (.lane l) → item < 65536 →
    (7 < hold.toNat ∨ 511 < item ∨ 3 < variant.toNat ∨ quantity.toNat < 1 ∨ 99 < quantity.toNat) →
    AnswersOnly s (.holdRemove (.lane l) tag ([hold] ++ be 2 item ++ [variant, quantity])) (.lane l)
      (refusalOf .holdRemove tag .badField [])) ∧
  (∀ (s : State) (l : LaneNo) (tag : Byte) (h : HoldId) (item variant quantity : Nat) (x : Hold),
    s.Takes (.lane l) → item ≤ 511 → variant ≤ 3 → 1 ≤ quantity → quantity ≤ 99 → (s.lane l).hold h = some x →
    ((∀ z ∈ x.lines, ¬ (z.item = item ∧ z.variant = variant)) →
      AnswersOnly s (.holdRemove (.lane l) tag (be 1 h.val ++ be 2 item ++ be 1 variant ++ be 1 quantity)) (.lane l)
        (refusalOf .holdRemove tag .noItem [])) ∧
    (∀ y, x.lines.find? (fun z => z.item = item ∧ z.variant = variant) = some y → y.quantity < quantity →
      AnswersOnly s (.holdRemove (.lane l) tag (be 1 h.val ++ be 2 item ++ be 1 variant ++ be 1 quantity)) (.lane l)
        (refusalOf .holdRemove tag .badField (be 1 y.quantity)))) ∧
  ∀ (s : State) (l : LaneNo) (tag : Byte) (h : HoldId) (item variant quantity : Nat) (x : Hold) (y : HoldLine),
    s.Takes (.lane l) → item ≤ 511 → variant ≤ 3 → 1 ≤ quantity → quantity ≤ 99 → (s.lane l).hold h = some x →
    x.lines.find? (fun z => z.item = item ∧ z.variant = variant) = some y → quantity ≤ y.quantity →
    ∃ t, exec (.holdRemove (.lane l) tag (be 1 h.val ++ be 2 item ++ be 1 variant ++ be 1 quantity)) s = .next t ∧
      AnsweredOn s t (.lane l) (okTo .holdRemove tag (be 1 (y.quantity - quantity) ++
        be 3 (x.total - quantity * y.price) ++ be 2 (t.lane l).revision.toNat)) ∧
      t.lane l = { s.lane l with
        holds := Table.insert h.val { x with
          lines := if y.quantity = quantity then x.lines.filter (fun z => ¬ (z.item = item ∧ z.variant = variant))
            else x.lines.map (fun z => if z.item = item ∧ z.variant = variant
              then { y with quantity := y.quantity - quantity } else z)
          total := x.total - quantity * y.price } (s.lane l).holds
        revision := if (s.lane l).focus = some h then (s.lane l).revision + 1 else (s.lane l).revision } ∧
      (∀ m, m ≠ l → t.lane m = s.lane m) ∧
      t.composer = (if (s.lane l).focus = some h then s.composeRequests (s.lanePanels l) (Reason.set .hold)
        else s).composer ∧
      t = { s with
        ports := t.ports, lanes := t.lanes, composer := t.composer
        timers := (s.startTimer (.holdLease l h) s.holdLeaseMs).timers }

/-- HOLD_FOCUS, HOLD_REFRESH and HOLD_READ: R150, R151, R153, in the layouts of R203 and R204. How a part of a second counts in
the lease time left that the summary gives is the model's choice (log 10). -/
def Obligations.HoldFocusRefreshReadKeepLines : Prop :=
  ∀ (s : State) (l : LaneNo) (tag : Byte), s.Takes (.lane l) →
    (∀ (f : Option HoldId), (∀ h, f = some h → ((s.lane l).hold h).isSome = true) →
      ∃ t, exec (.holdFocus (.lane l) tag [noneByte (f.map fun h => h.val)]) s = .next t ∧
        AnsweredOn s t (.lane l) (okTo .holdFocus tag (be 2 (t.lane l).revision.toNat)) ∧
        t.lane l = { s.lane l with
          focus := f
          revision := if (s.lane l).focus = f then (s.lane l).revision else (s.lane l).revision + 1 } ∧
        (∀ m, m ≠ l → t.lane m = s.lane m) ∧
        t.composer = (if (s.lane l).focus = f then s
          else s.composeRequests (s.lanePanels l) (Reason.set .hold)).composer ∧
        (f = none → t.timers = s.timers) ∧
        (∀ h, f = some h → t.timers = (s.startTimer (.holdLease l h) s.holdLeaseMs).timers) ∧
        t = { s with ports := t.ports, lanes := t.lanes, composer := t.composer, timers := t.timers }) ∧
    (∀ h x, (s.lane l).hold h = some x →
      (∃ t, exec (.holdRefresh (.lane l) tag (be 1 h.val)) s = .next t ∧
        AnsweredOn s t (.lane l)
          (okTo .holdRefresh tag (be 2 (s.profileNat 21) ++ be 2 (s.lane l).revision.toNat)) ∧
        t = { s with ports := t.ports, timers := (s.startTimer (.holdLease l h) s.holdLeaseMs).timers }) ∧
      (∃ t, exec (.holdRead (.lane l) tag (be 1 h.val)) s = .next t ∧
        AnsweredOn s t (.lane l) (okTo .holdRead tag (be 2 x.order ++
          [flagByte (decide ((s.lane l).focus = some h))] ++ be 3 x.total ++ be 2 (s.profileNat 21) ++
          be 1 x.lines.length ++ x.lines.flatMap Layout.holdLine ++ be 2 (s.lane l).revision.toNat)) ∧
        t = { s with ports := t.ports, timers := (s.startTimer (.holdLease l h) s.holdLeaseMs).timers })) ∧
    AnswersOnly s (.holdRead (.lane l) tag [255]) (.lane l) (okTo .holdRead tag
      ([noneByte ((s.lane l).focus.map fun h => h.val)] ++ be 2 (s.lane l).revision.toNat ++ be 2 (s.profileNat 21) ++
        ([0, 1, 2, 3, 4, 5, 6, 7] : List HoldId).flatMap (Layout.holdSummary s l)))

/-- HOLD_CLOSE: R152. The hold lease expires: R155. -/
def Obligations.HoldCloseAndExpiryDropHold : Prop :=
  ∀ (s : State) (l : LaneNo) (h : HoldId) (x : Hold) (c : Instr), (s.lane l).hold h = some x →
    ((∃ tag, c = .holdClose (.lane l) tag (be 1 h.val) ∧ s.Takes (.lane l)) ∨
      (c = .holdLeaseExpiry l h ∧ (∃ left, s.timeLeft (.holdLease l h) = some left) ∧
        s.portFitted (.lane l) = true)) →
    ∃ t, exec c s = .next t ∧
      t.lane l = { s.lane l with
        holds := Table.erase h.val (s.lane l).holds
        expired := if c = .holdLeaseExpiry l h then Table.insert h.val x.order (s.lane l).expired
          else (s.lane l).expired
        focus := if (s.lane l).focus = some h then none else (s.lane l).focus
        revision := if (s.lane l).focus = some h then (s.lane l).revision + 1 else (s.lane l).revision } ∧
      (∀ m, m ≠ l → t.lane m = s.lane m) ∧
      t.composer = (if (s.lane l).focus = some h then s.composeRequests (s.lanePanels l) (Reason.set .hold)
        else s).composer ∧
      t.timeLeft (.holdLease l h) = none ∧
      (∀ tag, c = .holdClose (.lane l) tag (be 1 h.val) →
        AnsweredOn s t (.lane l) (okTo .holdClose tag
          (be 2 x.order ++ be 3 x.total ++ be 2 (t.lane l).revision.toNat)) ∧
        t.timers = (s.stopTimer (.holdLease l h)).timers) ∧
      (c = .holdLeaseExpiry l h → FlagSet t (.lane l) .holdExpired) ∧
      t = { s with ports := t.ports, lanes := t.lanes, composer := t.composer, timers := t.timers }

/-- A request that names a hold id without an open hold is told whether the hold was lost to its lease: R145. -/
def Obligations.MissingHoldIsRefusedByItsMark : Prop :=
  ∀ (s : State) (l : LaneNo) (tag : Byte) (h : HoldId) (item variant quantity : Nat) (c : Instr) (type : RequestType)
    (status : Status) (payload : List Byte),
    s.Takes (.lane l) → item ≤ 511 → variant ≤ 3 → 1 ≤ quantity → quantity ≤ 99 → (s.lane l).hold h = none →
    ((c = .holdAdd (.lane l) tag (be 1 h.val ++ be 2 item ++ be 1 variant ++ be 1 quantity) ∧ type = .holdAdd) ∨
      (c = .holdRemove (.lane l) tag (be 1 h.val ++ be 2 item ++ be 1 variant ++ be 1 quantity) ∧
        type = .holdRemove) ∨
      (c = .holdFocus (.lane l) tag (be 1 h.val) ∧ type = .holdFocus) ∨
      (c = .holdRefresh (.lane l) tag (be 1 h.val) ∧ type = .holdRefresh) ∨
      (c = .holdClose (.lane l) tag (be 1 h.val) ∧ type = .holdClose) ∨
      (c = .holdRead (.lane l) tag (be 1 h.val) ∧ type = .holdRead)) →
    ((∃ order, Table.find h.val (s.lane l).expired = some order ∧ status = .holdExpired ∧ payload = be 2 order) ∨
      (Table.find h.val (s.lane l).expired = none ∧ status = .noHold ∧ payload = [])) →
    AnswersOnly s c (.lane l) (refusalOf type tag status payload)

/-! ## Store Clock (chapter 8) -/

/-- CLOCK_SET, SCHEDULE_LOAD, DAYPART_FORCE and DAYPART_AUTO that pass their checks: R164, R166, R169, R170, with the
evaluation of R167 and the transition of R171 to R174. `k` is the clock record before the evaluation. Their refusals, in the
order of the checks. What evaluation gives on a schedule none of whose entries is ever due is the model's choice (log 27). -/
def Obligations.ClockRequestsSetClockAndMakeTransition : Prop :=
  (∀ (s : State) (tag : Byte) (c : Instr) (type : RequestType) (k : StoreClock), s.Takes .store →
    ((∃ time day, time ≤ 86399 ∧ day ≤ 6 ∧ c = .clockSet .store tag (be 3 time ++ be 1 day) ∧ type = .clockSet ∧
        k = { s.clock with time := time, day := day, valid := true }) ∨
      (∃ entries schedule : List ScheduleEntry, entries.length ≤ 16 ∧ (∀ e ∈ entries, e.time ≤ 86399 ∧ e.days ≠ 0) ∧
        entries.Pairwise (fun a b => ¬ (a.time = b.time ∧ a.days &&& b.days ≠ 0)) ∧ InTimeOrder entries schedule ∧
        c = .scheduleLoad .store tag (be 1 entries.length ++ entries.flatMap Layout.scheduleEntry) ∧
        type = .scheduleLoad ∧ k = { s.clock with schedule := schedule }) ∨
      (∃ v : StoreState, c = .daypartForce .store tag [Layout.storeState v] ∧ type = .daypartForce ∧
        k = { s.clock with override := some v }) ∨
      (c = .daypartAuto .store tag [] ∧ type = .daypartAuto ∧ k = { s.clock with override := none })) →
    ∃ t, exec c s = .next t ∧ Holds t .store (okTo type tag [Layout.storeState t.clock.storeState]) ∧
      t.clock = { k with scheduled := t.clock.scheduled, lastOpen := t.clock.lastOpen } ∧
      (type = .daypartForce → t.clock.scheduled = s.clock.scheduled) ∧
      (type ≠ .daypartForce → Evaluated k t.clock.scheduled) ∧ TransitionMade s t ∧
      (type = .clockSet → s.internalTick = true → t.timeLeft .second = some 1000) ∧
      t = { s with
        ports := t.ports, clock := t.clock, timers := t.timers, changeover := t.changeover, freeze := t.freeze
        links := t.links, composer := t.composer }) ∧
  (∀ (s : State) (tag : Byte), s.Takes .store →
    (∀ time day, time < 16777216 → day < 256 → (86399 < time ∨ 6 < day) →
      AnswersOnly s (.clockSet .store tag (be 3 time ++ be 1 day)) .store (refusalOf .clockSet tag .badField [])) ∧
    (∀ v : Byte, 4 < v.toNat →
      AnswersOnly s (.daypartForce .store tag [v]) .store (refusalOf .daypartForce tag .badField [])) ∧
    (∀ (count : Byte) (body : List Byte), body.length ≤ 80 → (16 < count.toNat ∨ body.length ≠ 5 * count.toNat) →
      AnswersOnly s (.scheduleLoad .store tag (count :: body)) .store (refusalOf .scheduleLoad tag .badField [0])) ∧
    (∀ (count : Byte) (good : List ScheduleEntry) (time : Nat) (mask destination : Byte) (rest : List Byte),
      count.toNat ≤ 16 → (∀ e ∈ good, e.time ≤ 86399 ∧ e.days ≠ 0) → time < 16777216 →
      (86399 < time ∨ mask = 0 ∨ mask.getLsbD 7 = true ∨ 4 < destination.toNat) →
      5 * good.length + 5 + rest.length = 5 * count.toNat →
      AnswersOnly s (.scheduleLoad .store tag
          (count :: (good.flatMap Layout.scheduleEntry ++ be 3 time ++ [mask, destination] ++ rest))) .store
        (refusalOf .scheduleLoad tag .badField (be 1 good.length))) ∧
    (∀ (before after : List ScheduleEntry) (e : ScheduleEntry) (i : Nat) (f : ScheduleEntry),
      before.length + after.length + 1 ≤ 16 →
      (∀ x ∈ before ++ e :: after, x.time ≤ 86399 ∧ x.days ≠ 0) →
      before.Pairwise (fun a b => ¬ (a.time = b.time ∧ a.days &&& b.days ≠ 0)) →
      before[i]? = some f → f.time = e.time → f.days &&& e.days ≠ 0 →
      (∀ j g, j < i → before[j]? = some g → ¬ (g.time = e.time ∧ g.days &&& e.days ≠ 0)) →
      AnswersOnly s (.scheduleLoad .store tag
          (be 1 (before.length + after.length + 1) ++ (before ++ e :: after).flatMap Layout.scheduleEntry)) .store
        (refusalOf .scheduleLoad tag .conflict (be 1 before.length ++ be 1 i))))

/-- A tick of either source, and the firing of the entry then due: R163, R168. SCHEDULE_ENTRY_FIRE is the firing alone, on
the entry due at the present moment (log 6). That what is left on the second timer passes on every timer is the model's
choice (log 2): a tick of that timer acts on the state `r` after it has passed. -/
def Obligations.TicksAdvanceClockAndFireEntries : Prop :=
  ∀ s : State,
    (∀ c r, (c = .secondTimerTick ∧ (∃ left, s.timeLeft .second = some left ∧ r = s.elapse left) ∨
        c = .tickEdge ∧ s.phase = .running ∧ s.internalTick = false ∧ r = s) →
      ∃ t, exec c s = .next t ∧ (c = .secondTimerTick → t.timeLeft .second = some 1000) ∧
        (s.clock.valid = false → t = { s with timers := t.timers }) ∧
        (s.clock.valid = true →
          t.clock.time = (if s.clock.time + 1 < 86400 then s.clock.time + 1 else 0) ∧
          t.clock.day = (if s.clock.time + 1 < 86400 then s.clock.day else (s.clock.day + 1) % 7) ∧
          t.clock.valid = true ∧ t.clock.schedule = s.clock.schedule ∧
          (∀ before e after, s.clock.schedule = before ++ e :: after →
            (∀ x ∈ before, ¬ (x.time = t.clock.time ∧ x.days.getLsbD t.clock.day = true)) →
            e.time = t.clock.time → e.days.getLsbD t.clock.day = true →
            t.clock.scheduled = e.destination ∧ t.clock.override = none) ∧
          ((∀ e ∈ s.clock.schedule, ¬ (e.time = t.clock.time ∧ e.days.getLsbD t.clock.day = true)) →
            t.clock.scheduled = s.clock.scheduled ∧ t.clock.override = s.clock.override) ∧
          TransitionMade r t) ∧
        t = { s with
          ports := t.ports, clock := t.clock, timers := t.timers, changeover := t.changeover, freeze := t.freeze
          links := t.links, composer := t.composer }) ∧
    (∀ before e after, s.clock.valid = true → s.clock.schedule = before ++ e :: after →
      (∀ x ∈ before, ¬ (x.time = s.clock.time ∧ x.days.getLsbD s.clock.day = true)) →
      e.time = s.clock.time → e.days.getLsbD s.clock.day = true →
      ∃ t, exec .scheduleEntryFire s = .next t ∧
        t.clock = { s.clock with scheduled := e.destination, override := none, lastOpen := t.clock.lastOpen } ∧
        TransitionMade s t ∧
        t = { s with
          ports := t.ports, clock := t.clock, timers := t.timers, changeover := t.changeover, freeze := t.freeze
          links := t.links, composer := t.composer })

/-! ## Request ports and notices (chapter 10) -/

/-- A request to a port that is not READY, or whose message began while it was not, is lost: R190, R192, R193. An unfitted
lane port ignores every byte, in a reset too: R188. That REQUEST_DISCARDED sets the flag on a READY port as well is read from
R192 and R193 (log 4). The bytes put out are the model's own record (log 17). -/
def Obligations.BusyPortLosesRequest : Prop :=
  (∀ (s : State) (p : PortId) (c : Instr) (size : Nat),
    (c = .requestDiscarded ⟨p, size, true⟩ ∨
      ∃ type tag payload, c = RequestType.toInstr type p tag payload ∧ (type = .loadBlock → SessionSound s) ∧
        ((s.port p).state ≠ .ready ∨ (s.port p).receiving ≠ none) ∧ size = 6 + payload.length) →
    (s.portFitted p = true →
      ∃ t, exec c s = .next t ∧ (t.port p).flags = (s.port p).flags ||| NoticeFlag.requestLost.mask ∧
        (t.port p).state = (s.port p).state ∧ (t.port p).mask = (s.port p).mask ∧ (t.port p).receiving = none ∧
        (p = .store ∨ p = .media →
          (t.port p).dataOut = (s.port p).receiving.getD (s.port p).stateByte :: List.replicate size 0) ∧
        (∀ l, p = .lane l → (t.port p).dataOut = (s.port p).dataOut) ∧
        (∀ q, q ≠ p → t.port q = s.port q) ∧ t = { s with ports := t.ports }) ∧
    (s.portFitted p = false → exec c s = .next s)) ∧
  (∀ (s : State) (p : PortId) (size : Nat),
    (s.portFitted p = true →
      ∃ t, exec (.requestDiscarded ⟨p, size, false⟩) s = .next t ∧
        t.port p = { s.port p with receiving := some ((s.port p).receiving.getD (s.port p).stateByte) } ∧
        (∀ q, q ≠ p → t.port q = s.port q) ∧ t = { s with ports := t.ports }) ∧
    (s.portFitted p = false → exec (.requestDiscarded ⟨p, size, false⟩) s = .next s))

/-- Messages that fail a check of the port itself are answered and change nothing: R191, and R193 for a message cut short by
an idle gap. On a lane port a message is complete at the length its header gives, and bytes that follow it without a gap are
a message that arrives while the port is not READY: R193. That a FRAME_ERROR or a UART_IDLE_GAP whose bytes hold a whole
message and others behind it stands for the messages in turn is the model's choice (log 19). -/
def Obligations.BadMessagesAreAnswered : Prop :=
  ∀ (s : State) (p : PortId), s.Takes p →
    (∀ message, (Message.complete message = false ∨
        be 2 (crc16 (message.take (message.length - 2))).toNat ≠ message.drop (message.length - 2)) →
      (∀ l, p = .lane l → message ≠ [] ∧ message.length ≤ 6 + Message.lengthField message) →
      AnswersOnly s (.frameError p message) p ⟨message.getD 0 0, message.getD 1 0, .frameError, []⟩) ∧
    (∀ message, Message.complete message = true →
      be 2 (crc16 (message.take (message.length - 2))).toNat = message.drop (message.length - 2) →
      RequestType.ofCode (message.getD 0 0) = none →
      AnswersOnly s (.frameError p message) p ⟨message.getD 0 0, message.getD 1 0, .unknownRequest, []⟩) ∧
    (∀ l received, p = .lane l → received ≠ [] → received.length < 6 + Message.lengthField received →
      AnswersOnly s (.uartIdleGap l received) p ⟨received.getD 0 0, received.getD 1 0, .frameError, []⟩) ∧
    (∀ l first rest c u, p = .lane l → 4 ≤ first.length → first.length = 6 + Message.lengthField first → rest ≠ [] →
      rest.length < 6 + Message.lengthField rest →
      (c = .frameError p (first ++ rest) ∨ c = .uartIdleGap l (first ++ rest)) →
      exec (Message.command p first) s = .next u → (u.port p).state ≠ .ready → u.portFitted p = true →
      ∃ t, exec c s = .next t ∧ (t.port p).flags = (u.port p).flags ||| NoticeFlag.requestLost.mask ∧
        (t.port p).state = (u.port p).state ∧ (∀ q, q ≠ p → t.port q = u.port q) ∧
        t = { u with ports := t.ports }) ∧
    (∀ type tag payload, (type = .loadBlock → SessionSound s) → type.permission.holds p = false →
      AnswersOnly s (RequestType.toInstr type p tag payload) p (refusalOf type tag .notPermitted [])) ∧
    (∀ type tag payload, (type = .loadBlock → SessionSound s) → type.permission.holds p = true →
      (payload.length < type.lengths.1 ∨ type.lengths.2 < payload.length) →
      AnswersOnly s (RequestType.toInstr type p tag payload) p (refusalOf type tag .badField []))

/-- A refusal by the owning block changes nothing but what its own rule says: R195. BATCH_ADD and BATCH_COMMIT restart the
idle timer, and LOAD_BLOCK the idle limit. -/
def Obligations.RefusedRequestsChangeNothing : Prop :=
  ∀ (s : State) (p : PortId) (type : RequestType) (tag : Byte) (payload : List Byte) (t : State) (a : Answer),
    s.Takes p → type ≠ .batchAdd → type ≠ .batchCommit → type ≠ .loadBlock →
    exec (RequestType.toInstr type p tag payload) s = .next t → (t.port p).state = .answer a → a.status ≠ .ok →
    AnsweredOn s t p a ∧ t = { s with ports := t.ports }

/-- An answer read to its end on an SPI port, and an answer sent on a lane port, empty the port; a read cut short keeps the
answer: R192, R193. The bytes put out are the model's own record (log 17). -/
def Obligations.AnswerReadEmptiesPort : Prop :=
  ∀ (s : State) (p : PortId) (a : Answer), (s.port p).state = .answer a →
    (∀ clocked, p = .store ∨ p = .media →
      ∃ t, exec (.answerRead p clocked) s = .next t ∧
        t.port p = { s.port p with
          state := if a.bytes.length ≤ clocked then .ready else .answer a
          dataOut := (s.port p).stateByte ::
            (a.bytes.take clocked ++ List.replicate (clocked - a.bytes.length) 0) } ∧
        (∀ q, q ≠ p → t.port q = s.port q) ∧ t = { s with ports := t.ports }) ∧
    (∀ l, p = .lane l →
      ∃ t, exec (.answerSent l) s = .next t ∧ t.port p = { s.port p with state := .ready, dataOut := a.bytes } ∧
        (∀ q, q ≠ p → t.port q = s.port q) ∧ t = { s with ports := t.ports })

/-- NOTICE_READ, NOTICE_CLEAR and NOTICE_MASK: R198, with the sets of R196 and the bits of R200. -/
def Obligations.NoticeRequestsReadClearAndMask : Prop :=
  ∀ (s : State) (p : PortId) (tag : Byte) (set : BitVec 24), s.Takes p →
    AnswersOnly s (.noticeRead p tag []) p
      (okTo .noticeRead tag (be 3 (s.port p).flags.toNat ++ be 3 (s.port p).mask.toNat)) ∧
    (set &&& ~~~ (flagSetOf p) ≠ 0 →
      AnswersOnly s (.noticeClear p tag (be 3 set.toNat)) p (refusalOf .noticeClear tag .badField []) ∧
      AnswersOnly s (.noticeMask p tag (be 3 set.toNat)) p (refusalOf .noticeMask tag .badField [])) ∧
    (set &&& ~~~ (flagSetOf p) = 0 →
      (∃ t, exec (.noticeClear p tag (be 3 set.toNat)) s = .next t ∧
        Holds t p (okTo .noticeClear tag (be 3 (t.port p).flags.toNat)) ∧
        (t.port p).flags = (s.port p).flags &&& ~~~ set ∧ (t.port p).mask = (s.port p).mask ∧
        (∀ q, q ≠ p → t.port q = s.port q) ∧ t = { s with ports := t.ports }) ∧
      (∃ t, exec (.noticeMask p tag (be 3 set.toNat)) s = .next t ∧
        Holds t p (okTo .noticeMask tag (be 3 set.toNat)) ∧
        (t.port p).mask = set ∧ (t.port p).flags = (s.port p).flags ∧
        (∀ q, q ≠ p → t.port q = s.port q) ∧ t = { s with ports := t.ports }))

/-- The reads that give a block's record, in the layouts of R201 and R204, change nothing: R39, R88, R117, R138, R175, R186,
R208, R211. The largest free entry is the first of the greatest count (R123). The lane revision of a MENU panel's
last-composition record is the model's choice (log 25), as is a report count above 65,535 (log 15) and the rounding of a
time left in seconds (log 10), and the next firing of a schedule none of whose entries is ever due (log 27). -/
def Obligations.RecordReadsChangeNothing : Prop :=
  ∀ (s : State) (p : PortId) (tag : Byte), s.Takes p →
    AnswersOnly s (.describe p tag []) p (okTo .describe tag
      (be 2 0x4D36 ++ be 1 1 ++ be 2 512 ++ be 1 4 ++ be 1 64 ++ be 1 6 ++ be 1 48 ++ be 1 192 ++ be 2 6144 ++
        be 2 4096 ++ be 2 320 ++ be 1 2 ++ be 1 8 ++ be 1 24 ++ be 1 16 ++ be 2 4104 ++ be 4 s.burnedSet)) ∧
    AnswersOnly s (.profileRead p tag []) p (okTo .profileRead tag
      (fieldNumbers.flatMap fun n =>
        flagByte (Table.find n s.burned).isSome :: (fieldValue s.burned n ++ fieldValue s.inForce n))) ∧
    AnswersOnly s (.changeoverStatus p tag []) p
      (okTo .changeoverStatus tag (Layout.changeoverStatus s)) ∧
    (∃ next, NextFiring s.clock next ∧ AnswersOnly s (.scheduleRead p tag []) p (okTo .scheduleRead tag
      (be 3 s.clock.time ++ be 1 s.clock.day ++ [flagByte s.clock.valid, flagByte s.internalTick,
        Layout.storeState s.clock.storeState, Layout.storeState s.clock.scheduled] ++
        optBytes 1 (s.clock.override.map fun v => [Layout.storeState v]) ++ be 1 s.clock.lastOpen.val ++
        be 1 s.clock.schedule.length ++ s.clock.schedule.flatMap Layout.scheduleEntry ++
        optBytes 5 (next.map fun x => be 3 x.1.time ++ be 1 x.2 ++ [Layout.storeState x.1.destination])))) ∧
    (∀ panel n, panel? panel = some n →
      AnswersOnly s (.panelStatus p tag [panel]) p (okTo .panelStatus tag
        (if (s.link n).state = .off then
          [0, Layout.place [PanelRole.menu, .lane 0, .lane 1] (s.role n)] ++ be 1 (s.grid n).columns ++
            be 1 (s.grid n).rows ++ List.replicate 106 0
        else Layout.panelStatus s n))) ∧
    (∀ panel : Byte, 5 < panel.toNat →
      AnswersOnly s (.panelStatus p tag [panel]) p (refusalOf .panelStatus tag .badField [])) ∧
    (p = .media →
      (s.photo.free = [] →
        AnswersOnly s (.spaceRead .media tag []) .media (okTo .spaceRead tag (Layout.spaceRead s none))) ∧
      (∀ before e after, s.photo.free = before ++ e :: after → (∀ x ∈ before, x.count < e.count) →
        (∀ x ∈ after, x.count ≤ e.count) →
        AnswersOnly s (.spaceRead .media tag []) .media (okTo .spaceRead tag (Layout.spaceRead s (some e))))) ∧
    (p = .media → ∀ panel dayPart n d, panel? panel = some n → dayPart? dayPart = some d →
      AnswersOnly s (.planRead .media tag [panel, dayPart]) .media (okTo .planRead tag
        (be 2 (s.plan n d).revision.toNat ++ be 1 (s.plan n d).placements.length ++
          (s.plan n d).placements.flatMap Payload.placement))) ∧
    (p = .media → ∀ panel dayPart : Byte, (5 < panel.toNat ∨ 3 < dayPart.toNat) →
      AnswersOnly s (.planRead .media tag [panel, dayPart]) .media (refusalOf .planRead tag .badField []))

/-! ## Profile Memory, resets and start-up (chapter 11) -/

/-- PROFILE_BURN: R207, with the ranges of R206 field by field in the layouts of R201 (`Payload.ProfileValue`). The values
in force stand until the next start-up. -/
def Obligations.ProfileBurnBurnsFieldOnce : Prop :=
  ∀ (s : State) (tag : Byte) (n : Nat) (value : List Byte), s.Takes .media → n < 256 → 1 ≤ value.length →
    value.length ≤ 4103 →
    ((n < 1 ∨ 25 < n ∨ ¬ Payload.ProfileValue n value) →
      AnswersOnly s (.profileBurn .media tag (be 1 n ++ value)) .media (refusalOf .profileBurn tag .badField [])) ∧
    (1 ≤ n → n ≤ 25 → Payload.ProfileValue n value →
      (∀ burned, Table.find n s.burned = some burned →
        AnswersOnly s (.profileBurn .media tag (be 1 n ++ value)) .media
          (refusalOf .profileBurn tag .profileBurned burned)) ∧
      (Table.find n s.burned = none →
        ∃ t, exec (.profileBurn .media tag (be 1 n ++ value)) s = .next t ∧
          AnsweredOn s t .media (okTo .profileBurn tag (be 1 n ++ value)) ∧ Table.find n t.burned = some value ∧
          (∀ m, m ≠ n → Table.find m t.burned = Table.find m s.burned) ∧
          t = { s with ports := t.ports, burned := t.burned }))

/-- Power-on, a RESET assertion and a RESTART are taken: R209, with the reset states of R28, R43, R66, R90, R118, R139,
R140, R161, R176, R187 and R199. A pin reset keeps the plans, the schedule and Photo Memory's slots and blocks; what
start-up deals with stands untouched until START_UP (log 16). A power-on reset taken while the RESET line is low is held
until the line is released (log 24), and no start-up comes by itself before that. That DRAM whose contents are lost reads
as 0 is the model's choice (log 12). A RESTART with another option is refused and starts nothing: R209. -/
def Obligations.ResetsLeaveResetState : Prop :=
  (∀ (s : State) (tag option : Byte), s.Takes .store → 1 < option.toNat →
    AnswersOnly s (.restart .store tag [option]) .store (refusalOf .restart tag .badField [])) ∧
  ∀ (s : State) (c : Instr) (kind : ResetKind) (phase : Phase),
    ((c = .powerOn ∧ kind = .power ∧ (∀ held, s.phase ≠ .resetLow held) ∧ phase = .starting .power) ∨
      (c = .powerOn ∧ kind = .power ∧ (∃ held, s.phase = .resetLow held) ∧ phase = .resetLow .power) ∨
      (c = .resetLineAsserted ∧ kind = .pin ∧ phase = .resetLow .pin) ∨
      (∃ tag, c = .restart .store tag [0] ∧ s.Takes .store ∧ kind = .pin ∧ phase = .starting .pin) ∨
      (∃ tag, c = .restart .store tag [1] ∧ s.Takes .store ∧ kind = .power ∧ phase = .starting .power)) →
    ∃ t, exec c s = .next t ∧ t.phase = phase ∧
      (∀ p, t.port p = ⟨.working, 0, flagSetOf p, [], none⟩) ∧ t.burned = s.burned ∧ t.inForce = s.inForce ∧
      t.timers = [] ∧ BlocksAtReset t s.linkFitted ∧
      t.photo.session = none ∧ t.photo.lastLoad = none ∧ t.photo.verifyQueue = [] ∧ t.photo.verifying = none ∧
      (kind = .pin → t.plans = s.plans ∧ t.clock.schedule = s.clock.schedule ∧ t.photo.slots = s.photo.slots ∧
        t.photo.free = s.photo.free ∧ t.photo.memory = s.photo.memory) ∧
      (kind = .power → (∀ p d, t.plan p d = ⟨[], 0⟩) ∧ t.clock.schedule = [] ∧ PhotoAtPowerOn t.photo) ∧
      (∀ held, phase = .resetLow held → t.ownEvent = none) ∧ t.pending = s.pending

/-- START_UP: R210, with the reset states of R28, R43, R66, R90, R118, R139, R161, R176, R187 and R199, and with R44 and
R140. That DRAM whose contents are lost reads as 0 is the model's choice (log 12). A message that a port is losing while
start-up makes it READY stays one that is lost (R192, R193). -/
def Obligations.StartUpReadsProfileAndRunsPorts : Prop :=
  ∀ (s : State) (kind : ResetKind), (s.phase = .starting kind ∨ s.phase = .resetLow kind) →
    ∃ t, exec .startUp s = .next t ∧ t.phase = .running ∧ t.inForce = s.burned ∧ t.burned = s.burned ∧
      (∀ p, t.portFitted p = true → (t.port p).state = .ready ∧ (t.port p).mask = flagSetOf p ∧
        (t.port p).receiving = (s.port p).receiving ∧
        (t.port p).flags = NoticeFlag.restarted.mask ||| ((s.port p).flags &&& NoticeFlag.requestLost.mask)) ∧
      (∀ p, t.portFitted p = false → (t.port p).flags = 0 ∧ (t.port p).state = .working) ∧
      t.timeLeft .minute = some 60000 ∧ t.timeLeft .second = (if t.internalTick then some 1000 else none) ∧
      (∀ u, u ≠ .minute → u ≠ .second → t.timeLeft u = none) ∧
      BlocksAtReset t t.linkFitted ∧
      (kind = .power → (∀ p d, t.plan p d = ⟨[], 0⟩) ∧ t.clock.schedule = [] ∧ PhotoAtPowerOn t.photo) ∧
      (kind = .pin → t.clock.schedule = s.clock.schedule ∧ t.photo.memory = s.photo.memory ∧
        t.photo.session = none ∧ t.photo.lastLoad = none ∧
        (∀ p d, t.plan p d =
          if (s.plan p d).placements = [] ∨ (t.linkFitted p = true ∧
            ∀ pl ∈ (s.plan p d).placements, t.placementFits p pl = true)
          then s.plan p d else ⟨[], (s.plan p d).revision + 1⟩) ∧
        (t.fullStartUp = false → t.photo.verifyQueue = [] ∧ t.photo.verifying = none) ∧
        (t.fullStartUp = true → ∀ k, k ∈ t.photo.verifyQueue ↔
          k ∈ t.photo.unverified ∨ t.photo.verifying = some k)) ∧
      (kind = .pin → PhotoSound s →
        (∀ k, Table.find k s.photo.slots = none → Table.find k t.photo.slots = none) ∧
        (∀ k r, Table.find k s.photo.slots = some r →
          (r.state = .loading → Table.find k t.photo.slots = none) ∧
          (∀ cause, r.state = .damaged cause →
            Table.find k t.photo.slots = some { r with pins := photoPlacements t k }) ∧
          ((r.state = .ready ∨ r.state = .unverified ∨ r.state = .verifying) →
            Table.find k t.photo.slots = some { r with
              pins := photoPlacements t k
              state := if t.photo.verifying = some k then .verifying else .unverified })) ∧
        (∀ k, t.photo.verifying = some k → ∀ j ∈ t.photo.verifyQueue, k ≤ j) ∧
        (t.fullStartUp = true → t.photo.verifying = none → t.photo.verifyQueue = []) ∧
        (∀ b, b < 6144 → ((∃ e ∈ t.photo.free, e.start ≤ b ∧ b < e.start + e.count) ↔
          ∀ k r, Table.find k t.photo.slots = some r → ¬ (r.range.start ≤ b ∧ b < r.range.start + r.range.count))) ∧
        t.photo.free.Pairwise (fun a b => a.start + a.count < b.start) ∧ (∀ e ∈ t.photo.free, 1 ≤ e.count)) ∧
      t.pending = s.pending

/-- The machine at State.reset, a power-on start-up with no field burned: R28, R43, R66, R90, R118, R139, R161, R176, R187,
R199 and the defaults of R206 (that it starts there is the model's choice, log 3, and so is DRAM that reads as 0, log 12);
and the invariants hold there. -/
def Obligations.ResetStateIsPowerOnStartUp : Prop :=
  State.reset.phase = .running ∧ State.reset.burned = [] ∧ State.reset.inForce = [] ∧
  (∀ p, State.reset.port p = ⟨.ready, NoticeFlag.restarted.mask, flagSetOf p, [], none⟩) ∧
  State.reset.timeLeft .minute = some 60000 ∧ State.reset.timeLeft .second = some 1000 ∧
  (∀ u, u ≠ .minute → u ≠ .second → State.reset.timeLeft u = none) ∧
  BlocksAtReset State.reset (fun _ => true) ∧ (∀ p d, State.reset.plan p d = ⟨[], 0⟩) ∧
  PhotoAtPowerOn State.reset.photo ∧ State.reset.clock.schedule = [] ∧ State.reset.pending = [] ∧
  (List.range 25).map (fun k => fieldValue State.reset.inForce (k + 1)) =
    [[6]] ++ List.replicate 6 [0] ++ List.replicate 6 [16, 9] ++ [[2], [2], [36, 0], [3, 45, 45, 45], [1, 88], [0]] ++
      [[60], be 2 600, be 2 2000, [10], [1], [1]] ∧
  (∀ p, State.reset.role p = .menu) ∧ (∀ p, State.reset.grid p = ⟨16, 9⟩) ∧
  State.reset.profileNat 1 = 6 ∧ State.reset.profileNat 14 = 2 ∧
  State.reset.profileNat 20 = 60 ∧ State.reset.profileNat 21 = 600 ∧ State.reset.profileNat 22 = 2000 ∧
  State.reset.profileNat 23 = 10 ∧
  PhotoSound State.reset ∧ BlocksAccounted State.reset ∧ FreezeHoldsController State.reset

/-! ## Headline results -/

/-- A request message as R200 lays it out is read back as the request it was made from, whatever its type, tag and payload:
R191, R200, R201. What an SPI transaction is, by its transaction code: R192, R200. -/
def Obligations.MessageReadsBackAsSent : Prop :=
  (∀ (type : RequestType) (tag : Byte) (payload : List Byte) (p : PortId), payload.length ≤ 4104 →
    Message.read (Message.encode type tag payload) = .good type tag payload ∧
    Message.command p (Message.encode type tag payload) = type.toInstr p tag payload) ∧
  (∀ (p : PortId) (bytes : List Byte),
    Transaction.command p (0x01 :: bytes) = some (Message.command p bytes) ∧
    Transaction.command p (0x02 :: bytes) = some (.answerRead p bytes.length) ∧
    (∀ code, code ≠ 0x01 → code ≠ 0x02 → Transaction.command p (code :: bytes) = none) ∧
    Transaction.command p [] = none)

/-- A burned field keeps its value through every step: R206, R207. -/
def Obligations.BurnedFieldsPersist : Prop :=
  ∀ (s t : State) (n : Nat) (value : List Byte), step s = .next t → Table.find n s.burned = some value →
    Table.find n t.burned = some value

/-- Every step keeps Photo Memory sound: R119, R123 to R126, R132, R133 (the DRAM's canonical form is the model's: log 12);
and it keeps every block either free, in a free list in its canonical form, or in the range of exactly one slot: R119, R121,
R122. -/
def Obligations.PhotoMemoryStaysSound : Prop :=
  (∀ s t : State, PhotoSound s → step s = .next t → PhotoSound t) ∧
  ∀ s t : State, PhotoSound s → BlocksAccounted s → step s = .next t → BlocksAccounted t

/-- While the freeze is in force the Changeover Controller stays IDLE, through every step: R178, R179, R181. -/
def Obligations.FreezeKeepsControllerIdle : Prop :=
  ∀ s t : State, FreezeHoldsController s → step s = .next t → FreezeHoldsController t
end

