-- ==== Sys2Proof/Laws/Containers.lean ====
section
/-! SUPPORT. The laws of the collections: what a table, a family of panels, lanes or ports gives after an update, and that
every table operation keeps the canonical form. -/
namespace Sys2Proof.Machine

section
variable {α β : Type}

theorem Table.find_insert (k j : Nat) (v : α) (t : Table α) :
    Table.find k (Table.insert j v t) = if j = k then some v else Table.find k t := by
  induction t with
  | nil => simp [Table.insert, Table.find]
  | cons e t ih =>
    obtain ⟨i, w⟩ := e
    unfold Table.insert
    split
    · simp [Table.find]
    · split
      · next h => subst h; simp only [Table.find]; split <;> rfl
      · next h1 h2 =>
        simp only [Table.find, ih]
        by_cases hik : i = k
        · simp only [hik, if_true]; subst hik; rw [if_neg h2]
        · simp [hik]

@[simp] theorem Table.find_insert_self (k : Nat) (v : α) (t : Table α) :
    Table.find k (Table.insert k v t) = some v := by simp [Table.find_insert]

theorem Table.find_insert_of_ne {k j : Nat} (h : j ≠ k) (v : α) (t : Table α) :
    Table.find k (Table.insert j v t) = Table.find k t := by simp [Table.find_insert, h]

theorem Table.find_erase (k j : Nat) (t : Table α) :
    Table.find k (Table.erase j t) = if j = k then none else Table.find k t := by
  induction t with
  | nil => simp [Table.erase, Table.find]
  | cons e t ih =>
    obtain ⟨i, w⟩ := e
    simp only [Table.erase, List.filter_cons] at ih ⊢
    by_cases hij : i = j
    · subst hij
      simp only [ne_eq, not_true_eq_false, decide_false, Bool.false_eq_true, if_false, ih, Table.find]
      split <;> rfl
    · simp only [ne_eq, hij, not_false_eq_true, decide_true, if_true, Table.find, ih]
      by_cases hik : i = k
      · subst hik; simp [Ne.symm hij]
      · simp [hik]

@[simp] theorem Table.find_erase_self (k : Nat) (t : Table α) : Table.find k (Table.erase k t) = none := by
  simp [Table.find_erase]

theorem Table.find_erase_of_ne {k j : Nat} (h : j ≠ k) (t : Table α) :
    Table.find k (Table.erase j t) = Table.find k t := by simp [Table.find_erase, h]

theorem Table.find_mapValues (f : Nat → α → β) (k : Nat) (t : Table α) :
    Table.find k (Table.mapValues f t) = (Table.find k t).map (f k) := by
  induction t with
  | nil => rfl
  | cons e t ih =>
    obtain ⟨i, w⟩ := e
    simp only [Table.mapValues, List.map_cons, Table.find] at ih ⊢
    split
    · next h => subst h; rfl
    · exact ih

theorem Table.find_of_mem {k : Nat} {v : α} {t : Table α} (hw : Table.Wf t) (h : (k, v) ∈ t) : Table.find k t = some v := by
  induction t with
  | nil => cases h
  | cons e t ih =>
    obtain ⟨i, w⟩ := e
    rw [Table.Wf, List.pairwise_cons] at hw
    rcases List.mem_cons.1 h with h | h
    · cases h; simp [Table.find]
    · have hlt := hw.1 _ h
      simp only at hlt
      simp only [Table.find]
      rw [if_neg (by omega)]
      exact ih hw.2 h

theorem Table.mem_of_find {k : Nat} {v : α} {t : Table α} (h : Table.find k t = some v) : (k, v) ∈ t := by
  induction t with
  | nil => cases h
  | cons e t ih =>
    obtain ⟨i, w⟩ := e
    simp only [Table.find] at h
    split at h
    · next hik => subst hik; cases h; exact List.mem_cons_self
    · exact List.mem_cons_of_mem _ (ih h)

theorem Table.mem_insert {j : Nat} {v : α} {t : Table α} {e : Nat × α} (h : e ∈ Table.insert j v t) :
    e = (j, v) ∨ e ∈ t := by
  induction t with
  | nil => simp [Table.insert] at h; exact Or.inl h
  | cons x t ih =>
    obtain ⟨i, w⟩ := x
    unfold Table.insert at h
    split at h
    · rcases List.mem_cons.1 h with h | h
      · exact Or.inl h
      · exact Or.inr h
    · split at h
      · rcases List.mem_cons.1 h with h | h
        · exact Or.inl h
        · exact Or.inr (List.mem_cons_of_mem _ h)
      · rcases List.mem_cons.1 h with h | h
        · exact Or.inr (h ▸ List.mem_cons_self)
        · rcases ih h with h | h
          · exact Or.inl h
          · exact Or.inr (List.mem_cons_of_mem _ h)

theorem Table.insert_wf {t : Table α} (h : Table.Wf t) (j : Nat) (v : α) : Table.Wf (Table.insert j v t) := by
  induction t with
  | nil => simp [Table.insert, Table.Wf]
  | cons x t ih =>
    obtain ⟨i, w⟩ := x
    have hc := List.pairwise_cons.1 h
    unfold Table.insert
    split
    · next hlt =>
      refine List.pairwise_cons.2 ⟨fun e he => ?_, h⟩
      rcases List.mem_cons.1 he with he | he
      · subst he; exact hlt
      · exact Nat.lt_trans hlt (hc.1 e he)
    · split
      · next heq => subst heq; exact List.pairwise_cons.2 ⟨fun e he => hc.1 e he, hc.2⟩
      · next h1 h2 =>
        refine List.pairwise_cons.2 ⟨fun e he => ?_, ih hc.2⟩
        rcases Table.mem_insert he with he | he
        · subst he; show i < j; omega
        · exact hc.1 e he

theorem Table.erase_wf {t : Table α} (h : Table.Wf t) (j : Nat) : Table.Wf (Table.erase j t) :=
  List.Pairwise.filter _ h

theorem Table.mapValues_wf {t : Table α} (h : Table.Wf t) (f : Nat → α → β) : Table.Wf (Table.mapValues f t) := by
  unfold Table.mapValues Table.Wf
  rw [List.pairwise_map]
  exact h

@[simp] theorem PerPanel.get_set_self (x : PerPanel α) (p : PanelNo) (v : α) : (x.set p v).get p = v := by
  match p with
  | 0 => rfl
  | 1 => rfl
  | 2 => rfl
  | 3 => rfl
  | 4 => rfl
  | 5 => rfl

theorem PerPanel.get_set_of_ne (x : PerPanel α) {p q : PanelNo} (h : q ≠ p) (v : α) : (x.set p v).get q = x.get q := by
  match p, q with
  | 0, 0 => exact absurd rfl h
  | 1, 1 => exact absurd rfl h
  | 2, 2 => exact absurd rfl h
  | 3, 3 => exact absurd rfl h
  | 4, 4 => exact absurd rfl h
  | 5, 5 => exact absurd rfl h
  | 0, 1 => rfl
  | 0, 2 => rfl
  | 0, 3 => rfl
  | 0, 4 => rfl
  | 0, 5 => rfl
  | 1, 0 => rfl
  | 1, 2 => rfl
  | 1, 3 => rfl
  | 1, 4 => rfl
  | 1, 5 => rfl
  | 2, 0 => rfl
  | 2, 1 => rfl
  | 2, 3 => rfl
  | 2, 4 => rfl
  | 2, 5 => rfl
  | 3, 0 => rfl
  | 3, 1 => rfl
  | 3, 2 => rfl
  | 3, 4 => rfl
  | 3, 5 => rfl
  | 4, 0 => rfl
  | 4, 1 => rfl
  | 4, 2 => rfl
  | 4, 3 => rfl
  | 4, 5 => rfl
  | 5, 0 => rfl
  | 5, 1 => rfl
  | 5, 2 => rfl
  | 5, 3 => rfl
  | 5, 4 => rfl

theorem PerPanel.get_set (x : PerPanel α) (p q : PanelNo) (v : α) :
    (x.set p v).get q = if q = p then v else x.get q := by
  by_cases h : q = p
  · subst h; simp
  · simp [h, PerPanel.get_set_of_ne x h]

@[simp] theorem PerPanel.get_ofFn (f : PanelNo → α) (p : PanelNo) : (PerPanel.ofFn f).get p = f p := by
  match p with
  | 0 => rfl
  | 1 => rfl
  | 2 => rfl
  | 3 => rfl
  | 4 => rfl
  | 5 => rfl

@[simp] theorem PerPanel.set_set (x : PerPanel α) (p : PanelNo) (v w : α) : (x.set p v).set p w = x.set p w := by
  match p with
  | 0 => rfl
  | 1 => rfl
  | 2 => rfl
  | 3 => rfl
  | 4 => rfl
  | 5 => rfl

@[simp] theorem PerPanel.set_get (x : PerPanel α) (p : PanelNo) : x.set p (x.get p) = x := by
  match p with
  | 0 => rfl
  | 1 => rfl
  | 2 => rfl
  | 3 => rfl
  | 4 => rfl
  | 5 => rfl

theorem PerPanel.ext_get {x y : PerPanel α} (h : ∀ p, x.get p = y.get p) : x = y := by
  cases x; cases y
  have h0 := h 0; have h1 := h 1; have h2 := h 2; have h3 := h 3; have h4 := h 4; have h5 := h 5
  simp only [PerPanel.get] at h0 h1 h2 h3 h4 h5
  subst h0 h1 h2 h3 h4 h5; rfl

@[simp] theorem PerDayPart.get_set_self (x : PerDayPart α) (d : DayPart) (v : α) : (x.set d v).get d = v := by
  match d with
  | 0 => rfl
  | 1 => rfl
  | 2 => rfl
  | 3 => rfl

theorem PerDayPart.get_set_of_ne (x : PerDayPart α) {d e : DayPart} (h : e ≠ d) (v : α) : (x.set d v).get e = x.get e := by
  match d, e with
  | 0, 0 => exact absurd rfl h
  | 1, 1 => exact absurd rfl h
  | 2, 2 => exact absurd rfl h
  | 3, 3 => exact absurd rfl h
  | 0, 1 => rfl
  | 0, 2 => rfl
  | 0, 3 => rfl
  | 1, 0 => rfl
  | 1, 2 => rfl
  | 1, 3 => rfl
  | 2, 0 => rfl
  | 2, 1 => rfl
  | 2, 3 => rfl
  | 3, 0 => rfl
  | 3, 1 => rfl
  | 3, 2 => rfl

@[simp] theorem PerDayPart.get_ofFn (f : DayPart → α) (d : DayPart) : (PerDayPart.ofFn f).get d = f d := by
  match d with
  | 0 => rfl
  | 1 => rfl
  | 2 => rfl
  | 3 => rfl

@[simp] theorem PerLane.get_set_self (x : PerLane α) (l : LaneNo) (v : α) : (x.set l v).get l = v := by
  match l with
  | 0 => rfl
  | 1 => rfl

theorem PerLane.get_set_of_ne (x : PerLane α) {l m : LaneNo} (h : m ≠ l) (v : α) : (x.set l v).get m = x.get m := by
  match l, m with
  | 0, 0 => exact absurd rfl h
  | 1, 1 => exact absurd rfl h
  | 0, 1 => rfl
  | 1, 0 => rfl

@[simp] theorem PerLane.set_set (x : PerLane α) (l : LaneNo) (v w : α) : (x.set l v).set l w = x.set l w := by
  match l with
  | 0 => rfl
  | 1 => rfl

end

@[simp] theorem Ports.get_set_self (x : Ports) (p : PortId) (v : Port) : (x.set p v).get p = v := by
  cases p with
  | store => rfl
  | media => rfl
  | lane n => exact PerLane.get_set_self _ _ _

theorem Ports.get_set_of_ne (x : Ports) {p q : PortId} (h : q ≠ p) (v : Port) : (x.set p v).get q = x.get q := by
  cases p with
  | store => cases q with
    | store => exact absurd rfl h
    | media => rfl
    | lane m => rfl
  | media => cases q with
    | store => rfl
    | media => exact absurd rfl h
    | lane m => rfl
  | lane n => cases q with
    | store => rfl
    | media => rfl
    | lane m => exact PerLane.get_set_of_ne _ (fun e => h (by rw [e])) _

@[simp] theorem Ports.set_set (x : Ports) (p : PortId) (v w : Port) : (x.set p v).set p w = x.set p w := by
  cases p with
  | store => rfl
  | media => rfl
  | lane n => simp [Ports.set]

end Sys2Proof.Machine
end

