-- ==== Sys2Proof/Laws/Memory.lean ====
section
/-! SUPPORT. The photo DRAM: every store keeps the canonical form, and what a byte reads as after a store. -/
namespace Sys2Proof.Machine

theorem Memory.cells_bounds {address : Nat} {bytes : List Byte} {c : Host.Cell} (h : c ∈ Memory.cells address bytes) :
    address ≤ c.1 ∧ c.1 < address + bytes.length ∧ c.2 ≠ Memory.unlisted := by
  induction bytes generalizing address with
  | nil => cases h
  | cons b bytes ih =>
    simp only [Memory.cells] at h
    split at h
    · have := ih h; simp only [List.length_cons]; exact ⟨by omega, by omega, this.2.2⟩
    · next hb =>
      rcases List.mem_cons.1 h with h | h
      · subst h; simp only [List.length_cons]; exact ⟨Nat.le_refl _, by omega, hb⟩
      · have := ih h; simp only [List.length_cons]; exact ⟨by omega, by omega, this.2.2⟩

theorem Memory.cells_sorted (address : Nat) (bytes : List Byte) :
    (Memory.cells address bytes).Pairwise (fun a b => a.1 < b.1) := by
  induction bytes generalizing address with
  | nil => exact List.Pairwise.nil
  | cons b bytes ih =>
    simp only [Memory.cells]
    split
    · exact ih _
    · exact List.pairwise_cons.2 ⟨fun c hc => by have := Memory.cells_bounds hc; show address < c.1; omega, ih _⟩

/-- A store keeps the canonical form. -/
theorem Memory.write_wf {m : Memory} (h : Memory.Wf m) (address : Nat) (bytes : List Byte) :
    Memory.Wf (Memory.write address bytes m) := by
  refine ⟨?_, ?_⟩
  · unfold Memory.write
    rw [List.append_assoc, List.pairwise_append, List.pairwise_append]
    refine ⟨h.1.filter _, ⟨Memory.cells_sorted _ _, h.1.filter _, ?_⟩, ?_⟩
    · intro a ha b hb
      have h1 := Memory.cells_bounds ha
      have h2 := (List.mem_filter.1 hb).2
      simp only [decide_eq_true_eq] at h2
      omega
    · intro a ha b hb
      have h1 := (List.mem_filter.1 ha).2
      simp only [decide_eq_true_eq] at h1
      rcases List.mem_append.1 hb with hb | hb
      · have := Memory.cells_bounds hb; omega
      · have h2 := (List.mem_filter.1 hb).2
        simp only [decide_eq_true_eq] at h2
        omega
  · intro c hc
    unfold Memory.write at hc
    rcases List.mem_append.1 hc with hc | hc
    · rcases List.mem_append.1 hc with hc | hc
      · exact h.2 c (List.mem_filter.1 hc).1
      · exact (Memory.cells_bounds hc).2.2
    · exact h.2 c (List.mem_filter.1 hc).1

theorem Table.find_filter {α : Type} (f : Nat × α → Bool) (k : Nat) (t : Table α)
    (hf : ∀ v, f (k, v) = true) : Table.find k (t.filter f) = Table.find k t := by
  induction t with
  | nil => rfl
  | cons e t ih =>
    obtain ⟨i, w⟩ := e
    simp only [List.filter_cons]
    by_cases hik : i = k
    · subst hik; simp [hf w, Table.find]
    · split
      · simp [Table.find, hik, ih]
      · simp [Table.find, hik, ih]

theorem Table.find_eq_none {α : Type} {k : Nat} {t : Table α} (h : ∀ e ∈ t, e.1 ≠ k) : Table.find k t = none := by
  induction t with
  | nil => rfl
  | cons e t ih =>
    obtain ⟨i, w⟩ := e
    have h1 : i ≠ k := h _ List.mem_cons_self
    simp only [Table.find, if_neg h1]
    exact ih fun e he => h e (List.mem_cons_of_mem _ he)

theorem Table.find_append {α : Type} (k : Nat) (t u : Table α) :
    Table.find k (t ++ u) = (Table.find k t).or (Table.find k u) := by
  induction t with
  | nil => simp [Table.find]
  | cons e t ih =>
    obtain ⟨i, w⟩ := e
    simp only [List.cons_append, Table.find]
    split
    · simp
    · exact ih

theorem Memory.find_cells (address : Nat) (bytes : List Byte) (a : Nat) :
    (Table.find a (Memory.cells address bytes)).getD Memory.unlisted =
      if address ≤ a then bytes.getD (a - address) Memory.unlisted else Memory.unlisted := by
  induction bytes generalizing address with
  | nil => simp [Memory.cells, Table.find]
  | cons b bytes ih =>
    simp only [Memory.cells]
    by_cases ha : address = a
    · subst ha
      simp only [Nat.le_refl, if_true, Nat.sub_self, List.getD_cons_zero]
      split
      · next hb =>
        have hn := ih (address + 1)
        rw [if_neg (by omega)] at hn
        rw [hn, hb]
      · simp [Table.find]
    · have hrest : (if address ≤ a then (b :: bytes).getD (a - address) Memory.unlisted else Memory.unlisted) =
          (if address + 1 ≤ a then bytes.getD (a - (address + 1)) Memory.unlisted else Memory.unlisted) := by
        by_cases hl : address ≤ a
        · rw [if_pos hl, if_pos (by omega)]
          obtain ⟨n, hn⟩ : ∃ n, a - address = n + 1 := ⟨a - address - 1, by omega⟩
          rw [hn, List.getD_cons_succ]
          congr 1; omega
        · rw [if_neg hl, if_neg (by omega)]
      rw [hrest]
      split
      · exact ih _
      · simp only [Table.find, if_neg ha]; exact ih _

/-- What a byte reads as after a store: the byte stored there, or what it read as before. -/
theorem Memory.read_write (m : Memory) (address : Nat) (bytes : List Byte) (a : Nat) :
    (Memory.write address bytes m).read a =
      if address ≤ a ∧ a < address + bytes.length then bytes.getD (a - address) Memory.unlisted else m.read a := by
  unfold Memory.read Memory.write
  rw [Table.find_append, Table.find_append]
  by_cases hlow : a < address
  · rw [if_neg (by omega), Table.find_filter _ _ _ (fun v => by simpa using hlow)]
    have hc : Table.find a (Memory.cells address bytes) = none :=
      Table.find_eq_none fun e he => by have := Memory.cells_bounds he; omega
    have hr : Table.find a (m.filter (fun c => decide (address + bytes.length ≤ c.1))) = none :=
      Table.find_eq_none fun e he => by
        have := (List.mem_filter.1 he).2; simp only [decide_eq_true_eq] at this; omega
    rw [hc, hr]; simp
  · have hl : Table.find a (m.filter (fun c => decide (c.1 < address))) = none :=
      Table.find_eq_none fun e he => by
        have := (List.mem_filter.1 he).2; simp only [decide_eq_true_eq] at this; omega
    rw [hl, Option.none_or]
    by_cases hhigh : a < address + bytes.length
    · rw [if_pos (by omega)]
      have hr : Table.find a (m.filter (fun c => decide (address + bytes.length ≤ c.1))) = none :=
        Table.find_eq_none fun e he => by
          have := (List.mem_filter.1 he).2; simp only [decide_eq_true_eq] at this; omega
      rw [hr, Option.or_none, Memory.find_cells, if_pos (by omega)]
    · rw [if_neg (by omega)]
      have hc : Table.find a (Memory.cells address bytes) = none :=
        Table.find_eq_none fun e he => by have := Memory.cells_bounds he; omega
      rw [hc, Option.none_or, Table.find_filter _ _ _ (fun v => by simp; omega)]

end Sys2Proof.Machine
end

