-- ==== Sys2Proof/Laws/Codec.lean ====
section
/-! SUPPORT. The laws of the byte encodings: lengths, and that a field reads back as it was written. -/
namespace Sys2Proof

@[simp] theorem be_length (k n : Nat) : (be k n).length = k := by
  induction k with
  | zero => rfl
  | succ k ih => simp [be, ih]

theorem natOf_foldl (bytes : List Byte) (n : Nat) :
    bytes.foldl (fun n b => n * 256 + b.toNat) n = n * 256 ^ bytes.length + natOf bytes := by
  induction bytes generalizing n with
  | nil => simp [natOf]
  | cons b bs ih =>
    simp only [List.foldl_cons, List.length_cons, natOf]
    rw [ih, ih (0 * 256 + b.toNat), Nat.pow_succ', Nat.add_mul, Nat.zero_mul, Nat.zero_add, Nat.add_assoc, Nat.mul_assoc]

theorem natOf_append (a b : List Byte) : natOf (a ++ b) = natOf a * 256 ^ b.length + natOf b := by
  rw [natOf, List.foldl_append, natOf_foldl]
  rfl

theorem natOf_cons (b : Byte) (bs : List Byte) : natOf (b :: bs) = b.toNat * 256 ^ bs.length + natOf bs := by
  have := natOf_append [b] bs
  simpa [natOf] using this

/-- A field of `k` bytes holds the number modulo its size. -/
theorem natOf_be_mod (k n : Nat) : natOf (be k n) = n % 256 ^ k := by
  induction k with
  | zero => simp [be, natOf, Nat.mod_one]
  | succ k ih =>
    have hb : (BitVec.ofNat 8 (n / 256 ^ k)).toNat = n / 256 ^ k % 256 := BitVec.toNat_ofNat _ _
    rw [be, natOf_cons, ih, be_length, hb, Nat.pow_succ, Nat.mod_mul, Nat.add_comm, Nat.mul_comm]

/-- A number that fits its field reads back. -/
theorem natOf_be {k n : Nat} (h : n < 256 ^ k) : natOf (be k n) = n := by rw [natOf_be_mod, Nat.mod_eq_of_lt h]

@[simp] theorem take_be_append (k n : Nat) (bytes : List Byte) : (be k n ++ bytes).take k = be k n :=
  List.take_left' (be_length k n)

@[simp] theorem drop_be_append (k n : Nat) (bytes : List Byte) : (be k n ++ bytes).drop k = bytes :=
  List.drop_left' (be_length k n)

/-- Every request type has its own code (R201). -/
theorem RequestType.ofCode_code (t : RequestType) : RequestType.ofCode t.code = some t := by cases t <;> rfl

/-- Any code but the two of R200 is a poll. -/
theorem Transaction.ofCode_eq_poll {code : Byte} (h1 : code ≠ 0x01) (h2 : code ≠ 0x02) :
    Transaction.ofCode code = .poll := by
  have h1' : code.toNat ≠ 1 := fun h => h1 (BitVec.eq_of_toNat_eq h)
  have h2' : code.toNat ≠ 2 := fun h => h2 (BitVec.eq_of_toNat_eq h)
  unfold Transaction.ofCode
  split <;> first | contradiction | rfl

/-- The report lengths of R203. -/
theorem Report.length_eq_some_iff (kind : Byte) (k : Nat) : Report.length kind = some k ↔
    (kind.toNat = 1 ∧ k = 7) ∨ (kind.toNat = 2 ∧ k = 2) ∨ (kind.toNat = 3 ∧ k = 2) ∨
      (kind.toNat = 4 ∧ k = 8) ∨ (kind.toNat = 5 ∧ k = 4) ∨ (kind.toNat = 6 ∧ k = 3) := by
  unfold Report.length
  split <;> simp_all <;> omega

/-- A good report has the length of its kind. -/
theorem Report.length_of_ofFields {fs : List Byte} {r : Report} (h : Report.ofFields fs = some r) :
    Report.length (fs.getD 0 0) = some (fs.length + 1) := by
  cases fs with
  | nil => cases h
  | cons kind fields =>
    unfold Report.ofFields at h
    rw [Report.length_eq_some_iff]
    dsimp only at h
    split at h
    · split at h
      · simp_all
      · cases h
    · split at h
      · simp_all
      · cases h
    · split at h
      · simp_all
      · cases h
    · split at h
      · simp_all
      · cases h
    · split at h
      · simp_all
      · cases h
    · split at h
      · simp_all
      · cases h
    · cases h

/-- The bound on the number of reports is no limit once it covers the bytes. -/
theorem Report.upTo_eq : ∀ (n m : Nat) (bytes : List Byte), bytes.length ≤ n → bytes.length ≤ m →
    Report.upTo n bytes = Report.upTo m bytes := by
  intro n
  induction n with
  | zero => intro m bytes h1 h2; cases bytes with
    | nil => cases m <;> rfl
    | cons => simp at h1
  | succ n ih =>
    intro m bytes h1 h2
    cases bytes with
    | nil => cases m <;> rfl
    | cons kind fields =>
      cases m with
      | zero => simp at h2
      | succ m =>
        simp only [Report.upTo]
        split
        · rfl
        · next k hk =>
          split
          · rfl
          · have hk1 : 1 ≤ k := by
              rw [Report.length_eq_some_iff] at hk; omega
            congr 1
            apply ih <;> simp at * <;> omega

end Sys2Proof
end

