-- ==== Sys2Proof/Laws/State.lean ====
section
/-! SUPPORT. One lemma for each field and each update of the state, true by rfl, so that no proof unfolds a record
update; and what the small readers of the state give after each update. -/
namespace Sys2Proof.Machine

variable (s : State)

@[simp] theorem State.setPort_phase (p : PortId) (v : Port) :
    (s.setPort p v).phase = s.phase := rfl
@[simp] theorem State.setPort_ports (p : PortId) (v : Port) :
    (s.setPort p v).ports = s.ports.set p v := rfl
@[simp] theorem State.setPort_burned (p : PortId) (v : Port) :
    (s.setPort p v).burned = s.burned := rfl
@[simp] theorem State.setPort_inForce (p : PortId) (v : Port) :
    (s.setPort p v).inForce = s.inForce := rfl
@[simp] theorem State.setPort_timers (p : PortId) (v : Port) :
    (s.setPort p v).timers = s.timers := rfl
@[simp] theorem State.setPort_catalogue (p : PortId) (v : Port) :
    (s.setPort p v).catalogue = s.catalogue := rfl
@[simp] theorem State.setPort_plans (p : PortId) (v : Port) :
    (s.setPort p v).plans = s.plans := rfl
@[simp] theorem State.setPort_composer (p : PortId) (v : Port) :
    (s.setPort p v).composer = s.composer := rfl
@[simp] theorem State.setPort_changeover (p : PortId) (v : Port) :
    (s.setPort p v).changeover = s.changeover := rfl
@[simp] theorem State.setPort_freeze (p : PortId) (v : Port) :
    (s.setPort p v).freeze = s.freeze := rfl
@[simp] theorem State.setPort_links (p : PortId) (v : Port) :
    (s.setPort p v).links = s.links := rfl
@[simp] theorem State.setPort_photo (p : PortId) (v : Port) :
    (s.setPort p v).photo = s.photo := rfl
@[simp] theorem State.setPort_lanes (p : PortId) (v : Port) :
    (s.setPort p v).lanes = s.lanes := rfl
@[simp] theorem State.setPort_clock (p : PortId) (v : Port) :
    (s.setPort p v).clock = s.clock := rfl
@[simp] theorem State.setPort_pending (p : PortId) (v : Port) :
    (s.setPort p v).pending = s.pending := rfl
@[simp] theorem State.setPort_link (p : PortId) (v : Port) (q : PanelNo) :
    (s.setPort p v).link q = s.link q := rfl
@[simp] theorem State.setPort_live (p : PortId) (v : Port) (q : PanelNo) :
    (s.setPort p v).live q = s.live q := rfl
@[simp] theorem State.setPort_timeLeft (p : PortId) (v : Port) (u : TimerId) :
    (s.setPort p v).timeLeft u = s.timeLeft u := rfl
@[simp] theorem State.setPort_portFitted (p : PortId) (v : Port) (q : PortId) :
    (s.setPort p v).portFitted q = s.portFitted q := rfl
@[simp] theorem State.setPort_linkFitted (p : PortId) (v : Port) (q : PanelNo) :
    (s.setPort p v).linkFitted q = s.linkFitted q := rfl
@[simp] theorem State.setPort_composeTarget (p : PortId) (v : Port) (q : PanelNo) :
    (s.setPort p v).composeTarget q = s.composeTarget q := rfl
@[simp] theorem State.setPort_plan (p : PortId) (v : Port) (q : PanelNo) (d : DayPart) :
    (s.setPort p v).plan q d = s.plan q d := rfl

@[simp] theorem State.putOut_phase (p : PortId) (bytes : List Byte) :
    (s.putOut p bytes).phase = s.phase := rfl
@[simp] theorem State.putOut_ports (p : PortId) (bytes : List Byte) :
    (s.putOut p bytes).ports = s.ports.set p { s.port p with dataOut := bytes } := rfl
@[simp] theorem State.putOut_burned (p : PortId) (bytes : List Byte) :
    (s.putOut p bytes).burned = s.burned := rfl
@[simp] theorem State.putOut_inForce (p : PortId) (bytes : List Byte) :
    (s.putOut p bytes).inForce = s.inForce := rfl
@[simp] theorem State.putOut_timers (p : PortId) (bytes : List Byte) :
    (s.putOut p bytes).timers = s.timers := rfl
@[simp] theorem State.putOut_catalogue (p : PortId) (bytes : List Byte) :
    (s.putOut p bytes).catalogue = s.catalogue := rfl
@[simp] theorem State.putOut_plans (p : PortId) (bytes : List Byte) :
    (s.putOut p bytes).plans = s.plans := rfl
@[simp] theorem State.putOut_composer (p : PortId) (bytes : List Byte) :
    (s.putOut p bytes).composer = s.composer := rfl
@[simp] theorem State.putOut_changeover (p : PortId) (bytes : List Byte) :
    (s.putOut p bytes).changeover = s.changeover := rfl
@[simp] theorem State.putOut_freeze (p : PortId) (bytes : List Byte) :
    (s.putOut p bytes).freeze = s.freeze := rfl
@[simp] theorem State.putOut_links (p : PortId) (bytes : List Byte) :
    (s.putOut p bytes).links = s.links := rfl
@[simp] theorem State.putOut_photo (p : PortId) (bytes : List Byte) :
    (s.putOut p bytes).photo = s.photo := rfl
@[simp] theorem State.putOut_lanes (p : PortId) (bytes : List Byte) :
    (s.putOut p bytes).lanes = s.lanes := rfl
@[simp] theorem State.putOut_clock (p : PortId) (bytes : List Byte) :
    (s.putOut p bytes).clock = s.clock := rfl
@[simp] theorem State.putOut_pending (p : PortId) (bytes : List Byte) :
    (s.putOut p bytes).pending = s.pending := rfl
@[simp] theorem State.putOut_link (p : PortId) (bytes : List Byte) (q : PanelNo) :
    (s.putOut p bytes).link q = s.link q := rfl
@[simp] theorem State.putOut_live (p : PortId) (bytes : List Byte) (q : PanelNo) :
    (s.putOut p bytes).live q = s.live q := rfl
@[simp] theorem State.putOut_timeLeft (p : PortId) (bytes : List Byte) (u : TimerId) :
    (s.putOut p bytes).timeLeft u = s.timeLeft u := rfl
@[simp] theorem State.putOut_portFitted (p : PortId) (bytes : List Byte) (q : PortId) :
    (s.putOut p bytes).portFitted q = s.portFitted q := rfl
@[simp] theorem State.putOut_linkFitted (p : PortId) (bytes : List Byte) (q : PanelNo) :
    (s.putOut p bytes).linkFitted q = s.linkFitted q := rfl
@[simp] theorem State.putOut_composeTarget (p : PortId) (bytes : List Byte) (q : PanelNo) :
    (s.putOut p bytes).composeTarget q = s.composeTarget q := rfl
@[simp] theorem State.putOut_plan (p : PortId) (bytes : List Byte) (q : PanelNo) (d : DayPart) :
    (s.putOut p bytes).plan q d = s.plan q d := rfl

@[simp] theorem State.holdAnswer_phase (p : PortId) (a : Answer) :
    (s.holdAnswer p a).phase = s.phase := rfl
@[simp] theorem State.holdAnswer_ports (p : PortId) (a : Answer) :
    (s.holdAnswer p a).ports = s.ports.set p { s.port p with state := .answer a } := rfl
@[simp] theorem State.holdAnswer_burned (p : PortId) (a : Answer) :
    (s.holdAnswer p a).burned = s.burned := rfl
@[simp] theorem State.holdAnswer_inForce (p : PortId) (a : Answer) :
    (s.holdAnswer p a).inForce = s.inForce := rfl
@[simp] theorem State.holdAnswer_timers (p : PortId) (a : Answer) :
    (s.holdAnswer p a).timers = s.timers := rfl
@[simp] theorem State.holdAnswer_catalogue (p : PortId) (a : Answer) :
    (s.holdAnswer p a).catalogue = s.catalogue := rfl
@[simp] theorem State.holdAnswer_plans (p : PortId) (a : Answer) :
    (s.holdAnswer p a).plans = s.plans := rfl
@[simp] theorem State.holdAnswer_composer (p : PortId) (a : Answer) :
    (s.holdAnswer p a).composer = s.composer := rfl
@[simp] theorem State.holdAnswer_changeover (p : PortId) (a : Answer) :
    (s.holdAnswer p a).changeover = s.changeover := rfl
@[simp] theorem State.holdAnswer_freeze (p : PortId) (a : Answer) :
    (s.holdAnswer p a).freeze = s.freeze := rfl
@[simp] theorem State.holdAnswer_links (p : PortId) (a : Answer) :
    (s.holdAnswer p a).links = s.links := rfl
@[simp] theorem State.holdAnswer_photo (p : PortId) (a : Answer) :
    (s.holdAnswer p a).photo = s.photo := rfl
@[simp] theorem State.holdAnswer_lanes (p : PortId) (a : Answer) :
    (s.holdAnswer p a).lanes = s.lanes := rfl
@[simp] theorem State.holdAnswer_clock (p : PortId) (a : Answer) :
    (s.holdAnswer p a).clock = s.clock := rfl
@[simp] theorem State.holdAnswer_pending (p : PortId) (a : Answer) :
    (s.holdAnswer p a).pending = s.pending := rfl
@[simp] theorem State.holdAnswer_link (p : PortId) (a : Answer) (q : PanelNo) :
    (s.holdAnswer p a).link q = s.link q := rfl
@[simp] theorem State.holdAnswer_live (p : PortId) (a : Answer) (q : PanelNo) :
    (s.holdAnswer p a).live q = s.live q := rfl
@[simp] theorem State.holdAnswer_timeLeft (p : PortId) (a : Answer) (u : TimerId) :
    (s.holdAnswer p a).timeLeft u = s.timeLeft u := rfl
@[simp] theorem State.holdAnswer_portFitted (p : PortId) (a : Answer) (q : PortId) :
    (s.holdAnswer p a).portFitted q = s.portFitted q := rfl
@[simp] theorem State.holdAnswer_linkFitted (p : PortId) (a : Answer) (q : PanelNo) :
    (s.holdAnswer p a).linkFitted q = s.linkFitted q := rfl
@[simp] theorem State.holdAnswer_composeTarget (p : PortId) (a : Answer) (q : PanelNo) :
    (s.holdAnswer p a).composeTarget q = s.composeTarget q := rfl
@[simp] theorem State.holdAnswer_plan (p : PortId) (a : Answer) (q : PanelNo) (d : DayPart) :
    (s.holdAnswer p a).plan q d = s.plan q d := rfl

@[simp] theorem State.setLink_phase (p : PanelNo) (v : Link) :
    (s.setLink p v).phase = s.phase := rfl
@[simp] theorem State.setLink_ports (p : PanelNo) (v : Link) :
    (s.setLink p v).ports = s.ports := rfl
@[simp] theorem State.setLink_burned (p : PanelNo) (v : Link) :
    (s.setLink p v).burned = s.burned := rfl
@[simp] theorem State.setLink_inForce (p : PanelNo) (v : Link) :
    (s.setLink p v).inForce = s.inForce := rfl
@[simp] theorem State.setLink_timers (p : PanelNo) (v : Link) :
    (s.setLink p v).timers = s.timers := rfl
@[simp] theorem State.setLink_catalogue (p : PanelNo) (v : Link) :
    (s.setLink p v).catalogue = s.catalogue := rfl
@[simp] theorem State.setLink_plans (p : PanelNo) (v : Link) :
    (s.setLink p v).plans = s.plans := rfl
@[simp] theorem State.setLink_composer (p : PanelNo) (v : Link) :
    (s.setLink p v).composer = s.composer := rfl
@[simp] theorem State.setLink_changeover (p : PanelNo) (v : Link) :
    (s.setLink p v).changeover = s.changeover := rfl
@[simp] theorem State.setLink_freeze (p : PanelNo) (v : Link) :
    (s.setLink p v).freeze = s.freeze := rfl
@[simp] theorem State.setLink_links (p : PanelNo) (v : Link) :
    (s.setLink p v).links = s.links.set p v := rfl
@[simp] theorem State.setLink_photo (p : PanelNo) (v : Link) :
    (s.setLink p v).photo = s.photo := rfl
@[simp] theorem State.setLink_lanes (p : PanelNo) (v : Link) :
    (s.setLink p v).lanes = s.lanes := rfl
@[simp] theorem State.setLink_clock (p : PanelNo) (v : Link) :
    (s.setLink p v).clock = s.clock := rfl
@[simp] theorem State.setLink_pending (p : PanelNo) (v : Link) :
    (s.setLink p v).pending = s.pending := rfl
@[simp] theorem State.setLink_port (p : PanelNo) (v : Link) (q : PortId) :
    (s.setLink p v).port q = s.port q := rfl
@[simp] theorem State.setLink_timeLeft (p : PanelNo) (v : Link) (u : TimerId) :
    (s.setLink p v).timeLeft u = s.timeLeft u := rfl
@[simp] theorem State.setLink_portFitted (p : PanelNo) (v : Link) (q : PortId) :
    (s.setLink p v).portFitted q = s.portFitted q := rfl
@[simp] theorem State.setLink_linkFitted (p : PanelNo) (v : Link) (q : PanelNo) :
    (s.setLink p v).linkFitted q = s.linkFitted q := rfl
@[simp] theorem State.setLink_composeTarget (p : PanelNo) (v : Link) (q : PanelNo) :
    (s.setLink p v).composeTarget q = s.composeTarget q := rfl
@[simp] theorem State.setLink_plan (p : PanelNo) (v : Link) (q : PanelNo) (d : DayPart) :
    (s.setLink p v).plan q d = s.plan q d := rfl

@[simp] theorem State.setLinkState_phase (p : PanelNo) (v : LinkState) :
    (s.setLinkState p v).phase = s.phase := rfl
@[simp] theorem State.setLinkState_ports (p : PanelNo) (v : LinkState) :
    (s.setLinkState p v).ports = s.ports := rfl
@[simp] theorem State.setLinkState_burned (p : PanelNo) (v : LinkState) :
    (s.setLinkState p v).burned = s.burned := rfl
@[simp] theorem State.setLinkState_inForce (p : PanelNo) (v : LinkState) :
    (s.setLinkState p v).inForce = s.inForce := rfl
@[simp] theorem State.setLinkState_timers (p : PanelNo) (v : LinkState) :
    (s.setLinkState p v).timers = s.timers := rfl
@[simp] theorem State.setLinkState_catalogue (p : PanelNo) (v : LinkState) :
    (s.setLinkState p v).catalogue = s.catalogue := rfl
@[simp] theorem State.setLinkState_plans (p : PanelNo) (v : LinkState) :
    (s.setLinkState p v).plans = s.plans := rfl
@[simp] theorem State.setLinkState_composer (p : PanelNo) (v : LinkState) :
    (s.setLinkState p v).composer = s.composer := rfl
@[simp] theorem State.setLinkState_changeover (p : PanelNo) (v : LinkState) :
    (s.setLinkState p v).changeover = s.changeover := rfl
@[simp] theorem State.setLinkState_freeze (p : PanelNo) (v : LinkState) :
    (s.setLinkState p v).freeze = s.freeze := rfl
@[simp] theorem State.setLinkState_links (p : PanelNo) (v : LinkState) :
    (s.setLinkState p v).links = s.links.set p { s.link p with state := v } := rfl
@[simp] theorem State.setLinkState_photo (p : PanelNo) (v : LinkState) :
    (s.setLinkState p v).photo = s.photo := rfl
@[simp] theorem State.setLinkState_lanes (p : PanelNo) (v : LinkState) :
    (s.setLinkState p v).lanes = s.lanes := rfl
@[simp] theorem State.setLinkState_clock (p : PanelNo) (v : LinkState) :
    (s.setLinkState p v).clock = s.clock := rfl
@[simp] theorem State.setLinkState_pending (p : PanelNo) (v : LinkState) :
    (s.setLinkState p v).pending = s.pending := rfl
@[simp] theorem State.setLinkState_port (p : PanelNo) (v : LinkState) (q : PortId) :
    (s.setLinkState p v).port q = s.port q := rfl
@[simp] theorem State.setLinkState_timeLeft (p : PanelNo) (v : LinkState) (u : TimerId) :
    (s.setLinkState p v).timeLeft u = s.timeLeft u := rfl
@[simp] theorem State.setLinkState_portFitted (p : PanelNo) (v : LinkState) (q : PortId) :
    (s.setLinkState p v).portFitted q = s.portFitted q := rfl
@[simp] theorem State.setLinkState_linkFitted (p : PanelNo) (v : LinkState) (q : PanelNo) :
    (s.setLinkState p v).linkFitted q = s.linkFitted q := rfl
@[simp] theorem State.setLinkState_composeTarget (p : PanelNo) (v : LinkState) (q : PanelNo) :
    (s.setLinkState p v).composeTarget q = s.composeTarget q := rfl
@[simp] theorem State.setLinkState_plan (p : PanelNo) (v : LinkState) (q : PanelNo) (d : DayPart) :
    (s.setLinkState p v).plan q d = s.plan q d := rfl

@[simp] theorem State.setComposer_phase (v : Composer) :
    (s.setComposer v).phase = s.phase := rfl
@[simp] theorem State.setComposer_ports (v : Composer) :
    (s.setComposer v).ports = s.ports := rfl
@[simp] theorem State.setComposer_burned (v : Composer) :
    (s.setComposer v).burned = s.burned := rfl
@[simp] theorem State.setComposer_inForce (v : Composer) :
    (s.setComposer v).inForce = s.inForce := rfl
@[simp] theorem State.setComposer_timers (v : Composer) :
    (s.setComposer v).timers = s.timers := rfl
@[simp] theorem State.setComposer_catalogue (v : Composer) :
    (s.setComposer v).catalogue = s.catalogue := rfl
@[simp] theorem State.setComposer_plans (v : Composer) :
    (s.setComposer v).plans = s.plans := rfl
@[simp] theorem State.setComposer_composer (v : Composer) :
    (s.setComposer v).composer = v := rfl
@[simp] theorem State.setComposer_changeover (v : Composer) :
    (s.setComposer v).changeover = s.changeover := rfl
@[simp] theorem State.setComposer_freeze (v : Composer) :
    (s.setComposer v).freeze = s.freeze := rfl
@[simp] theorem State.setComposer_links (v : Composer) :
    (s.setComposer v).links = s.links := rfl
@[simp] theorem State.setComposer_photo (v : Composer) :
    (s.setComposer v).photo = s.photo := rfl
@[simp] theorem State.setComposer_lanes (v : Composer) :
    (s.setComposer v).lanes = s.lanes := rfl
@[simp] theorem State.setComposer_clock (v : Composer) :
    (s.setComposer v).clock = s.clock := rfl
@[simp] theorem State.setComposer_pending (v : Composer) :
    (s.setComposer v).pending = s.pending := rfl
@[simp] theorem State.setComposer_link (v : Composer) (q : PanelNo) :
    (s.setComposer v).link q = s.link q := rfl
@[simp] theorem State.setComposer_live (v : Composer) (q : PanelNo) :
    (s.setComposer v).live q = s.live q := rfl
@[simp] theorem State.setComposer_port (v : Composer) (q : PortId) :
    (s.setComposer v).port q = s.port q := rfl
@[simp] theorem State.setComposer_timeLeft (v : Composer) (u : TimerId) :
    (s.setComposer v).timeLeft u = s.timeLeft u := rfl
@[simp] theorem State.setComposer_portFitted (v : Composer) (q : PortId) :
    (s.setComposer v).portFitted q = s.portFitted q := rfl
@[simp] theorem State.setComposer_linkFitted (v : Composer) (q : PanelNo) :
    (s.setComposer v).linkFitted q = s.linkFitted q := rfl
@[simp] theorem State.setComposer_composeTarget (v : Composer) (q : PanelNo) :
    (s.setComposer v).composeTarget q = s.composeTarget q := rfl
@[simp] theorem State.setComposer_plan (v : Composer) (q : PanelNo) (d : DayPart) :
    (s.setComposer v).plan q d = s.plan q d := rfl

@[simp] theorem State.setChangeover_phase (v : Changeover) :
    (s.setChangeover v).phase = s.phase := rfl
@[simp] theorem State.setChangeover_ports (v : Changeover) :
    (s.setChangeover v).ports = s.ports := rfl
@[simp] theorem State.setChangeover_burned (v : Changeover) :
    (s.setChangeover v).burned = s.burned := rfl
@[simp] theorem State.setChangeover_inForce (v : Changeover) :
    (s.setChangeover v).inForce = s.inForce := rfl
@[simp] theorem State.setChangeover_timers (v : Changeover) :
    (s.setChangeover v).timers = s.timers := rfl
@[simp] theorem State.setChangeover_catalogue (v : Changeover) :
    (s.setChangeover v).catalogue = s.catalogue := rfl
@[simp] theorem State.setChangeover_plans (v : Changeover) :
    (s.setChangeover v).plans = s.plans := rfl
@[simp] theorem State.setChangeover_composer (v : Changeover) :
    (s.setChangeover v).composer = s.composer := rfl
@[simp] theorem State.setChangeover_changeover (v : Changeover) :
    (s.setChangeover v).changeover = v := rfl
@[simp] theorem State.setChangeover_freeze (v : Changeover) :
    (s.setChangeover v).freeze = s.freeze := rfl
@[simp] theorem State.setChangeover_links (v : Changeover) :
    (s.setChangeover v).links = s.links := rfl
@[simp] theorem State.setChangeover_photo (v : Changeover) :
    (s.setChangeover v).photo = s.photo := rfl
@[simp] theorem State.setChangeover_lanes (v : Changeover) :
    (s.setChangeover v).lanes = s.lanes := rfl
@[simp] theorem State.setChangeover_clock (v : Changeover) :
    (s.setChangeover v).clock = s.clock := rfl
@[simp] theorem State.setChangeover_pending (v : Changeover) :
    (s.setChangeover v).pending = s.pending := rfl
@[simp] theorem State.setChangeover_link (v : Changeover) (q : PanelNo) :
    (s.setChangeover v).link q = s.link q := rfl
@[simp] theorem State.setChangeover_live (v : Changeover) (q : PanelNo) :
    (s.setChangeover v).live q = s.live q := rfl
@[simp] theorem State.setChangeover_port (v : Changeover) (q : PortId) :
    (s.setChangeover v).port q = s.port q := rfl
@[simp] theorem State.setChangeover_timeLeft (v : Changeover) (u : TimerId) :
    (s.setChangeover v).timeLeft u = s.timeLeft u := rfl
@[simp] theorem State.setChangeover_portFitted (v : Changeover) (q : PortId) :
    (s.setChangeover v).portFitted q = s.portFitted q := rfl
@[simp] theorem State.setChangeover_linkFitted (v : Changeover) (q : PanelNo) :
    (s.setChangeover v).linkFitted q = s.linkFitted q := rfl
@[simp] theorem State.setChangeover_plan (v : Changeover) (q : PanelNo) (d : DayPart) :
    (s.setChangeover v).plan q d = s.plan q d := rfl

@[simp] theorem State.setFreeze_phase (v : FreezeRecord) :
    (s.setFreeze v).phase = s.phase := rfl
@[simp] theorem State.setFreeze_ports (v : FreezeRecord) :
    (s.setFreeze v).ports = s.ports := rfl
@[simp] theorem State.setFreeze_burned (v : FreezeRecord) :
    (s.setFreeze v).burned = s.burned := rfl
@[simp] theorem State.setFreeze_inForce (v : FreezeRecord) :
    (s.setFreeze v).inForce = s.inForce := rfl
@[simp] theorem State.setFreeze_timers (v : FreezeRecord) :
    (s.setFreeze v).timers = s.timers := rfl
@[simp] theorem State.setFreeze_catalogue (v : FreezeRecord) :
    (s.setFreeze v).catalogue = s.catalogue := rfl
@[simp] theorem State.setFreeze_plans (v : FreezeRecord) :
    (s.setFreeze v).plans = s.plans := rfl
@[simp] theorem State.setFreeze_composer (v : FreezeRecord) :
    (s.setFreeze v).composer = s.composer := rfl
@[simp] theorem State.setFreeze_changeover (v : FreezeRecord) :
    (s.setFreeze v).changeover = s.changeover := rfl
@[simp] theorem State.setFreeze_freeze (v : FreezeRecord) :
    (s.setFreeze v).freeze = v := rfl
@[simp] theorem State.setFreeze_links (v : FreezeRecord) :
    (s.setFreeze v).links = s.links := rfl
@[simp] theorem State.setFreeze_photo (v : FreezeRecord) :
    (s.setFreeze v).photo = s.photo := rfl
@[simp] theorem State.setFreeze_lanes (v : FreezeRecord) :
    (s.setFreeze v).lanes = s.lanes := rfl
@[simp] theorem State.setFreeze_clock (v : FreezeRecord) :
    (s.setFreeze v).clock = s.clock := rfl
@[simp] theorem State.setFreeze_pending (v : FreezeRecord) :
    (s.setFreeze v).pending = s.pending := rfl
@[simp] theorem State.setFreeze_link (v : FreezeRecord) (q : PanelNo) :
    (s.setFreeze v).link q = s.link q := rfl
@[simp] theorem State.setFreeze_live (v : FreezeRecord) (q : PanelNo) :
    (s.setFreeze v).live q = s.live q := rfl
@[simp] theorem State.setFreeze_port (v : FreezeRecord) (q : PortId) :
    (s.setFreeze v).port q = s.port q := rfl
@[simp] theorem State.setFreeze_timeLeft (v : FreezeRecord) (u : TimerId) :
    (s.setFreeze v).timeLeft u = s.timeLeft u := rfl
@[simp] theorem State.setFreeze_portFitted (v : FreezeRecord) (q : PortId) :
    (s.setFreeze v).portFitted q = s.portFitted q := rfl
@[simp] theorem State.setFreeze_linkFitted (v : FreezeRecord) (q : PanelNo) :
    (s.setFreeze v).linkFitted q = s.linkFitted q := rfl
@[simp] theorem State.setFreeze_composeTarget (v : FreezeRecord) (q : PanelNo) :
    (s.setFreeze v).composeTarget q = s.composeTarget q := rfl
@[simp] theorem State.setFreeze_plan (v : FreezeRecord) (q : PanelNo) (d : DayPart) :
    (s.setFreeze v).plan q d = s.plan q d := rfl

@[simp] theorem State.setPhoto_phase (v : PhotoMemory) :
    (s.setPhoto v).phase = s.phase := rfl
@[simp] theorem State.setPhoto_ports (v : PhotoMemory) :
    (s.setPhoto v).ports = s.ports := rfl
@[simp] theorem State.setPhoto_burned (v : PhotoMemory) :
    (s.setPhoto v).burned = s.burned := rfl
@[simp] theorem State.setPhoto_inForce (v : PhotoMemory) :
    (s.setPhoto v).inForce = s.inForce := rfl
@[simp] theorem State.setPhoto_timers (v : PhotoMemory) :
    (s.setPhoto v).timers = s.timers := rfl
@[simp] theorem State.setPhoto_catalogue (v : PhotoMemory) :
    (s.setPhoto v).catalogue = s.catalogue := rfl
@[simp] theorem State.setPhoto_plans (v : PhotoMemory) :
    (s.setPhoto v).plans = s.plans := rfl
@[simp] theorem State.setPhoto_composer (v : PhotoMemory) :
    (s.setPhoto v).composer = s.composer := rfl
@[simp] theorem State.setPhoto_changeover (v : PhotoMemory) :
    (s.setPhoto v).changeover = s.changeover := rfl
@[simp] theorem State.setPhoto_freeze (v : PhotoMemory) :
    (s.setPhoto v).freeze = s.freeze := rfl
@[simp] theorem State.setPhoto_links (v : PhotoMemory) :
    (s.setPhoto v).links = s.links := rfl
@[simp] theorem State.setPhoto_photo (v : PhotoMemory) :
    (s.setPhoto v).photo = v := rfl
@[simp] theorem State.setPhoto_lanes (v : PhotoMemory) :
    (s.setPhoto v).lanes = s.lanes := rfl
@[simp] theorem State.setPhoto_clock (v : PhotoMemory) :
    (s.setPhoto v).clock = s.clock := rfl
@[simp] theorem State.setPhoto_pending (v : PhotoMemory) :
    (s.setPhoto v).pending = s.pending := rfl
@[simp] theorem State.setPhoto_link (v : PhotoMemory) (q : PanelNo) :
    (s.setPhoto v).link q = s.link q := rfl
@[simp] theorem State.setPhoto_live (v : PhotoMemory) (q : PanelNo) :
    (s.setPhoto v).live q = s.live q := rfl
@[simp] theorem State.setPhoto_port (v : PhotoMemory) (q : PortId) :
    (s.setPhoto v).port q = s.port q := rfl
@[simp] theorem State.setPhoto_timeLeft (v : PhotoMemory) (u : TimerId) :
    (s.setPhoto v).timeLeft u = s.timeLeft u := rfl
@[simp] theorem State.setPhoto_portFitted (v : PhotoMemory) (q : PortId) :
    (s.setPhoto v).portFitted q = s.portFitted q := rfl
@[simp] theorem State.setPhoto_linkFitted (v : PhotoMemory) (q : PanelNo) :
    (s.setPhoto v).linkFitted q = s.linkFitted q := rfl
@[simp] theorem State.setPhoto_composeTarget (v : PhotoMemory) (q : PanelNo) :
    (s.setPhoto v).composeTarget q = s.composeTarget q := rfl
@[simp] theorem State.setPhoto_plan (v : PhotoMemory) (q : PanelNo) (d : DayPart) :
    (s.setPhoto v).plan q d = s.plan q d := rfl

@[simp] theorem State.setCatalogue_phase (v : Catalogue) :
    (s.setCatalogue v).phase = s.phase := rfl
@[simp] theorem State.setCatalogue_ports (v : Catalogue) :
    (s.setCatalogue v).ports = s.ports := rfl
@[simp] theorem State.setCatalogue_burned (v : Catalogue) :
    (s.setCatalogue v).burned = s.burned := rfl
@[simp] theorem State.setCatalogue_inForce (v : Catalogue) :
    (s.setCatalogue v).inForce = s.inForce := rfl
@[simp] theorem State.setCatalogue_timers (v : Catalogue) :
    (s.setCatalogue v).timers = s.timers := rfl
@[simp] theorem State.setCatalogue_catalogue (v : Catalogue) :
    (s.setCatalogue v).catalogue = v := rfl
@[simp] theorem State.setCatalogue_plans (v : Catalogue) :
    (s.setCatalogue v).plans = s.plans := rfl
@[simp] theorem State.setCatalogue_composer (v : Catalogue) :
    (s.setCatalogue v).composer = s.composer := rfl
@[simp] theorem State.setCatalogue_changeover (v : Catalogue) :
    (s.setCatalogue v).changeover = s.changeover := rfl
@[simp] theorem State.setCatalogue_freeze (v : Catalogue) :
    (s.setCatalogue v).freeze = s.freeze := rfl
@[simp] theorem State.setCatalogue_links (v : Catalogue) :
    (s.setCatalogue v).links = s.links := rfl
@[simp] theorem State.setCatalogue_photo (v : Catalogue) :
    (s.setCatalogue v).photo = s.photo := rfl
@[simp] theorem State.setCatalogue_lanes (v : Catalogue) :
    (s.setCatalogue v).lanes = s.lanes := rfl
@[simp] theorem State.setCatalogue_clock (v : Catalogue) :
    (s.setCatalogue v).clock = s.clock := rfl
@[simp] theorem State.setCatalogue_pending (v : Catalogue) :
    (s.setCatalogue v).pending = s.pending := rfl
@[simp] theorem State.setCatalogue_link (v : Catalogue) (q : PanelNo) :
    (s.setCatalogue v).link q = s.link q := rfl
@[simp] theorem State.setCatalogue_live (v : Catalogue) (q : PanelNo) :
    (s.setCatalogue v).live q = s.live q := rfl
@[simp] theorem State.setCatalogue_port (v : Catalogue) (q : PortId) :
    (s.setCatalogue v).port q = s.port q := rfl
@[simp] theorem State.setCatalogue_timeLeft (v : Catalogue) (u : TimerId) :
    (s.setCatalogue v).timeLeft u = s.timeLeft u := rfl
@[simp] theorem State.setCatalogue_portFitted (v : Catalogue) (q : PortId) :
    (s.setCatalogue v).portFitted q = s.portFitted q := rfl
@[simp] theorem State.setCatalogue_linkFitted (v : Catalogue) (q : PanelNo) :
    (s.setCatalogue v).linkFitted q = s.linkFitted q := rfl
@[simp] theorem State.setCatalogue_composeTarget (v : Catalogue) (q : PanelNo) :
    (s.setCatalogue v).composeTarget q = s.composeTarget q := rfl
@[simp] theorem State.setCatalogue_plan (v : Catalogue) (q : PanelNo) (d : DayPart) :
    (s.setCatalogue v).plan q d = s.plan q d := rfl

@[simp] theorem State.setClock_phase (v : StoreClock) :
    (s.setClock v).phase = s.phase := rfl
@[simp] theorem State.setClock_ports (v : StoreClock) :
    (s.setClock v).ports = s.ports := rfl
@[simp] theorem State.setClock_burned (v : StoreClock) :
    (s.setClock v).burned = s.burned := rfl
@[simp] theorem State.setClock_inForce (v : StoreClock) :
    (s.setClock v).inForce = s.inForce := rfl
@[simp] theorem State.setClock_timers (v : StoreClock) :
    (s.setClock v).timers = s.timers := rfl
@[simp] theorem State.setClock_catalogue (v : StoreClock) :
    (s.setClock v).catalogue = s.catalogue := rfl
@[simp] theorem State.setClock_plans (v : StoreClock) :
    (s.setClock v).plans = s.plans := rfl
@[simp] theorem State.setClock_composer (v : StoreClock) :
    (s.setClock v).composer = s.composer := rfl
@[simp] theorem State.setClock_changeover (v : StoreClock) :
    (s.setClock v).changeover = s.changeover := rfl
@[simp] theorem State.setClock_freeze (v : StoreClock) :
    (s.setClock v).freeze = s.freeze := rfl
@[simp] theorem State.setClock_links (v : StoreClock) :
    (s.setClock v).links = s.links := rfl
@[simp] theorem State.setClock_photo (v : StoreClock) :
    (s.setClock v).photo = s.photo := rfl
@[simp] theorem State.setClock_lanes (v : StoreClock) :
    (s.setClock v).lanes = s.lanes := rfl
@[simp] theorem State.setClock_clock (v : StoreClock) :
    (s.setClock v).clock = v := rfl
@[simp] theorem State.setClock_pending (v : StoreClock) :
    (s.setClock v).pending = s.pending := rfl
@[simp] theorem State.setClock_link (v : StoreClock) (q : PanelNo) :
    (s.setClock v).link q = s.link q := rfl
@[simp] theorem State.setClock_live (v : StoreClock) (q : PanelNo) :
    (s.setClock v).live q = s.live q := rfl
@[simp] theorem State.setClock_port (v : StoreClock) (q : PortId) :
    (s.setClock v).port q = s.port q := rfl
@[simp] theorem State.setClock_timeLeft (v : StoreClock) (u : TimerId) :
    (s.setClock v).timeLeft u = s.timeLeft u := rfl
@[simp] theorem State.setClock_portFitted (v : StoreClock) (q : PortId) :
    (s.setClock v).portFitted q = s.portFitted q := rfl
@[simp] theorem State.setClock_linkFitted (v : StoreClock) (q : PanelNo) :
    (s.setClock v).linkFitted q = s.linkFitted q := rfl
@[simp] theorem State.setClock_composeTarget (v : StoreClock) (q : PanelNo) :
    (s.setClock v).composeTarget q = s.composeTarget q := rfl
@[simp] theorem State.setClock_plan (v : StoreClock) (q : PanelNo) (d : DayPart) :
    (s.setClock v).plan q d = s.plan q d := rfl

@[simp] theorem State.setLane_phase (l : LaneNo) (v : Lane) :
    (s.setLane l v).phase = s.phase := rfl
@[simp] theorem State.setLane_ports (l : LaneNo) (v : Lane) :
    (s.setLane l v).ports = s.ports := rfl
@[simp] theorem State.setLane_burned (l : LaneNo) (v : Lane) :
    (s.setLane l v).burned = s.burned := rfl
@[simp] theorem State.setLane_inForce (l : LaneNo) (v : Lane) :
    (s.setLane l v).inForce = s.inForce := rfl
@[simp] theorem State.setLane_timers (l : LaneNo) (v : Lane) :
    (s.setLane l v).timers = s.timers := rfl
@[simp] theorem State.setLane_catalogue (l : LaneNo) (v : Lane) :
    (s.setLane l v).catalogue = s.catalogue := rfl
@[simp] theorem State.setLane_plans (l : LaneNo) (v : Lane) :
    (s.setLane l v).plans = s.plans := rfl
@[simp] theorem State.setLane_composer (l : LaneNo) (v : Lane) :
    (s.setLane l v).composer = s.composer := rfl
@[simp] theorem State.setLane_changeover (l : LaneNo) (v : Lane) :
    (s.setLane l v).changeover = s.changeover := rfl
@[simp] theorem State.setLane_freeze (l : LaneNo) (v : Lane) :
    (s.setLane l v).freeze = s.freeze := rfl
@[simp] theorem State.setLane_links (l : LaneNo) (v : Lane) :
    (s.setLane l v).links = s.links := rfl
@[simp] theorem State.setLane_photo (l : LaneNo) (v : Lane) :
    (s.setLane l v).photo = s.photo := rfl
@[simp] theorem State.setLane_lanes (l : LaneNo) (v : Lane) :
    (s.setLane l v).lanes = s.lanes.set l v := rfl
@[simp] theorem State.setLane_clock (l : LaneNo) (v : Lane) :
    (s.setLane l v).clock = s.clock := rfl
@[simp] theorem State.setLane_pending (l : LaneNo) (v : Lane) :
    (s.setLane l v).pending = s.pending := rfl
@[simp] theorem State.setLane_link (l : LaneNo) (v : Lane) (q : PanelNo) :
    (s.setLane l v).link q = s.link q := rfl
@[simp] theorem State.setLane_live (l : LaneNo) (v : Lane) (q : PanelNo) :
    (s.setLane l v).live q = s.live q := rfl
@[simp] theorem State.setLane_port (l : LaneNo) (v : Lane) (q : PortId) :
    (s.setLane l v).port q = s.port q := rfl
@[simp] theorem State.setLane_timeLeft (l : LaneNo) (v : Lane) (u : TimerId) :
    (s.setLane l v).timeLeft u = s.timeLeft u := rfl
@[simp] theorem State.setLane_portFitted (l : LaneNo) (v : Lane) (q : PortId) :
    (s.setLane l v).portFitted q = s.portFitted q := rfl
@[simp] theorem State.setLane_linkFitted (l : LaneNo) (v : Lane) (q : PanelNo) :
    (s.setLane l v).linkFitted q = s.linkFitted q := rfl
@[simp] theorem State.setLane_composeTarget (l : LaneNo) (v : Lane) (q : PanelNo) :
    (s.setLane l v).composeTarget q = s.composeTarget q := rfl
@[simp] theorem State.setLane_plan (l : LaneNo) (v : Lane) (q : PanelNo) (d : DayPart) :
    (s.setLane l v).plan q d = s.plan q d := rfl

@[simp] theorem State.startTimer_phase (t : TimerId) (ms : Nat) :
    (s.startTimer t ms).phase = s.phase := rfl
@[simp] theorem State.startTimer_ports (t : TimerId) (ms : Nat) :
    (s.startTimer t ms).ports = s.ports := rfl
@[simp] theorem State.startTimer_burned (t : TimerId) (ms : Nat) :
    (s.startTimer t ms).burned = s.burned := rfl
@[simp] theorem State.startTimer_inForce (t : TimerId) (ms : Nat) :
    (s.startTimer t ms).inForce = s.inForce := rfl
@[simp] theorem State.startTimer_timers (t : TimerId) (ms : Nat) :
    (s.startTimer t ms).timers = Table.insert t.key ms s.timers := rfl
@[simp] theorem State.startTimer_catalogue (t : TimerId) (ms : Nat) :
    (s.startTimer t ms).catalogue = s.catalogue := rfl
@[simp] theorem State.startTimer_plans (t : TimerId) (ms : Nat) :
    (s.startTimer t ms).plans = s.plans := rfl
@[simp] theorem State.startTimer_composer (t : TimerId) (ms : Nat) :
    (s.startTimer t ms).composer = s.composer := rfl
@[simp] theorem State.startTimer_changeover (t : TimerId) (ms : Nat) :
    (s.startTimer t ms).changeover = s.changeover := rfl
@[simp] theorem State.startTimer_freeze (t : TimerId) (ms : Nat) :
    (s.startTimer t ms).freeze = s.freeze := rfl
@[simp] theorem State.startTimer_links (t : TimerId) (ms : Nat) :
    (s.startTimer t ms).links = s.links := rfl
@[simp] theorem State.startTimer_photo (t : TimerId) (ms : Nat) :
    (s.startTimer t ms).photo = s.photo := rfl
@[simp] theorem State.startTimer_lanes (t : TimerId) (ms : Nat) :
    (s.startTimer t ms).lanes = s.lanes := rfl
@[simp] theorem State.startTimer_clock (t : TimerId) (ms : Nat) :
    (s.startTimer t ms).clock = s.clock := rfl
@[simp] theorem State.startTimer_pending (t : TimerId) (ms : Nat) :
    (s.startTimer t ms).pending = s.pending := rfl
@[simp] theorem State.startTimer_link (t : TimerId) (ms : Nat) (q : PanelNo) :
    (s.startTimer t ms).link q = s.link q := rfl
@[simp] theorem State.startTimer_live (t : TimerId) (ms : Nat) (q : PanelNo) :
    (s.startTimer t ms).live q = s.live q := rfl
@[simp] theorem State.startTimer_port (t : TimerId) (ms : Nat) (q : PortId) :
    (s.startTimer t ms).port q = s.port q := rfl
@[simp] theorem State.startTimer_portFitted (t : TimerId) (ms : Nat) (q : PortId) :
    (s.startTimer t ms).portFitted q = s.portFitted q := rfl
@[simp] theorem State.startTimer_linkFitted (t : TimerId) (ms : Nat) (q : PanelNo) :
    (s.startTimer t ms).linkFitted q = s.linkFitted q := rfl
@[simp] theorem State.startTimer_composeTarget (t : TimerId) (ms : Nat) (q : PanelNo) :
    (s.startTimer t ms).composeTarget q = s.composeTarget q := rfl
@[simp] theorem State.startTimer_plan (t : TimerId) (ms : Nat) (q : PanelNo) (d : DayPart) :
    (s.startTimer t ms).plan q d = s.plan q d := rfl

@[simp] theorem State.stopTimer_phase (t : TimerId) :
    (s.stopTimer t).phase = s.phase := rfl
@[simp] theorem State.stopTimer_ports (t : TimerId) :
    (s.stopTimer t).ports = s.ports := rfl
@[simp] theorem State.stopTimer_burned (t : TimerId) :
    (s.stopTimer t).burned = s.burned := rfl
@[simp] theorem State.stopTimer_inForce (t : TimerId) :
    (s.stopTimer t).inForce = s.inForce := rfl
@[simp] theorem State.stopTimer_timers (t : TimerId) :
    (s.stopTimer t).timers = Table.erase t.key s.timers := rfl
@[simp] theorem State.stopTimer_catalogue (t : TimerId) :
    (s.stopTimer t).catalogue = s.catalogue := rfl
@[simp] theorem State.stopTimer_plans (t : TimerId) :
    (s.stopTimer t).plans = s.plans := rfl
@[simp] theorem State.stopTimer_composer (t : TimerId) :
    (s.stopTimer t).composer = s.composer := rfl
@[simp] theorem State.stopTimer_changeover (t : TimerId) :
    (s.stopTimer t).changeover = s.changeover := rfl
@[simp] theorem State.stopTimer_freeze (t : TimerId) :
    (s.stopTimer t).freeze = s.freeze := rfl
@[simp] theorem State.stopTimer_links (t : TimerId) :
    (s.stopTimer t).links = s.links := rfl
@[simp] theorem State.stopTimer_photo (t : TimerId) :
    (s.stopTimer t).photo = s.photo := rfl
@[simp] theorem State.stopTimer_lanes (t : TimerId) :
    (s.stopTimer t).lanes = s.lanes := rfl
@[simp] theorem State.stopTimer_clock (t : TimerId) :
    (s.stopTimer t).clock = s.clock := rfl
@[simp] theorem State.stopTimer_pending (t : TimerId) :
    (s.stopTimer t).pending = s.pending := rfl
@[simp] theorem State.stopTimer_link (t : TimerId) (q : PanelNo) :
    (s.stopTimer t).link q = s.link q := rfl
@[simp] theorem State.stopTimer_live (t : TimerId) (q : PanelNo) :
    (s.stopTimer t).live q = s.live q := rfl
@[simp] theorem State.stopTimer_port (t : TimerId) (q : PortId) :
    (s.stopTimer t).port q = s.port q := rfl
@[simp] theorem State.stopTimer_portFitted (t : TimerId) (q : PortId) :
    (s.stopTimer t).portFitted q = s.portFitted q := rfl
@[simp] theorem State.stopTimer_linkFitted (t : TimerId) (q : PanelNo) :
    (s.stopTimer t).linkFitted q = s.linkFitted q := rfl
@[simp] theorem State.stopTimer_composeTarget (t : TimerId) (q : PanelNo) :
    (s.stopTimer t).composeTarget q = s.composeTarget q := rfl
@[simp] theorem State.stopTimer_plan (t : TimerId) (q : PanelNo) (d : DayPart) :
    (s.stopTimer t).plan q d = s.plan q d := rfl

@[simp] theorem State.elapse_phase (ms : Nat) :
    (s.elapse ms).phase = s.phase := rfl
@[simp] theorem State.elapse_ports (ms : Nat) :
    (s.elapse ms).ports = s.ports := rfl
@[simp] theorem State.elapse_burned (ms : Nat) :
    (s.elapse ms).burned = s.burned := rfl
@[simp] theorem State.elapse_inForce (ms : Nat) :
    (s.elapse ms).inForce = s.inForce := rfl
@[simp] theorem State.elapse_timers (ms : Nat) :
    (s.elapse ms).timers = Table.mapValues (fun _ left => left - ms) s.timers := rfl
@[simp] theorem State.elapse_catalogue (ms : Nat) :
    (s.elapse ms).catalogue = s.catalogue := rfl
@[simp] theorem State.elapse_plans (ms : Nat) :
    (s.elapse ms).plans = s.plans := rfl
@[simp] theorem State.elapse_composer (ms : Nat) :
    (s.elapse ms).composer = s.composer := rfl
@[simp] theorem State.elapse_changeover (ms : Nat) :
    (s.elapse ms).changeover = s.changeover := rfl
@[simp] theorem State.elapse_freeze (ms : Nat) :
    (s.elapse ms).freeze = s.freeze := rfl
@[simp] theorem State.elapse_links (ms : Nat) :
    (s.elapse ms).links = s.links := rfl
@[simp] theorem State.elapse_photo (ms : Nat) :
    (s.elapse ms).photo = s.photo := rfl
@[simp] theorem State.elapse_lanes (ms : Nat) :
    (s.elapse ms).lanes = s.lanes := rfl
@[simp] theorem State.elapse_clock (ms : Nat) :
    (s.elapse ms).clock = s.clock := rfl
@[simp] theorem State.elapse_pending (ms : Nat) :
    (s.elapse ms).pending = s.pending := rfl
@[simp] theorem State.elapse_link (ms : Nat) (q : PanelNo) :
    (s.elapse ms).link q = s.link q := rfl
@[simp] theorem State.elapse_live (ms : Nat) (q : PanelNo) :
    (s.elapse ms).live q = s.live q := rfl
@[simp] theorem State.elapse_port (ms : Nat) (q : PortId) :
    (s.elapse ms).port q = s.port q := rfl
@[simp] theorem State.elapse_portFitted (ms : Nat) (q : PortId) :
    (s.elapse ms).portFitted q = s.portFitted q := rfl
@[simp] theorem State.elapse_linkFitted (ms : Nat) (q : PanelNo) :
    (s.elapse ms).linkFitted q = s.linkFitted q := rfl
@[simp] theorem State.elapse_composeTarget (ms : Nat) (q : PanelNo) :
    (s.elapse ms).composeTarget q = s.composeTarget q := rfl
@[simp] theorem State.elapse_plan (ms : Nat) (q : PanelNo) (d : DayPart) :
    (s.elapse ms).plan q d = s.plan q d := rfl

@[simp] theorem State.setPort_port_self (p : PortId) (v : Port) : (s.setPort p v).port p = v := Ports.get_set_self _ _ _

theorem State.setPort_port_of_ne {p q : PortId} (h : q ≠ p) (v : Port) : (s.setPort p v).port q = s.port q :=
  Ports.get_set_of_ne _ h _

@[simp] theorem State.putOut_port_self (p : PortId) (bytes : List Byte) :
    (s.putOut p bytes).port p = { s.port p with dataOut := bytes } := Ports.get_set_self _ _ _

theorem State.putOut_port_of_ne {p q : PortId} (h : q ≠ p) (bytes : List Byte) : (s.putOut p bytes).port q = s.port q :=
  Ports.get_set_of_ne _ h _

@[simp] theorem State.holdAnswer_port_self (p : PortId) (a : Answer) :
    (s.holdAnswer p a).port p = { s.port p with state := .answer a } := Ports.get_set_self _ _ _

theorem State.holdAnswer_port_of_ne {p q : PortId} (h : q ≠ p) (a : Answer) : (s.holdAnswer p a).port q = s.port q :=
  Ports.get_set_of_ne _ h _

@[simp] theorem State.setLink_link_self (p : PanelNo) (v : Link) : (s.setLink p v).link p = v := PerPanel.get_set_self _ _ _

theorem State.setLink_link_of_ne {p q : PanelNo} (h : q ≠ p) (v : Link) : (s.setLink p v).link q = s.link q :=
  PerPanel.get_set_of_ne _ h _

@[simp] theorem State.setLinkState_link_self (p : PanelNo) (v : LinkState) :
    (s.setLinkState p v).link p = { s.link p with state := v } := PerPanel.get_set_self _ _ _

theorem State.setLinkState_link_of_ne {p q : PanelNo} (h : q ≠ p) (v : LinkState) :
    (s.setLinkState p v).link q = s.link q := PerPanel.get_set_of_ne _ h _

@[simp] theorem State.startTimer_timeLeft_self (t : TimerId) (ms : Nat) : (s.startTimer t ms).timeLeft t = some ms :=
  Table.find_insert_self _ _ _

theorem State.startTimer_timeLeft_of_ne {t u : TimerId} (h : t.key ≠ u.key) (ms : Nat) :
    (s.startTimer t ms).timeLeft u = s.timeLeft u := Table.find_insert_of_ne h _ _

@[simp] theorem State.stopTimer_timeLeft_self (t : TimerId) : (s.stopTimer t).timeLeft t = none := Table.find_erase_self _ _

theorem State.stopTimer_timeLeft_of_ne {t u : TimerId} (h : t.key ≠ u.key) :
    (s.stopTimer t).timeLeft u = s.timeLeft u := Table.find_erase_of_ne h _

theorem State.elapse_timeLeft (ms : Nat) (u : TimerId) :
    (s.elapse ms).timeLeft u = (s.timeLeft u).map fun left => left - ms :=
  Table.find_mapValues (fun _ left => left - ms) _ _

/-- Two timers with one key are one timer. -/
theorem TimerId.key_injective {t u : TimerId} (h : t.key = u.key) : t = u := by
  rcases t with (_ | _) | _ | _ | _ | _ | _ | _ | p | p | p | p | p | ⟨p, a⟩ <;>
  rcases u with (_ | _) | _ | _ | _ | _ | _ | _ | q | q | q | q | q | ⟨q, b⟩ <;>
  simp only [TimerId.key] at h <;> first
    | rfl
    | (exfalso; omega)
    | (have e : p = q := Fin.ext (by omega); subst e; rfl)
    | (have e : p = q := Fin.ext (by omega); subst e; have e : a = b := Fin.ext (by omega); subst e; rfl)

/-- Two states with the same fields are one state: `apply State.eq_of_fields <;> simp` proves a frame from the lemmas of
this file and of Laws/Frames.lean. -/
theorem State.eq_of_fields {a b : State} (phase : a.phase = b.phase) (ports : a.ports = b.ports)
    (burned : a.burned = b.burned) (inForce : a.inForce = b.inForce) (timers : a.timers = b.timers)
    (catalogue : a.catalogue = b.catalogue) (plans : a.plans = b.plans) (composer : a.composer = b.composer)
    (changeover : a.changeover = b.changeover) (freeze : a.freeze = b.freeze) (links : a.links = b.links)
    (photo : a.photo = b.photo) (lanes : a.lanes = b.lanes) (clock : a.clock = b.clock)
    (pending : a.pending = b.pending) : a = b := by
  cases a; cases b; simp_all

end Sys2Proof.Machine
end

