-- ==== Sys2Proof/Laws/Frames.lean ====
section
/-! SUPPORT. The frame of each shared operation, field by field: what it leaves as it was. A field with no lemma under an
operation's name is one the operation may change. -/
namespace Sys2Proof.Machine

variable (s : State)

@[simp] theorem State.clockIn_phase (p : PortId) (n : Nat) :
    (s.clockIn p n).phase = s.phase := by
  unfold State.clockIn; (try dsimp only); (repeat' split) <;> simp
@[simp] theorem State.clockIn_burned (p : PortId) (n : Nat) :
    (s.clockIn p n).burned = s.burned := by
  unfold State.clockIn; (try dsimp only); (repeat' split) <;> simp
@[simp] theorem State.clockIn_inForce (p : PortId) (n : Nat) :
    (s.clockIn p n).inForce = s.inForce := by
  unfold State.clockIn; (try dsimp only); (repeat' split) <;> simp
@[simp] theorem State.clockIn_timers (p : PortId) (n : Nat) :
    (s.clockIn p n).timers = s.timers := by
  unfold State.clockIn; (try dsimp only); (repeat' split) <;> simp
@[simp] theorem State.clockIn_catalogue (p : PortId) (n : Nat) :
    (s.clockIn p n).catalogue = s.catalogue := by
  unfold State.clockIn; (try dsimp only); (repeat' split) <;> simp
@[simp] theorem State.clockIn_plans (p : PortId) (n : Nat) :
    (s.clockIn p n).plans = s.plans := by
  unfold State.clockIn; (try dsimp only); (repeat' split) <;> simp
@[simp] theorem State.clockIn_composer (p : PortId) (n : Nat) :
    (s.clockIn p n).composer = s.composer := by
  unfold State.clockIn; (try dsimp only); (repeat' split) <;> simp
@[simp] theorem State.clockIn_changeover (p : PortId) (n : Nat) :
    (s.clockIn p n).changeover = s.changeover := by
  unfold State.clockIn; (try dsimp only); (repeat' split) <;> simp
@[simp] theorem State.clockIn_freeze (p : PortId) (n : Nat) :
    (s.clockIn p n).freeze = s.freeze := by
  unfold State.clockIn; (try dsimp only); (repeat' split) <;> simp
@[simp] theorem State.clockIn_links (p : PortId) (n : Nat) :
    (s.clockIn p n).links = s.links := by
  unfold State.clockIn; (try dsimp only); (repeat' split) <;> simp
@[simp] theorem State.clockIn_photo (p : PortId) (n : Nat) :
    (s.clockIn p n).photo = s.photo := by
  unfold State.clockIn; (try dsimp only); (repeat' split) <;> simp
@[simp] theorem State.clockIn_lanes (p : PortId) (n : Nat) :
    (s.clockIn p n).lanes = s.lanes := by
  unfold State.clockIn; (try dsimp only); (repeat' split) <;> simp
@[simp] theorem State.clockIn_clock (p : PortId) (n : Nat) :
    (s.clockIn p n).clock = s.clock := by
  unfold State.clockIn; (try dsimp only); (repeat' split) <;> simp
@[simp] theorem State.clockIn_pending (p : PortId) (n : Nat) :
    (s.clockIn p n).pending = s.pending := by
  unfold State.clockIn; (try dsimp only); (repeat' split) <;> simp

@[simp] theorem State.raise_phase (f : NoticeFlag) (p : PortId) :
    (s.raise f p).phase = s.phase := by
  unfold State.raise; (try dsimp only); (repeat' split) <;> simp
@[simp] theorem State.raise_burned (f : NoticeFlag) (p : PortId) :
    (s.raise f p).burned = s.burned := by
  unfold State.raise; (try dsimp only); (repeat' split) <;> simp
@[simp] theorem State.raise_inForce (f : NoticeFlag) (p : PortId) :
    (s.raise f p).inForce = s.inForce := by
  unfold State.raise; (try dsimp only); (repeat' split) <;> simp
@[simp] theorem State.raise_timers (f : NoticeFlag) (p : PortId) :
    (s.raise f p).timers = s.timers := by
  unfold State.raise; (try dsimp only); (repeat' split) <;> simp
@[simp] theorem State.raise_catalogue (f : NoticeFlag) (p : PortId) :
    (s.raise f p).catalogue = s.catalogue := by
  unfold State.raise; (try dsimp only); (repeat' split) <;> simp
@[simp] theorem State.raise_plans (f : NoticeFlag) (p : PortId) :
    (s.raise f p).plans = s.plans := by
  unfold State.raise; (try dsimp only); (repeat' split) <;> simp
@[simp] theorem State.raise_composer (f : NoticeFlag) (p : PortId) :
    (s.raise f p).composer = s.composer := by
  unfold State.raise; (try dsimp only); (repeat' split) <;> simp
@[simp] theorem State.raise_changeover (f : NoticeFlag) (p : PortId) :
    (s.raise f p).changeover = s.changeover := by
  unfold State.raise; (try dsimp only); (repeat' split) <;> simp
@[simp] theorem State.raise_freeze (f : NoticeFlag) (p : PortId) :
    (s.raise f p).freeze = s.freeze := by
  unfold State.raise; (try dsimp only); (repeat' split) <;> simp
@[simp] theorem State.raise_links (f : NoticeFlag) (p : PortId) :
    (s.raise f p).links = s.links := by
  unfold State.raise; (try dsimp only); (repeat' split) <;> simp
@[simp] theorem State.raise_photo (f : NoticeFlag) (p : PortId) :
    (s.raise f p).photo = s.photo := by
  unfold State.raise; (try dsimp only); (repeat' split) <;> simp
@[simp] theorem State.raise_lanes (f : NoticeFlag) (p : PortId) :
    (s.raise f p).lanes = s.lanes := by
  unfold State.raise; (try dsimp only); (repeat' split) <;> simp
@[simp] theorem State.raise_clock (f : NoticeFlag) (p : PortId) :
    (s.raise f p).clock = s.clock := by
  unfold State.raise; (try dsimp only); (repeat' split) <;> simp
@[simp] theorem State.raise_pending (f : NoticeFlag) (p : PortId) :
    (s.raise f p).pending = s.pending := by
  unfold State.raise; (try dsimp only); (repeat' split) <;> simp

@[simp] theorem State.raiseBoth_phase (f : NoticeFlag) :
    (s.raiseBoth f).phase = s.phase := by
  simp [State.raiseBoth]
@[simp] theorem State.raiseBoth_burned (f : NoticeFlag) :
    (s.raiseBoth f).burned = s.burned := by
  simp [State.raiseBoth]
@[simp] theorem State.raiseBoth_inForce (f : NoticeFlag) :
    (s.raiseBoth f).inForce = s.inForce := by
  simp [State.raiseBoth]
@[simp] theorem State.raiseBoth_timers (f : NoticeFlag) :
    (s.raiseBoth f).timers = s.timers := by
  simp [State.raiseBoth]
@[simp] theorem State.raiseBoth_catalogue (f : NoticeFlag) :
    (s.raiseBoth f).catalogue = s.catalogue := by
  simp [State.raiseBoth]
@[simp] theorem State.raiseBoth_plans (f : NoticeFlag) :
    (s.raiseBoth f).plans = s.plans := by
  simp [State.raiseBoth]
@[simp] theorem State.raiseBoth_composer (f : NoticeFlag) :
    (s.raiseBoth f).composer = s.composer := by
  simp [State.raiseBoth]
@[simp] theorem State.raiseBoth_changeover (f : NoticeFlag) :
    (s.raiseBoth f).changeover = s.changeover := by
  simp [State.raiseBoth]
@[simp] theorem State.raiseBoth_freeze (f : NoticeFlag) :
    (s.raiseBoth f).freeze = s.freeze := by
  simp [State.raiseBoth]
@[simp] theorem State.raiseBoth_links (f : NoticeFlag) :
    (s.raiseBoth f).links = s.links := by
  simp [State.raiseBoth]
@[simp] theorem State.raiseBoth_photo (f : NoticeFlag) :
    (s.raiseBoth f).photo = s.photo := by
  simp [State.raiseBoth]
@[simp] theorem State.raiseBoth_lanes (f : NoticeFlag) :
    (s.raiseBoth f).lanes = s.lanes := by
  simp [State.raiseBoth]
@[simp] theorem State.raiseBoth_clock (f : NoticeFlag) :
    (s.raiseBoth f).clock = s.clock := by
  simp [State.raiseBoth]
@[simp] theorem State.raiseBoth_pending (f : NoticeFlag) :
    (s.raiseBoth f).pending = s.pending := by
  simp [State.raiseBoth]

@[simp] theorem State.raiseLanes_phase (f : NoticeFlag) :
    (s.raiseLanes f).phase = s.phase := by
  simp [State.raiseLanes]
@[simp] theorem State.raiseLanes_burned (f : NoticeFlag) :
    (s.raiseLanes f).burned = s.burned := by
  simp [State.raiseLanes]
@[simp] theorem State.raiseLanes_inForce (f : NoticeFlag) :
    (s.raiseLanes f).inForce = s.inForce := by
  simp [State.raiseLanes]
@[simp] theorem State.raiseLanes_timers (f : NoticeFlag) :
    (s.raiseLanes f).timers = s.timers := by
  simp [State.raiseLanes]
@[simp] theorem State.raiseLanes_catalogue (f : NoticeFlag) :
    (s.raiseLanes f).catalogue = s.catalogue := by
  simp [State.raiseLanes]
@[simp] theorem State.raiseLanes_plans (f : NoticeFlag) :
    (s.raiseLanes f).plans = s.plans := by
  simp [State.raiseLanes]
@[simp] theorem State.raiseLanes_composer (f : NoticeFlag) :
    (s.raiseLanes f).composer = s.composer := by
  simp [State.raiseLanes]
@[simp] theorem State.raiseLanes_changeover (f : NoticeFlag) :
    (s.raiseLanes f).changeover = s.changeover := by
  simp [State.raiseLanes]
@[simp] theorem State.raiseLanes_freeze (f : NoticeFlag) :
    (s.raiseLanes f).freeze = s.freeze := by
  simp [State.raiseLanes]
@[simp] theorem State.raiseLanes_links (f : NoticeFlag) :
    (s.raiseLanes f).links = s.links := by
  simp [State.raiseLanes]
@[simp] theorem State.raiseLanes_photo (f : NoticeFlag) :
    (s.raiseLanes f).photo = s.photo := by
  simp [State.raiseLanes]
@[simp] theorem State.raiseLanes_lanes (f : NoticeFlag) :
    (s.raiseLanes f).lanes = s.lanes := by
  simp [State.raiseLanes]
@[simp] theorem State.raiseLanes_clock (f : NoticeFlag) :
    (s.raiseLanes f).clock = s.clock := by
  simp [State.raiseLanes]
@[simp] theorem State.raiseLanes_pending (f : NoticeFlag) :
    (s.raiseLanes f).pending = s.pending := by
  simp [State.raiseLanes]

@[simp] theorem State.loseRequest_phase (p : PortId) :
    (s.loseRequest p).phase = s.phase := by
  unfold State.loseRequest; (try dsimp only); (repeat' split) <;> simp
@[simp] theorem State.loseRequest_burned (p : PortId) :
    (s.loseRequest p).burned = s.burned := by
  unfold State.loseRequest; (try dsimp only); (repeat' split) <;> simp
@[simp] theorem State.loseRequest_inForce (p : PortId) :
    (s.loseRequest p).inForce = s.inForce := by
  unfold State.loseRequest; (try dsimp only); (repeat' split) <;> simp
@[simp] theorem State.loseRequest_timers (p : PortId) :
    (s.loseRequest p).timers = s.timers := by
  unfold State.loseRequest; (try dsimp only); (repeat' split) <;> simp
@[simp] theorem State.loseRequest_catalogue (p : PortId) :
    (s.loseRequest p).catalogue = s.catalogue := by
  unfold State.loseRequest; (try dsimp only); (repeat' split) <;> simp
@[simp] theorem State.loseRequest_plans (p : PortId) :
    (s.loseRequest p).plans = s.plans := by
  unfold State.loseRequest; (try dsimp only); (repeat' split) <;> simp
@[simp] theorem State.loseRequest_composer (p : PortId) :
    (s.loseRequest p).composer = s.composer := by
  unfold State.loseRequest; (try dsimp only); (repeat' split) <;> simp
@[simp] theorem State.loseRequest_changeover (p : PortId) :
    (s.loseRequest p).changeover = s.changeover := by
  unfold State.loseRequest; (try dsimp only); (repeat' split) <;> simp
@[simp] theorem State.loseRequest_freeze (p : PortId) :
    (s.loseRequest p).freeze = s.freeze := by
  unfold State.loseRequest; (try dsimp only); (repeat' split) <;> simp
@[simp] theorem State.loseRequest_links (p : PortId) :
    (s.loseRequest p).links = s.links := by
  unfold State.loseRequest; (try dsimp only); (repeat' split) <;> simp
@[simp] theorem State.loseRequest_photo (p : PortId) :
    (s.loseRequest p).photo = s.photo := by
  unfold State.loseRequest; (try dsimp only); (repeat' split) <;> simp
@[simp] theorem State.loseRequest_lanes (p : PortId) :
    (s.loseRequest p).lanes = s.lanes := by
  unfold State.loseRequest; (try dsimp only); (repeat' split) <;> simp
@[simp] theorem State.loseRequest_clock (p : PortId) :
    (s.loseRequest p).clock = s.clock := by
  unfold State.loseRequest; (try dsimp only); (repeat' split) <;> simp
@[simp] theorem State.loseRequest_pending (p : PortId) :
    (s.loseRequest p).pending = s.pending := by
  unfold State.loseRequest; (try dsimp only); (repeat' split) <;> simp

@[simp] theorem State.restartIfRunning_phase (t : TimerId) (ms : Nat) :
    (s.restartIfRunning t ms).phase = s.phase := by
  unfold State.restartIfRunning; (try dsimp only); (repeat' split) <;> simp
@[simp] theorem State.restartIfRunning_ports (t : TimerId) (ms : Nat) :
    (s.restartIfRunning t ms).ports = s.ports := by
  unfold State.restartIfRunning; (try dsimp only); (repeat' split) <;> simp
@[simp] theorem State.restartIfRunning_burned (t : TimerId) (ms : Nat) :
    (s.restartIfRunning t ms).burned = s.burned := by
  unfold State.restartIfRunning; (try dsimp only); (repeat' split) <;> simp
@[simp] theorem State.restartIfRunning_inForce (t : TimerId) (ms : Nat) :
    (s.restartIfRunning t ms).inForce = s.inForce := by
  unfold State.restartIfRunning; (try dsimp only); (repeat' split) <;> simp
@[simp] theorem State.restartIfRunning_catalogue (t : TimerId) (ms : Nat) :
    (s.restartIfRunning t ms).catalogue = s.catalogue := by
  unfold State.restartIfRunning; (try dsimp only); (repeat' split) <;> simp
@[simp] theorem State.restartIfRunning_plans (t : TimerId) (ms : Nat) :
    (s.restartIfRunning t ms).plans = s.plans := by
  unfold State.restartIfRunning; (try dsimp only); (repeat' split) <;> simp
@[simp] theorem State.restartIfRunning_composer (t : TimerId) (ms : Nat) :
    (s.restartIfRunning t ms).composer = s.composer := by
  unfold State.restartIfRunning; (try dsimp only); (repeat' split) <;> simp
@[simp] theorem State.restartIfRunning_changeover (t : TimerId) (ms : Nat) :
    (s.restartIfRunning t ms).changeover = s.changeover := by
  unfold State.restartIfRunning; (try dsimp only); (repeat' split) <;> simp
@[simp] theorem State.restartIfRunning_freeze (t : TimerId) (ms : Nat) :
    (s.restartIfRunning t ms).freeze = s.freeze := by
  unfold State.restartIfRunning; (try dsimp only); (repeat' split) <;> simp
@[simp] theorem State.restartIfRunning_links (t : TimerId) (ms : Nat) :
    (s.restartIfRunning t ms).links = s.links := by
  unfold State.restartIfRunning; (try dsimp only); (repeat' split) <;> simp
@[simp] theorem State.restartIfRunning_photo (t : TimerId) (ms : Nat) :
    (s.restartIfRunning t ms).photo = s.photo := by
  unfold State.restartIfRunning; (try dsimp only); (repeat' split) <;> simp
@[simp] theorem State.restartIfRunning_lanes (t : TimerId) (ms : Nat) :
    (s.restartIfRunning t ms).lanes = s.lanes := by
  unfold State.restartIfRunning; (try dsimp only); (repeat' split) <;> simp
@[simp] theorem State.restartIfRunning_clock (t : TimerId) (ms : Nat) :
    (s.restartIfRunning t ms).clock = s.clock := by
  unfold State.restartIfRunning; (try dsimp only); (repeat' split) <;> simp
@[simp] theorem State.restartIfRunning_pending (t : TimerId) (ms : Nat) :
    (s.restartIfRunning t ms).pending = s.pending := by
  unfold State.restartIfRunning; (try dsimp only); (repeat' split) <;> simp

@[simp] theorem State.composeRequest_phase (p : PanelNo) (r : ReasonSet) :
    (s.composeRequest p r).phase = s.phase := by
  unfold State.composeRequest; (try dsimp only); (repeat' split) <;> simp
@[simp] theorem State.composeRequest_ports (p : PanelNo) (r : ReasonSet) :
    (s.composeRequest p r).ports = s.ports := by
  unfold State.composeRequest; (try dsimp only); (repeat' split) <;> simp
@[simp] theorem State.composeRequest_burned (p : PanelNo) (r : ReasonSet) :
    (s.composeRequest p r).burned = s.burned := by
  unfold State.composeRequest; (try dsimp only); (repeat' split) <;> simp
@[simp] theorem State.composeRequest_inForce (p : PanelNo) (r : ReasonSet) :
    (s.composeRequest p r).inForce = s.inForce := by
  unfold State.composeRequest; (try dsimp only); (repeat' split) <;> simp
@[simp] theorem State.composeRequest_timers (p : PanelNo) (r : ReasonSet) :
    (s.composeRequest p r).timers = s.timers := by
  unfold State.composeRequest; (try dsimp only); (repeat' split) <;> simp
@[simp] theorem State.composeRequest_catalogue (p : PanelNo) (r : ReasonSet) :
    (s.composeRequest p r).catalogue = s.catalogue := by
  unfold State.composeRequest; (try dsimp only); (repeat' split) <;> simp
@[simp] theorem State.composeRequest_plans (p : PanelNo) (r : ReasonSet) :
    (s.composeRequest p r).plans = s.plans := by
  unfold State.composeRequest; (try dsimp only); (repeat' split) <;> simp
@[simp] theorem State.composeRequest_changeover (p : PanelNo) (r : ReasonSet) :
    (s.composeRequest p r).changeover = s.changeover := by
  unfold State.composeRequest; (try dsimp only); (repeat' split) <;> simp
@[simp] theorem State.composeRequest_freeze (p : PanelNo) (r : ReasonSet) :
    (s.composeRequest p r).freeze = s.freeze := by
  unfold State.composeRequest; (try dsimp only); (repeat' split) <;> simp
@[simp] theorem State.composeRequest_links (p : PanelNo) (r : ReasonSet) :
    (s.composeRequest p r).links = s.links := by
  unfold State.composeRequest; (try dsimp only); (repeat' split) <;> simp
@[simp] theorem State.composeRequest_photo (p : PanelNo) (r : ReasonSet) :
    (s.composeRequest p r).photo = s.photo := by
  unfold State.composeRequest; (try dsimp only); (repeat' split) <;> simp
@[simp] theorem State.composeRequest_lanes (p : PanelNo) (r : ReasonSet) :
    (s.composeRequest p r).lanes = s.lanes := by
  unfold State.composeRequest; (try dsimp only); (repeat' split) <;> simp
@[simp] theorem State.composeRequest_clock (p : PanelNo) (r : ReasonSet) :
    (s.composeRequest p r).clock = s.clock := by
  unfold State.composeRequest; (try dsimp only); (repeat' split) <;> simp
@[simp] theorem State.composeRequest_pending (p : PanelNo) (r : ReasonSet) :
    (s.composeRequest p r).pending = s.pending := by
  unfold State.composeRequest; (try dsimp only); (repeat' split) <;> simp

@[simp] theorem State.composeRequests_phase (ps : List PanelNo) (r : ReasonSet) :
    (s.composeRequests ps r).phase = s.phase := by
  unfold State.composeRequests
  induction ps generalizing s with
  | nil => rfl
  | cons p ps ih => simp only [List.foldl_cons]; rw [ih]; simp
@[simp] theorem State.composeRequests_ports (ps : List PanelNo) (r : ReasonSet) :
    (s.composeRequests ps r).ports = s.ports := by
  unfold State.composeRequests
  induction ps generalizing s with
  | nil => rfl
  | cons p ps ih => simp only [List.foldl_cons]; rw [ih]; simp
@[simp] theorem State.composeRequests_burned (ps : List PanelNo) (r : ReasonSet) :
    (s.composeRequests ps r).burned = s.burned := by
  unfold State.composeRequests
  induction ps generalizing s with
  | nil => rfl
  | cons p ps ih => simp only [List.foldl_cons]; rw [ih]; simp
@[simp] theorem State.composeRequests_inForce (ps : List PanelNo) (r : ReasonSet) :
    (s.composeRequests ps r).inForce = s.inForce := by
  unfold State.composeRequests
  induction ps generalizing s with
  | nil => rfl
  | cons p ps ih => simp only [List.foldl_cons]; rw [ih]; simp
@[simp] theorem State.composeRequests_timers (ps : List PanelNo) (r : ReasonSet) :
    (s.composeRequests ps r).timers = s.timers := by
  unfold State.composeRequests
  induction ps generalizing s with
  | nil => rfl
  | cons p ps ih => simp only [List.foldl_cons]; rw [ih]; simp
@[simp] theorem State.composeRequests_catalogue (ps : List PanelNo) (r : ReasonSet) :
    (s.composeRequests ps r).catalogue = s.catalogue := by
  unfold State.composeRequests
  induction ps generalizing s with
  | nil => rfl
  | cons p ps ih => simp only [List.foldl_cons]; rw [ih]; simp
@[simp] theorem State.composeRequests_plans (ps : List PanelNo) (r : ReasonSet) :
    (s.composeRequests ps r).plans = s.plans := by
  unfold State.composeRequests
  induction ps generalizing s with
  | nil => rfl
  | cons p ps ih => simp only [List.foldl_cons]; rw [ih]; simp
@[simp] theorem State.composeRequests_changeover (ps : List PanelNo) (r : ReasonSet) :
    (s.composeRequests ps r).changeover = s.changeover := by
  unfold State.composeRequests
  induction ps generalizing s with
  | nil => rfl
  | cons p ps ih => simp only [List.foldl_cons]; rw [ih]; simp
@[simp] theorem State.composeRequests_freeze (ps : List PanelNo) (r : ReasonSet) :
    (s.composeRequests ps r).freeze = s.freeze := by
  unfold State.composeRequests
  induction ps generalizing s with
  | nil => rfl
  | cons p ps ih => simp only [List.foldl_cons]; rw [ih]; simp
@[simp] theorem State.composeRequests_links (ps : List PanelNo) (r : ReasonSet) :
    (s.composeRequests ps r).links = s.links := by
  unfold State.composeRequests
  induction ps generalizing s with
  | nil => rfl
  | cons p ps ih => simp only [List.foldl_cons]; rw [ih]; simp
@[simp] theorem State.composeRequests_photo (ps : List PanelNo) (r : ReasonSet) :
    (s.composeRequests ps r).photo = s.photo := by
  unfold State.composeRequests
  induction ps generalizing s with
  | nil => rfl
  | cons p ps ih => simp only [List.foldl_cons]; rw [ih]; simp
@[simp] theorem State.composeRequests_lanes (ps : List PanelNo) (r : ReasonSet) :
    (s.composeRequests ps r).lanes = s.lanes := by
  unfold State.composeRequests
  induction ps generalizing s with
  | nil => rfl
  | cons p ps ih => simp only [List.foldl_cons]; rw [ih]; simp
@[simp] theorem State.composeRequests_clock (ps : List PanelNo) (r : ReasonSet) :
    (s.composeRequests ps r).clock = s.clock := by
  unfold State.composeRequests
  induction ps generalizing s with
  | nil => rfl
  | cons p ps ih => simp only [List.foldl_cons]; rw [ih]; simp
@[simp] theorem State.composeRequests_pending (ps : List PanelNo) (r : ReasonSet) :
    (s.composeRequests ps r).pending = s.pending := by
  unfold State.composeRequests
  induction ps generalizing s with
  | nil => rfl
  | cons p ps ih => simp only [List.foldl_cons]; rw [ih]; simp

@[simp] theorem State.composerRemoval_phase (p : PanelNo) :
    (s.composerRemoval p).phase = s.phase := by
  simp [State.composerRemoval]
@[simp] theorem State.composerRemoval_ports (p : PanelNo) :
    (s.composerRemoval p).ports = s.ports := by
  simp [State.composerRemoval]
@[simp] theorem State.composerRemoval_burned (p : PanelNo) :
    (s.composerRemoval p).burned = s.burned := by
  simp [State.composerRemoval]
@[simp] theorem State.composerRemoval_inForce (p : PanelNo) :
    (s.composerRemoval p).inForce = s.inForce := by
  simp [State.composerRemoval]
@[simp] theorem State.composerRemoval_timers (p : PanelNo) :
    (s.composerRemoval p).timers = s.timers := by
  simp [State.composerRemoval]
@[simp] theorem State.composerRemoval_catalogue (p : PanelNo) :
    (s.composerRemoval p).catalogue = s.catalogue := by
  simp [State.composerRemoval]
@[simp] theorem State.composerRemoval_plans (p : PanelNo) :
    (s.composerRemoval p).plans = s.plans := by
  simp [State.composerRemoval]
@[simp] theorem State.composerRemoval_changeover (p : PanelNo) :
    (s.composerRemoval p).changeover = s.changeover := by
  simp [State.composerRemoval]
@[simp] theorem State.composerRemoval_freeze (p : PanelNo) :
    (s.composerRemoval p).freeze = s.freeze := by
  simp [State.composerRemoval]
@[simp] theorem State.composerRemoval_links (p : PanelNo) :
    (s.composerRemoval p).links = s.links := by
  simp [State.composerRemoval]
@[simp] theorem State.composerRemoval_photo (p : PanelNo) :
    (s.composerRemoval p).photo = s.photo := by
  simp [State.composerRemoval]
@[simp] theorem State.composerRemoval_lanes (p : PanelNo) :
    (s.composerRemoval p).lanes = s.lanes := by
  simp [State.composerRemoval]
@[simp] theorem State.composerRemoval_clock (p : PanelNo) :
    (s.composerRemoval p).clock = s.clock := by
  simp [State.composerRemoval]
@[simp] theorem State.composerRemoval_pending (p : PanelNo) :
    (s.composerRemoval p).pending = s.pending := by
  simp [State.composerRemoval]

@[simp] theorem State.abandon_phase :
    (s.abandon).phase = s.phase := by
  unfold State.abandon; (try dsimp only); (repeat' split) <;> simp
@[simp] theorem State.abandon_ports :
    (s.abandon).ports = s.ports := by
  unfold State.abandon; (try dsimp only); (repeat' split) <;> simp
@[simp] theorem State.abandon_burned :
    (s.abandon).burned = s.burned := by
  unfold State.abandon; (try dsimp only); (repeat' split) <;> simp
@[simp] theorem State.abandon_inForce :
    (s.abandon).inForce = s.inForce := by
  unfold State.abandon; (try dsimp only); (repeat' split) <;> simp
@[simp] theorem State.abandon_timers :
    (s.abandon).timers = s.timers := by
  unfold State.abandon; (try dsimp only); (repeat' split) <;> simp
@[simp] theorem State.abandon_catalogue :
    (s.abandon).catalogue = s.catalogue := by
  unfold State.abandon; (try dsimp only); (repeat' split) <;> simp
@[simp] theorem State.abandon_plans :
    (s.abandon).plans = s.plans := by
  unfold State.abandon; (try dsimp only); (repeat' split) <;> simp
@[simp] theorem State.abandon_changeover :
    (s.abandon).changeover = s.changeover := by
  unfold State.abandon; (try dsimp only); (repeat' split) <;> simp
@[simp] theorem State.abandon_freeze :
    (s.abandon).freeze = s.freeze := by
  unfold State.abandon; (try dsimp only); (repeat' split) <;> simp
@[simp] theorem State.abandon_links :
    (s.abandon).links = s.links := by
  unfold State.abandon; (try dsimp only); (repeat' split) <;> simp
@[simp] theorem State.abandon_photo :
    (s.abandon).photo = s.photo := by
  unfold State.abandon; (try dsimp only); (repeat' split) <;> simp
@[simp] theorem State.abandon_lanes :
    (s.abandon).lanes = s.lanes := by
  unfold State.abandon; (try dsimp only); (repeat' split) <;> simp
@[simp] theorem State.abandon_clock :
    (s.abandon).clock = s.clock := by
  unfold State.abandon; (try dsimp only); (repeat' split) <;> simp
@[simp] theorem State.abandon_pending :
    (s.abandon).pending = s.pending := by
  unfold State.abandon; (try dsimp only); (repeat' split) <;> simp

@[simp] theorem State.settleDone_phase (t : Target) :
    (s.settleDone t).phase = s.phase := by
  simp [State.settleDone]
@[simp] theorem State.settleDone_burned (t : Target) :
    (s.settleDone t).burned = s.burned := by
  simp [State.settleDone]
@[simp] theorem State.settleDone_inForce (t : Target) :
    (s.settleDone t).inForce = s.inForce := by
  simp [State.settleDone]
@[simp] theorem State.settleDone_catalogue (t : Target) :
    (s.settleDone t).catalogue = s.catalogue := by
  simp [State.settleDone]
@[simp] theorem State.settleDone_plans (t : Target) :
    (s.settleDone t).plans = s.plans := by
  simp [State.settleDone]
@[simp] theorem State.settleDone_composer (t : Target) :
    (s.settleDone t).composer = s.composer := by
  simp [State.settleDone]
@[simp] theorem State.settleDone_freeze (t : Target) :
    (s.settleDone t).freeze = s.freeze := by
  simp [State.settleDone]
@[simp] theorem State.settleDone_links (t : Target) :
    (s.settleDone t).links = s.links := by
  simp [State.settleDone]
@[simp] theorem State.settleDone_photo (t : Target) :
    (s.settleDone t).photo = s.photo := by
  simp [State.settleDone]
@[simp] theorem State.settleDone_lanes (t : Target) :
    (s.settleDone t).lanes = s.lanes := by
  simp [State.settleDone]
@[simp] theorem State.settleDone_clock (t : Target) :
    (s.settleDone t).clock = s.clock := by
  simp [State.settleDone]
@[simp] theorem State.settleDone_pending (t : Target) :
    (s.settleDone t).pending = s.pending := by
  simp [State.settleDone]

@[simp] theorem State.discardStaged_phase :
    (s.discardStaged).phase = s.phase := rfl
@[simp] theorem State.discardStaged_ports :
    (s.discardStaged).ports = s.ports := rfl
@[simp] theorem State.discardStaged_burned :
    (s.discardStaged).burned = s.burned := rfl
@[simp] theorem State.discardStaged_inForce :
    (s.discardStaged).inForce = s.inForce := rfl
@[simp] theorem State.discardStaged_timers :
    (s.discardStaged).timers = s.timers := rfl
@[simp] theorem State.discardStaged_catalogue :
    (s.discardStaged).catalogue = s.catalogue := rfl
@[simp] theorem State.discardStaged_plans :
    (s.discardStaged).plans = s.plans := rfl
@[simp] theorem State.discardStaged_composer :
    (s.discardStaged).composer = s.composer := rfl
@[simp] theorem State.discardStaged_changeover :
    (s.discardStaged).changeover = s.changeover := rfl
@[simp] theorem State.discardStaged_freeze :
    (s.discardStaged).freeze = s.freeze := rfl
@[simp] theorem State.discardStaged_photo :
    (s.discardStaged).photo = s.photo := rfl
@[simp] theorem State.discardStaged_lanes :
    (s.discardStaged).lanes = s.lanes := rfl
@[simp] theorem State.discardStaged_clock :
    (s.discardStaged).clock = s.clock := rfl
@[simp] theorem State.discardStaged_pending :
    (s.discardStaged).pending = s.pending := rfl

@[simp] theorem State.stageMembers_phase :
    (s.stageMembers).phase = s.phase := by
  simp [State.stageMembers]
@[simp] theorem State.stageMembers_ports :
    (s.stageMembers).ports = s.ports := by
  simp [State.stageMembers]
@[simp] theorem State.stageMembers_burned :
    (s.stageMembers).burned = s.burned := by
  simp [State.stageMembers]
@[simp] theorem State.stageMembers_inForce :
    (s.stageMembers).inForce = s.inForce := by
  simp [State.stageMembers]
@[simp] theorem State.stageMembers_timers :
    (s.stageMembers).timers = s.timers := by
  simp [State.stageMembers]
@[simp] theorem State.stageMembers_catalogue :
    (s.stageMembers).catalogue = s.catalogue := by
  simp [State.stageMembers]
@[simp] theorem State.stageMembers_plans :
    (s.stageMembers).plans = s.plans := by
  simp [State.stageMembers]
@[simp] theorem State.stageMembers_freeze :
    (s.stageMembers).freeze = s.freeze := by
  simp [State.stageMembers]
@[simp] theorem State.stageMembers_photo :
    (s.stageMembers).photo = s.photo := by
  simp [State.stageMembers]
@[simp] theorem State.stageMembers_lanes :
    (s.stageMembers).lanes = s.lanes := by
  simp [State.stageMembers]
@[simp] theorem State.stageMembers_clock :
    (s.stageMembers).clock = s.clock := by
  simp [State.stageMembers]
@[simp] theorem State.stageMembers_pending :
    (s.stageMembers).pending = s.pending := by
  simp [State.stageMembers]

@[simp] theorem State.startChangeover_phase :
    (s.startChangeover).phase = s.phase := by
  unfold State.startChangeover; (try dsimp only); (repeat' split) <;> simp
@[simp] theorem State.startChangeover_burned :
    (s.startChangeover).burned = s.burned := by
  unfold State.startChangeover; (try dsimp only); (repeat' split) <;> simp
@[simp] theorem State.startChangeover_inForce :
    (s.startChangeover).inForce = s.inForce := by
  unfold State.startChangeover; (try dsimp only); (repeat' split) <;> simp
@[simp] theorem State.startChangeover_catalogue :
    (s.startChangeover).catalogue = s.catalogue := by
  unfold State.startChangeover; (try dsimp only); (repeat' split) <;> simp
@[simp] theorem State.startChangeover_plans :
    (s.startChangeover).plans = s.plans := by
  unfold State.startChangeover; (try dsimp only); (repeat' split) <;> simp
@[simp] theorem State.startChangeover_freeze :
    (s.startChangeover).freeze = s.freeze := by
  unfold State.startChangeover; (try dsimp only); (repeat' split) <;> simp
@[simp] theorem State.startChangeover_photo :
    (s.startChangeover).photo = s.photo := by
  unfold State.startChangeover; (try dsimp only); (repeat' split) <;> simp
@[simp] theorem State.startChangeover_lanes :
    (s.startChangeover).lanes = s.lanes := by
  unfold State.startChangeover; (try dsimp only); (repeat' split) <;> simp
@[simp] theorem State.startChangeover_clock :
    (s.startChangeover).clock = s.clock := by
  unfold State.startChangeover; (try dsimp only); (repeat' split) <;> simp
@[simp] theorem State.startChangeover_pending :
    (s.startChangeover).pending = s.pending := by
  unfold State.startChangeover; (try dsimp only); (repeat' split) <;> simp

@[simp] theorem State.supersede_phase :
    (s.supersede).phase = s.phase := by
  unfold State.supersede; (try dsimp only); (repeat' split) <;> simp
@[simp] theorem State.supersede_burned :
    (s.supersede).burned = s.burned := by
  unfold State.supersede; (try dsimp only); (repeat' split) <;> simp
@[simp] theorem State.supersede_inForce :
    (s.supersede).inForce = s.inForce := by
  unfold State.supersede; (try dsimp only); (repeat' split) <;> simp
@[simp] theorem State.supersede_catalogue :
    (s.supersede).catalogue = s.catalogue := by
  unfold State.supersede; (try dsimp only); (repeat' split) <;> simp
@[simp] theorem State.supersede_plans :
    (s.supersede).plans = s.plans := by
  unfold State.supersede; (try dsimp only); (repeat' split) <;> simp
@[simp] theorem State.supersede_freeze :
    (s.supersede).freeze = s.freeze := by
  unfold State.supersede; (try dsimp only); (repeat' split) <;> simp
@[simp] theorem State.supersede_photo :
    (s.supersede).photo = s.photo := by
  unfold State.supersede; (try dsimp only); (repeat' split) <;> simp
@[simp] theorem State.supersede_lanes :
    (s.supersede).lanes = s.lanes := by
  unfold State.supersede; (try dsimp only); (repeat' split) <;> simp
@[simp] theorem State.supersede_clock :
    (s.supersede).clock = s.clock := by
  unfold State.supersede; (try dsimp only); (repeat' split) <;> simp
@[simp] theorem State.supersede_pending :
    (s.supersede).pending = s.pending := by
  unfold State.supersede; (try dsimp only); (repeat' split) <;> simp

@[simp] theorem State.handTarget_phase (t : Target) :
    (s.handTarget t).phase = s.phase := by
  unfold State.handTarget; (try dsimp only); (repeat' split) <;> simp
@[simp] theorem State.handTarget_burned (t : Target) :
    (s.handTarget t).burned = s.burned := by
  unfold State.handTarget; (try dsimp only); (repeat' split) <;> simp
@[simp] theorem State.handTarget_inForce (t : Target) :
    (s.handTarget t).inForce = s.inForce := by
  unfold State.handTarget; (try dsimp only); (repeat' split) <;> simp
@[simp] theorem State.handTarget_catalogue (t : Target) :
    (s.handTarget t).catalogue = s.catalogue := by
  unfold State.handTarget; (try dsimp only); (repeat' split) <;> simp
@[simp] theorem State.handTarget_plans (t : Target) :
    (s.handTarget t).plans = s.plans := by
  unfold State.handTarget; (try dsimp only); (repeat' split) <;> simp
@[simp] theorem State.handTarget_photo (t : Target) :
    (s.handTarget t).photo = s.photo := by
  unfold State.handTarget; (try dsimp only); (repeat' split) <;> simp
@[simp] theorem State.handTarget_lanes (t : Target) :
    (s.handTarget t).lanes = s.lanes := by
  unfold State.handTarget; (try dsimp only); (repeat' split) <;> simp
@[simp] theorem State.handTarget_clock (t : Target) :
    (s.handTarget t).clock = s.clock := by
  unfold State.handTarget; (try dsimp only); (repeat' split) <;> simp
@[simp] theorem State.handTarget_pending (t : Target) :
    (s.handTarget t).pending = s.pending := by
  unfold State.handTarget; (try dsimp only); (repeat' split) <;> simp

@[simp] theorem State.handGeneration_phase (g : Nat) :
    (s.handGeneration g).phase = s.phase := by
  simp [State.handGeneration]
@[simp] theorem State.handGeneration_burned (g : Nat) :
    (s.handGeneration g).burned = s.burned := by
  simp [State.handGeneration]
@[simp] theorem State.handGeneration_inForce (g : Nat) :
    (s.handGeneration g).inForce = s.inForce := by
  simp [State.handGeneration]
@[simp] theorem State.handGeneration_catalogue (g : Nat) :
    (s.handGeneration g).catalogue = s.catalogue := by
  simp [State.handGeneration]
@[simp] theorem State.handGeneration_plans (g : Nat) :
    (s.handGeneration g).plans = s.plans := by
  simp [State.handGeneration]
@[simp] theorem State.handGeneration_photo (g : Nat) :
    (s.handGeneration g).photo = s.photo := by
  simp [State.handGeneration]
@[simp] theorem State.handGeneration_lanes (g : Nat) :
    (s.handGeneration g).lanes = s.lanes := by
  simp [State.handGeneration]
@[simp] theorem State.handGeneration_clock (g : Nat) :
    (s.handGeneration g).clock = s.clock := by
  simp [State.handGeneration]
@[simp] theorem State.handGeneration_pending (g : Nat) :
    (s.handGeneration g).pending = s.pending := by
  simp [State.handGeneration]

@[simp] theorem State.handVisibility_phase (v : Visibility) :
    (s.handVisibility v).phase = s.phase := by
  simp [State.handVisibility]
@[simp] theorem State.handVisibility_burned (v : Visibility) :
    (s.handVisibility v).burned = s.burned := by
  simp [State.handVisibility]
@[simp] theorem State.handVisibility_inForce (v : Visibility) :
    (s.handVisibility v).inForce = s.inForce := by
  simp [State.handVisibility]
@[simp] theorem State.handVisibility_catalogue (v : Visibility) :
    (s.handVisibility v).catalogue = s.catalogue := by
  simp [State.handVisibility]
@[simp] theorem State.handVisibility_plans (v : Visibility) :
    (s.handVisibility v).plans = s.plans := by
  simp [State.handVisibility]
@[simp] theorem State.handVisibility_photo (v : Visibility) :
    (s.handVisibility v).photo = s.photo := by
  simp [State.handVisibility]
@[simp] theorem State.handVisibility_lanes (v : Visibility) :
    (s.handVisibility v).lanes = s.lanes := by
  simp [State.handVisibility]
@[simp] theorem State.handVisibility_clock (v : Visibility) :
    (s.handVisibility v).clock = s.clock := by
  simp [State.handVisibility]
@[simp] theorem State.handVisibility_pending (v : Visibility) :
    (s.handVisibility v).pending = s.pending := by
  simp [State.handVisibility]

@[simp] theorem State.handDayPart_phase (d : DayPart) :
    (s.handDayPart d).phase = s.phase := by
  simp [State.handDayPart]
@[simp] theorem State.handDayPart_burned (d : DayPart) :
    (s.handDayPart d).burned = s.burned := by
  simp [State.handDayPart]
@[simp] theorem State.handDayPart_inForce (d : DayPart) :
    (s.handDayPart d).inForce = s.inForce := by
  simp [State.handDayPart]
@[simp] theorem State.handDayPart_catalogue (d : DayPart) :
    (s.handDayPart d).catalogue = s.catalogue := by
  simp [State.handDayPart]
@[simp] theorem State.handDayPart_plans (d : DayPart) :
    (s.handDayPart d).plans = s.plans := by
  simp [State.handDayPart]
@[simp] theorem State.handDayPart_photo (d : DayPart) :
    (s.handDayPart d).photo = s.photo := by
  simp [State.handDayPart]
@[simp] theorem State.handDayPart_lanes (d : DayPart) :
    (s.handDayPart d).lanes = s.lanes := by
  simp [State.handDayPart]
@[simp] theorem State.handDayPart_clock (d : DayPart) :
    (s.handDayPart d).clock = s.clock := by
  simp [State.handDayPart]
@[simp] theorem State.handDayPart_pending (d : DayPart) :
    (s.handDayPart d).pending = s.pending := by
  simp [State.handDayPart]

@[simp] theorem State.checkMembers_phase :
    (s.checkMembers).phase = s.phase := by
  unfold State.checkMembers; (try dsimp only); (repeat' split) <;> simp
@[simp] theorem State.checkMembers_burned :
    (s.checkMembers).burned = s.burned := by
  unfold State.checkMembers; (try dsimp only); (repeat' split) <;> simp
@[simp] theorem State.checkMembers_inForce :
    (s.checkMembers).inForce = s.inForce := by
  unfold State.checkMembers; (try dsimp only); (repeat' split) <;> simp
@[simp] theorem State.checkMembers_catalogue :
    (s.checkMembers).catalogue = s.catalogue := by
  unfold State.checkMembers; (try dsimp only); (repeat' split) <;> simp
@[simp] theorem State.checkMembers_plans :
    (s.checkMembers).plans = s.plans := by
  unfold State.checkMembers; (try dsimp only); (repeat' split) <;> simp
@[simp] theorem State.checkMembers_composer :
    (s.checkMembers).composer = s.composer := by
  unfold State.checkMembers; (try dsimp only); (repeat' split) <;> simp
@[simp] theorem State.checkMembers_freeze :
    (s.checkMembers).freeze = s.freeze := by
  unfold State.checkMembers; (try dsimp only); (repeat' split) <;> simp
@[simp] theorem State.checkMembers_links :
    (s.checkMembers).links = s.links := by
  unfold State.checkMembers; (try dsimp only); (repeat' split) <;> simp
@[simp] theorem State.checkMembers_photo :
    (s.checkMembers).photo = s.photo := by
  unfold State.checkMembers; (try dsimp only); (repeat' split) <;> simp
@[simp] theorem State.checkMembers_lanes :
    (s.checkMembers).lanes = s.lanes := by
  unfold State.checkMembers; (try dsimp only); (repeat' split) <;> simp
@[simp] theorem State.checkMembers_clock :
    (s.checkMembers).clock = s.clock := by
  unfold State.checkMembers; (try dsimp only); (repeat' split) <;> simp
@[simp] theorem State.checkMembers_pending :
    (s.checkMembers).pending = s.pending := by
  unfold State.checkMembers; (try dsimp only); (repeat' split) <;> simp

@[simp] theorem State.advance_phase (p : PanelNo) (v : Progress) :
    (s.advance p v).phase = s.phase := by
  simp [State.advance]
@[simp] theorem State.advance_burned (p : PanelNo) (v : Progress) :
    (s.advance p v).burned = s.burned := by
  simp [State.advance]
@[simp] theorem State.advance_inForce (p : PanelNo) (v : Progress) :
    (s.advance p v).inForce = s.inForce := by
  simp [State.advance]
@[simp] theorem State.advance_catalogue (p : PanelNo) (v : Progress) :
    (s.advance p v).catalogue = s.catalogue := by
  simp [State.advance]
@[simp] theorem State.advance_plans (p : PanelNo) (v : Progress) :
    (s.advance p v).plans = s.plans := by
  simp [State.advance]
@[simp] theorem State.advance_composer (p : PanelNo) (v : Progress) :
    (s.advance p v).composer = s.composer := by
  simp [State.advance]
@[simp] theorem State.advance_freeze (p : PanelNo) (v : Progress) :
    (s.advance p v).freeze = s.freeze := by
  simp [State.advance]
@[simp] theorem State.advance_links (p : PanelNo) (v : Progress) :
    (s.advance p v).links = s.links := by
  simp [State.advance]
@[simp] theorem State.advance_photo (p : PanelNo) (v : Progress) :
    (s.advance p v).photo = s.photo := by
  simp [State.advance]
@[simp] theorem State.advance_lanes (p : PanelNo) (v : Progress) :
    (s.advance p v).lanes = s.lanes := by
  simp [State.advance]
@[simp] theorem State.advance_clock (p : PanelNo) (v : Progress) :
    (s.advance p v).clock = s.clock := by
  simp [State.advance]
@[simp] theorem State.advance_pending (p : PanelNo) (v : Progress) :
    (s.advance p v).pending = s.pending := by
  simp [State.advance]

@[simp] theorem State.advanceFrom_phase (p : PanelNo) (before after : Progress) (k : FrameKind) :
    (s.advanceFrom p before after k).phase = s.phase := by
  unfold State.advanceFrom; (try dsimp only); (repeat' split) <;> simp
@[simp] theorem State.advanceFrom_burned (p : PanelNo) (before after : Progress) (k : FrameKind) :
    (s.advanceFrom p before after k).burned = s.burned := by
  unfold State.advanceFrom; (try dsimp only); (repeat' split) <;> simp
@[simp] theorem State.advanceFrom_inForce (p : PanelNo) (before after : Progress) (k : FrameKind) :
    (s.advanceFrom p before after k).inForce = s.inForce := by
  unfold State.advanceFrom; (try dsimp only); (repeat' split) <;> simp
@[simp] theorem State.advanceFrom_catalogue (p : PanelNo) (before after : Progress) (k : FrameKind) :
    (s.advanceFrom p before after k).catalogue = s.catalogue := by
  unfold State.advanceFrom; (try dsimp only); (repeat' split) <;> simp
@[simp] theorem State.advanceFrom_plans (p : PanelNo) (before after : Progress) (k : FrameKind) :
    (s.advanceFrom p before after k).plans = s.plans := by
  unfold State.advanceFrom; (try dsimp only); (repeat' split) <;> simp
@[simp] theorem State.advanceFrom_composer (p : PanelNo) (before after : Progress) (k : FrameKind) :
    (s.advanceFrom p before after k).composer = s.composer := by
  unfold State.advanceFrom; (try dsimp only); (repeat' split) <;> simp
@[simp] theorem State.advanceFrom_freeze (p : PanelNo) (before after : Progress) (k : FrameKind) :
    (s.advanceFrom p before after k).freeze = s.freeze := by
  unfold State.advanceFrom; (try dsimp only); (repeat' split) <;> simp
@[simp] theorem State.advanceFrom_links (p : PanelNo) (before after : Progress) (k : FrameKind) :
    (s.advanceFrom p before after k).links = s.links := by
  unfold State.advanceFrom; (try dsimp only); (repeat' split) <;> simp
@[simp] theorem State.advanceFrom_photo (p : PanelNo) (before after : Progress) (k : FrameKind) :
    (s.advanceFrom p before after k).photo = s.photo := by
  unfold State.advanceFrom; (try dsimp only); (repeat' split) <;> simp
@[simp] theorem State.advanceFrom_lanes (p : PanelNo) (before after : Progress) (k : FrameKind) :
    (s.advanceFrom p before after k).lanes = s.lanes := by
  unfold State.advanceFrom; (try dsimp only); (repeat' split) <;> simp
@[simp] theorem State.advanceFrom_clock (p : PanelNo) (before after : Progress) (k : FrameKind) :
    (s.advanceFrom p before after k).clock = s.clock := by
  unfold State.advanceFrom; (try dsimp only); (repeat' split) <;> simp
@[simp] theorem State.advanceFrom_pending (p : PanelNo) (before after : Progress) (k : FrameKind) :
    (s.advanceFrom p before after k).pending = s.pending := by
  unfold State.advanceFrom; (try dsimp only); (repeat' split) <;> simp

@[simp] theorem State.clearLagging_phase (p : PanelNo) (k : FrameKind) :
    (s.clearLagging p k).phase = s.phase := by
  unfold State.clearLagging; (try dsimp only); (repeat' split) <;> simp
@[simp] theorem State.clearLagging_ports (p : PanelNo) (k : FrameKind) :
    (s.clearLagging p k).ports = s.ports := by
  unfold State.clearLagging; (try dsimp only); (repeat' split) <;> simp
@[simp] theorem State.clearLagging_burned (p : PanelNo) (k : FrameKind) :
    (s.clearLagging p k).burned = s.burned := by
  unfold State.clearLagging; (try dsimp only); (repeat' split) <;> simp
@[simp] theorem State.clearLagging_inForce (p : PanelNo) (k : FrameKind) :
    (s.clearLagging p k).inForce = s.inForce := by
  unfold State.clearLagging; (try dsimp only); (repeat' split) <;> simp
@[simp] theorem State.clearLagging_timers (p : PanelNo) (k : FrameKind) :
    (s.clearLagging p k).timers = s.timers := by
  unfold State.clearLagging; (try dsimp only); (repeat' split) <;> simp
@[simp] theorem State.clearLagging_catalogue (p : PanelNo) (k : FrameKind) :
    (s.clearLagging p k).catalogue = s.catalogue := by
  unfold State.clearLagging; (try dsimp only); (repeat' split) <;> simp
@[simp] theorem State.clearLagging_plans (p : PanelNo) (k : FrameKind) :
    (s.clearLagging p k).plans = s.plans := by
  unfold State.clearLagging; (try dsimp only); (repeat' split) <;> simp
@[simp] theorem State.clearLagging_composer (p : PanelNo) (k : FrameKind) :
    (s.clearLagging p k).composer = s.composer := by
  unfold State.clearLagging; (try dsimp only); (repeat' split) <;> simp
@[simp] theorem State.clearLagging_freeze (p : PanelNo) (k : FrameKind) :
    (s.clearLagging p k).freeze = s.freeze := by
  unfold State.clearLagging; (try dsimp only); (repeat' split) <;> simp
@[simp] theorem State.clearLagging_links (p : PanelNo) (k : FrameKind) :
    (s.clearLagging p k).links = s.links := by
  unfold State.clearLagging; (try dsimp only); (repeat' split) <;> simp
@[simp] theorem State.clearLagging_photo (p : PanelNo) (k : FrameKind) :
    (s.clearLagging p k).photo = s.photo := by
  unfold State.clearLagging; (try dsimp only); (repeat' split) <;> simp
@[simp] theorem State.clearLagging_lanes (p : PanelNo) (k : FrameKind) :
    (s.clearLagging p k).lanes = s.lanes := by
  unfold State.clearLagging; (try dsimp only); (repeat' split) <;> simp
@[simp] theorem State.clearLagging_clock (p : PanelNo) (k : FrameKind) :
    (s.clearLagging p k).clock = s.clock := by
  unfold State.clearLagging; (try dsimp only); (repeat' split) <;> simp
@[simp] theorem State.clearLagging_pending (p : PanelNo) (k : FrameKind) :
    (s.clearLagging p k).pending = s.pending := by
  unfold State.clearLagging; (try dsimp only); (repeat' split) <;> simp

@[simp] theorem State.memberLeaves_phase (p : PanelNo) :
    (s.memberLeaves p).phase = s.phase := by
  unfold State.memberLeaves; (try dsimp only); (repeat' split) <;> simp
@[simp] theorem State.memberLeaves_burned (p : PanelNo) :
    (s.memberLeaves p).burned = s.burned := by
  unfold State.memberLeaves; (try dsimp only); (repeat' split) <;> simp
@[simp] theorem State.memberLeaves_inForce (p : PanelNo) :
    (s.memberLeaves p).inForce = s.inForce := by
  unfold State.memberLeaves; (try dsimp only); (repeat' split) <;> simp
@[simp] theorem State.memberLeaves_catalogue (p : PanelNo) :
    (s.memberLeaves p).catalogue = s.catalogue := by
  unfold State.memberLeaves; (try dsimp only); (repeat' split) <;> simp
@[simp] theorem State.memberLeaves_plans (p : PanelNo) :
    (s.memberLeaves p).plans = s.plans := by
  unfold State.memberLeaves; (try dsimp only); (repeat' split) <;> simp
@[simp] theorem State.memberLeaves_composer (p : PanelNo) :
    (s.memberLeaves p).composer = s.composer := by
  unfold State.memberLeaves; (try dsimp only); (repeat' split) <;> simp
@[simp] theorem State.memberLeaves_freeze (p : PanelNo) :
    (s.memberLeaves p).freeze = s.freeze := by
  unfold State.memberLeaves; (try dsimp only); (repeat' split) <;> simp
@[simp] theorem State.memberLeaves_links (p : PanelNo) :
    (s.memberLeaves p).links = s.links := by
  unfold State.memberLeaves; (try dsimp only); (repeat' split) <;> simp
@[simp] theorem State.memberLeaves_photo (p : PanelNo) :
    (s.memberLeaves p).photo = s.photo := by
  unfold State.memberLeaves; (try dsimp only); (repeat' split) <;> simp
@[simp] theorem State.memberLeaves_lanes (p : PanelNo) :
    (s.memberLeaves p).lanes = s.lanes := by
  unfold State.memberLeaves; (try dsimp only); (repeat' split) <;> simp
@[simp] theorem State.memberLeaves_clock (p : PanelNo) :
    (s.memberLeaves p).clock = s.clock := by
  unfold State.memberLeaves; (try dsimp only); (repeat' split) <;> simp
@[simp] theorem State.memberLeaves_pending (p : PanelNo) :
    (s.memberLeaves p).pending = s.pending := by
  unfold State.memberLeaves; (try dsimp only); (repeat' split) <;> simp

@[simp] theorem State.memberJoins_phase (p : PanelNo) :
    (s.memberJoins p).phase = s.phase := by
  unfold State.memberJoins; (try dsimp only); (repeat' split) <;> simp
@[simp] theorem State.memberJoins_burned (p : PanelNo) :
    (s.memberJoins p).burned = s.burned := by
  unfold State.memberJoins; (try dsimp only); (repeat' split) <;> simp
@[simp] theorem State.memberJoins_inForce (p : PanelNo) :
    (s.memberJoins p).inForce = s.inForce := by
  unfold State.memberJoins; (try dsimp only); (repeat' split) <;> simp
@[simp] theorem State.memberJoins_catalogue (p : PanelNo) :
    (s.memberJoins p).catalogue = s.catalogue := by
  unfold State.memberJoins; (try dsimp only); (repeat' split) <;> simp
@[simp] theorem State.memberJoins_plans (p : PanelNo) :
    (s.memberJoins p).plans = s.plans := by
  unfold State.memberJoins; (try dsimp only); (repeat' split) <;> simp
@[simp] theorem State.memberJoins_freeze (p : PanelNo) :
    (s.memberJoins p).freeze = s.freeze := by
  unfold State.memberJoins; (try dsimp only); (repeat' split) <;> simp
@[simp] theorem State.memberJoins_links (p : PanelNo) :
    (s.memberJoins p).links = s.links := by
  unfold State.memberJoins; (try dsimp only); (repeat' split) <;> simp
@[simp] theorem State.memberJoins_photo (p : PanelNo) :
    (s.memberJoins p).photo = s.photo := by
  unfold State.memberJoins; (try dsimp only); (repeat' split) <;> simp
@[simp] theorem State.memberJoins_lanes (p : PanelNo) :
    (s.memberJoins p).lanes = s.lanes := by
  unfold State.memberJoins; (try dsimp only); (repeat' split) <;> simp
@[simp] theorem State.memberJoins_clock (p : PanelNo) :
    (s.memberJoins p).clock = s.clock := by
  unfold State.memberJoins; (try dsimp only); (repeat' split) <;> simp
@[simp] theorem State.memberJoins_pending (p : PanelNo) :
    (s.memberJoins p).pending = s.pending := by
  unfold State.memberJoins; (try dsimp only); (repeat' split) <;> simp

@[simp] theorem State.endFreeze_phase (c : FreezeCause) :
    (s.endFreeze c).phase = s.phase := by
  unfold State.endFreeze; (try dsimp only); (repeat' split) <;> simp
@[simp] theorem State.endFreeze_burned (c : FreezeCause) :
    (s.endFreeze c).burned = s.burned := by
  unfold State.endFreeze; (try dsimp only); (repeat' split) <;> simp
@[simp] theorem State.endFreeze_inForce (c : FreezeCause) :
    (s.endFreeze c).inForce = s.inForce := by
  unfold State.endFreeze; (try dsimp only); (repeat' split) <;> simp
@[simp] theorem State.endFreeze_catalogue (c : FreezeCause) :
    (s.endFreeze c).catalogue = s.catalogue := by
  unfold State.endFreeze; (try dsimp only); (repeat' split) <;> simp
@[simp] theorem State.endFreeze_plans (c : FreezeCause) :
    (s.endFreeze c).plans = s.plans := by
  unfold State.endFreeze; (try dsimp only); (repeat' split) <;> simp
@[simp] theorem State.endFreeze_photo (c : FreezeCause) :
    (s.endFreeze c).photo = s.photo := by
  unfold State.endFreeze; (try dsimp only); (repeat' split) <;> simp
@[simp] theorem State.endFreeze_lanes (c : FreezeCause) :
    (s.endFreeze c).lanes = s.lanes := by
  unfold State.endFreeze; (try dsimp only); (repeat' split) <;> simp
@[simp] theorem State.endFreeze_clock (c : FreezeCause) :
    (s.endFreeze c).clock = s.clock := by
  unfold State.endFreeze; (try dsimp only); (repeat' split) <;> simp
@[simp] theorem State.endFreeze_pending (c : FreezeCause) :
    (s.endFreeze c).pending = s.pending := by
  unfold State.endFreeze; (try dsimp only); (repeat' split) <;> simp

@[simp] theorem State.endFreezeInForce_phase (c : FreezeCause) :
    (s.endFreezeInForce c).phase = s.phase := by
  unfold State.endFreezeInForce; (try dsimp only); (repeat' split) <;> simp
@[simp] theorem State.endFreezeInForce_burned (c : FreezeCause) :
    (s.endFreezeInForce c).burned = s.burned := by
  unfold State.endFreezeInForce; (try dsimp only); (repeat' split) <;> simp
@[simp] theorem State.endFreezeInForce_inForce (c : FreezeCause) :
    (s.endFreezeInForce c).inForce = s.inForce := by
  unfold State.endFreezeInForce; (try dsimp only); (repeat' split) <;> simp
@[simp] theorem State.endFreezeInForce_catalogue (c : FreezeCause) :
    (s.endFreezeInForce c).catalogue = s.catalogue := by
  unfold State.endFreezeInForce; (try dsimp only); (repeat' split) <;> simp
@[simp] theorem State.endFreezeInForce_plans (c : FreezeCause) :
    (s.endFreezeInForce c).plans = s.plans := by
  unfold State.endFreezeInForce; (try dsimp only); (repeat' split) <;> simp
@[simp] theorem State.endFreezeInForce_photo (c : FreezeCause) :
    (s.endFreezeInForce c).photo = s.photo := by
  unfold State.endFreezeInForce; (try dsimp only); (repeat' split) <;> simp
@[simp] theorem State.endFreezeInForce_lanes (c : FreezeCause) :
    (s.endFreezeInForce c).lanes = s.lanes := by
  unfold State.endFreezeInForce; (try dsimp only); (repeat' split) <;> simp
@[simp] theorem State.endFreezeInForce_clock (c : FreezeCause) :
    (s.endFreezeInForce c).clock = s.clock := by
  unfold State.endFreezeInForce; (try dsimp only); (repeat' split) <;> simp
@[simp] theorem State.endFreezeInForce_pending (c : FreezeCause) :
    (s.endFreezeInForce c).pending = s.pending := by
  unfold State.endFreezeInForce; (try dsimp only); (repeat' split) <;> simp

@[simp] theorem State.stage_phase (p : PanelNo) (k : FrameKind) (pic : Picture) :
    (s.stage p k pic).phase = s.phase := by
  simp [State.stage]
@[simp] theorem State.stage_burned (p : PanelNo) (k : FrameKind) (pic : Picture) :
    (s.stage p k pic).burned = s.burned := by
  simp [State.stage]
@[simp] theorem State.stage_inForce (p : PanelNo) (k : FrameKind) (pic : Picture) :
    (s.stage p k pic).inForce = s.inForce := by
  simp [State.stage]
@[simp] theorem State.stage_catalogue (p : PanelNo) (k : FrameKind) (pic : Picture) :
    (s.stage p k pic).catalogue = s.catalogue := by
  simp [State.stage]
@[simp] theorem State.stage_plans (p : PanelNo) (k : FrameKind) (pic : Picture) :
    (s.stage p k pic).plans = s.plans := by
  simp [State.stage]
@[simp] theorem State.stage_composer (p : PanelNo) (k : FrameKind) (pic : Picture) :
    (s.stage p k pic).composer = s.composer := by
  simp [State.stage]
@[simp] theorem State.stage_freeze (p : PanelNo) (k : FrameKind) (pic : Picture) :
    (s.stage p k pic).freeze = s.freeze := by
  simp [State.stage]
@[simp] theorem State.stage_photo (p : PanelNo) (k : FrameKind) (pic : Picture) :
    (s.stage p k pic).photo = s.photo := by
  simp [State.stage]
@[simp] theorem State.stage_lanes (p : PanelNo) (k : FrameKind) (pic : Picture) :
    (s.stage p k pic).lanes = s.lanes := by
  simp [State.stage]
@[simp] theorem State.stage_clock (p : PanelNo) (k : FrameKind) (pic : Picture) :
    (s.stage p k pic).clock = s.clock := by
  simp [State.stage]
@[simp] theorem State.stage_pending (p : PanelNo) (k : FrameKind) (pic : Picture) :
    (s.stage p k pic).pending = s.pending := by
  simp [State.stage]

@[simp] theorem State.leaveLive_phase (p : PanelNo) :
    (s.leaveLive p).phase = s.phase := by
  simp [State.leaveLive]
@[simp] theorem State.leaveLive_burned (p : PanelNo) :
    (s.leaveLive p).burned = s.burned := by
  simp [State.leaveLive]
@[simp] theorem State.leaveLive_inForce (p : PanelNo) :
    (s.leaveLive p).inForce = s.inForce := by
  simp [State.leaveLive]
@[simp] theorem State.leaveLive_catalogue (p : PanelNo) :
    (s.leaveLive p).catalogue = s.catalogue := by
  simp [State.leaveLive]
@[simp] theorem State.leaveLive_plans (p : PanelNo) :
    (s.leaveLive p).plans = s.plans := by
  simp [State.leaveLive]
@[simp] theorem State.leaveLive_freeze (p : PanelNo) :
    (s.leaveLive p).freeze = s.freeze := by
  simp [State.leaveLive]
@[simp] theorem State.leaveLive_photo (p : PanelNo) :
    (s.leaveLive p).photo = s.photo := by
  simp [State.leaveLive]
@[simp] theorem State.leaveLive_lanes (p : PanelNo) :
    (s.leaveLive p).lanes = s.lanes := by
  simp [State.leaveLive]
@[simp] theorem State.leaveLive_clock (p : PanelNo) :
    (s.leaveLive p).clock = s.clock := by
  simp [State.leaveLive]
@[simp] theorem State.leaveLive_pending (p : PanelNo) :
    (s.leaveLive p).pending = s.pending := by
  simp [State.leaveLive]

@[simp] theorem State.enterTraining_phase (p : PanelNo) :
    (s.enterTraining p).phase = s.phase := by
  simp [State.enterTraining]
@[simp] theorem State.enterTraining_ports (p : PanelNo) :
    (s.enterTraining p).ports = s.ports := by
  simp [State.enterTraining]
@[simp] theorem State.enterTraining_burned (p : PanelNo) :
    (s.enterTraining p).burned = s.burned := by
  simp [State.enterTraining]
@[simp] theorem State.enterTraining_inForce (p : PanelNo) :
    (s.enterTraining p).inForce = s.inForce := by
  simp [State.enterTraining]
@[simp] theorem State.enterTraining_catalogue (p : PanelNo) :
    (s.enterTraining p).catalogue = s.catalogue := by
  simp [State.enterTraining]
@[simp] theorem State.enterTraining_plans (p : PanelNo) :
    (s.enterTraining p).plans = s.plans := by
  simp [State.enterTraining]
@[simp] theorem State.enterTraining_composer (p : PanelNo) :
    (s.enterTraining p).composer = s.composer := by
  simp [State.enterTraining]
@[simp] theorem State.enterTraining_changeover (p : PanelNo) :
    (s.enterTraining p).changeover = s.changeover := by
  simp [State.enterTraining]
@[simp] theorem State.enterTraining_freeze (p : PanelNo) :
    (s.enterTraining p).freeze = s.freeze := by
  simp [State.enterTraining]
@[simp] theorem State.enterTraining_photo (p : PanelNo) :
    (s.enterTraining p).photo = s.photo := by
  simp [State.enterTraining]
@[simp] theorem State.enterTraining_lanes (p : PanelNo) :
    (s.enterTraining p).lanes = s.lanes := by
  simp [State.enterTraining]
@[simp] theorem State.enterTraining_clock (p : PanelNo) :
    (s.enterTraining p).clock = s.clock := by
  simp [State.enterTraining]
@[simp] theorem State.enterTraining_pending (p : PanelNo) :
    (s.enterTraining p).pending = s.pending := by
  simp [State.enterTraining]

@[simp] theorem State.enterRejected_phase (p : PanelNo) :
    (s.enterRejected p).phase = s.phase := by
  simp [State.enterRejected]
@[simp] theorem State.enterRejected_burned (p : PanelNo) :
    (s.enterRejected p).burned = s.burned := by
  simp [State.enterRejected]
@[simp] theorem State.enterRejected_inForce (p : PanelNo) :
    (s.enterRejected p).inForce = s.inForce := by
  simp [State.enterRejected]
@[simp] theorem State.enterRejected_timers (p : PanelNo) :
    (s.enterRejected p).timers = s.timers := by
  simp [State.enterRejected]
@[simp] theorem State.enterRejected_catalogue (p : PanelNo) :
    (s.enterRejected p).catalogue = s.catalogue := by
  simp [State.enterRejected]
@[simp] theorem State.enterRejected_plans (p : PanelNo) :
    (s.enterRejected p).plans = s.plans := by
  simp [State.enterRejected]
@[simp] theorem State.enterRejected_composer (p : PanelNo) :
    (s.enterRejected p).composer = s.composer := by
  simp [State.enterRejected]
@[simp] theorem State.enterRejected_changeover (p : PanelNo) :
    (s.enterRejected p).changeover = s.changeover := by
  simp [State.enterRejected]
@[simp] theorem State.enterRejected_freeze (p : PanelNo) :
    (s.enterRejected p).freeze = s.freeze := by
  simp [State.enterRejected]
@[simp] theorem State.enterRejected_photo (p : PanelNo) :
    (s.enterRejected p).photo = s.photo := by
  simp [State.enterRejected]
@[simp] theorem State.enterRejected_lanes (p : PanelNo) :
    (s.enterRejected p).lanes = s.lanes := by
  simp [State.enterRejected]
@[simp] theorem State.enterRejected_clock (p : PanelNo) :
    (s.enterRejected p).clock = s.clock := by
  simp [State.enterRejected]
@[simp] theorem State.enterRejected_pending (p : PanelNo) :
    (s.enterRejected p).pending = s.pending := by
  simp [State.enterRejected]

@[simp] theorem State.trainOrReject_phase (p : PanelNo) :
    (s.trainOrReject p).phase = s.phase := by
  unfold State.trainOrReject; (try dsimp only); (repeat' split) <;> simp
@[simp] theorem State.trainOrReject_burned (p : PanelNo) :
    (s.trainOrReject p).burned = s.burned := by
  unfold State.trainOrReject; (try dsimp only); (repeat' split) <;> simp
@[simp] theorem State.trainOrReject_inForce (p : PanelNo) :
    (s.trainOrReject p).inForce = s.inForce := by
  unfold State.trainOrReject; (try dsimp only); (repeat' split) <;> simp
@[simp] theorem State.trainOrReject_catalogue (p : PanelNo) :
    (s.trainOrReject p).catalogue = s.catalogue := by
  unfold State.trainOrReject; (try dsimp only); (repeat' split) <;> simp
@[simp] theorem State.trainOrReject_plans (p : PanelNo) :
    (s.trainOrReject p).plans = s.plans := by
  unfold State.trainOrReject; (try dsimp only); (repeat' split) <;> simp
@[simp] theorem State.trainOrReject_composer (p : PanelNo) :
    (s.trainOrReject p).composer = s.composer := by
  unfold State.trainOrReject; (try dsimp only); (repeat' split) <;> simp
@[simp] theorem State.trainOrReject_changeover (p : PanelNo) :
    (s.trainOrReject p).changeover = s.changeover := by
  unfold State.trainOrReject; (try dsimp only); (repeat' split) <;> simp
@[simp] theorem State.trainOrReject_freeze (p : PanelNo) :
    (s.trainOrReject p).freeze = s.freeze := by
  unfold State.trainOrReject; (try dsimp only); (repeat' split) <;> simp
@[simp] theorem State.trainOrReject_photo (p : PanelNo) :
    (s.trainOrReject p).photo = s.photo := by
  unfold State.trainOrReject; (try dsimp only); (repeat' split) <;> simp
@[simp] theorem State.trainOrReject_lanes (p : PanelNo) :
    (s.trainOrReject p).lanes = s.lanes := by
  unfold State.trainOrReject; (try dsimp only); (repeat' split) <;> simp
@[simp] theorem State.trainOrReject_clock (p : PanelNo) :
    (s.trainOrReject p).clock = s.clock := by
  unfold State.trainOrReject; (try dsimp only); (repeat' split) <;> simp
@[simp] theorem State.trainOrReject_pending (p : PanelNo) :
    (s.trainOrReject p).pending = s.pending := by
  unfold State.trainOrReject; (try dsimp only); (repeat' split) <;> simp

@[simp] theorem State.endTest_phase (p : PanelNo) (r : TestResult) :
    (s.endTest p r).phase = s.phase := by
  simp [State.endTest]
@[simp] theorem State.endTest_burned (p : PanelNo) (r : TestResult) :
    (s.endTest p r).burned = s.burned := by
  simp [State.endTest]
@[simp] theorem State.endTest_inForce (p : PanelNo) (r : TestResult) :
    (s.endTest p r).inForce = s.inForce := by
  simp [State.endTest]
@[simp] theorem State.endTest_catalogue (p : PanelNo) (r : TestResult) :
    (s.endTest p r).catalogue = s.catalogue := by
  simp [State.endTest]
@[simp] theorem State.endTest_plans (p : PanelNo) (r : TestResult) :
    (s.endTest p r).plans = s.plans := by
  simp [State.endTest]
@[simp] theorem State.endTest_composer (p : PanelNo) (r : TestResult) :
    (s.endTest p r).composer = s.composer := by
  simp [State.endTest]
@[simp] theorem State.endTest_changeover (p : PanelNo) (r : TestResult) :
    (s.endTest p r).changeover = s.changeover := by
  simp [State.endTest]
@[simp] theorem State.endTest_freeze (p : PanelNo) (r : TestResult) :
    (s.endTest p r).freeze = s.freeze := by
  simp [State.endTest]
@[simp] theorem State.endTest_photo (p : PanelNo) (r : TestResult) :
    (s.endTest p r).photo = s.photo := by
  simp [State.endTest]
@[simp] theorem State.endTest_lanes (p : PanelNo) (r : TestResult) :
    (s.endTest p r).lanes = s.lanes := by
  simp [State.endTest]
@[simp] theorem State.endTest_clock (p : PanelNo) (r : TestResult) :
    (s.endTest p r).clock = s.clock := by
  simp [State.endTest]
@[simp] theorem State.endTest_pending (p : PanelNo) (r : TestResult) :
    (s.endTest p r).pending = s.pending := by
  simp [State.endTest]

@[simp] theorem State.enterDark_phase (p : PanelNo) :
    (s.enterDark p).phase = s.phase := by
  unfold State.enterDark; (try dsimp only); (repeat' split) <;> simp
@[simp] theorem State.enterDark_burned (p : PanelNo) :
    (s.enterDark p).burned = s.burned := by
  unfold State.enterDark; (try dsimp only); (repeat' split) <;> simp
@[simp] theorem State.enterDark_inForce (p : PanelNo) :
    (s.enterDark p).inForce = s.inForce := by
  unfold State.enterDark; (try dsimp only); (repeat' split) <;> simp
@[simp] theorem State.enterDark_catalogue (p : PanelNo) :
    (s.enterDark p).catalogue = s.catalogue := by
  unfold State.enterDark; (try dsimp only); (repeat' split) <;> simp
@[simp] theorem State.enterDark_plans (p : PanelNo) :
    (s.enterDark p).plans = s.plans := by
  unfold State.enterDark; (try dsimp only); (repeat' split) <;> simp
@[simp] theorem State.enterDark_freeze (p : PanelNo) :
    (s.enterDark p).freeze = s.freeze := by
  unfold State.enterDark; (try dsimp only); (repeat' split) <;> simp
@[simp] theorem State.enterDark_photo (p : PanelNo) :
    (s.enterDark p).photo = s.photo := by
  unfold State.enterDark; (try dsimp only); (repeat' split) <;> simp
@[simp] theorem State.enterDark_lanes (p : PanelNo) :
    (s.enterDark p).lanes = s.lanes := by
  unfold State.enterDark; (try dsimp only); (repeat' split) <;> simp
@[simp] theorem State.enterDark_clock (p : PanelNo) :
    (s.enterDark p).clock = s.clock := by
  unfold State.enterDark; (try dsimp only); (repeat' split) <;> simp
@[simp] theorem State.enterDark_pending (p : PanelNo) :
    (s.enterDark p).pending = s.pending := by
  unfold State.enterDark; (try dsimp only); (repeat' split) <;> simp

@[simp] theorem State.addCause_phase (c : DarkCause) (p : PanelNo) :
    (s.addCause c p).phase = s.phase := by
  unfold State.addCause; (try dsimp only); (repeat' split) <;> simp
@[simp] theorem State.addCause_burned (c : DarkCause) (p : PanelNo) :
    (s.addCause c p).burned = s.burned := by
  unfold State.addCause; (try dsimp only); (repeat' split) <;> simp
@[simp] theorem State.addCause_inForce (c : DarkCause) (p : PanelNo) :
    (s.addCause c p).inForce = s.inForce := by
  unfold State.addCause; (try dsimp only); (repeat' split) <;> simp
@[simp] theorem State.addCause_catalogue (c : DarkCause) (p : PanelNo) :
    (s.addCause c p).catalogue = s.catalogue := by
  unfold State.addCause; (try dsimp only); (repeat' split) <;> simp
@[simp] theorem State.addCause_plans (c : DarkCause) (p : PanelNo) :
    (s.addCause c p).plans = s.plans := by
  unfold State.addCause; (try dsimp only); (repeat' split) <;> simp
@[simp] theorem State.addCause_freeze (c : DarkCause) (p : PanelNo) :
    (s.addCause c p).freeze = s.freeze := by
  unfold State.addCause; (try dsimp only); (repeat' split) <;> simp
@[simp] theorem State.addCause_photo (c : DarkCause) (p : PanelNo) :
    (s.addCause c p).photo = s.photo := by
  unfold State.addCause; (try dsimp only); (repeat' split) <;> simp
@[simp] theorem State.addCause_lanes (c : DarkCause) (p : PanelNo) :
    (s.addCause c p).lanes = s.lanes := by
  unfold State.addCause; (try dsimp only); (repeat' split) <;> simp
@[simp] theorem State.addCause_clock (c : DarkCause) (p : PanelNo) :
    (s.addCause c p).clock = s.clock := by
  unfold State.addCause; (try dsimp only); (repeat' split) <;> simp
@[simp] theorem State.addCause_pending (c : DarkCause) (p : PanelNo) :
    (s.addCause c p).pending = s.pending := by
  unfold State.addCause; (try dsimp only); (repeat' split) <;> simp

@[simp] theorem State.removeCause_phase (c : DarkCause) (p : PanelNo) :
    (s.removeCause c p).phase = s.phase := by
  unfold State.removeCause; (try dsimp only); (repeat' split) <;> simp
@[simp] theorem State.removeCause_burned (c : DarkCause) (p : PanelNo) :
    (s.removeCause c p).burned = s.burned := by
  unfold State.removeCause; (try dsimp only); (repeat' split) <;> simp
@[simp] theorem State.removeCause_inForce (c : DarkCause) (p : PanelNo) :
    (s.removeCause c p).inForce = s.inForce := by
  unfold State.removeCause; (try dsimp only); (repeat' split) <;> simp
@[simp] theorem State.removeCause_catalogue (c : DarkCause) (p : PanelNo) :
    (s.removeCause c p).catalogue = s.catalogue := by
  unfold State.removeCause; (try dsimp only); (repeat' split) <;> simp
@[simp] theorem State.removeCause_plans (c : DarkCause) (p : PanelNo) :
    (s.removeCause c p).plans = s.plans := by
  unfold State.removeCause; (try dsimp only); (repeat' split) <;> simp
@[simp] theorem State.removeCause_composer (c : DarkCause) (p : PanelNo) :
    (s.removeCause c p).composer = s.composer := by
  unfold State.removeCause; (try dsimp only); (repeat' split) <;> simp
@[simp] theorem State.removeCause_changeover (c : DarkCause) (p : PanelNo) :
    (s.removeCause c p).changeover = s.changeover := by
  unfold State.removeCause; (try dsimp only); (repeat' split) <;> simp
@[simp] theorem State.removeCause_freeze (c : DarkCause) (p : PanelNo) :
    (s.removeCause c p).freeze = s.freeze := by
  unfold State.removeCause; (try dsimp only); (repeat' split) <;> simp
@[simp] theorem State.removeCause_photo (c : DarkCause) (p : PanelNo) :
    (s.removeCause c p).photo = s.photo := by
  unfold State.removeCause; (try dsimp only); (repeat' split) <;> simp
@[simp] theorem State.removeCause_lanes (c : DarkCause) (p : PanelNo) :
    (s.removeCause c p).lanes = s.lanes := by
  unfold State.removeCause; (try dsimp only); (repeat' split) <;> simp
@[simp] theorem State.removeCause_clock (c : DarkCause) (p : PanelNo) :
    (s.removeCause c p).clock = s.clock := by
  unfold State.removeCause; (try dsimp only); (repeat' split) <;> simp
@[simp] theorem State.removeCause_pending (c : DarkCause) (p : PanelNo) :
    (s.removeCause c p).pending = s.pending := by
  unfold State.removeCause; (try dsimp only); (repeat' split) <;> simp

@[simp] theorem State.raiseRevision_phase (l : LaneNo) :
    (s.raiseRevision l).phase = s.phase := by
  simp [State.raiseRevision]
@[simp] theorem State.raiseRevision_ports (l : LaneNo) :
    (s.raiseRevision l).ports = s.ports := by
  simp [State.raiseRevision]
@[simp] theorem State.raiseRevision_burned (l : LaneNo) :
    (s.raiseRevision l).burned = s.burned := by
  simp [State.raiseRevision]
@[simp] theorem State.raiseRevision_inForce (l : LaneNo) :
    (s.raiseRevision l).inForce = s.inForce := by
  simp [State.raiseRevision]
@[simp] theorem State.raiseRevision_timers (l : LaneNo) :
    (s.raiseRevision l).timers = s.timers := by
  simp [State.raiseRevision]
@[simp] theorem State.raiseRevision_catalogue (l : LaneNo) :
    (s.raiseRevision l).catalogue = s.catalogue := by
  simp [State.raiseRevision]
@[simp] theorem State.raiseRevision_plans (l : LaneNo) :
    (s.raiseRevision l).plans = s.plans := by
  simp [State.raiseRevision]
@[simp] theorem State.raiseRevision_changeover (l : LaneNo) :
    (s.raiseRevision l).changeover = s.changeover := by
  simp [State.raiseRevision]
@[simp] theorem State.raiseRevision_freeze (l : LaneNo) :
    (s.raiseRevision l).freeze = s.freeze := by
  simp [State.raiseRevision]
@[simp] theorem State.raiseRevision_links (l : LaneNo) :
    (s.raiseRevision l).links = s.links := by
  simp [State.raiseRevision]
@[simp] theorem State.raiseRevision_photo (l : LaneNo) :
    (s.raiseRevision l).photo = s.photo := by
  simp [State.raiseRevision]
@[simp] theorem State.raiseRevision_clock (l : LaneNo) :
    (s.raiseRevision l).clock = s.clock := by
  simp [State.raiseRevision]
@[simp] theorem State.raiseRevision_pending (l : LaneNo) :
    (s.raiseRevision l).pending = s.pending := by
  simp [State.raiseRevision]

theorem foldl_addCause_phase (c : DarkCause) (ps : List PanelNo) :
    (ps.foldl (fun s p => s.addCause c p) s).phase = s.phase := by
  induction ps generalizing s with
  | nil => rfl
  | cons p ps ih => simp only [List.foldl_cons]; rw [ih]; simp

theorem foldl_removeCause_phase (c : DarkCause) (ps : List PanelNo) :
    (ps.foldl (fun s p => s.removeCause c p) s).phase = s.phase := by
  induction ps generalizing s with
  | nil => rfl
  | cons p ps ih => simp only [List.foldl_cons]; rw [ih]; simp

theorem foldl_addCause_burned (c : DarkCause) (ps : List PanelNo) :
    (ps.foldl (fun s p => s.addCause c p) s).burned = s.burned := by
  induction ps generalizing s with
  | nil => rfl
  | cons p ps ih => simp only [List.foldl_cons]; rw [ih]; simp

theorem foldl_removeCause_burned (c : DarkCause) (ps : List PanelNo) :
    (ps.foldl (fun s p => s.removeCause c p) s).burned = s.burned := by
  induction ps generalizing s with
  | nil => rfl
  | cons p ps ih => simp only [List.foldl_cons]; rw [ih]; simp

theorem foldl_addCause_inForce (c : DarkCause) (ps : List PanelNo) :
    (ps.foldl (fun s p => s.addCause c p) s).inForce = s.inForce := by
  induction ps generalizing s with
  | nil => rfl
  | cons p ps ih => simp only [List.foldl_cons]; rw [ih]; simp

theorem foldl_removeCause_inForce (c : DarkCause) (ps : List PanelNo) :
    (ps.foldl (fun s p => s.removeCause c p) s).inForce = s.inForce := by
  induction ps generalizing s with
  | nil => rfl
  | cons p ps ih => simp only [List.foldl_cons]; rw [ih]; simp

theorem foldl_addCause_catalogue (c : DarkCause) (ps : List PanelNo) :
    (ps.foldl (fun s p => s.addCause c p) s).catalogue = s.catalogue := by
  induction ps generalizing s with
  | nil => rfl
  | cons p ps ih => simp only [List.foldl_cons]; rw [ih]; simp

theorem foldl_removeCause_catalogue (c : DarkCause) (ps : List PanelNo) :
    (ps.foldl (fun s p => s.removeCause c p) s).catalogue = s.catalogue := by
  induction ps generalizing s with
  | nil => rfl
  | cons p ps ih => simp only [List.foldl_cons]; rw [ih]; simp

theorem foldl_addCause_plans (c : DarkCause) (ps : List PanelNo) :
    (ps.foldl (fun s p => s.addCause c p) s).plans = s.plans := by
  induction ps generalizing s with
  | nil => rfl
  | cons p ps ih => simp only [List.foldl_cons]; rw [ih]; simp

theorem foldl_removeCause_plans (c : DarkCause) (ps : List PanelNo) :
    (ps.foldl (fun s p => s.removeCause c p) s).plans = s.plans := by
  induction ps generalizing s with
  | nil => rfl
  | cons p ps ih => simp only [List.foldl_cons]; rw [ih]; simp

theorem foldl_addCause_freeze (c : DarkCause) (ps : List PanelNo) :
    (ps.foldl (fun s p => s.addCause c p) s).freeze = s.freeze := by
  induction ps generalizing s with
  | nil => rfl
  | cons p ps ih => simp only [List.foldl_cons]; rw [ih]; simp

theorem foldl_removeCause_freeze (c : DarkCause) (ps : List PanelNo) :
    (ps.foldl (fun s p => s.removeCause c p) s).freeze = s.freeze := by
  induction ps generalizing s with
  | nil => rfl
  | cons p ps ih => simp only [List.foldl_cons]; rw [ih]; simp

theorem foldl_addCause_photo (c : DarkCause) (ps : List PanelNo) :
    (ps.foldl (fun s p => s.addCause c p) s).photo = s.photo := by
  induction ps generalizing s with
  | nil => rfl
  | cons p ps ih => simp only [List.foldl_cons]; rw [ih]; simp

theorem foldl_removeCause_photo (c : DarkCause) (ps : List PanelNo) :
    (ps.foldl (fun s p => s.removeCause c p) s).photo = s.photo := by
  induction ps generalizing s with
  | nil => rfl
  | cons p ps ih => simp only [List.foldl_cons]; rw [ih]; simp

theorem foldl_addCause_lanes (c : DarkCause) (ps : List PanelNo) :
    (ps.foldl (fun s p => s.addCause c p) s).lanes = s.lanes := by
  induction ps generalizing s with
  | nil => rfl
  | cons p ps ih => simp only [List.foldl_cons]; rw [ih]; simp

theorem foldl_removeCause_lanes (c : DarkCause) (ps : List PanelNo) :
    (ps.foldl (fun s p => s.removeCause c p) s).lanes = s.lanes := by
  induction ps generalizing s with
  | nil => rfl
  | cons p ps ih => simp only [List.foldl_cons]; rw [ih]; simp

theorem foldl_addCause_clock (c : DarkCause) (ps : List PanelNo) :
    (ps.foldl (fun s p => s.addCause c p) s).clock = s.clock := by
  induction ps generalizing s with
  | nil => rfl
  | cons p ps ih => simp only [List.foldl_cons]; rw [ih]; simp

theorem foldl_removeCause_clock (c : DarkCause) (ps : List PanelNo) :
    (ps.foldl (fun s p => s.removeCause c p) s).clock = s.clock := by
  induction ps generalizing s with
  | nil => rfl
  | cons p ps ih => simp only [List.foldl_cons]; rw [ih]; simp

theorem foldl_addCause_pending (c : DarkCause) (ps : List PanelNo) :
    (ps.foldl (fun s p => s.addCause c p) s).pending = s.pending := by
  induction ps generalizing s with
  | nil => rfl
  | cons p ps ih => simp only [List.foldl_cons]; rw [ih]; simp

theorem foldl_removeCause_pending (c : DarkCause) (ps : List PanelNo) :
    (ps.foldl (fun s p => s.removeCause c p) s).pending = s.pending := by
  induction ps generalizing s with
  | nil => rfl
  | cons p ps ih => simp only [List.foldl_cons]; rw [ih]; simp

@[simp] theorem State.transition_phase (b : StoreState) :
    (s.transition b).phase = s.phase := by
  unfold State.transition; dsimp only; (repeat' split) <;> simp [foldl_addCause_phase, foldl_removeCause_phase]
@[simp] theorem State.transition_burned (b : StoreState) :
    (s.transition b).burned = s.burned := by
  unfold State.transition; dsimp only; (repeat' split) <;> simp [foldl_addCause_burned, foldl_removeCause_burned]
@[simp] theorem State.transition_inForce (b : StoreState) :
    (s.transition b).inForce = s.inForce := by
  unfold State.transition; dsimp only; (repeat' split) <;> simp [foldl_addCause_inForce, foldl_removeCause_inForce]
@[simp] theorem State.transition_catalogue (b : StoreState) :
    (s.transition b).catalogue = s.catalogue := by
  unfold State.transition; dsimp only; (repeat' split) <;> simp [foldl_addCause_catalogue, foldl_removeCause_catalogue]
@[simp] theorem State.transition_plans (b : StoreState) :
    (s.transition b).plans = s.plans := by
  unfold State.transition; dsimp only; (repeat' split) <;> simp [foldl_addCause_plans, foldl_removeCause_plans]
@[simp] theorem State.transition_photo (b : StoreState) :
    (s.transition b).photo = s.photo := by
  unfold State.transition; dsimp only; (repeat' split) <;> simp [foldl_addCause_photo, foldl_removeCause_photo]
@[simp] theorem State.transition_lanes (b : StoreState) :
    (s.transition b).lanes = s.lanes := by
  unfold State.transition; dsimp only; (repeat' split) <;> simp [foldl_addCause_lanes, foldl_removeCause_lanes]
@[simp] theorem State.transition_pending (b : StoreState) :
    (s.transition b).pending = s.pending := by
  unfold State.transition; dsimp only; (repeat' split) <;> simp [foldl_addCause_pending, foldl_removeCause_pending]

@[simp] theorem State.keepBatch_phase (role : WritingRole) (es : List BatchEntry) :
    (s.keepBatch role es).phase = s.phase := by
  simp [State.keepBatch]
@[simp] theorem State.keepBatch_ports (role : WritingRole) (es : List BatchEntry) :
    (s.keepBatch role es).ports = s.ports := by
  simp [State.keepBatch]
@[simp] theorem State.keepBatch_burned (role : WritingRole) (es : List BatchEntry) :
    (s.keepBatch role es).burned = s.burned := by
  simp [State.keepBatch]
@[simp] theorem State.keepBatch_inForce (role : WritingRole) (es : List BatchEntry) :
    (s.keepBatch role es).inForce = s.inForce := by
  simp [State.keepBatch]
@[simp] theorem State.keepBatch_plans (role : WritingRole) (es : List BatchEntry) :
    (s.keepBatch role es).plans = s.plans := by
  simp [State.keepBatch]
@[simp] theorem State.keepBatch_composer (role : WritingRole) (es : List BatchEntry) :
    (s.keepBatch role es).composer = s.composer := by
  simp [State.keepBatch]
@[simp] theorem State.keepBatch_changeover (role : WritingRole) (es : List BatchEntry) :
    (s.keepBatch role es).changeover = s.changeover := by
  simp [State.keepBatch]
@[simp] theorem State.keepBatch_freeze (role : WritingRole) (es : List BatchEntry) :
    (s.keepBatch role es).freeze = s.freeze := by
  simp [State.keepBatch]
@[simp] theorem State.keepBatch_links (role : WritingRole) (es : List BatchEntry) :
    (s.keepBatch role es).links = s.links := by
  simp [State.keepBatch]
@[simp] theorem State.keepBatch_photo (role : WritingRole) (es : List BatchEntry) :
    (s.keepBatch role es).photo = s.photo := by
  simp [State.keepBatch]
@[simp] theorem State.keepBatch_lanes (role : WritingRole) (es : List BatchEntry) :
    (s.keepBatch role es).lanes = s.lanes := by
  simp [State.keepBatch]
@[simp] theorem State.keepBatch_clock (role : WritingRole) (es : List BatchEntry) :
    (s.keepBatch role es).clock = s.clock := by
  simp [State.keepBatch]
@[simp] theorem State.keepBatch_pending (role : WritingRole) (es : List BatchEntry) :
    (s.keepBatch role es).pending = s.pending := by
  simp [State.keepBatch]

@[simp] theorem State.closeBatch_phase (role : WritingRole) :
    (s.closeBatch role).phase = s.phase := by
  simp [State.closeBatch]
@[simp] theorem State.closeBatch_ports (role : WritingRole) :
    (s.closeBatch role).ports = s.ports := by
  simp [State.closeBatch]
@[simp] theorem State.closeBatch_burned (role : WritingRole) :
    (s.closeBatch role).burned = s.burned := by
  simp [State.closeBatch]
@[simp] theorem State.closeBatch_inForce (role : WritingRole) :
    (s.closeBatch role).inForce = s.inForce := by
  simp [State.closeBatch]
@[simp] theorem State.closeBatch_plans (role : WritingRole) :
    (s.closeBatch role).plans = s.plans := by
  simp [State.closeBatch]
@[simp] theorem State.closeBatch_composer (role : WritingRole) :
    (s.closeBatch role).composer = s.composer := by
  simp [State.closeBatch]
@[simp] theorem State.closeBatch_changeover (role : WritingRole) :
    (s.closeBatch role).changeover = s.changeover := by
  simp [State.closeBatch]
@[simp] theorem State.closeBatch_freeze (role : WritingRole) :
    (s.closeBatch role).freeze = s.freeze := by
  simp [State.closeBatch]
@[simp] theorem State.closeBatch_links (role : WritingRole) :
    (s.closeBatch role).links = s.links := by
  simp [State.closeBatch]
@[simp] theorem State.closeBatch_photo (role : WritingRole) :
    (s.closeBatch role).photo = s.photo := by
  simp [State.closeBatch]
@[simp] theorem State.closeBatch_lanes (role : WritingRole) :
    (s.closeBatch role).lanes = s.lanes := by
  simp [State.closeBatch]
@[simp] theorem State.closeBatch_clock (role : WritingRole) :
    (s.closeBatch role).clock = s.clock := by
  simp [State.closeBatch]
@[simp] theorem State.closeBatch_pending (role : WritingRole) :
    (s.closeBatch role).pending = s.pending := by
  simp [State.closeBatch]

@[simp] theorem State.makeLive_phase :
    (s.makeLive).phase = s.phase := by
  simp [State.makeLive]
@[simp] theorem State.makeLive_ports :
    (s.makeLive).ports = s.ports := by
  simp [State.makeLive]
@[simp] theorem State.makeLive_burned :
    (s.makeLive).burned = s.burned := by
  simp [State.makeLive]
@[simp] theorem State.makeLive_inForce :
    (s.makeLive).inForce = s.inForce := by
  simp [State.makeLive]
@[simp] theorem State.makeLive_plans :
    (s.makeLive).plans = s.plans := by
  simp [State.makeLive]
@[simp] theorem State.makeLive_composer :
    (s.makeLive).composer = s.composer := by
  simp [State.makeLive]
@[simp] theorem State.makeLive_changeover :
    (s.makeLive).changeover = s.changeover := by
  simp [State.makeLive]
@[simp] theorem State.makeLive_freeze :
    (s.makeLive).freeze = s.freeze := by
  simp [State.makeLive]
@[simp] theorem State.makeLive_links :
    (s.makeLive).links = s.links := by
  simp [State.makeLive]
@[simp] theorem State.makeLive_photo :
    (s.makeLive).photo = s.photo := by
  simp [State.makeLive]
@[simp] theorem State.makeLive_lanes :
    (s.makeLive).lanes = s.lanes := by
  simp [State.makeLive]
@[simp] theorem State.makeLive_clock :
    (s.makeLive).clock = s.clock := by
  simp [State.makeLive]
@[simp] theorem State.makeLive_pending :
    (s.makeLive).pending = s.pending := by
  simp [State.makeLive]

@[simp] theorem State.cutShort_phase :
    (s.cutShort).phase = s.phase := by
  unfold State.cutShort; (try dsimp only); (repeat' split) <;> simp
@[simp] theorem State.cutShort_ports :
    (s.cutShort).ports = s.ports := by
  unfold State.cutShort; (try dsimp only); (repeat' split) <;> simp
@[simp] theorem State.cutShort_burned :
    (s.cutShort).burned = s.burned := by
  unfold State.cutShort; (try dsimp only); (repeat' split) <;> simp
@[simp] theorem State.cutShort_inForce :
    (s.cutShort).inForce = s.inForce := by
  unfold State.cutShort; (try dsimp only); (repeat' split) <;> simp
@[simp] theorem State.cutShort_timers :
    (s.cutShort).timers = s.timers := by
  unfold State.cutShort; (try dsimp only); (repeat' split) <;> simp
@[simp] theorem State.cutShort_catalogue :
    (s.cutShort).catalogue = s.catalogue := by
  unfold State.cutShort; (try dsimp only); (repeat' split) <;> simp
@[simp] theorem State.cutShort_plans :
    (s.cutShort).plans = s.plans := by
  unfold State.cutShort; (try dsimp only); (repeat' split) <;> simp
@[simp] theorem State.cutShort_changeover :
    (s.cutShort).changeover = s.changeover := by
  unfold State.cutShort; (try dsimp only); (repeat' split) <;> simp
@[simp] theorem State.cutShort_freeze :
    (s.cutShort).freeze = s.freeze := by
  unfold State.cutShort; (try dsimp only); (repeat' split) <;> simp
@[simp] theorem State.cutShort_links :
    (s.cutShort).links = s.links := by
  unfold State.cutShort; (try dsimp only); (repeat' split) <;> simp
@[simp] theorem State.cutShort_photo :
    (s.cutShort).photo = s.photo := by
  unfold State.cutShort; (try dsimp only); (repeat' split) <;> simp
@[simp] theorem State.cutShort_lanes :
    (s.cutShort).lanes = s.lanes := by
  unfold State.cutShort; (try dsimp only); (repeat' split) <;> simp
@[simp] theorem State.cutShort_clock :
    (s.cutShort).clock = s.clock := by
  unfold State.cutShort; (try dsimp only); (repeat' split) <;> simp
@[simp] theorem State.cutShort_pending :
    (s.cutShort).pending = s.pending := by
  unfold State.cutShort; (try dsimp only); (repeat' split) <;> simp

@[simp] theorem State.expireLease_phase :
    (s.expireLease).phase = s.phase := by
  simp [State.expireLease]
@[simp] theorem State.expireLease_burned :
    (s.expireLease).burned = s.burned := by
  simp [State.expireLease]
@[simp] theorem State.expireLease_inForce :
    (s.expireLease).inForce = s.inForce := by
  simp [State.expireLease]
@[simp] theorem State.expireLease_plans :
    (s.expireLease).plans = s.plans := by
  simp [State.expireLease]
@[simp] theorem State.expireLease_photo :
    (s.expireLease).photo = s.photo := by
  simp [State.expireLease]
@[simp] theorem State.expireLease_lanes :
    (s.expireLease).lanes = s.lanes := by
  simp [State.expireLease]
@[simp] theorem State.expireLease_clock :
    (s.expireLease).clock = s.clock := by
  simp [State.expireLease]
@[simp] theorem State.expireLease_pending :
    (s.expireLease).pending = s.pending := by
  simp [State.expireLease]

@[simp] theorem State.installCommit_phase (role : WritingRole) (items : Table Item) :
    (s.installCommit role items).phase = s.phase := by
  simp [State.installCommit]
@[simp] theorem State.installCommit_ports (role : WritingRole) (items : Table Item) :
    (s.installCommit role items).ports = s.ports := by
  simp [State.installCommit]
@[simp] theorem State.installCommit_burned (role : WritingRole) (items : Table Item) :
    (s.installCommit role items).burned = s.burned := by
  simp [State.installCommit]
@[simp] theorem State.installCommit_inForce (role : WritingRole) (items : Table Item) :
    (s.installCommit role items).inForce = s.inForce := by
  simp [State.installCommit]
@[simp] theorem State.installCommit_plans (role : WritingRole) (items : Table Item) :
    (s.installCommit role items).plans = s.plans := by
  simp [State.installCommit]
@[simp] theorem State.installCommit_composer (role : WritingRole) (items : Table Item) :
    (s.installCommit role items).composer = s.composer := by
  simp [State.installCommit]
@[simp] theorem State.installCommit_changeover (role : WritingRole) (items : Table Item) :
    (s.installCommit role items).changeover = s.changeover := by
  simp [State.installCommit]
@[simp] theorem State.installCommit_freeze (role : WritingRole) (items : Table Item) :
    (s.installCommit role items).freeze = s.freeze := by
  simp [State.installCommit]
@[simp] theorem State.installCommit_links (role : WritingRole) (items : Table Item) :
    (s.installCommit role items).links = s.links := by
  simp [State.installCommit]
@[simp] theorem State.installCommit_lanes (role : WritingRole) (items : Table Item) :
    (s.installCommit role items).lanes = s.lanes := by
  simp [State.installCommit]
@[simp] theorem State.installCommit_clock (role : WritingRole) (items : Table Item) :
    (s.installCommit role items).clock = s.clock := by
  simp [State.installCommit]
@[simp] theorem State.installCommit_pending (role : WritingRole) (items : Table Item) :
    (s.installCommit role items).pending = s.pending := by
  simp [State.installCommit]

@[simp] theorem State.finishCommit_phase (role : WritingRole) (w : Bool) :
    (s.finishCommit role w).phase = s.phase := by
  unfold State.finishCommit; (try dsimp only); (repeat' split) <;> simp
@[simp] theorem State.finishCommit_burned (role : WritingRole) (w : Bool) :
    (s.finishCommit role w).burned = s.burned := by
  unfold State.finishCommit; (try dsimp only); (repeat' split) <;> simp
@[simp] theorem State.finishCommit_inForce (role : WritingRole) (w : Bool) :
    (s.finishCommit role w).inForce = s.inForce := by
  unfold State.finishCommit; (try dsimp only); (repeat' split) <;> simp
@[simp] theorem State.finishCommit_plans (role : WritingRole) (w : Bool) :
    (s.finishCommit role w).plans = s.plans := by
  unfold State.finishCommit; (try dsimp only); (repeat' split) <;> simp
@[simp] theorem State.finishCommit_photo (role : WritingRole) (w : Bool) :
    (s.finishCommit role w).photo = s.photo := by
  unfold State.finishCommit; (try dsimp only); (repeat' split) <;> simp
@[simp] theorem State.finishCommit_lanes (role : WritingRole) (w : Bool) :
    (s.finishCommit role w).lanes = s.lanes := by
  unfold State.finishCommit; (try dsimp only); (repeat' split) <;> simp
@[simp] theorem State.finishCommit_clock (role : WritingRole) (w : Bool) :
    (s.finishCommit role w).clock = s.clock := by
  unfold State.finishCommit; (try dsimp only); (repeat' split) <;> simp
@[simp] theorem State.finishCommit_pending (role : WritingRole) (w : Bool) :
    (s.finishCommit role w).pending = s.pending := by
  unfold State.finishCommit; (try dsimp only); (repeat' split) <;> simp

@[simp] theorem State.endPromotions_phase :
    (s.endPromotions).phase = s.phase := by
  unfold State.endPromotions; (try dsimp only); (repeat' split) <;> simp
@[simp] theorem State.endPromotions_burned :
    (s.endPromotions).burned = s.burned := by
  unfold State.endPromotions; (try dsimp only); (repeat' split) <;> simp
@[simp] theorem State.endPromotions_inForce :
    (s.endPromotions).inForce = s.inForce := by
  unfold State.endPromotions; (try dsimp only); (repeat' split) <;> simp
@[simp] theorem State.endPromotions_plans :
    (s.endPromotions).plans = s.plans := by
  unfold State.endPromotions; (try dsimp only); (repeat' split) <;> simp
@[simp] theorem State.endPromotions_photo :
    (s.endPromotions).photo = s.photo := by
  unfold State.endPromotions; (try dsimp only); (repeat' split) <;> simp
@[simp] theorem State.endPromotions_lanes :
    (s.endPromotions).lanes = s.lanes := by
  unfold State.endPromotions; (try dsimp only); (repeat' split) <;> simp
@[simp] theorem State.endPromotions_clock :
    (s.endPromotions).clock = s.clock := by
  unfold State.endPromotions; (try dsimp only); (repeat' split) <;> simp
@[simp] theorem State.endPromotions_pending :
    (s.endPromotions).pending = s.pending := by
  unfold State.endPromotions; (try dsimp only); (repeat' split) <;> simp

@[simp] theorem State.minutePasses_phase :
    (s.minutePasses).phase = s.phase := by
  simp [State.minutePasses]
@[simp] theorem State.minutePasses_burned :
    (s.minutePasses).burned = s.burned := by
  simp [State.minutePasses]
@[simp] theorem State.minutePasses_inForce :
    (s.minutePasses).inForce = s.inForce := by
  simp [State.minutePasses]
@[simp] theorem State.minutePasses_plans :
    (s.minutePasses).plans = s.plans := by
  simp [State.minutePasses]
@[simp] theorem State.minutePasses_photo :
    (s.minutePasses).photo = s.photo := by
  simp [State.minutePasses]
@[simp] theorem State.minutePasses_lanes :
    (s.minutePasses).lanes = s.lanes := by
  simp [State.minutePasses]
@[simp] theorem State.minutePasses_clock :
    (s.minutePasses).clock = s.clock := by
  simp [State.minutePasses]
@[simp] theorem State.minutePasses_pending :
    (s.minutePasses).pending = s.pending := by
  simp [State.minutePasses]

end Sys2Proof.Machine
end

