-- ==== Sys2Proof/Laws/CommandFrames.lean ====
section
/-! SUPPORT. The frames of the operations of each chapter, field by field (see Sys2Proof/Laws/Frames.lean). -/
namespace Sys2Proof.Machine

variable (s : State)

@[simp] theorem State.replacePlan_phase (p : PanelNo) (d : DayPart) (pls : List Placement) :
    (s.replacePlan p d pls).phase = s.phase := by
  unfold State.replacePlan; (try dsimp only); (repeat' split) <;> simp
@[simp] theorem State.replacePlan_ports (p : PanelNo) (d : DayPart) (pls : List Placement) :
    (s.replacePlan p d pls).ports = s.ports := by
  unfold State.replacePlan; (try dsimp only); (repeat' split) <;> simp
@[simp] theorem State.replacePlan_burned (p : PanelNo) (d : DayPart) (pls : List Placement) :
    (s.replacePlan p d pls).burned = s.burned := by
  unfold State.replacePlan; (try dsimp only); (repeat' split) <;> simp
@[simp] theorem State.replacePlan_inForce (p : PanelNo) (d : DayPart) (pls : List Placement) :
    (s.replacePlan p d pls).inForce = s.inForce := by
  unfold State.replacePlan; (try dsimp only); (repeat' split) <;> simp
@[simp] theorem State.replacePlan_timers (p : PanelNo) (d : DayPart) (pls : List Placement) :
    (s.replacePlan p d pls).timers = s.timers := by
  unfold State.replacePlan; (try dsimp only); (repeat' split) <;> simp
@[simp] theorem State.replacePlan_catalogue (p : PanelNo) (d : DayPart) (pls : List Placement) :
    (s.replacePlan p d pls).catalogue = s.catalogue := by
  unfold State.replacePlan; (try dsimp only); (repeat' split) <;> simp
@[simp] theorem State.replacePlan_changeover (p : PanelNo) (d : DayPart) (pls : List Placement) :
    (s.replacePlan p d pls).changeover = s.changeover := by
  unfold State.replacePlan; (try dsimp only); (repeat' split) <;> simp
@[simp] theorem State.replacePlan_freeze (p : PanelNo) (d : DayPart) (pls : List Placement) :
    (s.replacePlan p d pls).freeze = s.freeze := by
  unfold State.replacePlan; (try dsimp only); (repeat' split) <;> simp
@[simp] theorem State.replacePlan_links (p : PanelNo) (d : DayPart) (pls : List Placement) :
    (s.replacePlan p d pls).links = s.links := by
  unfold State.replacePlan; (try dsimp only); (repeat' split) <;> simp
@[simp] theorem State.replacePlan_lanes (p : PanelNo) (d : DayPart) (pls : List Placement) :
    (s.replacePlan p d pls).lanes = s.lanes := by
  unfold State.replacePlan; (try dsimp only); (repeat' split) <;> simp
@[simp] theorem State.replacePlan_clock (p : PanelNo) (d : DayPart) (pls : List Placement) :
    (s.replacePlan p d pls).clock = s.clock := by
  unfold State.replacePlan; (try dsimp only); (repeat' split) <;> simp
@[simp] theorem State.replacePlan_pending (p : PanelNo) (d : DayPart) (pls : List Placement) :
    (s.replacePlan p d pls).pending = s.pending := by
  unfold State.replacePlan; (try dsimp only); (repeat' split) <;> simp

@[simp] theorem State.startNext_phase :
    (s.startNext).phase = s.phase := by
  unfold State.startNext; (try dsimp only); (repeat' split) <;> simp
@[simp] theorem State.startNext_ports :
    (s.startNext).ports = s.ports := by
  unfold State.startNext; (try dsimp only); (repeat' split) <;> simp
@[simp] theorem State.startNext_burned :
    (s.startNext).burned = s.burned := by
  unfold State.startNext; (try dsimp only); (repeat' split) <;> simp
@[simp] theorem State.startNext_inForce :
    (s.startNext).inForce = s.inForce := by
  unfold State.startNext; (try dsimp only); (repeat' split) <;> simp
@[simp] theorem State.startNext_timers :
    (s.startNext).timers = s.timers := by
  unfold State.startNext; (try dsimp only); (repeat' split) <;> simp
@[simp] theorem State.startNext_catalogue :
    (s.startNext).catalogue = s.catalogue := by
  unfold State.startNext; (try dsimp only); (repeat' split) <;> simp
@[simp] theorem State.startNext_plans :
    (s.startNext).plans = s.plans := by
  unfold State.startNext; (try dsimp only); (repeat' split) <;> simp
@[simp] theorem State.startNext_changeover :
    (s.startNext).changeover = s.changeover := by
  unfold State.startNext; (try dsimp only); (repeat' split) <;> simp
@[simp] theorem State.startNext_freeze :
    (s.startNext).freeze = s.freeze := by
  unfold State.startNext; (try dsimp only); (repeat' split) <;> simp
@[simp] theorem State.startNext_links :
    (s.startNext).links = s.links := by
  unfold State.startNext; (try dsimp only); (repeat' split) <;> simp
@[simp] theorem State.startNext_photo :
    (s.startNext).photo = s.photo := by
  unfold State.startNext; (try dsimp only); (repeat' split) <;> simp
@[simp] theorem State.startNext_lanes :
    (s.startNext).lanes = s.lanes := by
  unfold State.startNext; (try dsimp only); (repeat' split) <;> simp
@[simp] theorem State.startNext_clock :
    (s.startNext).clock = s.clock := by
  unfold State.startNext; (try dsimp only); (repeat' split) <;> simp
@[simp] theorem State.startNext_pending :
    (s.startNext).pending = s.pending := by
  unfold State.startNext; (try dsimp only); (repeat' split) <;> simp

@[simp] theorem State.paintNext_phase :
    (s.paintNext).phase = s.phase := by
  unfold State.paintNext; (try dsimp only); (repeat' split) <;> simp
@[simp] theorem State.paintNext_ports :
    (s.paintNext).ports = s.ports := by
  unfold State.paintNext; (try dsimp only); (repeat' split) <;> simp
@[simp] theorem State.paintNext_burned :
    (s.paintNext).burned = s.burned := by
  unfold State.paintNext; (try dsimp only); (repeat' split) <;> simp
@[simp] theorem State.paintNext_inForce :
    (s.paintNext).inForce = s.inForce := by
  unfold State.paintNext; (try dsimp only); (repeat' split) <;> simp
@[simp] theorem State.paintNext_timers :
    (s.paintNext).timers = s.timers := by
  unfold State.paintNext; (try dsimp only); (repeat' split) <;> simp
@[simp] theorem State.paintNext_catalogue :
    (s.paintNext).catalogue = s.catalogue := by
  unfold State.paintNext; (try dsimp only); (repeat' split) <;> simp
@[simp] theorem State.paintNext_plans :
    (s.paintNext).plans = s.plans := by
  unfold State.paintNext; (try dsimp only); (repeat' split) <;> simp
@[simp] theorem State.paintNext_changeover :
    (s.paintNext).changeover = s.changeover := by
  unfold State.paintNext; (try dsimp only); (repeat' split) <;> simp
@[simp] theorem State.paintNext_freeze :
    (s.paintNext).freeze = s.freeze := by
  unfold State.paintNext; (try dsimp only); (repeat' split) <;> simp
@[simp] theorem State.paintNext_links :
    (s.paintNext).links = s.links := by
  unfold State.paintNext; (try dsimp only); (repeat' split) <;> simp
@[simp] theorem State.paintNext_photo :
    (s.paintNext).photo = s.photo := by
  unfold State.paintNext; (try dsimp only); (repeat' split) <;> simp
@[simp] theorem State.paintNext_lanes :
    (s.paintNext).lanes = s.lanes := by
  unfold State.paintNext; (try dsimp only); (repeat' split) <;> simp
@[simp] theorem State.paintNext_clock :
    (s.paintNext).clock = s.clock := by
  unfold State.paintNext; (try dsimp only); (repeat' split) <;> simp
@[simp] theorem State.paintNext_pending :
    (s.paintNext).pending = s.pending := by
  unfold State.paintNext; (try dsimp only); (repeat' split) <;> simp

@[simp] theorem State.closeComposition_phase (c : Composition) (o : CompositionOutcome) :
    (s.closeComposition c o).phase = s.phase := by
  simp [State.closeComposition]
@[simp] theorem State.closeComposition_ports (c : Composition) (o : CompositionOutcome) :
    (s.closeComposition c o).ports = s.ports := by
  simp [State.closeComposition]
@[simp] theorem State.closeComposition_burned (c : Composition) (o : CompositionOutcome) :
    (s.closeComposition c o).burned = s.burned := by
  simp [State.closeComposition]
@[simp] theorem State.closeComposition_inForce (c : Composition) (o : CompositionOutcome) :
    (s.closeComposition c o).inForce = s.inForce := by
  simp [State.closeComposition]
@[simp] theorem State.closeComposition_timers (c : Composition) (o : CompositionOutcome) :
    (s.closeComposition c o).timers = s.timers := by
  simp [State.closeComposition]
@[simp] theorem State.closeComposition_catalogue (c : Composition) (o : CompositionOutcome) :
    (s.closeComposition c o).catalogue = s.catalogue := by
  simp [State.closeComposition]
@[simp] theorem State.closeComposition_plans (c : Composition) (o : CompositionOutcome) :
    (s.closeComposition c o).plans = s.plans := by
  simp [State.closeComposition]
@[simp] theorem State.closeComposition_changeover (c : Composition) (o : CompositionOutcome) :
    (s.closeComposition c o).changeover = s.changeover := by
  simp [State.closeComposition]
@[simp] theorem State.closeComposition_freeze (c : Composition) (o : CompositionOutcome) :
    (s.closeComposition c o).freeze = s.freeze := by
  simp [State.closeComposition]
@[simp] theorem State.closeComposition_links (c : Composition) (o : CompositionOutcome) :
    (s.closeComposition c o).links = s.links := by
  simp [State.closeComposition]
@[simp] theorem State.closeComposition_photo (c : Composition) (o : CompositionOutcome) :
    (s.closeComposition c o).photo = s.photo := by
  simp [State.closeComposition]
@[simp] theorem State.closeComposition_lanes (c : Composition) (o : CompositionOutcome) :
    (s.closeComposition c o).lanes = s.lanes := by
  simp [State.closeComposition]
@[simp] theorem State.closeComposition_clock (c : Composition) (o : CompositionOutcome) :
    (s.closeComposition c o).clock = s.clock := by
  simp [State.closeComposition]
@[simp] theorem State.closeComposition_pending (c : Composition) (o : CompositionOutcome) :
    (s.closeComposition c o).pending = s.pending := by
  simp [State.closeComposition]

@[simp] theorem State.reportEnded_phase :
    (s.reportEnded).phase = s.phase := by
  unfold State.reportEnded; (try dsimp only); (repeat' split) <;> simp
@[simp] theorem State.reportEnded_ports :
    (s.reportEnded).ports = s.ports := by
  unfold State.reportEnded; (try dsimp only); (repeat' split) <;> simp
@[simp] theorem State.reportEnded_burned :
    (s.reportEnded).burned = s.burned := by
  unfold State.reportEnded; (try dsimp only); (repeat' split) <;> simp
@[simp] theorem State.reportEnded_inForce :
    (s.reportEnded).inForce = s.inForce := by
  unfold State.reportEnded; (try dsimp only); (repeat' split) <;> simp
@[simp] theorem State.reportEnded_timers :
    (s.reportEnded).timers = s.timers := by
  unfold State.reportEnded; (try dsimp only); (repeat' split) <;> simp
@[simp] theorem State.reportEnded_catalogue :
    (s.reportEnded).catalogue = s.catalogue := by
  unfold State.reportEnded; (try dsimp only); (repeat' split) <;> simp
@[simp] theorem State.reportEnded_plans :
    (s.reportEnded).plans = s.plans := by
  unfold State.reportEnded; (try dsimp only); (repeat' split) <;> simp
@[simp] theorem State.reportEnded_composer :
    (s.reportEnded).composer = s.composer := by
  unfold State.reportEnded; (try dsimp only); (repeat' split) <;> simp
@[simp] theorem State.reportEnded_changeover :
    (s.reportEnded).changeover = s.changeover := by
  unfold State.reportEnded; (try dsimp only); (repeat' split) <;> simp
@[simp] theorem State.reportEnded_links :
    (s.reportEnded).links = s.links := by
  unfold State.reportEnded; (try dsimp only); (repeat' split) <;> simp
@[simp] theorem State.reportEnded_photo :
    (s.reportEnded).photo = s.photo := by
  unfold State.reportEnded; (try dsimp only); (repeat' split) <;> simp
@[simp] theorem State.reportEnded_lanes :
    (s.reportEnded).lanes = s.lanes := by
  unfold State.reportEnded; (try dsimp only); (repeat' split) <;> simp
@[simp] theorem State.reportEnded_clock :
    (s.reportEnded).clock = s.clock := by
  unfold State.reportEnded; (try dsimp only); (repeat' split) <;> simp
@[simp] theorem State.reportEnded_pending :
    (s.reportEnded).pending = s.pending := by
  unfold State.reportEnded; (try dsimp only); (repeat' split) <;> simp

@[simp] theorem State.complete_phase (c : Composition) :
    (s.complete c).phase = s.phase := by
  unfold State.complete; (try dsimp only); (repeat' split) <;> simp
@[simp] theorem State.complete_burned (c : Composition) :
    (s.complete c).burned = s.burned := by
  unfold State.complete; (try dsimp only); (repeat' split) <;> simp
@[simp] theorem State.complete_inForce (c : Composition) :
    (s.complete c).inForce = s.inForce := by
  unfold State.complete; (try dsimp only); (repeat' split) <;> simp
@[simp] theorem State.complete_catalogue (c : Composition) :
    (s.complete c).catalogue = s.catalogue := by
  unfold State.complete; (try dsimp only); (repeat' split) <;> simp
@[simp] theorem State.complete_plans (c : Composition) :
    (s.complete c).plans = s.plans := by
  unfold State.complete; (try dsimp only); (repeat' split) <;> simp
@[simp] theorem State.complete_photo (c : Composition) :
    (s.complete c).photo = s.photo := by
  unfold State.complete; (try dsimp only); (repeat' split) <;> simp
@[simp] theorem State.complete_lanes (c : Composition) :
    (s.complete c).lanes = s.lanes := by
  unfold State.complete; (try dsimp only); (repeat' split) <;> simp
@[simp] theorem State.complete_clock (c : Composition) :
    (s.complete c).clock = s.clock := by
  unfold State.complete; (try dsimp only); (repeat' split) <;> simp
@[simp] theorem State.complete_pending (c : Composition) :
    (s.complete c).pending = s.pending := by
  unfold State.complete; (try dsimp only); (repeat' split) <;> simp

theorem foldl_slate_phase (ps : List PanelNo) :
    (ps.foldl (fun s p => s.stage p .slate (s.slatePicture p)) s).phase = s.phase := by
  induction ps generalizing s with
  | nil => rfl
  | cons p ps ih => simp only [List.foldl_cons]; rw [ih]; simp

theorem foldl_slate_burned (ps : List PanelNo) :
    (ps.foldl (fun s p => s.stage p .slate (s.slatePicture p)) s).burned = s.burned := by
  induction ps generalizing s with
  | nil => rfl
  | cons p ps ih => simp only [List.foldl_cons]; rw [ih]; simp

theorem foldl_slate_inForce (ps : List PanelNo) :
    (ps.foldl (fun s p => s.stage p .slate (s.slatePicture p)) s).inForce = s.inForce := by
  induction ps generalizing s with
  | nil => rfl
  | cons p ps ih => simp only [List.foldl_cons]; rw [ih]; simp

theorem foldl_slate_catalogue (ps : List PanelNo) :
    (ps.foldl (fun s p => s.stage p .slate (s.slatePicture p)) s).catalogue = s.catalogue := by
  induction ps generalizing s with
  | nil => rfl
  | cons p ps ih => simp only [List.foldl_cons]; rw [ih]; simp

theorem foldl_slate_plans (ps : List PanelNo) :
    (ps.foldl (fun s p => s.stage p .slate (s.slatePicture p)) s).plans = s.plans := by
  induction ps generalizing s with
  | nil => rfl
  | cons p ps ih => simp only [List.foldl_cons]; rw [ih]; simp

theorem foldl_slate_composer (ps : List PanelNo) :
    (ps.foldl (fun s p => s.stage p .slate (s.slatePicture p)) s).composer = s.composer := by
  induction ps generalizing s with
  | nil => rfl
  | cons p ps ih => simp only [List.foldl_cons]; rw [ih]; simp

theorem foldl_slate_freeze (ps : List PanelNo) :
    (ps.foldl (fun s p => s.stage p .slate (s.slatePicture p)) s).freeze = s.freeze := by
  induction ps generalizing s with
  | nil => rfl
  | cons p ps ih => simp only [List.foldl_cons]; rw [ih]; simp

theorem foldl_slate_photo (ps : List PanelNo) :
    (ps.foldl (fun s p => s.stage p .slate (s.slatePicture p)) s).photo = s.photo := by
  induction ps generalizing s with
  | nil => rfl
  | cons p ps ih => simp only [List.foldl_cons]; rw [ih]; simp

theorem foldl_slate_lanes (ps : List PanelNo) :
    (ps.foldl (fun s p => s.stage p .slate (s.slatePicture p)) s).lanes = s.lanes := by
  induction ps generalizing s with
  | nil => rfl
  | cons p ps ih => simp only [List.foldl_cons]; rw [ih]; simp

theorem foldl_slate_clock (ps : List PanelNo) :
    (ps.foldl (fun s p => s.stage p .slate (s.slatePicture p)) s).clock = s.clock := by
  induction ps generalizing s with
  | nil => rfl
  | cons p ps ih => simp only [List.foldl_cons]; rw [ih]; simp

theorem foldl_slate_pending (ps : List PanelNo) :
    (ps.foldl (fun s p => s.stage p .slate (s.slatePicture p)) s).pending = s.pending := by
  induction ps generalizing s with
  | nil => rfl
  | cons p ps ih => simp only [List.foldl_cons]; rw [ih]; simp

@[simp] theorem State.settlePartial_phase (t : Target) :
    (s.settlePartial t).phase = s.phase := by
  simp [State.settlePartial, foldl_slate_phase]
@[simp] theorem State.settlePartial_burned (t : Target) :
    (s.settlePartial t).burned = s.burned := by
  simp [State.settlePartial, foldl_slate_burned]
@[simp] theorem State.settlePartial_inForce (t : Target) :
    (s.settlePartial t).inForce = s.inForce := by
  simp [State.settlePartial, foldl_slate_inForce]
@[simp] theorem State.settlePartial_catalogue (t : Target) :
    (s.settlePartial t).catalogue = s.catalogue := by
  simp [State.settlePartial, foldl_slate_catalogue]
@[simp] theorem State.settlePartial_plans (t : Target) :
    (s.settlePartial t).plans = s.plans := by
  simp [State.settlePartial, foldl_slate_plans]
@[simp] theorem State.settlePartial_freeze (t : Target) :
    (s.settlePartial t).freeze = s.freeze := by
  simp [State.settlePartial, foldl_slate_freeze]
@[simp] theorem State.settlePartial_photo (t : Target) :
    (s.settlePartial t).photo = s.photo := by
  simp [State.settlePartial, foldl_slate_photo]
@[simp] theorem State.settlePartial_lanes (t : Target) :
    (s.settlePartial t).lanes = s.lanes := by
  simp [State.settlePartial, foldl_slate_lanes]
@[simp] theorem State.settlePartial_clock (t : Target) :
    (s.settlePartial t).clock = s.clock := by
  simp [State.settlePartial, foldl_slate_clock]
@[simp] theorem State.settlePartial_pending (t : Target) :
    (s.settlePartial t).pending = s.pending := by
  simp [State.settlePartial, foldl_slate_pending]

@[simp] theorem State.takeFreeze_phase (m : FreezeMode) (r : WritingRole) :
    (s.takeFreeze m r).phase = s.phase := by
  unfold State.takeFreeze; (try dsimp only); (repeat' split) <;> simp
@[simp] theorem State.takeFreeze_ports (m : FreezeMode) (r : WritingRole) :
    (s.takeFreeze m r).ports = s.ports := by
  unfold State.takeFreeze; (try dsimp only); (repeat' split) <;> simp
@[simp] theorem State.takeFreeze_burned (m : FreezeMode) (r : WritingRole) :
    (s.takeFreeze m r).burned = s.burned := by
  unfold State.takeFreeze; (try dsimp only); (repeat' split) <;> simp
@[simp] theorem State.takeFreeze_inForce (m : FreezeMode) (r : WritingRole) :
    (s.takeFreeze m r).inForce = s.inForce := by
  unfold State.takeFreeze; (try dsimp only); (repeat' split) <;> simp
@[simp] theorem State.takeFreeze_catalogue (m : FreezeMode) (r : WritingRole) :
    (s.takeFreeze m r).catalogue = s.catalogue := by
  unfold State.takeFreeze; (try dsimp only); (repeat' split) <;> simp
@[simp] theorem State.takeFreeze_plans (m : FreezeMode) (r : WritingRole) :
    (s.takeFreeze m r).plans = s.plans := by
  unfold State.takeFreeze; (try dsimp only); (repeat' split) <;> simp
@[simp] theorem State.takeFreeze_changeover (m : FreezeMode) (r : WritingRole) :
    (s.takeFreeze m r).changeover = s.changeover := by
  unfold State.takeFreeze; (try dsimp only); (repeat' split) <;> simp
@[simp] theorem State.takeFreeze_links (m : FreezeMode) (r : WritingRole) :
    (s.takeFreeze m r).links = s.links := by
  unfold State.takeFreeze; (try dsimp only); (repeat' split) <;> simp
@[simp] theorem State.takeFreeze_photo (m : FreezeMode) (r : WritingRole) :
    (s.takeFreeze m r).photo = s.photo := by
  unfold State.takeFreeze; (try dsimp only); (repeat' split) <;> simp
@[simp] theorem State.takeFreeze_lanes (m : FreezeMode) (r : WritingRole) :
    (s.takeFreeze m r).lanes = s.lanes := by
  unfold State.takeFreeze; (try dsimp only); (repeat' split) <;> simp
@[simp] theorem State.takeFreeze_clock (m : FreezeMode) (r : WritingRole) :
    (s.takeFreeze m r).clock = s.clock := by
  unfold State.takeFreeze; (try dsimp only); (repeat' split) <;> simp
@[simp] theorem State.takeFreeze_pending (m : FreezeMode) (r : WritingRole) :
    (s.takeFreeze m r).pending = s.pending := by
  unfold State.takeFreeze; (try dsimp only); (repeat' split) <;> simp

@[simp] theorem State.takePresent_phase (p : PanelNo) (d : Descriptor) :
    (s.takePresent p d).phase = s.phase := by
  unfold State.takePresent; (try dsimp only); (repeat' split) <;> simp
@[simp] theorem State.takePresent_burned (p : PanelNo) (d : Descriptor) :
    (s.takePresent p d).burned = s.burned := by
  unfold State.takePresent; (try dsimp only); (repeat' split) <;> simp
@[simp] theorem State.takePresent_inForce (p : PanelNo) (d : Descriptor) :
    (s.takePresent p d).inForce = s.inForce := by
  unfold State.takePresent; (try dsimp only); (repeat' split) <;> simp
@[simp] theorem State.takePresent_catalogue (p : PanelNo) (d : Descriptor) :
    (s.takePresent p d).catalogue = s.catalogue := by
  unfold State.takePresent; (try dsimp only); (repeat' split) <;> simp
@[simp] theorem State.takePresent_plans (p : PanelNo) (d : Descriptor) :
    (s.takePresent p d).plans = s.plans := by
  unfold State.takePresent; (try dsimp only); (repeat' split) <;> simp
@[simp] theorem State.takePresent_freeze (p : PanelNo) (d : Descriptor) :
    (s.takePresent p d).freeze = s.freeze := by
  unfold State.takePresent; (try dsimp only); (repeat' split) <;> simp
@[simp] theorem State.takePresent_photo (p : PanelNo) (d : Descriptor) :
    (s.takePresent p d).photo = s.photo := by
  unfold State.takePresent; (try dsimp only); (repeat' split) <;> simp
@[simp] theorem State.takePresent_lanes (p : PanelNo) (d : Descriptor) :
    (s.takePresent p d).lanes = s.lanes := by
  unfold State.takePresent; (try dsimp only); (repeat' split) <;> simp
@[simp] theorem State.takePresent_clock (p : PanelNo) (d : Descriptor) :
    (s.takePresent p d).clock = s.clock := by
  unfold State.takePresent; (try dsimp only); (repeat' split) <;> simp
@[simp] theorem State.takePresent_pending (p : PanelNo) (d : Descriptor) :
    (s.takePresent p d).pending = s.pending := by
  unfold State.takePresent; (try dsimp only); (repeat' split) <;> simp

@[simp] theorem State.takeLocked_phase (p : PanelNo) :
    (s.takeLocked p).phase = s.phase := by
  unfold State.takeLocked; (try dsimp only); (repeat' split) <;> simp
@[simp] theorem State.takeLocked_burned (p : PanelNo) :
    (s.takeLocked p).burned = s.burned := by
  unfold State.takeLocked; (try dsimp only); (repeat' split) <;> simp
@[simp] theorem State.takeLocked_inForce (p : PanelNo) :
    (s.takeLocked p).inForce = s.inForce := by
  unfold State.takeLocked; (try dsimp only); (repeat' split) <;> simp
@[simp] theorem State.takeLocked_catalogue (p : PanelNo) :
    (s.takeLocked p).catalogue = s.catalogue := by
  unfold State.takeLocked; (try dsimp only); (repeat' split) <;> simp
@[simp] theorem State.takeLocked_plans (p : PanelNo) :
    (s.takeLocked p).plans = s.plans := by
  unfold State.takeLocked; (try dsimp only); (repeat' split) <;> simp
@[simp] theorem State.takeLocked_freeze (p : PanelNo) :
    (s.takeLocked p).freeze = s.freeze := by
  unfold State.takeLocked; (try dsimp only); (repeat' split) <;> simp
@[simp] theorem State.takeLocked_photo (p : PanelNo) :
    (s.takeLocked p).photo = s.photo := by
  unfold State.takeLocked; (try dsimp only); (repeat' split) <;> simp
@[simp] theorem State.takeLocked_lanes (p : PanelNo) :
    (s.takeLocked p).lanes = s.lanes := by
  unfold State.takeLocked; (try dsimp only); (repeat' split) <;> simp
@[simp] theorem State.takeLocked_clock (p : PanelNo) :
    (s.takeLocked p).clock = s.clock := by
  unfold State.takeLocked; (try dsimp only); (repeat' split) <;> simp
@[simp] theorem State.takeLocked_pending (p : PanelNo) :
    (s.takeLocked p).pending = s.pending := by
  unfold State.takeLocked; (try dsimp only); (repeat' split) <;> simp

@[simp] theorem State.loseLock_phase (p : PanelNo) :
    (s.loseLock p).phase = s.phase := by
  unfold State.loseLock; (try dsimp only); (repeat' split) <;> simp
@[simp] theorem State.loseLock_burned (p : PanelNo) :
    (s.loseLock p).burned = s.burned := by
  unfold State.loseLock; (try dsimp only); (repeat' split) <;> simp
@[simp] theorem State.loseLock_inForce (p : PanelNo) :
    (s.loseLock p).inForce = s.inForce := by
  unfold State.loseLock; (try dsimp only); (repeat' split) <;> simp
@[simp] theorem State.loseLock_catalogue (p : PanelNo) :
    (s.loseLock p).catalogue = s.catalogue := by
  unfold State.loseLock; (try dsimp only); (repeat' split) <;> simp
@[simp] theorem State.loseLock_plans (p : PanelNo) :
    (s.loseLock p).plans = s.plans := by
  unfold State.loseLock; (try dsimp only); (repeat' split) <;> simp
@[simp] theorem State.loseLock_freeze (p : PanelNo) :
    (s.loseLock p).freeze = s.freeze := by
  unfold State.loseLock; (try dsimp only); (repeat' split) <;> simp
@[simp] theorem State.loseLock_photo (p : PanelNo) :
    (s.loseLock p).photo = s.photo := by
  unfold State.loseLock; (try dsimp only); (repeat' split) <;> simp
@[simp] theorem State.loseLock_lanes (p : PanelNo) :
    (s.loseLock p).lanes = s.lanes := by
  unfold State.loseLock; (try dsimp only); (repeat' split) <;> simp
@[simp] theorem State.loseLock_clock (p : PanelNo) :
    (s.loseLock p).clock = s.clock := by
  unfold State.loseLock; (try dsimp only); (repeat' split) <;> simp
@[simp] theorem State.loseLock_pending (p : PanelNo) :
    (s.loseLock p).pending = s.pending := by
  unfold State.loseLock; (try dsimp only); (repeat' split) <;> simp

@[simp] theorem State.confirm_phase (p : PanelNo) (r : FrameRecord) :
    (s.confirm p r).phase = s.phase := by
  unfold State.confirm; (try dsimp only); (repeat' split) <;> simp
@[simp] theorem State.confirm_burned (p : PanelNo) (r : FrameRecord) :
    (s.confirm p r).burned = s.burned := by
  unfold State.confirm; (try dsimp only); (repeat' split) <;> simp
@[simp] theorem State.confirm_inForce (p : PanelNo) (r : FrameRecord) :
    (s.confirm p r).inForce = s.inForce := by
  unfold State.confirm; (try dsimp only); (repeat' split) <;> simp
@[simp] theorem State.confirm_catalogue (p : PanelNo) (r : FrameRecord) :
    (s.confirm p r).catalogue = s.catalogue := by
  unfold State.confirm; (try dsimp only); (repeat' split) <;> simp
@[simp] theorem State.confirm_plans (p : PanelNo) (r : FrameRecord) :
    (s.confirm p r).plans = s.plans := by
  unfold State.confirm; (try dsimp only); (repeat' split) <;> simp
@[simp] theorem State.confirm_composer (p : PanelNo) (r : FrameRecord) :
    (s.confirm p r).composer = s.composer := by
  unfold State.confirm; (try dsimp only); (repeat' split) <;> simp
@[simp] theorem State.confirm_freeze (p : PanelNo) (r : FrameRecord) :
    (s.confirm p r).freeze = s.freeze := by
  unfold State.confirm; (try dsimp only); (repeat' split) <;> simp
@[simp] theorem State.confirm_photo (p : PanelNo) (r : FrameRecord) :
    (s.confirm p r).photo = s.photo := by
  unfold State.confirm; (try dsimp only); (repeat' split) <;> simp
@[simp] theorem State.confirm_lanes (p : PanelNo) (r : FrameRecord) :
    (s.confirm p r).lanes = s.lanes := by
  unfold State.confirm; (try dsimp only); (repeat' split) <;> simp
@[simp] theorem State.confirm_clock (p : PanelNo) (r : FrameRecord) :
    (s.confirm p r).clock = s.clock := by
  unfold State.confirm; (try dsimp only); (repeat' split) <;> simp
@[simp] theorem State.confirm_pending (p : PanelNo) (r : FrameRecord) :
    (s.confirm p r).pending = s.pending := by
  unfold State.confirm; (try dsimp only); (repeat' split) <;> simp

@[simp] theorem State.mismatch_phase (p : PanelNo) :
    (s.mismatch p).phase = s.phase := by
  unfold State.mismatch; (try dsimp only); (repeat' split) <;> simp
@[simp] theorem State.mismatch_burned (p : PanelNo) :
    (s.mismatch p).burned = s.burned := by
  unfold State.mismatch; (try dsimp only); (repeat' split) <;> simp
@[simp] theorem State.mismatch_inForce (p : PanelNo) :
    (s.mismatch p).inForce = s.inForce := by
  unfold State.mismatch; (try dsimp only); (repeat' split) <;> simp
@[simp] theorem State.mismatch_timers (p : PanelNo) :
    (s.mismatch p).timers = s.timers := by
  unfold State.mismatch; (try dsimp only); (repeat' split) <;> simp
@[simp] theorem State.mismatch_catalogue (p : PanelNo) :
    (s.mismatch p).catalogue = s.catalogue := by
  unfold State.mismatch; (try dsimp only); (repeat' split) <;> simp
@[simp] theorem State.mismatch_plans (p : PanelNo) :
    (s.mismatch p).plans = s.plans := by
  unfold State.mismatch; (try dsimp only); (repeat' split) <;> simp
@[simp] theorem State.mismatch_composer (p : PanelNo) :
    (s.mismatch p).composer = s.composer := by
  unfold State.mismatch; (try dsimp only); (repeat' split) <;> simp
@[simp] theorem State.mismatch_changeover (p : PanelNo) :
    (s.mismatch p).changeover = s.changeover := by
  unfold State.mismatch; (try dsimp only); (repeat' split) <;> simp
@[simp] theorem State.mismatch_freeze (p : PanelNo) :
    (s.mismatch p).freeze = s.freeze := by
  unfold State.mismatch; (try dsimp only); (repeat' split) <;> simp
@[simp] theorem State.mismatch_photo (p : PanelNo) :
    (s.mismatch p).photo = s.photo := by
  unfold State.mismatch; (try dsimp only); (repeat' split) <;> simp
@[simp] theorem State.mismatch_lanes (p : PanelNo) :
    (s.mismatch p).lanes = s.lanes := by
  unfold State.mismatch; (try dsimp only); (repeat' split) <;> simp
@[simp] theorem State.mismatch_clock (p : PanelNo) :
    (s.mismatch p).clock = s.clock := by
  unfold State.mismatch; (try dsimp only); (repeat' split) <;> simp
@[simp] theorem State.mismatch_pending (p : PanelNo) :
    (s.mismatch p).pending = s.pending := by
  unfold State.mismatch; (try dsimp only); (repeat' split) <;> simp

@[simp] theorem State.takeShown_phase (p : PanelNo) (q : BitVec 16) (c : BitVec 32) :
    (s.takeShown p q c).phase = s.phase := by
  unfold State.takeShown; (try dsimp only); (repeat' split) <;> simp
@[simp] theorem State.takeShown_burned (p : PanelNo) (q : BitVec 16) (c : BitVec 32) :
    (s.takeShown p q c).burned = s.burned := by
  unfold State.takeShown; (try dsimp only); (repeat' split) <;> simp
@[simp] theorem State.takeShown_inForce (p : PanelNo) (q : BitVec 16) (c : BitVec 32) :
    (s.takeShown p q c).inForce = s.inForce := by
  unfold State.takeShown; (try dsimp only); (repeat' split) <;> simp
@[simp] theorem State.takeShown_catalogue (p : PanelNo) (q : BitVec 16) (c : BitVec 32) :
    (s.takeShown p q c).catalogue = s.catalogue := by
  unfold State.takeShown; (try dsimp only); (repeat' split) <;> simp
@[simp] theorem State.takeShown_plans (p : PanelNo) (q : BitVec 16) (c : BitVec 32) :
    (s.takeShown p q c).plans = s.plans := by
  unfold State.takeShown; (try dsimp only); (repeat' split) <;> simp
@[simp] theorem State.takeShown_composer (p : PanelNo) (q : BitVec 16) (c : BitVec 32) :
    (s.takeShown p q c).composer = s.composer := by
  unfold State.takeShown; (try dsimp only); (repeat' split) <;> simp
@[simp] theorem State.takeShown_freeze (p : PanelNo) (q : BitVec 16) (c : BitVec 32) :
    (s.takeShown p q c).freeze = s.freeze := by
  unfold State.takeShown; (try dsimp only); (repeat' split) <;> simp
@[simp] theorem State.takeShown_photo (p : PanelNo) (q : BitVec 16) (c : BitVec 32) :
    (s.takeShown p q c).photo = s.photo := by
  unfold State.takeShown; (try dsimp only); (repeat' split) <;> simp
@[simp] theorem State.takeShown_lanes (p : PanelNo) (q : BitVec 16) (c : BitVec 32) :
    (s.takeShown p q c).lanes = s.lanes := by
  unfold State.takeShown; (try dsimp only); (repeat' split) <;> simp
@[simp] theorem State.takeShown_clock (p : PanelNo) (q : BitVec 16) (c : BitVec 32) :
    (s.takeShown p q c).clock = s.clock := by
  unfold State.takeShown; (try dsimp only); (repeat' split) <;> simp
@[simp] theorem State.takeShown_pending (p : PanelNo) (q : BitVec 16) (c : BitVec 32) :
    (s.takeShown p q c).pending = s.pending := by
  unfold State.takeShown; (try dsimp only); (repeat' split) <;> simp

@[simp] theorem State.takeTestReport_phase (p : PanelNo) (e : Nat) :
    (s.takeTestReport p e).phase = s.phase := by
  unfold State.takeTestReport; (try dsimp only); (repeat' split) <;> simp
@[simp] theorem State.takeTestReport_ports (p : PanelNo) (e : Nat) :
    (s.takeTestReport p e).ports = s.ports := by
  unfold State.takeTestReport; (try dsimp only); (repeat' split) <;> simp
@[simp] theorem State.takeTestReport_burned (p : PanelNo) (e : Nat) :
    (s.takeTestReport p e).burned = s.burned := by
  unfold State.takeTestReport; (try dsimp only); (repeat' split) <;> simp
@[simp] theorem State.takeTestReport_inForce (p : PanelNo) (e : Nat) :
    (s.takeTestReport p e).inForce = s.inForce := by
  unfold State.takeTestReport; (try dsimp only); (repeat' split) <;> simp
@[simp] theorem State.takeTestReport_timers (p : PanelNo) (e : Nat) :
    (s.takeTestReport p e).timers = s.timers := by
  unfold State.takeTestReport; (try dsimp only); (repeat' split) <;> simp
@[simp] theorem State.takeTestReport_catalogue (p : PanelNo) (e : Nat) :
    (s.takeTestReport p e).catalogue = s.catalogue := by
  unfold State.takeTestReport; (try dsimp only); (repeat' split) <;> simp
@[simp] theorem State.takeTestReport_plans (p : PanelNo) (e : Nat) :
    (s.takeTestReport p e).plans = s.plans := by
  unfold State.takeTestReport; (try dsimp only); (repeat' split) <;> simp
@[simp] theorem State.takeTestReport_composer (p : PanelNo) (e : Nat) :
    (s.takeTestReport p e).composer = s.composer := by
  unfold State.takeTestReport; (try dsimp only); (repeat' split) <;> simp
@[simp] theorem State.takeTestReport_changeover (p : PanelNo) (e : Nat) :
    (s.takeTestReport p e).changeover = s.changeover := by
  unfold State.takeTestReport; (try dsimp only); (repeat' split) <;> simp
@[simp] theorem State.takeTestReport_freeze (p : PanelNo) (e : Nat) :
    (s.takeTestReport p e).freeze = s.freeze := by
  unfold State.takeTestReport; (try dsimp only); (repeat' split) <;> simp
@[simp] theorem State.takeTestReport_photo (p : PanelNo) (e : Nat) :
    (s.takeTestReport p e).photo = s.photo := by
  unfold State.takeTestReport; (try dsimp only); (repeat' split) <;> simp
@[simp] theorem State.takeTestReport_lanes (p : PanelNo) (e : Nat) :
    (s.takeTestReport p e).lanes = s.lanes := by
  unfold State.takeTestReport; (try dsimp only); (repeat' split) <;> simp
@[simp] theorem State.takeTestReport_clock (p : PanelNo) (e : Nat) :
    (s.takeTestReport p e).clock = s.clock := by
  unfold State.takeTestReport; (try dsimp only); (repeat' split) <;> simp
@[simp] theorem State.takeTestReport_pending (p : PanelNo) (e : Nat) :
    (s.takeTestReport p e).pending = s.pending := by
  unfold State.takeTestReport; (try dsimp only); (repeat' split) <;> simp

@[simp] theorem State.takeFault_phase (p : PanelNo) (c : Byte) :
    (s.takeFault p c).phase = s.phase := by
  simp [State.takeFault]
@[simp] theorem State.takeFault_burned (p : PanelNo) (c : Byte) :
    (s.takeFault p c).burned = s.burned := by
  simp [State.takeFault]
@[simp] theorem State.takeFault_inForce (p : PanelNo) (c : Byte) :
    (s.takeFault p c).inForce = s.inForce := by
  simp [State.takeFault]
@[simp] theorem State.takeFault_timers (p : PanelNo) (c : Byte) :
    (s.takeFault p c).timers = s.timers := by
  simp [State.takeFault]
@[simp] theorem State.takeFault_catalogue (p : PanelNo) (c : Byte) :
    (s.takeFault p c).catalogue = s.catalogue := by
  simp [State.takeFault]
@[simp] theorem State.takeFault_plans (p : PanelNo) (c : Byte) :
    (s.takeFault p c).plans = s.plans := by
  simp [State.takeFault]
@[simp] theorem State.takeFault_composer (p : PanelNo) (c : Byte) :
    (s.takeFault p c).composer = s.composer := by
  simp [State.takeFault]
@[simp] theorem State.takeFault_changeover (p : PanelNo) (c : Byte) :
    (s.takeFault p c).changeover = s.changeover := by
  simp [State.takeFault]
@[simp] theorem State.takeFault_freeze (p : PanelNo) (c : Byte) :
    (s.takeFault p c).freeze = s.freeze := by
  simp [State.takeFault]
@[simp] theorem State.takeFault_photo (p : PanelNo) (c : Byte) :
    (s.takeFault p c).photo = s.photo := by
  simp [State.takeFault]
@[simp] theorem State.takeFault_lanes (p : PanelNo) (c : Byte) :
    (s.takeFault p c).lanes = s.lanes := by
  simp [State.takeFault]
@[simp] theorem State.takeFault_clock (p : PanelNo) (c : Byte) :
    (s.takeFault p c).clock = s.clock := by
  simp [State.takeFault]
@[simp] theorem State.takeFault_pending (p : PanelNo) (c : Byte) :
    (s.takeFault p c).pending = s.pending := by
  simp [State.takeFault]

@[simp] theorem State.takeKind_phase (p : PanelNo) (r : Report) :
    (s.takeKind p r).phase = s.phase := by
  unfold State.takeKind; (try dsimp only); (repeat' split) <;> simp
@[simp] theorem State.takeKind_burned (p : PanelNo) (r : Report) :
    (s.takeKind p r).burned = s.burned := by
  unfold State.takeKind; (try dsimp only); (repeat' split) <;> simp
@[simp] theorem State.takeKind_inForce (p : PanelNo) (r : Report) :
    (s.takeKind p r).inForce = s.inForce := by
  unfold State.takeKind; (try dsimp only); (repeat' split) <;> simp
@[simp] theorem State.takeKind_catalogue (p : PanelNo) (r : Report) :
    (s.takeKind p r).catalogue = s.catalogue := by
  unfold State.takeKind; (try dsimp only); (repeat' split) <;> simp
@[simp] theorem State.takeKind_plans (p : PanelNo) (r : Report) :
    (s.takeKind p r).plans = s.plans := by
  unfold State.takeKind; (try dsimp only); (repeat' split) <;> simp
@[simp] theorem State.takeKind_freeze (p : PanelNo) (r : Report) :
    (s.takeKind p r).freeze = s.freeze := by
  unfold State.takeKind; (try dsimp only); (repeat' split) <;> simp
@[simp] theorem State.takeKind_photo (p : PanelNo) (r : Report) :
    (s.takeKind p r).photo = s.photo := by
  unfold State.takeKind; (try dsimp only); (repeat' split) <;> simp
@[simp] theorem State.takeKind_lanes (p : PanelNo) (r : Report) :
    (s.takeKind p r).lanes = s.lanes := by
  unfold State.takeKind; (try dsimp only); (repeat' split) <;> simp
@[simp] theorem State.takeKind_clock (p : PanelNo) (r : Report) :
    (s.takeKind p r).clock = s.clock := by
  unfold State.takeKind; (try dsimp only); (repeat' split) <;> simp
@[simp] theorem State.takeKind_pending (p : PanelNo) (r : Report) :
    (s.takeKind p r).pending = s.pending := by
  unfold State.takeKind; (try dsimp only); (repeat' split) <;> simp

@[simp] theorem State.countGood_phase (p : PanelNo) :
    (s.countGood p).phase = s.phase := by
  simp [State.countGood]
@[simp] theorem State.countGood_ports (p : PanelNo) :
    (s.countGood p).ports = s.ports := by
  simp [State.countGood]
@[simp] theorem State.countGood_burned (p : PanelNo) :
    (s.countGood p).burned = s.burned := by
  simp [State.countGood]
@[simp] theorem State.countGood_inForce (p : PanelNo) :
    (s.countGood p).inForce = s.inForce := by
  simp [State.countGood]
@[simp] theorem State.countGood_catalogue (p : PanelNo) :
    (s.countGood p).catalogue = s.catalogue := by
  simp [State.countGood]
@[simp] theorem State.countGood_plans (p : PanelNo) :
    (s.countGood p).plans = s.plans := by
  simp [State.countGood]
@[simp] theorem State.countGood_composer (p : PanelNo) :
    (s.countGood p).composer = s.composer := by
  simp [State.countGood]
@[simp] theorem State.countGood_changeover (p : PanelNo) :
    (s.countGood p).changeover = s.changeover := by
  simp [State.countGood]
@[simp] theorem State.countGood_freeze (p : PanelNo) :
    (s.countGood p).freeze = s.freeze := by
  simp [State.countGood]
@[simp] theorem State.countGood_photo (p : PanelNo) :
    (s.countGood p).photo = s.photo := by
  simp [State.countGood]
@[simp] theorem State.countGood_lanes (p : PanelNo) :
    (s.countGood p).lanes = s.lanes := by
  simp [State.countGood]
@[simp] theorem State.countGood_clock (p : PanelNo) :
    (s.countGood p).clock = s.clock := by
  simp [State.countGood]
@[simp] theorem State.countGood_pending (p : PanelNo) :
    (s.countGood p).pending = s.pending := by
  simp [State.countGood]

@[simp] theorem State.takeReport_phase (p : PanelNo) (r : Report) :
    (s.takeReport p r).phase = s.phase := by
  unfold State.takeReport; (try dsimp only); (repeat' split) <;> simp
@[simp] theorem State.takeReport_burned (p : PanelNo) (r : Report) :
    (s.takeReport p r).burned = s.burned := by
  unfold State.takeReport; (try dsimp only); (repeat' split) <;> simp
@[simp] theorem State.takeReport_inForce (p : PanelNo) (r : Report) :
    (s.takeReport p r).inForce = s.inForce := by
  unfold State.takeReport; (try dsimp only); (repeat' split) <;> simp
@[simp] theorem State.takeReport_catalogue (p : PanelNo) (r : Report) :
    (s.takeReport p r).catalogue = s.catalogue := by
  unfold State.takeReport; (try dsimp only); (repeat' split) <;> simp
@[simp] theorem State.takeReport_plans (p : PanelNo) (r : Report) :
    (s.takeReport p r).plans = s.plans := by
  unfold State.takeReport; (try dsimp only); (repeat' split) <;> simp
@[simp] theorem State.takeReport_freeze (p : PanelNo) (r : Report) :
    (s.takeReport p r).freeze = s.freeze := by
  unfold State.takeReport; (try dsimp only); (repeat' split) <;> simp
@[simp] theorem State.takeReport_photo (p : PanelNo) (r : Report) :
    (s.takeReport p r).photo = s.photo := by
  unfold State.takeReport; (try dsimp only); (repeat' split) <;> simp
@[simp] theorem State.takeReport_lanes (p : PanelNo) (r : Report) :
    (s.takeReport p r).lanes = s.lanes := by
  unfold State.takeReport; (try dsimp only); (repeat' split) <;> simp
@[simp] theorem State.takeReport_clock (p : PanelNo) (r : Report) :
    (s.takeReport p r).clock = s.clock := by
  unfold State.takeReport; (try dsimp only); (repeat' split) <;> simp
@[simp] theorem State.takeReport_pending (p : PanelNo) (r : Report) :
    (s.takeReport p r).pending = s.pending := by
  unfold State.takeReport; (try dsimp only); (repeat' split) <;> simp

@[simp] theorem State.takeBad_phase (p : PanelNo) :
    (s.takeBad p).phase = s.phase := by
  unfold State.takeBad; (try dsimp only); (repeat' split) <;> simp
@[simp] theorem State.takeBad_ports (p : PanelNo) :
    (s.takeBad p).ports = s.ports := by
  unfold State.takeBad; (try dsimp only); (repeat' split) <;> simp
@[simp] theorem State.takeBad_burned (p : PanelNo) :
    (s.takeBad p).burned = s.burned := by
  unfold State.takeBad; (try dsimp only); (repeat' split) <;> simp
@[simp] theorem State.takeBad_inForce (p : PanelNo) :
    (s.takeBad p).inForce = s.inForce := by
  unfold State.takeBad; (try dsimp only); (repeat' split) <;> simp
@[simp] theorem State.takeBad_timers (p : PanelNo) :
    (s.takeBad p).timers = s.timers := by
  unfold State.takeBad; (try dsimp only); (repeat' split) <;> simp
@[simp] theorem State.takeBad_catalogue (p : PanelNo) :
    (s.takeBad p).catalogue = s.catalogue := by
  unfold State.takeBad; (try dsimp only); (repeat' split) <;> simp
@[simp] theorem State.takeBad_plans (p : PanelNo) :
    (s.takeBad p).plans = s.plans := by
  unfold State.takeBad; (try dsimp only); (repeat' split) <;> simp
@[simp] theorem State.takeBad_composer (p : PanelNo) :
    (s.takeBad p).composer = s.composer := by
  unfold State.takeBad; (try dsimp only); (repeat' split) <;> simp
@[simp] theorem State.takeBad_changeover (p : PanelNo) :
    (s.takeBad p).changeover = s.changeover := by
  unfold State.takeBad; (try dsimp only); (repeat' split) <;> simp
@[simp] theorem State.takeBad_freeze (p : PanelNo) :
    (s.takeBad p).freeze = s.freeze := by
  unfold State.takeBad; (try dsimp only); (repeat' split) <;> simp
@[simp] theorem State.takeBad_photo (p : PanelNo) :
    (s.takeBad p).photo = s.photo := by
  unfold State.takeBad; (try dsimp only); (repeat' split) <;> simp
@[simp] theorem State.takeBad_lanes (p : PanelNo) :
    (s.takeBad p).lanes = s.lanes := by
  unfold State.takeBad; (try dsimp only); (repeat' split) <;> simp
@[simp] theorem State.takeBad_clock (p : PanelNo) :
    (s.takeBad p).clock = s.clock := by
  unfold State.takeBad; (try dsimp only); (repeat' split) <;> simp
@[simp] theorem State.takeBad_pending (p : PanelNo) :
    (s.takeBad p).pending = s.pending := by
  unfold State.takeBad; (try dsimp only); (repeat' split) <;> simp

@[simp] theorem State.detach_phase (p : PanelNo) :
    (s.detach p).phase = s.phase := by
  unfold State.detach; (try dsimp only); (repeat' split) <;> simp
@[simp] theorem State.detach_burned (p : PanelNo) :
    (s.detach p).burned = s.burned := by
  unfold State.detach; (try dsimp only); (repeat' split) <;> simp
@[simp] theorem State.detach_inForce (p : PanelNo) :
    (s.detach p).inForce = s.inForce := by
  unfold State.detach; (try dsimp only); (repeat' split) <;> simp
@[simp] theorem State.detach_catalogue (p : PanelNo) :
    (s.detach p).catalogue = s.catalogue := by
  unfold State.detach; (try dsimp only); (repeat' split) <;> simp
@[simp] theorem State.detach_plans (p : PanelNo) :
    (s.detach p).plans = s.plans := by
  unfold State.detach; (try dsimp only); (repeat' split) <;> simp
@[simp] theorem State.detach_freeze (p : PanelNo) :
    (s.detach p).freeze = s.freeze := by
  unfold State.detach; (try dsimp only); (repeat' split) <;> simp
@[simp] theorem State.detach_photo (p : PanelNo) :
    (s.detach p).photo = s.photo := by
  unfold State.detach; (try dsimp only); (repeat' split) <;> simp
@[simp] theorem State.detach_lanes (p : PanelNo) :
    (s.detach p).lanes = s.lanes := by
  unfold State.detach; (try dsimp only); (repeat' split) <;> simp
@[simp] theorem State.detach_clock (p : PanelNo) :
    (s.detach p).clock = s.clock := by
  unfold State.detach; (try dsimp only); (repeat' split) <;> simp
@[simp] theorem State.detach_pending (p : PanelNo) :
    (s.detach p).pending = s.pending := by
  unfold State.detach; (try dsimp only); (repeat' split) <;> simp

@[simp] theorem State.restartTraining_phase (p : PanelNo) :
    (s.restartTraining p).phase = s.phase := by
  unfold State.restartTraining; (try dsimp only); (repeat' split) <;> simp
@[simp] theorem State.restartTraining_ports (p : PanelNo) :
    (s.restartTraining p).ports = s.ports := by
  unfold State.restartTraining; (try dsimp only); (repeat' split) <;> simp
@[simp] theorem State.restartTraining_burned (p : PanelNo) :
    (s.restartTraining p).burned = s.burned := by
  unfold State.restartTraining; (try dsimp only); (repeat' split) <;> simp
@[simp] theorem State.restartTraining_inForce (p : PanelNo) :
    (s.restartTraining p).inForce = s.inForce := by
  unfold State.restartTraining; (try dsimp only); (repeat' split) <;> simp
@[simp] theorem State.restartTraining_catalogue (p : PanelNo) :
    (s.restartTraining p).catalogue = s.catalogue := by
  unfold State.restartTraining; (try dsimp only); (repeat' split) <;> simp
@[simp] theorem State.restartTraining_plans (p : PanelNo) :
    (s.restartTraining p).plans = s.plans := by
  unfold State.restartTraining; (try dsimp only); (repeat' split) <;> simp
@[simp] theorem State.restartTraining_composer (p : PanelNo) :
    (s.restartTraining p).composer = s.composer := by
  unfold State.restartTraining; (try dsimp only); (repeat' split) <;> simp
@[simp] theorem State.restartTraining_changeover (p : PanelNo) :
    (s.restartTraining p).changeover = s.changeover := by
  unfold State.restartTraining; (try dsimp only); (repeat' split) <;> simp
@[simp] theorem State.restartTraining_freeze (p : PanelNo) :
    (s.restartTraining p).freeze = s.freeze := by
  unfold State.restartTraining; (try dsimp only); (repeat' split) <;> simp
@[simp] theorem State.restartTraining_photo (p : PanelNo) :
    (s.restartTraining p).photo = s.photo := by
  unfold State.restartTraining; (try dsimp only); (repeat' split) <;> simp
@[simp] theorem State.restartTraining_lanes (p : PanelNo) :
    (s.restartTraining p).lanes = s.lanes := by
  unfold State.restartTraining; (try dsimp only); (repeat' split) <;> simp
@[simp] theorem State.restartTraining_clock (p : PanelNo) :
    (s.restartTraining p).clock = s.clock := by
  unfold State.restartTraining; (try dsimp only); (repeat' split) <;> simp
@[simp] theorem State.restartTraining_pending (p : PanelNo) :
    (s.restartTraining p).pending = s.pending := by
  unfold State.restartTraining; (try dsimp only); (repeat' split) <;> simp

@[simp] theorem State.flip_phase (p : PanelNo) :
    (s.flip p).phase = s.phase := by
  unfold State.flip; (try dsimp only); (repeat' split) <;> simp
@[simp] theorem State.flip_burned (p : PanelNo) :
    (s.flip p).burned = s.burned := by
  unfold State.flip; (try dsimp only); (repeat' split) <;> simp
@[simp] theorem State.flip_inForce (p : PanelNo) :
    (s.flip p).inForce = s.inForce := by
  unfold State.flip; (try dsimp only); (repeat' split) <;> simp
@[simp] theorem State.flip_catalogue (p : PanelNo) :
    (s.flip p).catalogue = s.catalogue := by
  unfold State.flip; (try dsimp only); (repeat' split) <;> simp
@[simp] theorem State.flip_plans (p : PanelNo) :
    (s.flip p).plans = s.plans := by
  unfold State.flip; (try dsimp only); (repeat' split) <;> simp
@[simp] theorem State.flip_composer (p : PanelNo) :
    (s.flip p).composer = s.composer := by
  unfold State.flip; (try dsimp only); (repeat' split) <;> simp
@[simp] theorem State.flip_freeze (p : PanelNo) :
    (s.flip p).freeze = s.freeze := by
  unfold State.flip; (try dsimp only); (repeat' split) <;> simp
@[simp] theorem State.flip_photo (p : PanelNo) :
    (s.flip p).photo = s.photo := by
  unfold State.flip; (try dsimp only); (repeat' split) <;> simp
@[simp] theorem State.flip_lanes (p : PanelNo) :
    (s.flip p).lanes = s.lanes := by
  unfold State.flip; (try dsimp only); (repeat' split) <;> simp
@[simp] theorem State.flip_clock (p : PanelNo) :
    (s.flip p).clock = s.clock := by
  unfold State.flip; (try dsimp only); (repeat' split) <;> simp
@[simp] theorem State.flip_pending (p : PanelNo) :
    (s.flip p).pending = s.pending := by
  unfold State.flip; (try dsimp only); (repeat' split) <;> simp

@[simp] theorem State.transmit_phase (p : PanelNo) :
    (s.transmit p).phase = s.phase := by
  simp [State.transmit]
@[simp] theorem State.transmit_ports (p : PanelNo) :
    (s.transmit p).ports = s.ports := by
  simp [State.transmit]
@[simp] theorem State.transmit_burned (p : PanelNo) :
    (s.transmit p).burned = s.burned := by
  simp [State.transmit]
@[simp] theorem State.transmit_inForce (p : PanelNo) :
    (s.transmit p).inForce = s.inForce := by
  simp [State.transmit]
@[simp] theorem State.transmit_timers (p : PanelNo) :
    (s.transmit p).timers = s.timers := by
  simp [State.transmit]
@[simp] theorem State.transmit_catalogue (p : PanelNo) :
    (s.transmit p).catalogue = s.catalogue := by
  simp [State.transmit]
@[simp] theorem State.transmit_plans (p : PanelNo) :
    (s.transmit p).plans = s.plans := by
  simp [State.transmit]
@[simp] theorem State.transmit_composer (p : PanelNo) :
    (s.transmit p).composer = s.composer := by
  simp [State.transmit]
@[simp] theorem State.transmit_changeover (p : PanelNo) :
    (s.transmit p).changeover = s.changeover := by
  simp [State.transmit]
@[simp] theorem State.transmit_freeze (p : PanelNo) :
    (s.transmit p).freeze = s.freeze := by
  simp [State.transmit]
@[simp] theorem State.transmit_photo (p : PanelNo) :
    (s.transmit p).photo = s.photo := by
  simp [State.transmit]
@[simp] theorem State.transmit_lanes (p : PanelNo) :
    (s.transmit p).lanes = s.lanes := by
  simp [State.transmit]
@[simp] theorem State.transmit_clock (p : PanelNo) :
    (s.transmit p).clock = s.clock := by
  simp [State.transmit]
@[simp] theorem State.transmit_pending (p : PanelNo) :
    (s.transmit p).pending = s.pending := by
  simp [State.transmit]

@[simp] theorem State.boundary_phase (p : PanelNo) :
    (s.boundary p).phase = s.phase := by
  unfold State.boundary; (try dsimp only); (repeat' split) <;> simp
@[simp] theorem State.boundary_burned (p : PanelNo) :
    (s.boundary p).burned = s.burned := by
  unfold State.boundary; (try dsimp only); (repeat' split) <;> simp
@[simp] theorem State.boundary_inForce (p : PanelNo) :
    (s.boundary p).inForce = s.inForce := by
  unfold State.boundary; (try dsimp only); (repeat' split) <;> simp
@[simp] theorem State.boundary_catalogue (p : PanelNo) :
    (s.boundary p).catalogue = s.catalogue := by
  unfold State.boundary; (try dsimp only); (repeat' split) <;> simp
@[simp] theorem State.boundary_plans (p : PanelNo) :
    (s.boundary p).plans = s.plans := by
  unfold State.boundary; (try dsimp only); (repeat' split) <;> simp
@[simp] theorem State.boundary_composer (p : PanelNo) :
    (s.boundary p).composer = s.composer := by
  unfold State.boundary; (try dsimp only); (repeat' split) <;> simp
@[simp] theorem State.boundary_freeze (p : PanelNo) :
    (s.boundary p).freeze = s.freeze := by
  unfold State.boundary; (try dsimp only); (repeat' split) <;> simp
@[simp] theorem State.boundary_photo (p : PanelNo) :
    (s.boundary p).photo = s.photo := by
  unfold State.boundary; (try dsimp only); (repeat' split) <;> simp
@[simp] theorem State.boundary_lanes (p : PanelNo) :
    (s.boundary p).lanes = s.lanes := by
  unfold State.boundary; (try dsimp only); (repeat' split) <;> simp
@[simp] theorem State.boundary_clock (p : PanelNo) :
    (s.boundary p).clock = s.clock := by
  unfold State.boundary; (try dsimp only); (repeat' split) <;> simp
@[simp] theorem State.boundary_pending (p : PanelNo) :
    (s.boundary p).pending = s.pending := by
  unfold State.boundary; (try dsimp only); (repeat' split) <;> simp

@[simp] theorem State.startTest_phase (p : PanelNo) (m : TestMode) (d : Nat) :
    (s.startTest p m d).phase = s.phase := by
  simp [State.startTest]
@[simp] theorem State.startTest_burned (p : PanelNo) (m : TestMode) (d : Nat) :
    (s.startTest p m d).burned = s.burned := by
  simp [State.startTest]
@[simp] theorem State.startTest_inForce (p : PanelNo) (m : TestMode) (d : Nat) :
    (s.startTest p m d).inForce = s.inForce := by
  simp [State.startTest]
@[simp] theorem State.startTest_catalogue (p : PanelNo) (m : TestMode) (d : Nat) :
    (s.startTest p m d).catalogue = s.catalogue := by
  simp [State.startTest]
@[simp] theorem State.startTest_plans (p : PanelNo) (m : TestMode) (d : Nat) :
    (s.startTest p m d).plans = s.plans := by
  simp [State.startTest]
@[simp] theorem State.startTest_freeze (p : PanelNo) (m : TestMode) (d : Nat) :
    (s.startTest p m d).freeze = s.freeze := by
  simp [State.startTest]
@[simp] theorem State.startTest_photo (p : PanelNo) (m : TestMode) (d : Nat) :
    (s.startTest p m d).photo = s.photo := by
  simp [State.startTest]
@[simp] theorem State.startTest_lanes (p : PanelNo) (m : TestMode) (d : Nat) :
    (s.startTest p m d).lanes = s.lanes := by
  simp [State.startTest]
@[simp] theorem State.startTest_clock (p : PanelNo) (m : TestMode) (d : Nat) :
    (s.startTest p m d).clock = s.clock := by
  simp [State.startTest]
@[simp] theorem State.startTest_pending (p : PanelNo) (m : TestMode) (d : Nat) :
    (s.startTest p m d).pending = s.pending := by
  simp [State.startTest]

@[simp] theorem State.leaveTest_phase (p : PanelNo) (r : TestResult) :
    (s.leaveTest p r).phase = s.phase := by
  simp [State.leaveTest]
@[simp] theorem State.leaveTest_burned (p : PanelNo) (r : TestResult) :
    (s.leaveTest p r).burned = s.burned := by
  simp [State.leaveTest]
@[simp] theorem State.leaveTest_inForce (p : PanelNo) (r : TestResult) :
    (s.leaveTest p r).inForce = s.inForce := by
  simp [State.leaveTest]
@[simp] theorem State.leaveTest_catalogue (p : PanelNo) (r : TestResult) :
    (s.leaveTest p r).catalogue = s.catalogue := by
  simp [State.leaveTest]
@[simp] theorem State.leaveTest_plans (p : PanelNo) (r : TestResult) :
    (s.leaveTest p r).plans = s.plans := by
  simp [State.leaveTest]
@[simp] theorem State.leaveTest_composer (p : PanelNo) (r : TestResult) :
    (s.leaveTest p r).composer = s.composer := by
  simp [State.leaveTest]
@[simp] theorem State.leaveTest_changeover (p : PanelNo) (r : TestResult) :
    (s.leaveTest p r).changeover = s.changeover := by
  simp [State.leaveTest]
@[simp] theorem State.leaveTest_freeze (p : PanelNo) (r : TestResult) :
    (s.leaveTest p r).freeze = s.freeze := by
  simp [State.leaveTest]
@[simp] theorem State.leaveTest_photo (p : PanelNo) (r : TestResult) :
    (s.leaveTest p r).photo = s.photo := by
  simp [State.leaveTest]
@[simp] theorem State.leaveTest_lanes (p : PanelNo) (r : TestResult) :
    (s.leaveTest p r).lanes = s.lanes := by
  simp [State.leaveTest]
@[simp] theorem State.leaveTest_clock (p : PanelNo) (r : TestResult) :
    (s.leaveTest p r).clock = s.clock := by
  simp [State.leaveTest]
@[simp] theorem State.leaveTest_pending (p : PanelNo) (r : TestResult) :
    (s.leaveTest p r).pending = s.pending := by
  simp [State.leaveTest]

@[simp] theorem State.setSecondsRun_phase (p : PanelNo) (n : Nat) :
    (s.setSecondsRun p n).phase = s.phase := by
  simp [State.setSecondsRun]
@[simp] theorem State.setSecondsRun_ports (p : PanelNo) (n : Nat) :
    (s.setSecondsRun p n).ports = s.ports := by
  simp [State.setSecondsRun]
@[simp] theorem State.setSecondsRun_burned (p : PanelNo) (n : Nat) :
    (s.setSecondsRun p n).burned = s.burned := by
  simp [State.setSecondsRun]
@[simp] theorem State.setSecondsRun_inForce (p : PanelNo) (n : Nat) :
    (s.setSecondsRun p n).inForce = s.inForce := by
  simp [State.setSecondsRun]
@[simp] theorem State.setSecondsRun_timers (p : PanelNo) (n : Nat) :
    (s.setSecondsRun p n).timers = s.timers := by
  simp [State.setSecondsRun]
@[simp] theorem State.setSecondsRun_catalogue (p : PanelNo) (n : Nat) :
    (s.setSecondsRun p n).catalogue = s.catalogue := by
  simp [State.setSecondsRun]
@[simp] theorem State.setSecondsRun_plans (p : PanelNo) (n : Nat) :
    (s.setSecondsRun p n).plans = s.plans := by
  simp [State.setSecondsRun]
@[simp] theorem State.setSecondsRun_composer (p : PanelNo) (n : Nat) :
    (s.setSecondsRun p n).composer = s.composer := by
  simp [State.setSecondsRun]
@[simp] theorem State.setSecondsRun_changeover (p : PanelNo) (n : Nat) :
    (s.setSecondsRun p n).changeover = s.changeover := by
  simp [State.setSecondsRun]
@[simp] theorem State.setSecondsRun_freeze (p : PanelNo) (n : Nat) :
    (s.setSecondsRun p n).freeze = s.freeze := by
  simp [State.setSecondsRun]
@[simp] theorem State.setSecondsRun_photo (p : PanelNo) (n : Nat) :
    (s.setSecondsRun p n).photo = s.photo := by
  simp [State.setSecondsRun]
@[simp] theorem State.setSecondsRun_lanes (p : PanelNo) (n : Nat) :
    (s.setSecondsRun p n).lanes = s.lanes := by
  simp [State.setSecondsRun]
@[simp] theorem State.setSecondsRun_clock (p : PanelNo) (n : Nat) :
    (s.setSecondsRun p n).clock = s.clock := by
  simp [State.setSecondsRun]
@[simp] theorem State.setSecondsRun_pending (p : PanelNo) (n : Nat) :
    (s.setSecondsRun p n).pending = s.pending := by
  simp [State.setSecondsRun]

@[simp] theorem State.testSecond_phase (p : PanelNo) (t : TestRecord) :
    (s.testSecond p t).phase = s.phase := by
  unfold State.testSecond; (try dsimp only); (repeat' split) <;> simp
@[simp] theorem State.testSecond_burned (p : PanelNo) (t : TestRecord) :
    (s.testSecond p t).burned = s.burned := by
  unfold State.testSecond; (try dsimp only); (repeat' split) <;> simp
@[simp] theorem State.testSecond_inForce (p : PanelNo) (t : TestRecord) :
    (s.testSecond p t).inForce = s.inForce := by
  unfold State.testSecond; (try dsimp only); (repeat' split) <;> simp
@[simp] theorem State.testSecond_catalogue (p : PanelNo) (t : TestRecord) :
    (s.testSecond p t).catalogue = s.catalogue := by
  unfold State.testSecond; (try dsimp only); (repeat' split) <;> simp
@[simp] theorem State.testSecond_plans (p : PanelNo) (t : TestRecord) :
    (s.testSecond p t).plans = s.plans := by
  unfold State.testSecond; (try dsimp only); (repeat' split) <;> simp
@[simp] theorem State.testSecond_composer (p : PanelNo) (t : TestRecord) :
    (s.testSecond p t).composer = s.composer := by
  unfold State.testSecond; (try dsimp only); (repeat' split) <;> simp
@[simp] theorem State.testSecond_changeover (p : PanelNo) (t : TestRecord) :
    (s.testSecond p t).changeover = s.changeover := by
  unfold State.testSecond; (try dsimp only); (repeat' split) <;> simp
@[simp] theorem State.testSecond_freeze (p : PanelNo) (t : TestRecord) :
    (s.testSecond p t).freeze = s.freeze := by
  unfold State.testSecond; (try dsimp only); (repeat' split) <;> simp
@[simp] theorem State.testSecond_photo (p : PanelNo) (t : TestRecord) :
    (s.testSecond p t).photo = s.photo := by
  unfold State.testSecond; (try dsimp only); (repeat' split) <;> simp
@[simp] theorem State.testSecond_lanes (p : PanelNo) (t : TestRecord) :
    (s.testSecond p t).lanes = s.lanes := by
  unfold State.testSecond; (try dsimp only); (repeat' split) <;> simp
@[simp] theorem State.testSecond_clock (p : PanelNo) (t : TestRecord) :
    (s.testSecond p t).clock = s.clock := by
  unfold State.testSecond; (try dsimp only); (repeat' split) <;> simp
@[simp] theorem State.testSecond_pending (p : PanelNo) (t : TestRecord) :
    (s.testSecond p t).pending = s.pending := by
  unfold State.testSecond; (try dsimp only); (repeat' split) <;> simp

@[simp] theorem State.changeClock_phase (f : StoreClock → StoreClock) :
    (s.changeClock f).phase = s.phase := by
  simp [State.changeClock]
@[simp] theorem State.changeClock_burned (f : StoreClock → StoreClock) :
    (s.changeClock f).burned = s.burned := by
  simp [State.changeClock]
@[simp] theorem State.changeClock_inForce (f : StoreClock → StoreClock) :
    (s.changeClock f).inForce = s.inForce := by
  simp [State.changeClock]
@[simp] theorem State.changeClock_catalogue (f : StoreClock → StoreClock) :
    (s.changeClock f).catalogue = s.catalogue := by
  simp [State.changeClock]
@[simp] theorem State.changeClock_plans (f : StoreClock → StoreClock) :
    (s.changeClock f).plans = s.plans := by
  simp [State.changeClock]
@[simp] theorem State.changeClock_photo (f : StoreClock → StoreClock) :
    (s.changeClock f).photo = s.photo := by
  simp [State.changeClock]
@[simp] theorem State.changeClock_lanes (f : StoreClock → StoreClock) :
    (s.changeClock f).lanes = s.lanes := by
  simp [State.changeClock]
@[simp] theorem State.changeClock_pending (f : StoreClock → StoreClock) :
    (s.changeClock f).pending = s.pending := by
  simp [State.changeClock]

@[simp] theorem State.fire_phase :
    (s.fire).phase = s.phase := by
  unfold State.fire; (try dsimp only); (repeat' split) <;> simp
@[simp] theorem State.fire_burned :
    (s.fire).burned = s.burned := by
  unfold State.fire; (try dsimp only); (repeat' split) <;> simp
@[simp] theorem State.fire_inForce :
    (s.fire).inForce = s.inForce := by
  unfold State.fire; (try dsimp only); (repeat' split) <;> simp
@[simp] theorem State.fire_catalogue :
    (s.fire).catalogue = s.catalogue := by
  unfold State.fire; (try dsimp only); (repeat' split) <;> simp
@[simp] theorem State.fire_plans :
    (s.fire).plans = s.plans := by
  unfold State.fire; (try dsimp only); (repeat' split) <;> simp
@[simp] theorem State.fire_photo :
    (s.fire).photo = s.photo := by
  unfold State.fire; (try dsimp only); (repeat' split) <;> simp
@[simp] theorem State.fire_lanes :
    (s.fire).lanes = s.lanes := by
  unfold State.fire; (try dsimp only); (repeat' split) <;> simp
@[simp] theorem State.fire_pending :
    (s.fire).pending = s.pending := by
  unfold State.fire; (try dsimp only); (repeat' split) <;> simp

@[simp] theorem State.tick_phase :
    (s.tick).phase = s.phase := by
  unfold State.tick; (try dsimp only); (repeat' split) <;> simp
@[simp] theorem State.tick_burned :
    (s.tick).burned = s.burned := by
  unfold State.tick; (try dsimp only); (repeat' split) <;> simp
@[simp] theorem State.tick_inForce :
    (s.tick).inForce = s.inForce := by
  unfold State.tick; (try dsimp only); (repeat' split) <;> simp
@[simp] theorem State.tick_catalogue :
    (s.tick).catalogue = s.catalogue := by
  unfold State.tick; (try dsimp only); (repeat' split) <;> simp
@[simp] theorem State.tick_plans :
    (s.tick).plans = s.plans := by
  unfold State.tick; (try dsimp only); (repeat' split) <;> simp
@[simp] theorem State.tick_photo :
    (s.tick).photo = s.photo := by
  unfold State.tick; (try dsimp only); (repeat' split) <;> simp
@[simp] theorem State.tick_lanes :
    (s.tick).lanes = s.lanes := by
  unfold State.tick; (try dsimp only); (repeat' split) <;> simp
@[simp] theorem State.tick_pending :
    (s.tick).pending = s.pending := by
  unfold State.tick; (try dsimp only); (repeat' split) <;> simp

@[simp] theorem State.setHold_phase (l : LaneNo) (h : HoldId) (v : Hold) :
    (s.setHold l h v).phase = s.phase := by
  simp [State.setHold]
@[simp] theorem State.setHold_ports (l : LaneNo) (h : HoldId) (v : Hold) :
    (s.setHold l h v).ports = s.ports := by
  simp [State.setHold]
@[simp] theorem State.setHold_burned (l : LaneNo) (h : HoldId) (v : Hold) :
    (s.setHold l h v).burned = s.burned := by
  simp [State.setHold]
@[simp] theorem State.setHold_inForce (l : LaneNo) (h : HoldId) (v : Hold) :
    (s.setHold l h v).inForce = s.inForce := by
  simp [State.setHold]
@[simp] theorem State.setHold_timers (l : LaneNo) (h : HoldId) (v : Hold) :
    (s.setHold l h v).timers = s.timers := by
  simp [State.setHold]
@[simp] theorem State.setHold_catalogue (l : LaneNo) (h : HoldId) (v : Hold) :
    (s.setHold l h v).catalogue = s.catalogue := by
  simp [State.setHold]
@[simp] theorem State.setHold_plans (l : LaneNo) (h : HoldId) (v : Hold) :
    (s.setHold l h v).plans = s.plans := by
  simp [State.setHold]
@[simp] theorem State.setHold_composer (l : LaneNo) (h : HoldId) (v : Hold) :
    (s.setHold l h v).composer = s.composer := by
  simp [State.setHold]
@[simp] theorem State.setHold_changeover (l : LaneNo) (h : HoldId) (v : Hold) :
    (s.setHold l h v).changeover = s.changeover := by
  simp [State.setHold]
@[simp] theorem State.setHold_freeze (l : LaneNo) (h : HoldId) (v : Hold) :
    (s.setHold l h v).freeze = s.freeze := by
  simp [State.setHold]
@[simp] theorem State.setHold_links (l : LaneNo) (h : HoldId) (v : Hold) :
    (s.setHold l h v).links = s.links := by
  simp [State.setHold]
@[simp] theorem State.setHold_photo (l : LaneNo) (h : HoldId) (v : Hold) :
    (s.setHold l h v).photo = s.photo := by
  simp [State.setHold]
@[simp] theorem State.setHold_clock (l : LaneNo) (h : HoldId) (v : Hold) :
    (s.setHold l h v).clock = s.clock := by
  simp [State.setHold]
@[simp] theorem State.setHold_pending (l : LaneNo) (h : HoldId) (v : Hold) :
    (s.setHold l h v).pending = s.pending := by
  simp [State.setHold]

@[simp] theorem State.refresh_phase (l : LaneNo) (h : HoldId) :
    (s.refresh l h).phase = s.phase := by
  simp [State.refresh]
@[simp] theorem State.refresh_ports (l : LaneNo) (h : HoldId) :
    (s.refresh l h).ports = s.ports := by
  simp [State.refresh]
@[simp] theorem State.refresh_burned (l : LaneNo) (h : HoldId) :
    (s.refresh l h).burned = s.burned := by
  simp [State.refresh]
@[simp] theorem State.refresh_inForce (l : LaneNo) (h : HoldId) :
    (s.refresh l h).inForce = s.inForce := by
  simp [State.refresh]
@[simp] theorem State.refresh_catalogue (l : LaneNo) (h : HoldId) :
    (s.refresh l h).catalogue = s.catalogue := by
  simp [State.refresh]
@[simp] theorem State.refresh_plans (l : LaneNo) (h : HoldId) :
    (s.refresh l h).plans = s.plans := by
  simp [State.refresh]
@[simp] theorem State.refresh_composer (l : LaneNo) (h : HoldId) :
    (s.refresh l h).composer = s.composer := by
  simp [State.refresh]
@[simp] theorem State.refresh_changeover (l : LaneNo) (h : HoldId) :
    (s.refresh l h).changeover = s.changeover := by
  simp [State.refresh]
@[simp] theorem State.refresh_freeze (l : LaneNo) (h : HoldId) :
    (s.refresh l h).freeze = s.freeze := by
  simp [State.refresh]
@[simp] theorem State.refresh_links (l : LaneNo) (h : HoldId) :
    (s.refresh l h).links = s.links := by
  simp [State.refresh]
@[simp] theorem State.refresh_photo (l : LaneNo) (h : HoldId) :
    (s.refresh l h).photo = s.photo := by
  simp [State.refresh]
@[simp] theorem State.refresh_lanes (l : LaneNo) (h : HoldId) :
    (s.refresh l h).lanes = s.lanes := by
  simp [State.refresh]
@[simp] theorem State.refresh_clock (l : LaneNo) (h : HoldId) :
    (s.refresh l h).clock = s.clock := by
  simp [State.refresh]
@[simp] theorem State.refresh_pending (l : LaneNo) (h : HoldId) :
    (s.refresh l h).pending = s.pending := by
  simp [State.refresh]

@[simp] theorem State.changeHold_phase (l : LaneNo) (h : HoldId) (v : Hold) :
    (s.changeHold l h v).phase = s.phase := by
  unfold State.changeHold; (try dsimp only); (repeat' split) <;> simp
@[simp] theorem State.changeHold_ports (l : LaneNo) (h : HoldId) (v : Hold) :
    (s.changeHold l h v).ports = s.ports := by
  unfold State.changeHold; (try dsimp only); (repeat' split) <;> simp
@[simp] theorem State.changeHold_burned (l : LaneNo) (h : HoldId) (v : Hold) :
    (s.changeHold l h v).burned = s.burned := by
  unfold State.changeHold; (try dsimp only); (repeat' split) <;> simp
@[simp] theorem State.changeHold_inForce (l : LaneNo) (h : HoldId) (v : Hold) :
    (s.changeHold l h v).inForce = s.inForce := by
  unfold State.changeHold; (try dsimp only); (repeat' split) <;> simp
@[simp] theorem State.changeHold_catalogue (l : LaneNo) (h : HoldId) (v : Hold) :
    (s.changeHold l h v).catalogue = s.catalogue := by
  unfold State.changeHold; (try dsimp only); (repeat' split) <;> simp
@[simp] theorem State.changeHold_plans (l : LaneNo) (h : HoldId) (v : Hold) :
    (s.changeHold l h v).plans = s.plans := by
  unfold State.changeHold; (try dsimp only); (repeat' split) <;> simp
@[simp] theorem State.changeHold_changeover (l : LaneNo) (h : HoldId) (v : Hold) :
    (s.changeHold l h v).changeover = s.changeover := by
  unfold State.changeHold; (try dsimp only); (repeat' split) <;> simp
@[simp] theorem State.changeHold_freeze (l : LaneNo) (h : HoldId) (v : Hold) :
    (s.changeHold l h v).freeze = s.freeze := by
  unfold State.changeHold; (try dsimp only); (repeat' split) <;> simp
@[simp] theorem State.changeHold_links (l : LaneNo) (h : HoldId) (v : Hold) :
    (s.changeHold l h v).links = s.links := by
  unfold State.changeHold; (try dsimp only); (repeat' split) <;> simp
@[simp] theorem State.changeHold_photo (l : LaneNo) (h : HoldId) (v : Hold) :
    (s.changeHold l h v).photo = s.photo := by
  unfold State.changeHold; (try dsimp only); (repeat' split) <;> simp
@[simp] theorem State.changeHold_clock (l : LaneNo) (h : HoldId) (v : Hold) :
    (s.changeHold l h v).clock = s.clock := by
  unfold State.changeHold; (try dsimp only); (repeat' split) <;> simp
@[simp] theorem State.changeHold_pending (l : LaneNo) (h : HoldId) (v : Hold) :
    (s.changeHold l h v).pending = s.pending := by
  unfold State.changeHold; (try dsimp only); (repeat' split) <;> simp

@[simp] theorem State.setFocus_phase (l : LaneNo) (v : Option HoldId) :
    (s.setFocus l v).phase = s.phase := by
  unfold State.setFocus; (try dsimp only); (repeat' split) <;> simp
@[simp] theorem State.setFocus_ports (l : LaneNo) (v : Option HoldId) :
    (s.setFocus l v).ports = s.ports := by
  unfold State.setFocus; (try dsimp only); (repeat' split) <;> simp
@[simp] theorem State.setFocus_burned (l : LaneNo) (v : Option HoldId) :
    (s.setFocus l v).burned = s.burned := by
  unfold State.setFocus; (try dsimp only); (repeat' split) <;> simp
@[simp] theorem State.setFocus_inForce (l : LaneNo) (v : Option HoldId) :
    (s.setFocus l v).inForce = s.inForce := by
  unfold State.setFocus; (try dsimp only); (repeat' split) <;> simp
@[simp] theorem State.setFocus_timers (l : LaneNo) (v : Option HoldId) :
    (s.setFocus l v).timers = s.timers := by
  unfold State.setFocus; (try dsimp only); (repeat' split) <;> simp
@[simp] theorem State.setFocus_catalogue (l : LaneNo) (v : Option HoldId) :
    (s.setFocus l v).catalogue = s.catalogue := by
  unfold State.setFocus; (try dsimp only); (repeat' split) <;> simp
@[simp] theorem State.setFocus_plans (l : LaneNo) (v : Option HoldId) :
    (s.setFocus l v).plans = s.plans := by
  unfold State.setFocus; (try dsimp only); (repeat' split) <;> simp
@[simp] theorem State.setFocus_changeover (l : LaneNo) (v : Option HoldId) :
    (s.setFocus l v).changeover = s.changeover := by
  unfold State.setFocus; (try dsimp only); (repeat' split) <;> simp
@[simp] theorem State.setFocus_freeze (l : LaneNo) (v : Option HoldId) :
    (s.setFocus l v).freeze = s.freeze := by
  unfold State.setFocus; (try dsimp only); (repeat' split) <;> simp
@[simp] theorem State.setFocus_links (l : LaneNo) (v : Option HoldId) :
    (s.setFocus l v).links = s.links := by
  unfold State.setFocus; (try dsimp only); (repeat' split) <;> simp
@[simp] theorem State.setFocus_photo (l : LaneNo) (v : Option HoldId) :
    (s.setFocus l v).photo = s.photo := by
  unfold State.setFocus; (try dsimp only); (repeat' split) <;> simp
@[simp] theorem State.setFocus_clock (l : LaneNo) (v : Option HoldId) :
    (s.setFocus l v).clock = s.clock := by
  unfold State.setFocus; (try dsimp only); (repeat' split) <;> simp
@[simp] theorem State.setFocus_pending (l : LaneNo) (v : Option HoldId) :
    (s.setFocus l v).pending = s.pending := by
  unfold State.setFocus; (try dsimp only); (repeat' split) <;> simp

@[simp] theorem State.dropHold_phase (l : LaneNo) (h : HoldId) :
    (s.dropHold l h).phase = s.phase := by
  unfold State.dropHold; (try dsimp only); (repeat' split) <;> simp
@[simp] theorem State.dropHold_ports (l : LaneNo) (h : HoldId) :
    (s.dropHold l h).ports = s.ports := by
  unfold State.dropHold; (try dsimp only); (repeat' split) <;> simp
@[simp] theorem State.dropHold_burned (l : LaneNo) (h : HoldId) :
    (s.dropHold l h).burned = s.burned := by
  unfold State.dropHold; (try dsimp only); (repeat' split) <;> simp
@[simp] theorem State.dropHold_inForce (l : LaneNo) (h : HoldId) :
    (s.dropHold l h).inForce = s.inForce := by
  unfold State.dropHold; (try dsimp only); (repeat' split) <;> simp
@[simp] theorem State.dropHold_catalogue (l : LaneNo) (h : HoldId) :
    (s.dropHold l h).catalogue = s.catalogue := by
  unfold State.dropHold; (try dsimp only); (repeat' split) <;> simp
@[simp] theorem State.dropHold_plans (l : LaneNo) (h : HoldId) :
    (s.dropHold l h).plans = s.plans := by
  unfold State.dropHold; (try dsimp only); (repeat' split) <;> simp
@[simp] theorem State.dropHold_changeover (l : LaneNo) (h : HoldId) :
    (s.dropHold l h).changeover = s.changeover := by
  unfold State.dropHold; (try dsimp only); (repeat' split) <;> simp
@[simp] theorem State.dropHold_freeze (l : LaneNo) (h : HoldId) :
    (s.dropHold l h).freeze = s.freeze := by
  unfold State.dropHold; (try dsimp only); (repeat' split) <;> simp
@[simp] theorem State.dropHold_links (l : LaneNo) (h : HoldId) :
    (s.dropHold l h).links = s.links := by
  unfold State.dropHold; (try dsimp only); (repeat' split) <;> simp
@[simp] theorem State.dropHold_photo (l : LaneNo) (h : HoldId) :
    (s.dropHold l h).photo = s.photo := by
  unfold State.dropHold; (try dsimp only); (repeat' split) <;> simp
@[simp] theorem State.dropHold_clock (l : LaneNo) (h : HoldId) :
    (s.dropHold l h).clock = s.clock := by
  unfold State.dropHold; (try dsimp only); (repeat' split) <;> simp
@[simp] theorem State.dropHold_pending (l : LaneNo) (h : HoldId) :
    (s.dropHold l h).pending = s.pending := by
  unfold State.dropHold; (try dsimp only); (repeat' split) <;> simp

@[simp] theorem State.expireHold_phase (l : LaneNo) (h : HoldId) :
    (s.expireHold l h).phase = s.phase := by
  unfold State.expireHold; (try dsimp only); (repeat' split) <;> simp
@[simp] theorem State.expireHold_burned (l : LaneNo) (h : HoldId) :
    (s.expireHold l h).burned = s.burned := by
  unfold State.expireHold; (try dsimp only); (repeat' split) <;> simp
@[simp] theorem State.expireHold_inForce (l : LaneNo) (h : HoldId) :
    (s.expireHold l h).inForce = s.inForce := by
  unfold State.expireHold; (try dsimp only); (repeat' split) <;> simp
@[simp] theorem State.expireHold_catalogue (l : LaneNo) (h : HoldId) :
    (s.expireHold l h).catalogue = s.catalogue := by
  unfold State.expireHold; (try dsimp only); (repeat' split) <;> simp
@[simp] theorem State.expireHold_plans (l : LaneNo) (h : HoldId) :
    (s.expireHold l h).plans = s.plans := by
  unfold State.expireHold; (try dsimp only); (repeat' split) <;> simp
@[simp] theorem State.expireHold_changeover (l : LaneNo) (h : HoldId) :
    (s.expireHold l h).changeover = s.changeover := by
  unfold State.expireHold; (try dsimp only); (repeat' split) <;> simp
@[simp] theorem State.expireHold_freeze (l : LaneNo) (h : HoldId) :
    (s.expireHold l h).freeze = s.freeze := by
  unfold State.expireHold; (try dsimp only); (repeat' split) <;> simp
@[simp] theorem State.expireHold_links (l : LaneNo) (h : HoldId) :
    (s.expireHold l h).links = s.links := by
  unfold State.expireHold; (try dsimp only); (repeat' split) <;> simp
@[simp] theorem State.expireHold_photo (l : LaneNo) (h : HoldId) :
    (s.expireHold l h).photo = s.photo := by
  unfold State.expireHold; (try dsimp only); (repeat' split) <;> simp
@[simp] theorem State.expireHold_clock (l : LaneNo) (h : HoldId) :
    (s.expireHold l h).clock = s.clock := by
  unfold State.expireHold; (try dsimp only); (repeat' split) <;> simp
@[simp] theorem State.expireHold_pending (l : LaneNo) (h : HoldId) :
    (s.expireHold l h).pending = s.pending := by
  unfold State.expireHold; (try dsimp only); (repeat' split) <;> simp

@[simp] theorem State.openSession_phase (k : Nat) (r : BlockRange) (f : List BlockRange) (w h : Nat) (c : BitVec 32) :
    (s.openSession k r f w h c).phase = s.phase := by
  simp [State.openSession]
@[simp] theorem State.openSession_ports (k : Nat) (r : BlockRange) (f : List BlockRange) (w h : Nat) (c : BitVec 32) :
    (s.openSession k r f w h c).ports = s.ports := by
  simp [State.openSession]
@[simp] theorem State.openSession_burned (k : Nat) (r : BlockRange) (f : List BlockRange) (w h : Nat) (c : BitVec 32) :
    (s.openSession k r f w h c).burned = s.burned := by
  simp [State.openSession]
@[simp] theorem State.openSession_inForce (k : Nat) (r : BlockRange) (f : List BlockRange) (w h : Nat) (c : BitVec 32) :
    (s.openSession k r f w h c).inForce = s.inForce := by
  simp [State.openSession]
@[simp] theorem State.openSession_catalogue (k : Nat) (r : BlockRange) (f : List BlockRange) (w h : Nat) (c : BitVec 32) :
    (s.openSession k r f w h c).catalogue = s.catalogue := by
  simp [State.openSession]
@[simp] theorem State.openSession_plans (k : Nat) (r : BlockRange) (f : List BlockRange) (w h : Nat) (c : BitVec 32) :
    (s.openSession k r f w h c).plans = s.plans := by
  simp [State.openSession]
@[simp] theorem State.openSession_composer (k : Nat) (r : BlockRange) (f : List BlockRange) (w h : Nat) (c : BitVec 32) :
    (s.openSession k r f w h c).composer = s.composer := by
  simp [State.openSession]
@[simp] theorem State.openSession_changeover (k : Nat) (r : BlockRange) (f : List BlockRange) (w h : Nat) (c : BitVec 32) :
    (s.openSession k r f w h c).changeover = s.changeover := by
  simp [State.openSession]
@[simp] theorem State.openSession_freeze (k : Nat) (r : BlockRange) (f : List BlockRange) (w h : Nat) (c : BitVec 32) :
    (s.openSession k r f w h c).freeze = s.freeze := by
  simp [State.openSession]
@[simp] theorem State.openSession_links (k : Nat) (r : BlockRange) (f : List BlockRange) (w h : Nat) (c : BitVec 32) :
    (s.openSession k r f w h c).links = s.links := by
  simp [State.openSession]
@[simp] theorem State.openSession_lanes (k : Nat) (r : BlockRange) (f : List BlockRange) (w h : Nat) (c : BitVec 32) :
    (s.openSession k r f w h c).lanes = s.lanes := by
  simp [State.openSession]
@[simp] theorem State.openSession_clock (k : Nat) (r : BlockRange) (f : List BlockRange) (w h : Nat) (c : BitVec 32) :
    (s.openSession k r f w h c).clock = s.clock := by
  simp [State.openSession]
@[simp] theorem State.openSession_pending (k : Nat) (r : BlockRange) (f : List BlockRange) (w h : Nat) (c : BitVec 32) :
    (s.openSession k r f w h c).pending = s.pending := by
  simp [State.openSession]

@[simp] theorem State.closeSession_phase (ls : LoadSession) (st : SlotState) (o : LoadOutcome) :
    (s.closeSession ls st o).phase = s.phase := by
  simp [State.closeSession]
@[simp] theorem State.closeSession_burned (ls : LoadSession) (st : SlotState) (o : LoadOutcome) :
    (s.closeSession ls st o).burned = s.burned := by
  simp [State.closeSession]
@[simp] theorem State.closeSession_inForce (ls : LoadSession) (st : SlotState) (o : LoadOutcome) :
    (s.closeSession ls st o).inForce = s.inForce := by
  simp [State.closeSession]
@[simp] theorem State.closeSession_catalogue (ls : LoadSession) (st : SlotState) (o : LoadOutcome) :
    (s.closeSession ls st o).catalogue = s.catalogue := by
  simp [State.closeSession]
@[simp] theorem State.closeSession_plans (ls : LoadSession) (st : SlotState) (o : LoadOutcome) :
    (s.closeSession ls st o).plans = s.plans := by
  simp [State.closeSession]
@[simp] theorem State.closeSession_composer (ls : LoadSession) (st : SlotState) (o : LoadOutcome) :
    (s.closeSession ls st o).composer = s.composer := by
  simp [State.closeSession]
@[simp] theorem State.closeSession_changeover (ls : LoadSession) (st : SlotState) (o : LoadOutcome) :
    (s.closeSession ls st o).changeover = s.changeover := by
  simp [State.closeSession]
@[simp] theorem State.closeSession_freeze (ls : LoadSession) (st : SlotState) (o : LoadOutcome) :
    (s.closeSession ls st o).freeze = s.freeze := by
  simp [State.closeSession]
@[simp] theorem State.closeSession_links (ls : LoadSession) (st : SlotState) (o : LoadOutcome) :
    (s.closeSession ls st o).links = s.links := by
  simp [State.closeSession]
@[simp] theorem State.closeSession_lanes (ls : LoadSession) (st : SlotState) (o : LoadOutcome) :
    (s.closeSession ls st o).lanes = s.lanes := by
  simp [State.closeSession]
@[simp] theorem State.closeSession_clock (ls : LoadSession) (st : SlotState) (o : LoadOutcome) :
    (s.closeSession ls st o).clock = s.clock := by
  simp [State.closeSession]
@[simp] theorem State.closeSession_pending (ls : LoadSession) (st : SlotState) (o : LoadOutcome) :
    (s.closeSession ls st o).pending = s.pending := by
  simp [State.closeSession]

@[simp] theorem State.dropSession_phase (ls : LoadSession) (o : LoadOutcome) :
    (s.dropSession ls o).phase = s.phase := by
  simp [State.dropSession]
@[simp] theorem State.dropSession_ports (ls : LoadSession) (o : LoadOutcome) :
    (s.dropSession ls o).ports = s.ports := by
  simp [State.dropSession]
@[simp] theorem State.dropSession_burned (ls : LoadSession) (o : LoadOutcome) :
    (s.dropSession ls o).burned = s.burned := by
  simp [State.dropSession]
@[simp] theorem State.dropSession_inForce (ls : LoadSession) (o : LoadOutcome) :
    (s.dropSession ls o).inForce = s.inForce := by
  simp [State.dropSession]
@[simp] theorem State.dropSession_catalogue (ls : LoadSession) (o : LoadOutcome) :
    (s.dropSession ls o).catalogue = s.catalogue := by
  simp [State.dropSession]
@[simp] theorem State.dropSession_plans (ls : LoadSession) (o : LoadOutcome) :
    (s.dropSession ls o).plans = s.plans := by
  simp [State.dropSession]
@[simp] theorem State.dropSession_composer (ls : LoadSession) (o : LoadOutcome) :
    (s.dropSession ls o).composer = s.composer := by
  simp [State.dropSession]
@[simp] theorem State.dropSession_changeover (ls : LoadSession) (o : LoadOutcome) :
    (s.dropSession ls o).changeover = s.changeover := by
  simp [State.dropSession]
@[simp] theorem State.dropSession_freeze (ls : LoadSession) (o : LoadOutcome) :
    (s.dropSession ls o).freeze = s.freeze := by
  simp [State.dropSession]
@[simp] theorem State.dropSession_links (ls : LoadSession) (o : LoadOutcome) :
    (s.dropSession ls o).links = s.links := by
  simp [State.dropSession]
@[simp] theorem State.dropSession_lanes (ls : LoadSession) (o : LoadOutcome) :
    (s.dropSession ls o).lanes = s.lanes := by
  simp [State.dropSession]
@[simp] theorem State.dropSession_clock (ls : LoadSession) (o : LoadOutcome) :
    (s.dropSession ls o).clock = s.clock := by
  simp [State.dropSession]
@[simp] theorem State.dropSession_pending (ls : LoadSession) (o : LoadOutcome) :
    (s.dropSession ls o).pending = s.pending := by
  simp [State.dropSession]

@[simp] theorem State.loadTimeout_phase :
    (s.loadTimeout).phase = s.phase := by
  unfold State.loadTimeout; (try dsimp only); (repeat' split) <;> simp
@[simp] theorem State.loadTimeout_burned :
    (s.loadTimeout).burned = s.burned := by
  unfold State.loadTimeout; (try dsimp only); (repeat' split) <;> simp
@[simp] theorem State.loadTimeout_inForce :
    (s.loadTimeout).inForce = s.inForce := by
  unfold State.loadTimeout; (try dsimp only); (repeat' split) <;> simp
@[simp] theorem State.loadTimeout_catalogue :
    (s.loadTimeout).catalogue = s.catalogue := by
  unfold State.loadTimeout; (try dsimp only); (repeat' split) <;> simp
@[simp] theorem State.loadTimeout_plans :
    (s.loadTimeout).plans = s.plans := by
  unfold State.loadTimeout; (try dsimp only); (repeat' split) <;> simp
@[simp] theorem State.loadTimeout_composer :
    (s.loadTimeout).composer = s.composer := by
  unfold State.loadTimeout; (try dsimp only); (repeat' split) <;> simp
@[simp] theorem State.loadTimeout_changeover :
    (s.loadTimeout).changeover = s.changeover := by
  unfold State.loadTimeout; (try dsimp only); (repeat' split) <;> simp
@[simp] theorem State.loadTimeout_freeze :
    (s.loadTimeout).freeze = s.freeze := by
  unfold State.loadTimeout; (try dsimp only); (repeat' split) <;> simp
@[simp] theorem State.loadTimeout_links :
    (s.loadTimeout).links = s.links := by
  unfold State.loadTimeout; (try dsimp only); (repeat' split) <;> simp
@[simp] theorem State.loadTimeout_lanes :
    (s.loadTimeout).lanes = s.lanes := by
  unfold State.loadTimeout; (try dsimp only); (repeat' split) <;> simp
@[simp] theorem State.loadTimeout_clock :
    (s.loadTimeout).clock = s.clock := by
  unfold State.loadTimeout; (try dsimp only); (repeat' split) <;> simp
@[simp] theorem State.loadTimeout_pending :
    (s.loadTimeout).pending = s.pending := by
  unfold State.loadTimeout; (try dsimp only); (repeat' split) <;> simp

@[simp] theorem State.verifyDoneIfEmpty_phase :
    (s.verifyDoneIfEmpty).phase = s.phase := by
  unfold State.verifyDoneIfEmpty; (try dsimp only); (repeat' split) <;> simp
@[simp] theorem State.verifyDoneIfEmpty_burned :
    (s.verifyDoneIfEmpty).burned = s.burned := by
  unfold State.verifyDoneIfEmpty; (try dsimp only); (repeat' split) <;> simp
@[simp] theorem State.verifyDoneIfEmpty_inForce :
    (s.verifyDoneIfEmpty).inForce = s.inForce := by
  unfold State.verifyDoneIfEmpty; (try dsimp only); (repeat' split) <;> simp
@[simp] theorem State.verifyDoneIfEmpty_timers :
    (s.verifyDoneIfEmpty).timers = s.timers := by
  unfold State.verifyDoneIfEmpty; (try dsimp only); (repeat' split) <;> simp
@[simp] theorem State.verifyDoneIfEmpty_catalogue :
    (s.verifyDoneIfEmpty).catalogue = s.catalogue := by
  unfold State.verifyDoneIfEmpty; (try dsimp only); (repeat' split) <;> simp
@[simp] theorem State.verifyDoneIfEmpty_plans :
    (s.verifyDoneIfEmpty).plans = s.plans := by
  unfold State.verifyDoneIfEmpty; (try dsimp only); (repeat' split) <;> simp
@[simp] theorem State.verifyDoneIfEmpty_composer :
    (s.verifyDoneIfEmpty).composer = s.composer := by
  unfold State.verifyDoneIfEmpty; (try dsimp only); (repeat' split) <;> simp
@[simp] theorem State.verifyDoneIfEmpty_changeover :
    (s.verifyDoneIfEmpty).changeover = s.changeover := by
  unfold State.verifyDoneIfEmpty; (try dsimp only); (repeat' split) <;> simp
@[simp] theorem State.verifyDoneIfEmpty_freeze :
    (s.verifyDoneIfEmpty).freeze = s.freeze := by
  unfold State.verifyDoneIfEmpty; (try dsimp only); (repeat' split) <;> simp
@[simp] theorem State.verifyDoneIfEmpty_links :
    (s.verifyDoneIfEmpty).links = s.links := by
  unfold State.verifyDoneIfEmpty; (try dsimp only); (repeat' split) <;> simp
@[simp] theorem State.verifyDoneIfEmpty_photo :
    (s.verifyDoneIfEmpty).photo = s.photo := by
  unfold State.verifyDoneIfEmpty; (try dsimp only); (repeat' split) <;> simp
@[simp] theorem State.verifyDoneIfEmpty_lanes :
    (s.verifyDoneIfEmpty).lanes = s.lanes := by
  unfold State.verifyDoneIfEmpty; (try dsimp only); (repeat' split) <;> simp
@[simp] theorem State.verifyDoneIfEmpty_clock :
    (s.verifyDoneIfEmpty).clock = s.clock := by
  unfold State.verifyDoneIfEmpty; (try dsimp only); (repeat' split) <;> simp
@[simp] theorem State.verifyDoneIfEmpty_pending :
    (s.verifyDoneIfEmpty).pending = s.pending := by
  unfold State.verifyDoneIfEmpty; (try dsimp only); (repeat' split) <;> simp

@[simp] theorem State.erase_phase (k : Nat) :
    (s.erase k).phase = s.phase := by
  unfold State.erase; (try dsimp only); (repeat' split) <;> simp
@[simp] theorem State.erase_burned (k : Nat) :
    (s.erase k).burned = s.burned := by
  unfold State.erase; (try dsimp only); (repeat' split) <;> simp
@[simp] theorem State.erase_inForce (k : Nat) :
    (s.erase k).inForce = s.inForce := by
  unfold State.erase; (try dsimp only); (repeat' split) <;> simp
@[simp] theorem State.erase_timers (k : Nat) :
    (s.erase k).timers = s.timers := by
  unfold State.erase; (try dsimp only); (repeat' split) <;> simp
@[simp] theorem State.erase_catalogue (k : Nat) :
    (s.erase k).catalogue = s.catalogue := by
  unfold State.erase; (try dsimp only); (repeat' split) <;> simp
@[simp] theorem State.erase_plans (k : Nat) :
    (s.erase k).plans = s.plans := by
  unfold State.erase; (try dsimp only); (repeat' split) <;> simp
@[simp] theorem State.erase_composer (k : Nat) :
    (s.erase k).composer = s.composer := by
  unfold State.erase; (try dsimp only); (repeat' split) <;> simp
@[simp] theorem State.erase_changeover (k : Nat) :
    (s.erase k).changeover = s.changeover := by
  unfold State.erase; (try dsimp only); (repeat' split) <;> simp
@[simp] theorem State.erase_freeze (k : Nat) :
    (s.erase k).freeze = s.freeze := by
  unfold State.erase; (try dsimp only); (repeat' split) <;> simp
@[simp] theorem State.erase_links (k : Nat) :
    (s.erase k).links = s.links := by
  unfold State.erase; (try dsimp only); (repeat' split) <;> simp
@[simp] theorem State.erase_lanes (k : Nat) :
    (s.erase k).lanes = s.lanes := by
  unfold State.erase; (try dsimp only); (repeat' split) <;> simp
@[simp] theorem State.erase_clock (k : Nat) :
    (s.erase k).clock = s.clock := by
  unfold State.erase; (try dsimp only); (repeat' split) <;> simp
@[simp] theorem State.erase_pending (k : Nat) :
    (s.erase k).pending = s.pending := by
  unfold State.erase; (try dsimp only); (repeat' split) <;> simp

@[simp] theorem State.verified_phase (k : Nat) :
    (s.verified k).phase = s.phase := by
  unfold State.verified; (try dsimp only); (repeat' split) <;> simp
@[simp] theorem State.verified_burned (k : Nat) :
    (s.verified k).burned = s.burned := by
  unfold State.verified; (try dsimp only); (repeat' split) <;> simp
@[simp] theorem State.verified_inForce (k : Nat) :
    (s.verified k).inForce = s.inForce := by
  unfold State.verified; (try dsimp only); (repeat' split) <;> simp
@[simp] theorem State.verified_timers (k : Nat) :
    (s.verified k).timers = s.timers := by
  unfold State.verified; (try dsimp only); (repeat' split) <;> simp
@[simp] theorem State.verified_catalogue (k : Nat) :
    (s.verified k).catalogue = s.catalogue := by
  unfold State.verified; (try dsimp only); (repeat' split) <;> simp
@[simp] theorem State.verified_plans (k : Nat) :
    (s.verified k).plans = s.plans := by
  unfold State.verified; (try dsimp only); (repeat' split) <;> simp
@[simp] theorem State.verified_changeover (k : Nat) :
    (s.verified k).changeover = s.changeover := by
  unfold State.verified; (try dsimp only); (repeat' split) <;> simp
@[simp] theorem State.verified_freeze (k : Nat) :
    (s.verified k).freeze = s.freeze := by
  unfold State.verified; (try dsimp only); (repeat' split) <;> simp
@[simp] theorem State.verified_links (k : Nat) :
    (s.verified k).links = s.links := by
  unfold State.verified; (try dsimp only); (repeat' split) <;> simp
@[simp] theorem State.verified_lanes (k : Nat) :
    (s.verified k).lanes = s.lanes := by
  unfold State.verified; (try dsimp only); (repeat' split) <;> simp
@[simp] theorem State.verified_clock (k : Nat) :
    (s.verified k).clock = s.clock := by
  unfold State.verified; (try dsimp only); (repeat' split) <;> simp
@[simp] theorem State.verified_pending (k : Nat) :
    (s.verified k).pending = s.pending := by
  unfold State.verified; (try dsimp only); (repeat' split) <;> simp

@[simp] theorem State.readAnswer_phase (p : PortId) (n : Nat) :
    (s.readAnswer p n).phase = s.phase := by
  unfold State.readAnswer; (try dsimp only); (repeat' split) <;> simp
@[simp] theorem State.readAnswer_burned (p : PortId) (n : Nat) :
    (s.readAnswer p n).burned = s.burned := by
  unfold State.readAnswer; (try dsimp only); (repeat' split) <;> simp
@[simp] theorem State.readAnswer_inForce (p : PortId) (n : Nat) :
    (s.readAnswer p n).inForce = s.inForce := by
  unfold State.readAnswer; (try dsimp only); (repeat' split) <;> simp
@[simp] theorem State.readAnswer_timers (p : PortId) (n : Nat) :
    (s.readAnswer p n).timers = s.timers := by
  unfold State.readAnswer; (try dsimp only); (repeat' split) <;> simp
@[simp] theorem State.readAnswer_catalogue (p : PortId) (n : Nat) :
    (s.readAnswer p n).catalogue = s.catalogue := by
  unfold State.readAnswer; (try dsimp only); (repeat' split) <;> simp
@[simp] theorem State.readAnswer_plans (p : PortId) (n : Nat) :
    (s.readAnswer p n).plans = s.plans := by
  unfold State.readAnswer; (try dsimp only); (repeat' split) <;> simp
@[simp] theorem State.readAnswer_composer (p : PortId) (n : Nat) :
    (s.readAnswer p n).composer = s.composer := by
  unfold State.readAnswer; (try dsimp only); (repeat' split) <;> simp
@[simp] theorem State.readAnswer_changeover (p : PortId) (n : Nat) :
    (s.readAnswer p n).changeover = s.changeover := by
  unfold State.readAnswer; (try dsimp only); (repeat' split) <;> simp
@[simp] theorem State.readAnswer_freeze (p : PortId) (n : Nat) :
    (s.readAnswer p n).freeze = s.freeze := by
  unfold State.readAnswer; (try dsimp only); (repeat' split) <;> simp
@[simp] theorem State.readAnswer_links (p : PortId) (n : Nat) :
    (s.readAnswer p n).links = s.links := by
  unfold State.readAnswer; (try dsimp only); (repeat' split) <;> simp
@[simp] theorem State.readAnswer_photo (p : PortId) (n : Nat) :
    (s.readAnswer p n).photo = s.photo := by
  unfold State.readAnswer; (try dsimp only); (repeat' split) <;> simp
@[simp] theorem State.readAnswer_lanes (p : PortId) (n : Nat) :
    (s.readAnswer p n).lanes = s.lanes := by
  unfold State.readAnswer; (try dsimp only); (repeat' split) <;> simp
@[simp] theorem State.readAnswer_clock (p : PortId) (n : Nat) :
    (s.readAnswer p n).clock = s.clock := by
  unfold State.readAnswer; (try dsimp only); (repeat' split) <;> simp
@[simp] theorem State.readAnswer_pending (p : PortId) (n : Nat) :
    (s.readAnswer p n).pending = s.pending := by
  unfold State.readAnswer; (try dsimp only); (repeat' split) <;> simp

end Sys2Proof.Machine
end

