-- ==== Sys2Proof/Laws/Requests.lean ====
section
/-! SUPPORT. The one law of each shared operation that carries a request or an expiry: what it comes to when the port takes
the request or the timer runs, and that it keeps every property the owner's part keeps. -/
namespace Sys2Proof.Machine

variable {s : State} {p : PortId}

/-- A request that its port takes, from a role that may make it and of an allowed length, is answered by its owner. -/
theorem request_of_takes (h : s.Takes p) {t : RequestType} {tag : Byte} {payload : List Byte}
    (hr : t.permission.holds p = true) (hlo : t.lengths.1 ≤ payload.length) (hhi : payload.length ≤ t.lengths.2)
    (owner : State → Reply × State) :
    s.request t p tag payload owner =
      (owner (s.clockIn p (6 + payload.length))).2.holdAnswer p
        ⟨t.code, tag, (owner (s.clockIn p (6 + payload.length))).1.status,
          (owner (s.clockIn p (6 + payload.length))).1.payload⟩ := by
  obtain ⟨_, hf, hs⟩ := h
  have hl : ¬ (payload.length < t.lengths.1 ∨ t.lengths.2 < payload.length) := by omega
  simp [State.request, State.accept, State.arrive, hf, hs, hr, hl]

/-- The same, by the owner's reply and next state. -/
theorem request_answers (h : s.Takes p) {t : RequestType} {tag : Byte} {payload : List Byte}
    (hr : t.permission.holds p = true) (hlo : t.lengths.1 ≤ payload.length) (hhi : payload.length ≤ t.lengths.2)
    {owner : State → Reply × State} {r : Reply} {v : State}
    (ho : owner (s.clockIn p (6 + payload.length)) = (r, v)) :
    (.next (s.request t p tag payload owner) : Host.Outcome State Fault Refusal) =
      .next (v.holdAnswer p ⟨t.code, tag, r.status, r.payload⟩) := by
  rw [request_of_takes h hr hlo hhi, ho]

/-- The same for a request whose owner gives the next state itself (RESTART). -/
theorem accept_of_takes (h : s.Takes p) {t : RequestType} {tag : Byte} {payload : List Byte}
    (hr : t.permission.holds p = true) (hlo : t.lengths.1 ≤ payload.length) (hhi : payload.length ≤ t.lengths.2)
    (owner : State → State) :
    s.accept t p tag payload owner = owner (s.clockIn p (6 + payload.length)) := by
  obtain ⟨_, hf, hs⟩ := h
  have hl : ¬ (payload.length < t.lengths.1 ∨ t.lengths.2 < payload.length) := by omega
  simp [State.accept, State.arrive, hf, hs, hr, hl]

theorem writers_hold (role : WritingRole) : Permission.writers.holds (portOfRole role) = true := by cases role <;> rfl

theorem every_holds (p : PortId) : Permission.every.holds p = true := by cases p <;> rfl

@[simp] theorem roleOfPort_portOfRole (role : WritingRole) : roleOfPort (portOfRole role) = role := by
  cases role <;> rfl

@[simp] theorem batch_setBatch (c : Catalogue) (role : WritingRole) (v : Option (List BatchEntry)) :
    (c.setBatch role v).batch role = v := by cases role <;> rfl

theorem batch_setBatch_of_ne (c : Catalogue) {role other : WritingRole} (h : other ≠ role)
    (v : Option (List BatchEntry)) : (c.setBatch role v).batch other = c.batch other := by
  cases role <;> cases other <;> first | rfl | exact absurd rfl h

theorem setBatch_batch (c : Catalogue) (role : WritingRole) {v : Option (List BatchEntry)} (h : c.batch role = v) :
    c.setBatch role v = c := by
  cases role <;> cases c <;> simp_all [Catalogue.batch, Catalogue.setBatch]

@[simp] theorem clockIn_port_flags (q : PortId) (n : Nat) : ((s.clockIn p n).port q).flags = (s.port q).flags := by
  unfold State.clockIn
  split
  · by_cases h : q = p
    · subst h; simp
    · rw [State.putOut_port_of_ne s h]
  · rfl

@[simp] theorem clockIn_port_mask (q : PortId) (n : Nat) : ((s.clockIn p n).port q).mask = (s.port q).mask := by
  unfold State.clockIn
  split
  · by_cases h : q = p
    · subst h; simp
    · rw [State.putOut_port_of_ne s h]
  · rfl

@[simp] theorem clockIn_port_state (q : PortId) (n : Nat) : ((s.clockIn p n).port q).state = (s.port q).state := by
  unfold State.clockIn
  split
  · by_cases h : q = p
    · subst h; simp
    · rw [State.putOut_port_of_ne s h]
  · rfl

theorem clockIn_port_of_ne {q : PortId} (h : q ≠ p) (n : Nat) : (s.clockIn p n).port q = s.port q := by
  unfold State.clockIn
  split
  · exact State.putOut_port_of_ne s h _
  · rfl

/-- What a request message leaves of a port that answers it, when the owner touched no port. -/
theorem answeredOn_of_ports {u : State} (hu : u.ports = (s.clockIn p n).ports) (a : Answer) :
    AnsweredOn s (u.holdAnswer p a) p a := by
  have hp : ∀ q, u.port q = (s.clockIn p n).port q := fun q => by unfold State.port; rw [hu]
  refine ⟨by simp, by simp [hp], by simp [hp], fun q hq => ?_⟩
  rw [State.holdAnswer_port_of_ne u hq, hp, clockIn_port_of_ne hq]

/-- The frame of a port's part: it changes the ports alone. -/
theorem clockIn_eq (s : State) (p : PortId) (n : Nat) : s.clockIn p n = { s with ports := (s.clockIn p n).ports } := by
  unfold State.clockIn; split <;> rfl

@[simp] theorem clockIn_portFitted (n : Nat) (q : PortId) : (s.clockIn p n).portFitted q = s.portFitted q := by
  rw [clockIn_eq]; cases q <;> rfl

/-- Every good request message arrives at its port for some owner; LOAD_BLOCK while its session is sound. -/
theorem exec_toInstr_arrives (s : State) (p : PortId) (t : RequestType) (tag : Byte) (payload : List Byte)
    (h : t = .loadBlock → SessionSound s) :
    ∃ owner, exec (t.toInstr p tag payload) s = .next (s.accept t p tag payload owner) := by
  cases t
  case loadBlock =>
    obtain ⟨x, hx⟩ := h rfl
    exact ⟨_, by simp only [RequestType.toInstr, exec, execLoadBlock, hx]; rfl⟩
  all_goals exact ⟨_, rfl⟩

/-- A request whose owner answers and changes nothing. -/
theorem answersOnly_of_takes (h : s.Takes p) {t : RequestType} {tag : Byte} {payload : List Byte}
    (hr : t.permission.holds p = true) (hlo : t.lengths.1 ≤ payload.length) (hhi : payload.length ≤ t.lengths.2)
    {owner : State → Reply × State} {r : Reply} {c : Instr}
    (hc : exec c s = .next (s.request t p tag payload owner))
    (ho : owner (s.clockIn p (6 + payload.length)) = (r, s.clockIn p (6 + payload.length))) {a : Answer}
    (ha : a = ⟨t.code, tag, r.status, r.payload⟩) : AnswersOnly s c p a := by
  subst ha
  refine ⟨_, hc.trans (request_answers h hr hlo hhi ho), answeredOn_of_ports (n := _) rfl _, ?_⟩
  conv => lhs; rw [clockIn_eq]
  rfl

/-- A property that no change of the ports and no owner's part breaks is kept by a request. -/
theorem request_keeps {P : State → Prop} (hport : ∀ (u : State) (x : Ports), P u → P { u with ports := x })
    {owner : State → Reply × State} (howner : ∀ u, P u → P (owner u).2) {t : RequestType} {tag : Byte}
    {payload : List Byte} (h : P s) : P (s.request t p tag payload owner) := by
  have hin : P (s.clockIn p (6 + payload.length)) := by rw [clockIn_eq]; exact hport _ _ h
  have hans : ∀ (u : State) (a : Answer), P u → P (u.holdAnswer p a) := fun u a hu => hport u _ hu
  have hlose : ∀ u : State, P u → P (u.loseRequest p) := fun u hu => by
    unfold State.loseRequest; split
    · exact hu
    · exact hport u _ hu
  unfold State.request State.accept State.arrive
  split
  · exact h
  · split
    · split
      · exact hans _ _ hin
      · split
        · exact hans _ _ hin
        · exact hans _ _ (howner _ hin)
    · exact hlose _ hin

/-- The same for RESTART's form. -/
theorem accept_keeps {P : State → Prop} (hport : ∀ (u : State) (x : Ports), P u → P { u with ports := x })
    {owner : State → State} (howner : ∀ u, P u → P (owner u)) {t : RequestType} {tag : Byte}
    {payload : List Byte} (h : P s) : P (s.accept t p tag payload owner) := by
  have hin : P (s.clockIn p (6 + payload.length)) := by rw [clockIn_eq]; exact hport _ _ h
  have hans : ∀ (u : State) (a : Answer), P u → P (u.holdAnswer p a) := fun u a hu => hport u _ hu
  have hlose : ∀ u : State, P u → P (u.loseRequest p) := fun u hu => by
    unfold State.loseRequest; split
    · exact hu
    · exact hport u _ hu
  unfold State.accept State.arrive
  split
  · exact h
  · split
    · split
      · exact hans _ _ hin
      · split
        · exact hans _ _ hin
        · exact howner _ hin
    · exact hlose _ hin

/-! ## What becomes of a message at its port -/

/-- A lane port that is not fitted ignores a message (R188). -/
theorem arrive_of_unfitted (h : s.portFitted p = false) (n : Nat) (take : State → State) : s.arrive p n take = s := by
  simp [State.arrive, h]

/-- A message that begins and ends in READY is taken (R190). -/
theorem arrive_of_ready (hf : s.portFitted p = true) (hs : (s.port p).state = .ready) (hr : (s.port p).receiving = none)
    (n : Nat) (take : State → State) : s.arrive p n take = take (s.clockIn p n) := by
  simp [State.arrive, hf, hs, hr]

/-- Any other message is lost (R190, R192, R193). -/
theorem arrive_of_busy (hf : s.portFitted p = true) (h : (s.port p).state ≠ .ready ∨ (s.port p).receiving ≠ none)
    (n : Nat) (take : State → State) : s.arrive p n take = (s.clockIn p n).loseRequest p := by
  have : ¬ ((s.port p).state = .ready ∧ (s.port p).receiving = none) := by
    rintro ⟨a, b⟩; exact h.elim (· a) (· b)
  simp [State.arrive, hf, this]

/-- What a lost message leaves of its port: REQUEST_LOST is raised and nothing is being received any more. -/
theorem loseRequest_port (hf : s.portFitted p = true) :
    (s.loseRequest p).port p = { (s.port p).setFlag p .requestLost with receiving := none } := by
  simp [State.loseRequest, hf]

theorem loseRequest_port_of_ne {q : PortId} (h : q ≠ p) : (s.loseRequest p).port q = s.port q := by
  unfold State.loseRequest
  split
  · rfl
  · exact Ports.get_set_of_ne _ h _

/-- The frame of a loss: the ports alone. -/
theorem loseRequest_eq (s : State) (p : PortId) : s.loseRequest p = { s with ports := (s.loseRequest p).ports } := by
  unfold State.loseRequest; split <;> rfl

/-- The meaning of a good request message is that of its command. -/
theorem execRequest_eq (t : RequestType) (tag : Byte) (payload : List Byte) :
    execRequest t p tag payload s = exec (t.toInstr p tag payload) s := by cases t <;> rfl

theorem takeMessage_good {message : List Byte} {t : RequestType} {tag : Byte} {payload : List Byte}
    (h : Message.read message = .good t tag payload) :
    takeMessage p message s = exec (t.toInstr p tag payload) s := by
  unfold takeMessage; rw [h]; exact execRequest_eq t tag payload

theorem takeMessage_bad {message : List Byte} {status : Status} {typeByte tag : Byte}
    (h : Message.read message = .bad status typeByte tag) :
    takeMessage p message s =
      .next (s.arrive p message.length fun s => s.holdAnswer p ⟨typeByte, tag, status, []⟩) := by
  unfold takeMessage; rw [h]

@[simp] theorem takeMessages_nil (n : Nat) : takeMessages p n [] s = .next s := by cases n <;> rfl

/-- Bytes on a UART that are no more than their first message. -/
theorem takeMessages_one {n : Nat} {bytes : List Byte} (hb : bytes ≠ [])
    (h : bytes.length ≤ 6 + Message.lengthField bytes) :
    takeMessages p (n + 1) bytes s = takeMessage p bytes s := by
  have h1 : Message.first bytes = bytes := List.take_of_length_le h
  have h2 : Message.rest bytes = [] := List.drop_of_length_le h
  unfold takeMessages
  rw [if_neg hb, h1, h2]
  cases takeMessage p bytes s <;> simp

/-- A property that no message breaks is kept by any number of them. -/
theorem takeMessages_keeps {P : State → Prop}
    (h : ∀ (m : List Byte) (u v : State), P u → takeMessage p m u = .next v → P v) :
    ∀ (n : Nat) (bytes : List Byte) (u v : State), P u → takeMessages p n bytes u = .next v → P v
  | 0, _, u, v, hu, he => by cases he; exact hu
  | n + 1, bytes, u, v, hu, he => by
    unfold takeMessages at he
    split at he
    · cases he; exact hu
    · cases hm : takeMessage p (Message.first bytes) u with
      | next w => rw [hm] at he; exact takeMessages_keeps h n _ w v (h _ u w hu hm) he
      | fault f => rw [hm] at he; cases he
      | refused r => rw [hm] at he; cases he

/-! ## Expiries -/

/-- An expiry of a running timer: its time passes, it stands stopped, and the effect is made. -/
theorem onExpiry_running {t : TimerId} {left : Nat} (h : s.timeLeft t = some left) (effect : State → State) :
    s.onExpiry t effect = effect ((s.elapse left).stopTimer t) := by simp [State.onExpiry, h]

/-- A timer that is not running does not expire: nothing happens. -/
theorem onExpiry_stopped {t : TimerId} (h : s.timeLeft t = none) (effect : State → State) : s.onExpiry t effect = s := by
  simp [State.onExpiry, h]

/-- A property that no change of the timers and no effect breaks is kept by an expiry. -/
theorem onExpiry_keeps {P : State → Prop} (htimer : ∀ (u : State) (x : Table Nat), P u → P { u with timers := x })
    {t : TimerId} {effect : State → State} (heffect : ∀ u, P u → P (effect u)) (h : P s) : P (s.onExpiry t effect) := by
  unfold State.onExpiry
  split
  · exact h
  · exact heffect _ (htimer _ _ (htimer _ _ h))

end Sys2Proof.Machine
end

