-- ==== Sys2Proof/Laws/Photo.lean ====
section
/-! SUPPORT. The laws of Photo Memory's verify queue and engine: who stands in the queue after a join, which slot the engine
takes next, and what taking it leaves. -/
namespace Sys2Proof.Machine

/-- A slot byte in range names its slot (R201). -/
theorem slot?_be {k : Nat} (h : k ≤ 191) : slot? ((be 1 k).getD 0 0) = some k := by
  have e : ((be 1 k).getD 0 0) = BitVec.ofNat 8 k := by simp [be]
  have n : (BitVec.ofNat 8 k).toNat = k := by simp; omega
  rw [e]; unfold slot?; rw [n, if_pos (by omega)]

/-- A slot byte out of range names none. -/
theorem slot?_be_eq_none {k : Nat} (h : 191 < k) (h2 : k < 256) : slot? ((be 1 k).getD 0 0) = none := by
  have e : ((be 1 k).getD 0 0) = BitVec.ofNat 8 k := by simp [be]
  have n : (BitVec.ofNat 8 k).toNat = k := by simp; omega
  rw [e]; unfold slot?; rw [n, if_neg (by omega)]

/-- Who stands in the queue after a join (R132). -/
theorem mem_joinVerify (k j : Nat) (q : List Nat) : j ∈ joinVerify k q ↔ j ∈ q ∨ j = k := by
  induction q with
  | nil => simp [joinVerify]
  | cons a q ih =>
    unfold joinVerify
    split
    · simp; grind
    · split
      · simp; grind
      · simp [ih]; grind

theorem mem_foldl_joinVerify (l : List Nat) (j : Nat) :
    ∀ q, j ∈ l.foldl (fun q k => joinVerify k q) q ↔ j ∈ q ∨ j ∈ l := by
  induction l with
  | nil => simp
  | cons a l ih => intro q; simp [ih, mem_joinVerify]; grind

/-- A join keeps the queue in slot number order. -/
theorem joinVerify_rising (k : Nat) {q : List Nat} (h : q.Pairwise (· < ·)) : (joinVerify k q).Pairwise (· < ·) := by
  induction q with
  | nil => simp [joinVerify]
  | cons a q ih =>
    rw [List.pairwise_cons] at h
    unfold joinVerify
    split
    · next hlt =>
      refine List.pairwise_cons.2 ⟨fun b hb => ?_, List.pairwise_cons.2 h⟩
      rcases List.mem_cons.1 hb with rfl | hb
      · exact hlt
      · exact Nat.lt_trans hlt (h.1 b hb)
    · split
      · exact List.pairwise_cons.2 h
      · refine List.pairwise_cons.2 ⟨fun b hb => ?_, ih h.2⟩
        rcases (mem_joinVerify k b q).1 hb with hb | rfl
        · exact h.1 b hb
        · omega

theorem foldl_joinVerify_rising (l : List Nat) :
    ∀ q : List Nat, q.Pairwise (· < ·) → (l.foldl (fun q k => joinVerify k q) q).Pairwise (· < ·) := by
  induction l with
  | nil => exact fun _ h => h
  | cons a l ih => exact fun q h => ih _ (joinVerify_rising a h)

/-- The UNVERIFIED slots of a table in its canonical form. -/
theorem mem_unverified {m : PhotoMemory} (hw : Table.Wf m.slots) (k : Nat) :
    k ∈ m.unverified ↔ ∃ r, Table.find k m.slots = some r ∧ r.state = .unverified := by
  unfold PhotoMemory.unverified
  simp only [List.mem_map, List.mem_filter]
  constructor
  · rintro ⟨⟨a, r⟩, ⟨h1, h2⟩, rfl⟩; exact ⟨r, Table.find_of_mem hw h1, by simpa using h2⟩
  · rintro ⟨r, h1, h2⟩; exact ⟨(k, r), ⟨Table.mem_of_find h1, by simpa using h2⟩, rfl⟩

/-- The first of a rising list to pass a test is the lowest that does. -/
theorem find?_of_lowest {p : Nat → Bool} : ∀ {q : List Nat} {k : Nat}, q.Pairwise (fun a b => a < b) → k ∈ q →
    p k = true → (∀ j ∈ q, j < k → p j = false) → q.find? p = some k := by
  intro q
  induction q with
  | nil => intro k _ h; cases h
  | cons a q ih =>
    intro k hp hk hpk hl
    rw [List.pairwise_cons] at hp
    rcases List.mem_cons.1 hk with rfl | hk'
    · simp [hpk]
    · have := hl a List.mem_cons_self (hp.1 _ hk')
      simp only [List.find?_cons, this]
      exact ih hp.2 hk' hpk (fun j hj h => hl j (List.mem_cons_of_mem _ hj) h)

/-- The slot the engine takes next waits in the queue and is UNVERIFIED, and the engine is idle (R133). -/
theorem nextVerify_some {m : PhotoMemory} {k : Nat} (h : m.nextVerify = some k) :
    m.verifying = none ∧ k ∈ m.verifyQueue ∧ k ∈ m.unverified := by
  unfold PhotoMemory.nextVerify at h
  split at h
  · cases h
  · next hv => exact ⟨hv, List.mem_of_find?_eq_some h, by simpa using List.find?_some h⟩

/-- With nothing to take, nothing changes. -/
theorem takeNext_of_none {m : PhotoMemory} (h : m.nextVerify = none) : m.takeNext = m := by
  simp [PhotoMemory.takeNext, h]

/-- What taking a slot leaves (R133). -/
theorem takeNext_of_some {m : PhotoMemory} {k : Nat} (h : m.nextVerify = some k) :
    m.takeNext = { m with verifying := some k, slots := m.takeNext.slots } ∧
      ∀ j, Table.find j m.takeNext.slots =
        if j = k then (Table.find j m.slots).map (fun r => { r with state := .verifying }) else Table.find j m.slots := by
  simp only [PhotoMemory.takeNext, h, PhotoMemory.setState]
  split
  · next hf =>
    refine ⟨rfl, fun j => ?_⟩
    split
    · next hj => subst hj; simp [hf]
    · rfl
  · next r hf =>
    refine ⟨rfl, fun j => ?_⟩
    simp only [Table.find_insert]
    split
    · next hj => subst hj; simp [hf]
    · next hj => rw [if_neg (Ne.symm hj)]

end Sys2Proof.Machine
end

