-- ==== Sys2Proof/Laws/StartUp.lean ====
section
/-! SUPPORT. The laws of start-up: what a pin reset's rebuilding makes of the slots and of the free list, what the Plan Store
hands as pin counts, and the fields of the state that start-up leaves. -/
namespace Sys2Proof.Machine

/-! ## Tables -/

/-- What a filtered table gives, from a table in its canonical form. -/
theorem Table.find_filterMap {α β : Type} (f : Nat → α → Option β) (t : Table α) (hw : Table.Wf t) (k : Nat) :
    Table.find k (t.filterMap fun e => (f e.1 e.2).map fun r => (e.1, r)) = (Table.find k t).bind (f k) := by
  induction t with
  | nil => rfl
  | cons e t ih =>
    obtain ⟨i, v⟩ := e
    rw [Table.Wf, List.pairwise_cons] at hw
    have ih := ih hw.2
    cases hf : f i v with
    | none =>
      simp only [List.filterMap_cons, hf, Option.map_none, ih, Table.find]
      split
      · next h =>
        subst h
        have : Table.find i t = none := by
          cases hh : Table.find i t with
          | none => rfl
          | some w => have := hw.1 _ (Table.mem_of_find hh); simp at this
        rw [this]; simp [hf]
      · rfl
    | some w =>
      simp only [List.filterMap_cons, hf, Option.map_some, Table.find]
      split
      · next h => subst h; simp [hf]
      · exact ih

theorem Table.filterMap_wf {α β : Type} (f : Nat → α → Option β) (t : Table α) (hw : Table.Wf t) :
    Table.Wf (t.filterMap fun e => (f e.1 e.2).map fun r => (e.1, r)) := by
  unfold Table.Wf at *
  rw [List.pairwise_filterMap]
  refine hw.imp ?_
  rintro ⟨a, v⟩ ⟨b, w⟩ h x hx y hy
  simp at hx hy
  obtain ⟨_, _, rfl⟩ := hx
  obtain ⟨_, _, rfl⟩ := hy
  exact h

/-! ## The free list (R140) -/

/-- The blocks that are left of an entry when a range is taken out of it. -/
theorem mem_without (e r : BlockRange) (b : Nat) (h : 1 ≤ r.count) :
    (∃ x ∈ e.without r, x.start ≤ b ∧ b < x.start + x.count) ↔
      (e.start ≤ b ∧ b < e.start + e.count) ∧ ¬ (r.start ≤ b ∧ b < r.start + r.count) := by
  unfold BlockRange.without
  split
  · simp; omega
  · split <;> split <;> simp <;> omega

/-- What is left lies within the entry, and is no empty range. -/
theorem without_within (e r : BlockRange) : ∀ x ∈ e.without r,
    e.start ≤ x.start ∧ x.start + x.count ≤ e.start + e.count ∧ (1 ≤ e.count → 1 ≤ x.count) := by
  unfold BlockRange.without
  split
  · simp
  · split <;> split <;> simp <;> omega

/-- Ranges in start order that do not touch, as the free list holds them. -/
abbrev Apart (l : List BlockRange) : Prop := l.Pairwise (fun a b => a.start + a.count < b.start)

theorem without_apart (e r : BlockRange) (hr : 1 ≤ r.count) : Apart (e.without r) := by
  unfold BlockRange.without
  split
  · simp
  · split <;> split <;> simp <;> omega

theorem flatMap_without_apart (l : List BlockRange) (r : BlockRange) (hr : 1 ≤ r.count) (h : Apart l) :
    Apart (l.flatMap (fun x => x.without r)) := by
  induction l with
  | nil => simp
  | cons a l ih =>
    rw [Apart, List.pairwise_cons] at h
    simp only [List.flatMap_cons]
    rw [Apart, List.pairwise_append]
    refine ⟨without_apart a r hr, ih h.2, fun x hx y hy => ?_⟩
    obtain ⟨z, hz, hy⟩ := List.mem_flatMap.1 hy
    have := without_within _ _ _ hx
    have := without_within _ _ _ hy
    have := h.1 z hz
    omega

theorem foldl_without (slots : Table Slot) : ∀ (l : List BlockRange), (∀ e ∈ slots, 1 ≤ e.2.range.count) → Apart l →
    (∀ e ∈ l, 1 ≤ e.count) →
    Apart (slots.foldl (fun free e => free.flatMap (fun x => x.without e.2.range)) l) ∧
    (∀ e ∈ slots.foldl (fun free e => free.flatMap (fun x => x.without e.2.range)) l, 1 ≤ e.count) ∧
    ∀ b, (∃ x ∈ slots.foldl (fun free e => free.flatMap (fun x => x.without e.2.range)) l,
        x.start ≤ b ∧ b < x.start + x.count) ↔
      (∃ x ∈ l, x.start ≤ b ∧ b < x.start + x.count) ∧
        ∀ e ∈ slots, ¬ (e.2.range.start ≤ b ∧ b < e.2.range.start + e.2.range.count) := by
  induction slots with
  | nil => intro l _ h1 h2; exact ⟨h1, h2, fun b => by simp⟩
  | cons a slots ih =>
    intro l hc h1 h2
    have ha := hc a List.mem_cons_self
    obtain ⟨g1, g2, g3⟩ := ih (l.flatMap (fun x => x.without a.2.range)) (fun e he => hc e (List.mem_cons_of_mem _ he))
      (flatMap_without_apart l _ ha h1) (by
        intro e he
        obtain ⟨z, hz, he⟩ := List.mem_flatMap.1 he
        exact (without_within _ _ _ he).2.2 (h2 z hz))
    refine ⟨g1, g2, fun b => ?_⟩
    rw [List.foldl_cons, g3 b]
    have : (∃ x ∈ l.flatMap (fun x => x.without a.2.range), x.start ≤ b ∧ b < x.start + x.count) ↔
        (∃ x ∈ l, x.start ≤ b ∧ b < x.start + x.count) ∧
          ¬ (a.2.range.start ≤ b ∧ b < a.2.range.start + a.2.range.count) := by
      constructor
      · rintro ⟨x, hx, hb⟩
        obtain ⟨z, hz, hx⟩ := List.mem_flatMap.1 hx
        have h := (mem_without z a.2.range b ha).1 ⟨x, hx, hb⟩
        exact ⟨⟨z, hz, h.1⟩, h.2⟩
      · rintro ⟨⟨z, hz, hb⟩, hn⟩
        obtain ⟨x, hx, hb⟩ := (mem_without z a.2.range b ha).2 ⟨hb, hn⟩
        exact ⟨x, List.mem_flatMap.2 ⟨z, hz, hx⟩, hb⟩
    rw [this]
    simp; grind

/-- The rebuilt free list: in start order, with no empty and no touching ranges, and holding exactly the blocks of no
slot. -/
theorem freeOfSlots_spec (slots : Table Slot) (h : ∀ e ∈ slots, 1 ≤ e.2.range.count) :
    Apart (freeOfSlots slots) ∧ (∀ e ∈ freeOfSlots slots, 1 ≤ e.count) ∧
    ∀ b, b < 6144 → ((∃ x ∈ freeOfSlots slots, x.start ≤ b ∧ b < x.start + x.count) ↔
      ∀ e ∈ slots, ¬ (e.2.range.start ≤ b ∧ b < e.2.range.start + e.2.range.count)) := by
  obtain ⟨h1, h2, h3⟩ := foldl_without slots PhotoMemory.reset.free h (by simp [PhotoMemory.reset])
    (by simp [PhotoMemory.reset, Config.dramBlocks])
  refine ⟨h1, h2, fun b hb => (h3 b).trans ⟨fun g => g.2, fun g => ⟨?_, g⟩⟩⟩
  exact ⟨⟨0, Config.dramBlocks, Nat.le_of_eq (Nat.zero_add _)⟩, by simp [PhotoMemory.reset], by simp,
    by simpa [Config.dramBlocks] using hb⟩

/-! ## Slots and pins (R44, R140) -/

/-- A slot after a pin reset, with its pin count. -/
theorem retainedSlots_eq (pins : Nat → Nat) (slots : Table Slot) : ∃ f : Nat → Slot → Option Slot,
    (∀ k r, f k r = r.retained.map fun q => { q with pins := pins k }) ∧
    retainedSlots pins slots = slots.filterMap fun e => (f e.1 e.2).map fun r => (e.1, r) := by
  refine ⟨fun k r => r.retained.map fun q => { q with pins := pins k }, fun _ _ => rfl, ?_⟩
  unfold retainedSlots
  congr 1; funext e; simp [Function.comp_def]

/-- The slot record that a retained slot's number gives. -/
theorem find_retainedSlots (pins : Nat → Nat) {slots : Table Slot} (hw : Table.Wf slots) (k : Nat) :
    Table.find k (retainedSlots pins slots) =
      (Table.find k slots).bind fun r => r.retained.map fun q => { q with pins := pins k } := by
  obtain ⟨f, hf, h⟩ := retainedSlots_eq pins slots
  rw [h, Table.find_filterMap f _ hw]
  congr 1; funext r; exact hf k r

theorem retainedSlots_wf (pins : Nat → Nat) {slots : Table Slot} (hw : Table.Wf slots) :
    Table.Wf (retainedSlots pins slots) := by
  obtain ⟨f, _, h⟩ := retainedSlots_eq pins slots
  rw [h]; exact Table.filterMap_wf f _ hw

/-- The statements' count of PHOTO placements is the one the Plan Store hands. -/
theorem photoPlacements_eq (s : State) (k : Nat) : photoPlacements s k = planPins s.plans k := by
  have one : ∀ (p : PanelNo) (m : List DayPart) (n : Nat),
      m.foldl (fun n d => n + ((s.plans.get p).get d).pins k) n =
        n + (m.flatMap fun d => (s.plan p d).placements).countP fun pl => pl.kind = .photo k := by
    intro p m
    induction m with
    | nil => simp
    | cons d m ih =>
      intro n; rw [List.foldl_cons, ih]
      simp only [List.flatMap_cons, List.countP_append]; simp [Plan.pins, State.plan]; omega
  have all : ∀ (l : List PanelNo) (n : Nat),
      l.foldl (fun n p => allDayParts.foldl (fun n d => n + ((s.plans.get p).get d).pins k) n) n =
        n + (l.flatMap fun p => allDayParts.flatMap fun d => (s.plan p d).placements).countP
          fun pl => pl.kind = .photo k := by
    intro l
    induction l with
    | nil => simp
    | cons p l ih =>
      intro n
      rw [List.foldl_cons, ih, one]
      simp only [List.flatMap_cons, List.countP_append]; omega
  unfold photoPlacements planPins
  rw [all]; simp

/-! ## The state after start-up (R210) -/

theorem startTickTimers_eq (s : State) : s.startTickTimers = { s with timers := s.startTickTimers.timers } := by
  unfold State.startTickTimers; dsimp only; split <;> rfl

/-- Start-up is the reset with the profile as burned, and what it does to ports and timers. -/
theorem startUp_eq (s : State) (kind : ResetKind) : s.startUp kind =
    { (({ s with inForce := s.burned } : State).takeReset kind .running).dealRetained kind with
      ports := (s.startUp kind).ports, timers := (s.startUp kind).timers } := by
  conv => lhs; unfold State.startUp
  dsimp only
  rw [startTickTimers_eq]
  rfl

theorem startUp_inForce (s : State) (kind : ResetKind) : (s.startUp kind).inForce = s.burned := by
  rw [startUp_eq]; cases kind <;> rfl

theorem startUp_profileNat (s : State) (kind : ResetKind) (n : Nat) :
    (s.startUp kind).profileNat n = ({ s with inForce := s.burned } : State).profileNat n := by
  unfold State.profileNat; rw [startUp_inForce]

theorem startUp_port (s : State) (kind : ResetKind) (p : PortId) :
    (s.startUp kind).port p = ({ s with inForce := s.burned } : State).startedPort p := by
  cases p with
  | store => rfl
  | media => rfl
  | lane l => match l with | 0 => rfl | 1 => rfl

/-- Photo Memory after the start-up of a pin reset (R140, step 4 of R210). -/
theorem startUp_photo (s : State) :
    (s.startUp .pin).photo = s.photo.retained (photoPlacements (s.startUp .pin)) (s.startUp .pin).fullStartUp := by
  have h : photoPlacements (s.startUp .pin) = planPins (s.startUp .pin).plans := funext (photoPlacements_eq _)
  rw [h, startUp_eq]
  rfl

/-! ## The reset tables -/

theorem linkReset_atReset (fitted : Bool) : LinkAtReset (Link.reset fitted) fitted := by
  unfold LinkAtReset
  cases fitted <;> exact ⟨rfl, rfl, rfl, rfl, rfl, rfl, rfl, rfl, rfl, rfl, rfl, rfl, rfl, rfl, rfl, rfl⟩

theorem photoReset_atPowerOn : PhotoAtPowerOn PhotoMemory.reset := ⟨rfl, rfl, rfl, rfl, rfl, rfl, rfl⟩

/-- What a reset leaves of the blocks that both kinds of reset leave alike. -/
theorem takeReset_blocksAtReset (s : State) (kind : ResetKind) (phase : Phase) :
    BlocksAtReset (s.takeReset kind phase) s.linkFitted := by
  refine ⟨rfl, rfl, rfl, fun p => PerPanel.get_ofFn _ p, rfl, rfl, rfl, fun p => PerPanel.get_ofFn _ p, rfl,
    fun p => PerPanel.get_ofFn _ p, rfl, fun p => ?_, fun l => ?_, rfl, rfl, rfl, rfl, rfl, rfl, rfl⟩
  · have h : (s.takeReset kind phase).link p = Link.reset (s.linkFitted p) := PerPanel.get_ofFn _ p
    rw [h]; exact linkReset_atReset _
  · match l with
    | 0 => rfl
    | 1 => rfl

theorem startUp_blocksAtReset (s : State) (kind : ResetKind) :
    BlocksAtReset (s.startUp kind) (s.startUp kind).linkFitted := by
  have hf : (s.startUp kind).linkFitted = ({ s with inForce := s.burned } : State).linkFitted :=
    funext fun p => by unfold State.linkFitted; rw [startUp_profileNat]
  have h := takeReset_blocksAtReset { s with inForce := s.burned } kind .running
  rw [hf, startUp_eq]
  cases kind <;> exact h

theorem startUp_power (s : State) : PhotoAtPowerOn (s.startUp .power).photo := by
  rw [startUp_eq]; exact photoReset_atPowerOn

end Sys2Proof.Machine
end

