-- ==== Sys2Proof/Laws/PhotoSound.lean ====
section
/-! SUPPORT. Photo Memory stays sound through each change the machine makes of it: the lemmas that PhotoSound of Safety.lean
rests on. -/
namespace Sys2Proof.Machine

/-- Soundness as a property of Photo Memory alone. -/
abbrev PhotoMemory.Sound (m : PhotoMemory) : Prop :=
  Memory.Wf m.memory ∧ Table.Wf m.slots ∧ (∀ e ∈ m.slots, 1 ≤ e.2.range.count) ∧ (∃ x, m.openLoad = .ok x) ∧
    m.verifyQueue.Pairwise (fun a b => a < b) ∧
    ∀ k, m.verifying = some k → ∃ r, Table.find k m.slots = some r ∧ r.state = .verifying

theorem photoSound_iff (s : State) : PhotoSound s ↔ s.photo.Sound := Iff.rfl

/-- The load session fits its slot. -/
theorem openLoad_ok_iff (m : PhotoMemory) : (∃ x, m.openLoad = .ok x) ↔ ∀ ls, m.session = some ls →
    ∃ r, Table.find ls.slot m.slots = some r ∧ r.state = .loading ∧ ls.expected < r.range.count := by
  unfold PhotoMemory.openLoad
  cases m.session with
  | none => simp
  | some ls =>
    dsimp only
    cases h : Table.find ls.slot m.slots with
    | none => simp [h]
    | some r =>
      dsimp only
      by_cases hc : r.state = .loading ∧ ls.expected < r.range.count
      · simp [h, hc]
      · rw [if_neg hc]; simp [h]; simpa using hc

theorem countsPositive_iff {t : Table Slot} (hw : Table.Wf t) :
    (∀ e ∈ t, 1 ≤ e.2.range.count) ↔ ∀ k r, Table.find k t = some r → 1 ≤ r.range.count :=
  ⟨fun h _ _ hk => h _ (Table.mem_of_find hk), fun h e he => h e.1 e.2 (Table.find_of_mem hw he)⟩

theorem PhotoMemory.Sound.count {m : PhotoMemory} (h : m.Sound) {k : Nat} {r : Slot}
    (hr : Table.find k m.slots = some r) : 1 ≤ r.range.count := (countsPositive_iff h.2.1).1 h.2.2.1 _ _ hr

/-- Handed pin differences. -/
theorem PhotoMemory.Sound.movePins {m : PhotoMemory} (h : m.Sound) (a b : Nat → Nat) : (m.movePins a b).Sound := by
  obtain ⟨h1, h2, h3, h4, h5, h6⟩ := h
  rw [openLoad_ok_iff] at h4
  refine ⟨h1, ?_, ?_, ?_, h5, ?_⟩
  · exact Table.mapValues_wf h2 (fun k (r : Slot) => { r with pins := r.pins + b k - a k })
  · refine (countsPositive_iff (Table.mapValues_wf h2
      (fun k (r : Slot) => { r with pins := r.pins + b k - a k }))).2 fun k r hk => ?_
    rw [Table.find_mapValues] at hk
    obtain ⟨q, hq, rfl⟩ := Option.map_eq_some_iff.1 hk
    exact (countsPositive_iff h2).1 h3 k q hq
  · rw [openLoad_ok_iff]
    intro ls hls
    obtain ⟨r, hr, x, y⟩ := h4 ls hls
    exact ⟨{ r with pins := r.pins + b ls.slot - a ls.slot },
      (Table.find_mapValues (fun k (r : Slot) => { r with pins := r.pins + b k - a k }) _ _).trans (by rw [hr]; rfl),
      x, y⟩
  · intro k hk
    obtain ⟨r, hr, x⟩ := h6 k hk
    exact ⟨{ r with pins := r.pins + b k - a k },
      (Table.find_mapValues (fun k (r : Slot) => { r with pins := r.pins + b k - a k }) _ _).trans (by rw [hr]; rfl), x⟩

/-- A record put in for a slot that is neither loading nor under verification. -/
theorem PhotoMemory.Sound.insert {m : PhotoMemory} (h : m.Sound) (k : Nat) (v : Slot) (hv : 1 ≤ v.range.count)
    (hver : m.verifying ≠ some k) (hses : ∀ ls, m.session = some ls → ls.slot ≠ k) :
    PhotoMemory.Sound { m with slots := Table.insert k v m.slots } := by
  obtain ⟨h1, h2, h3, h4, h5, h6⟩ := h
  rw [openLoad_ok_iff] at h4
  refine ⟨h1, Table.insert_wf h2 _ _, ?_, ?_, h5, ?_⟩
  · intro e he
    rcases Table.mem_insert he with rfl | he
    · exact hv
    · exact h3 e he
  · rw [openLoad_ok_iff]
    intro ls hls
    obtain ⟨r, hr, x⟩ := h4 ls hls
    exact ⟨r, by rw [Table.find_insert_of_ne (Ne.symm (hses ls hls))]; exact hr, x⟩
  · intro j hj
    obtain ⟨r, hr, x⟩ := h6 j hj
    exact ⟨r, by rw [Table.find_insert_of_ne (by rintro rfl; exact hver hj)]; exact hr, x⟩

theorem PhotoMemory.Sound.noSession {m : PhotoMemory} (h : m.Sound) (r : Option LastLoad) :
    PhotoMemory.Sound { m with session := none, lastLoad := r } :=
  ⟨h.1, h.2.1, h.2.2.1, ⟨none, rfl⟩, h.2.2.2.2⟩

/-- The slot being loaded is not the one under verification. -/
theorem PhotoMemory.Sound.verifying_ne {m : PhotoMemory} (h : m.Sound) {ls : LoadSession}
    (hls : m.session = some ls) : m.verifying ≠ some ls.slot := by
  intro hv
  obtain ⟨r, hr, x⟩ := h.2.2.2.2.2 _ hv
  obtain ⟨q, hq, y, _⟩ := (openLoad_ok_iff m).1 h.2.2.2.1 ls hls
  rw [hr] at hq; cases hq; rw [x] at y; cases y

theorem PhotoMemory.Sound.queue {m : PhotoMemory} (h : m.Sound) (q : List Nat) (hq : q.Pairwise (fun a b => a < b)) :
    PhotoMemory.Sound { m with verifyQueue := q } :=
  ⟨h.1, h.2.1, h.2.2.1, h.2.2.2.1, hq, h.2.2.2.2.2⟩

/-- The session ends with its slot in a new state. -/
theorem PhotoMemory.Sound.close {m : PhotoMemory} (h : m.Sound) {ls ls' : LoadSession} (hls : m.session = some ls)
    (hl : ls'.slot = ls.slot) (st : SlotState) (o : LoadOutcome) :
    PhotoMemory.Sound ((m.setState ls'.slot st).endSession ls' o) := by
  unfold PhotoMemory.endSession PhotoMemory.setState
  rw [hl]
  split
  · exact h.noSession _
  · next r hr =>
    have := (h.noSession (some ⟨ls'.slot, ls'.received, o⟩)).insert ls.slot { r with state := st }
      (show 1 ≤ r.range.count from h.count hr) (h.verifying_ne hls) (by rintro _ ⟨⟩)
    rw [hl] at this
    exact this

/-- A slot that is neither loading nor under verification becomes EMPTY. -/
theorem PhotoMemory.Sound.empty {m : PhotoMemory} (h : m.Sound) (k : Nat) (hver : m.verifying ≠ some k)
    (hses : ∀ ls, m.session = some ls → ls.slot ≠ k) : (m.empty k).Sound := by
  unfold PhotoMemory.empty
  split
  · exact h
  · next r hr =>
    obtain ⟨h1, h2, h3, h4, h5, h6⟩ := h
    rw [openLoad_ok_iff] at h4
    refine ⟨h1, Table.erase_wf h2 _, ?_, ?_, h5.filter _, ?_⟩
    · intro e he; exact h3 e (List.mem_filter.1 he).1
    · rw [openLoad_ok_iff]
      intro ls hls
      obtain ⟨r, hr, x⟩ := h4 ls hls
      exact ⟨r, by rw [Table.find_erase_of_ne (Ne.symm (hses ls hls))]; exact hr, x⟩
    · intro j hj
      obtain ⟨r, hr, x⟩ := h6 j hj
      exact ⟨r, by rw [Table.find_erase_of_ne (by rintro rfl; exact hver hj)]; exact hr, x⟩

/-- The session ends with its slot EMPTY. -/
theorem PhotoMemory.Sound.drop {m : PhotoMemory} (h : m.Sound) {ls : LoadSession} (hls : m.session = some ls)
    (o : LoadOutcome) : PhotoMemory.Sound ((m.empty ls.slot).endSession ls o) := by
  have e : (m.empty ls.slot).endSession ls o =
      PhotoMemory.empty { m with session := none, lastLoad := some ⟨ls.slot, ls.received, o⟩ } ls.slot := by
    unfold PhotoMemory.endSession PhotoMemory.empty
    dsimp only
    split
    · rfl
    · rfl
  rw [e]
  exact (h.noSession _).empty _ (h.verifying_ne hls) (by rintro _ ⟨⟩)

/-- The engine takes a slot. -/
theorem PhotoMemory.Sound.takeNext {m : PhotoMemory} (h : m.Sound) : m.takeNext.Sound := by
  cases hn : m.nextVerify with
  | none => rw [takeNext_of_none hn]; exact h
  | some k =>
    obtain ⟨hv, hq, hu⟩ := nextVerify_some hn
    obtain ⟨r, hr, hru⟩ := (mem_unverified h.2.1 k).1 hu
    have := h.insert k { r with state := .verifying } (show 1 ≤ r.range.count from h.count hr) (by rw [hv]; simp)
      (by
      intro ls hls e
      obtain ⟨q, hq, y, _⟩ := (openLoad_ok_iff m).1 h.2.2.2.1 ls hls
      rw [e, hr] at hq; cases hq; rw [hru] at y; cases y)
    have e : m.takeNext =
        { m with slots := Table.insert k { r with state := .verifying } m.slots, verifying := some k } := by
      simp [PhotoMemory.takeNext, hn, PhotoMemory.setState, hr]
    rw [e]
    refine ⟨this.1, this.2.1, this.2.2.1, this.2.2.2.1, this.2.2.2.2.1, ?_⟩
    rintro _ ⟨⟩
    exact ⟨_, Table.find_insert_self _ _ _, rfl⟩

/-- A verification ends with its verdict. -/
theorem PhotoMemory.Sound.judged {m : PhotoMemory} (h : m.Sound) {k : Nat} (hk : m.verifying = some k) :
    (m.judged k).Sound := by
  obtain ⟨r, hr, hrv⟩ := h.2.2.2.2.2 k hk
  have h0 : PhotoMemory.Sound { m with verifyQueue := m.verifyQueue.filter (fun j => j ≠ k), verifying := none } :=
    ⟨h.1, h.2.1, h.2.2.1, h.2.2.2.1, h.2.2.2.2.1.filter _, by rintro _ ⟨⟩⟩
  have := h0.insert k { r with state := if m.intact k then .ready else .damaged .verifyChecksum }
    (show 1 ≤ r.range.count from h.count hr) (by rintro ⟨⟩) (by
      intro ls hls e
      obtain ⟨q, hq, y, _⟩ := (openLoad_ok_iff m).1 h.2.2.2.1 ls hls
      rw [e, hr] at hq; cases hq; rw [hrv] at y; cases y)
  have e : m.judged k = { m with
      slots := Table.insert k { r with state := if m.intact k then .ready else .damaged .verifyChecksum } m.slots
      verifyQueue := m.verifyQueue.filter (fun j => j ≠ k)
      verifying := none } := by
    simp [PhotoMemory.judged, PhotoMemory.setState, hr]
  rw [e]; exact this

/-- A block before the last is stored. -/
theorem PhotoMemory.Sound.store {m : PhotoMemory} (h : m.Sound) {ls : LoadSession} {r : Slot}
    (ho : m.openLoad = .ok (some (ls, r))) (a : Nat) (data : List Byte) (reg : BitVec 32)
    (hx : ls.expected + 1 < r.range.count) :
    PhotoMemory.Sound { m with
      memory := Memory.write a data m.memory
      session := some ⟨ls.slot, ls.expected + 1, ls.received + 1, reg⟩ } := by
  refine ⟨Memory.write_wf h.1 _ _, h.2.1, h.2.2.1, ?_, h.2.2.2.2⟩
  rw [openLoad_ok_iff]
  rintro _ ⟨⟩
  unfold PhotoMemory.openLoad at ho
  split at ho
  · cases ho
  · split at ho
    · cases ho
    · next hr =>
      split at ho
      · next hc => cases ho; exact ⟨_, hr, hc.1, hx⟩
      · cases ho

/-- An allocated range has the count asked for (R121). -/
theorem allocate_count {n : Nat} : ∀ {l l' : List BlockRange} {r : BlockRange}, allocate n l = some (r, l') → r.count = n := by
  intro l
  induction l with
  | nil => intro l' r h; cases h
  | cons e es ih =>
    intro l' r h
    unfold allocate at h
    split at h
    · dsimp only at h; split at h <;> cases h <;> rfl
    · obtain ⟨⟨a, b⟩, hx, hy⟩ := Option.map_eq_some_iff.1 h
      cases hy; exact ih hx

/-- A load begins. -/
theorem PhotoMemory.Sound.beginLoad {m : PhotoMemory} (h : m.Sound) (hs : m.session = none) {k n : Nat}
    (hk : Table.find k m.slots = none) {r : BlockRange} {l : List BlockRange} (ha : allocate n m.free = some (r, l))
    (hn : 1 ≤ n) (w hh : Nat) (c reg : BitVec 32) :
    PhotoMemory.Sound { m with
      slots := Table.insert k ⟨.loading, r, w, hh, c, 0⟩ m.slots, free := l, session := some ⟨k, 0, 0, reg⟩ } := by
  have hc := allocate_count ha
  have := h.insert k ⟨.loading, r, w, hh, c, 0⟩ (by show 1 ≤ r.count; omega) (by
    intro hv; obtain ⟨q, hq, _⟩ := h.2.2.2.2.2 _ hv; rw [hk] at hq; cases hq) (by rw [hs]; rintro _ ⟨⟩)
  refine ⟨this.1, this.2.1, this.2.2.1, ?_, this.2.2.2.2⟩
  rw [openLoad_ok_iff]
  rintro _ ⟨⟩
  exact ⟨_, Table.find_insert_self _ _ _, rfl, by show 0 < r.count; omega⟩

theorem PhotoMemory.Sound.held {m : PhotoMemory} (h : m.Sound) : m.held.Sound :=
  ⟨h.1, h.2.1, h.2.2.1, ⟨none, rfl⟩, List.Pairwise.nil, by rintro _ ⟨⟩⟩

theorem PhotoMemory.Sound.joinAll {m : PhotoMemory} (h : m.Sound) : m.joinAll.Sound :=
  h.queue _ (foldl_joinVerify_rising _ _ h.2.2.2.2.1)

theorem PhotoMemory.Sound.reset : PhotoMemory.reset.Sound :=
  ⟨⟨List.Pairwise.nil, nofun⟩, List.Pairwise.nil, nofun, ⟨none, rfl⟩, List.Pairwise.nil, nofun⟩

/-- What start-up makes of the retained slots. -/
theorem PhotoMemory.Sound.retained {m : PhotoMemory} (h : m.Sound) (p : Nat → Nat) (f : Bool) : (m.retained p f).Sound := by
  have : PhotoMemory.Sound
      { m.held with slots := retainedSlots p m.slots, free := freeOfSlots (retainedSlots p m.slots) } := by
    refine ⟨h.1, retainedSlots_wf p h.2.1, ?_, ⟨none, rfl⟩, List.Pairwise.nil, by rintro _ ⟨⟩⟩
    rw [countsPositive_iff (retainedSlots_wf p h.2.1)]
    intro k r hk
    rw [find_retainedSlots p h.2.1] at hk
    obtain ⟨q, hq, hk⟩ := Option.bind_eq_some_iff.1 hk
    obtain ⟨x, hx, rfl⟩ := Option.map_eq_some_iff.1 hk
    have := (countsPositive_iff h.2.1).1 h.2.2.1 _ _ hq
    unfold Slot.retained at hx
    split at hx <;> cases hx <;> exact this
  unfold PhotoMemory.retained
  dsimp only
  split
  · exact (PhotoMemory.Sound.joinAll this).takeNext
  · exact this

end Sys2Proof.Machine
end

