-- ==== Sys2Proof/Laws/Blocks.lean ====
section
/-! SUPPORT. What taking and releasing block ranges leaves of the free list, and that every change of Photo Memory keeps each
block accounted for: the lemmas that BlocksAccounted of Safety.lean rests on (chapter 6). -/
namespace Sys2Proof.Machine

/-! ## Release (R122) -/

theorem exists_has_cons (e : BlockRange) (es : List BlockRange) (b : Nat) :
    (∃ x ∈ e :: es, x.has b) ↔ e.has b ∨ ∃ x ∈ es, x.has b := by simp

theorem has_freeFront (r : BlockRange) (l : List BlockRange) (b : Nat) :
    (∃ e ∈ freeFront r l, e.has b) ↔ r.has b ∨ ∃ e ∈ l, e.has b := by
  cases l with
  | nil => simp [freeFront]
  | cons e es =>
    simp only [freeFront]
    split
    · next h =>
      rw [exists_has_cons, exists_has_cons, ← or_assoc]
      refine or_congr_left ?_
      simp only [BlockRange.has, BlockRange.join]
      omega
    · rw [exists_has_cons]

/-- A block is free after a release exactly when it was free or lies in the released range. -/
theorem has_release (r : BlockRange) (b : Nat) : ∀ l : List BlockRange,
    (∃ e ∈ release r l, e.has b) ↔ (∃ e ∈ l, e.has b) ∨ r.has b := by
  intro l
  induction l with
  | nil => simp [release]
  | cons e es ih =>
    unfold release
    split
    · next h =>
      rw [has_freeFront, exists_has_cons]
      have : (e.join r h).has b ↔ e.has b ∨ r.has b := by simp only [BlockRange.has, BlockRange.join]; omega
      rw [this]
      exact ⟨fun g => g.elim (fun g => g.elim (fun g => .inl (.inl g)) .inr) (fun g => .inl (.inr g)),
        fun g => g.elim (fun g => g.elim (fun g => .inl (.inl g)) .inr) (fun g => .inl (.inr g))⟩
    · split
      · rw [has_freeFront]; exact or_comm
      · rw [exists_has_cons, ih, exists_has_cons, or_assoc]

theorem freeListOrdered_cons {e : BlockRange} {es : List BlockRange} : FreeListOrdered (e :: es) ↔
    1 ≤ e.count ∧ (∀ x ∈ es, e.start + e.count < x.start) ∧ FreeListOrdered es := by
  unfold FreeListOrdered
  rw [List.pairwise_cons, List.forall_mem_cons]
  exact ⟨fun h => ⟨h.2.1, h.1.1, h.1.2, h.2.2⟩, fun h => ⟨⟨h.2.1, h.2.2.1⟩, h.1, h.2.2.2⟩⟩

theorem freeFront_ordered {r : BlockRange} {l : List BlockRange} (hr : 1 ≤ r.count) (hl : FreeListOrdered l)
    (h : ∀ x ∈ l, r.start + r.count ≤ x.start) : FreeListOrdered (freeFront r l) := by
  cases l with
  | nil => exact freeListOrdered_cons.2 ⟨hr, by simp, hl⟩
  | cons e es =>
    obtain ⟨h1, h2, h3⟩ := freeListOrdered_cons.1 hl
    have he := h e List.mem_cons_self
    simp only [freeFront]
    split
    · next ht =>
      refine freeListOrdered_cons.2 ⟨?_, fun x hx => ?_, h3⟩
      · show 1 ≤ r.count + e.count; omega
      · show r.start + (r.count + e.count) < x.start; have := h2 x hx; omega
    · next ht =>
      refine freeListOrdered_cons.2 ⟨hr, fun x hx => ?_, hl⟩
      rcases List.mem_cons.1 hx with rfl | hx
      · omega
      · have := h2 x hx; omega

theorem start_freeFront {r x : BlockRange} {l : List BlockRange} (h : x ∈ freeFront r l) :
    x.start = r.start ∨ ∃ y ∈ l, x.start = y.start := by
  cases l with
  | nil => exact .inl (by rw [List.mem_singleton.1 h])
  | cons e es =>
    simp only [freeFront] at h
    split at h
    · rcases List.mem_cons.1 h with rfl | h
      · exact .inl rfl
      · exact .inr ⟨x, List.mem_cons_of_mem _ h, rfl⟩
    · rcases List.mem_cons.1 h with rfl | h
      · exact .inl rfl
      · exact .inr ⟨x, h, rfl⟩

theorem start_release {r x : BlockRange} : ∀ {l : List BlockRange}, x ∈ release r l →
    x.start = r.start ∨ ∃ y ∈ l, x.start = y.start := by
  intro l
  induction l with
  | nil => intro h; exact .inl (by rw [List.mem_singleton.1 h])
  | cons e es ih =>
    intro h
    unfold release at h
    split at h
    · rcases start_freeFront h with h | ⟨y, hy, h⟩
      · exact .inr ⟨e, List.mem_cons_self, h⟩
      · exact .inr ⟨y, List.mem_cons_of_mem _ hy, h⟩
    · split at h
      · exact start_freeFront h
      · rcases List.mem_cons.1 h with rfl | h
        · exact .inr ⟨x, List.mem_cons_self, rfl⟩
        · exact (ih h).imp id fun ⟨y, hy, h⟩ => ⟨y, List.mem_cons_of_mem _ hy, h⟩

/-- Two ranges of at least one block that share none: one ends where the other starts, or before. -/
theorem apart_of_disjoint {a b : BlockRange} (ha : 1 ≤ a.count) (hb : 1 ≤ b.count) (h : ∀ n, a.has n → ¬ b.has n) :
    a.start + a.count ≤ b.start ∨ b.start + b.count ≤ a.start := by
  have h1 := h a.start
  have h2 := h b.start
  simp only [BlockRange.has] at h1 h2
  omega

/-- A release of a range that is not free keeps the list in start order with no two entries that touch. -/
theorem release_ordered {r : BlockRange} (hr : 1 ≤ r.count) : ∀ {l : List BlockRange}, FreeListOrdered l →
    (∀ e ∈ l, ∀ b, r.has b → ¬ e.has b) → FreeListOrdered (release r l) := by
  intro l
  induction l with
  | nil => intro hl _; exact freeListOrdered_cons.2 ⟨hr, by simp, hl⟩
  | cons e es ih =>
    intro hl hd
    obtain ⟨h1, h2, h3⟩ := freeListOrdered_cons.1 hl
    have hes : ∀ x ∈ es, 1 ≤ x.count := fun x hx => hl.2 x (List.mem_cons_of_mem _ hx)
    have apart : ∀ x ∈ e :: es, r.start + r.count ≤ x.start ∨ x.start + x.count ≤ r.start := fun x hx =>
      apart_of_disjoint hr (hl.2 x hx) (hd x hx)
    unfold release
    split
    · next ht =>
      refine freeFront_ordered (show 1 ≤ e.count + r.count by omega) h3 fun x hx => ?_
      show e.start + (e.count + r.count) ≤ x.start
      have := apart x (List.mem_cons_of_mem _ hx); have := h2 x hx; have := hes x hx
      omega
    · next ht =>
      split
      · next hlt =>
        have := apart e List.mem_cons_self
        refine freeFront_ordered hr hl fun x hx => ?_
        rcases List.mem_cons.1 hx with rfl | hx
        · omega
        · have := h2 x hx; omega
      · next hlt =>
        have := apart e List.mem_cons_self
        refine freeListOrdered_cons.2 ⟨h1, fun x hx => ?_, ih h3 fun x hx => hd x (List.mem_cons_of_mem _ hx)⟩
        rcases start_release hx with h | ⟨y, hy, h⟩
        · omega
        · have := h2 y hy; omega

/-! ## First fit (R121) -/

/-- What an allocation leaves: the free blocks are those left and those taken, which share none, and the list stays in
order. -/
theorem allocate_spec {n : Nat} (hn : 1 ≤ n) : ∀ {l l' : List BlockRange} {r : BlockRange}, FreeListOrdered l →
    allocate n l = some (r, l') →
    FreeListOrdered l' ∧ (∀ b, (∃ e ∈ l, e.has b) ↔ (∃ e ∈ l', e.has b) ∨ r.has b) ∧
      (∀ e ∈ l', ∀ b, r.has b → ¬ e.has b) ∧ (∀ x ∈ l', ∃ y ∈ l, y.start ≤ x.start) := by
  intro l
  induction l with
  | nil => intro l' r _ h; cases h
  | cons e es ih =>
    intro l' r hl h
    obtain ⟨h1, h2, h3⟩ := freeListOrdered_cons.1 hl
    unfold allocate at h
    split at h
    · next hle =>
      dsimp only at h
      split at h
      · next heq =>
        cases h
        refine ⟨h3, fun b => ?_, fun x hx b hb => ?_, fun x hx => ⟨x, List.mem_cons_of_mem _ hx, Nat.le_refl _⟩⟩
        · rw [exists_has_cons, or_comm]; simp only [BlockRange.has, heq]
        · have := h2 x hx; simp only [BlockRange.has] at hb ⊢; omega
      · next hne =>
        cases h
        refine ⟨freeListOrdered_cons.2 ⟨by show 1 ≤ e.count - n; omega, fun x hx => ?_, h3⟩, fun b => ?_,
          fun x hx b hb => ?_, fun x hx => ?_⟩
        · show e.start + n + (e.count - n) < x.start; have := h2 x hx; omega
        · rw [exists_has_cons, exists_has_cons, or_right_comm]
          refine or_congr_left ?_
          simp only [BlockRange.has]; omega
        · rcases List.mem_cons.1 hx with rfl | hx
          · simp only [BlockRange.has] at hb ⊢; omega
          · have := h2 x hx; simp only [BlockRange.has] at hb ⊢; omega
        · rcases List.mem_cons.1 hx with rfl | hx
          · exact ⟨e, List.mem_cons_self, by show e.start ≤ e.start + n; omega⟩
          · exact ⟨x, List.mem_cons_of_mem _ hx, Nat.le_refl _⟩
    · obtain ⟨⟨a, c⟩, hx, hy⟩ := Option.map_eq_some_iff.1 h
      cases hy
      obtain ⟨i1, i2, i3, i4⟩ := ih h3 hx
      refine ⟨freeListOrdered_cons.2 ⟨h1, fun x hx => ?_, i1⟩, fun b => ?_, fun x hx b hb hxb => ?_, fun x hx => ?_⟩
      · obtain ⟨y, hy, hle⟩ := i4 x hx; have := h2 y hy; omega
      · rw [exists_has_cons, exists_has_cons, i2, or_assoc]
      · rcases List.mem_cons.1 hx with rfl | hx
        · obtain ⟨y, hy, hyb⟩ := (i2 b).2 (.inr hb)
          have := h2 y hy
          simp only [BlockRange.has] at hxb hyb; omega
        · exact i3 x hx b hb hxb
      · rcases List.mem_cons.1 hx with rfl | hx
        · exact ⟨x, List.mem_cons_self, Nat.le_refl _⟩
        · obtain ⟨y, hy, hle⟩ := i4 x hx; exact ⟨y, List.mem_cons_of_mem _ hy, hle⟩

/-! ## Every block accounted for -/

/-- BlocksAccounted as a property of Photo Memory alone. -/
abbrev PhotoMemory.Accounted (m : PhotoMemory) : Prop :=
  FreeListOrdered m.free ∧
  (∀ b, b < 6144 → ((∃ e ∈ m.free, e.has b) ↔ ∀ k r, Table.find k m.slots = some r → ¬ r.range.has b)) ∧
  ∀ j k q r b, Table.find j m.slots = some q → Table.find k m.slots = some r → q.range.has b → r.range.has b → j = k

theorem blocksAccounted_iff (s : State) : BlocksAccounted s ↔ s.photo.Accounted := Iff.rfl

theorem BlockRange.has_lt {r : BlockRange} {b : Nat} (h : r.has b) : b < 6144 := by
  have := r.inside; have : Config.dramBlocks = 6144 := rfl; simp only [BlockRange.has] at h; omega

/-- The free list and the slots' ranges decide. -/
theorem PhotoMemory.Accounted.of_ranges {m m' : PhotoMemory} (h : m.Accounted) (hf : m'.free = m.free)
    (hs : ∀ k, (Table.find k m'.slots).map Slot.range = (Table.find k m.slots).map Slot.range) : m'.Accounted := by
  have back : ∀ k r, Table.find k m'.slots = some r → ∃ q, Table.find k m.slots = some q ∧ q.range = r.range := by
    intro k r hk
    have := hs k
    rw [hk] at this
    exact Option.map_eq_some_iff.1 this.symm
  have forth : ∀ k r, Table.find k m.slots = some r → ∃ q, Table.find k m'.slots = some q ∧ q.range = r.range := by
    intro k r hk
    have := hs k
    rw [hk] at this
    exact Option.map_eq_some_iff.1 this
  refine ⟨by rw [hf]; exact h.1, fun b hb => ?_, fun j k q r b hj hk hq hr => ?_⟩
  · rw [hf, h.2.1 b hb]
    refine ⟨fun g k r hk => ?_, fun g k r hk => ?_⟩
    · obtain ⟨q, hq, e⟩ := back k r hk; rw [← e]; exact g k q hq
    · obtain ⟨q, hq, e⟩ := forth k r hk; rw [← e]; exact g k q hq
  · obtain ⟨x, hx, e⟩ := back j q hj
    obtain ⟨y, hy, f⟩ := back k r hk
    exact h.2.2 j k x y b hx hy (e ▸ hq) (f ▸ hr)

theorem PhotoMemory.Accounted.movePins {m : PhotoMemory} (h : m.Accounted) (a b : Nat → Nat) :
    (m.movePins a b).Accounted := by
  refine h.of_ranges rfl fun k => ?_
  have := Table.find_mapValues (fun k (r : Slot) => { r with pins := r.pins + b k - a k }) k m.slots
  show (Table.find k (Table.mapValues (fun k (r : Slot) => { r with pins := r.pins + b k - a k }) m.slots)).map _ = _
  rw [this, Option.map_map]
  rfl

theorem PhotoMemory.Accounted.setState {m : PhotoMemory} (h : m.Accounted) (k : Nat) (v : SlotState) :
    (m.setState k v).Accounted := by
  unfold PhotoMemory.setState
  split
  · exact h
  · next r hr =>
    refine h.of_ranges rfl fun j => ?_
    by_cases hj : j = k
    · subst hj; rw [Table.find_insert_self, hr]; rfl
    · rw [Table.find_insert_of_ne (Ne.symm hj)]

theorem PhotoMemory.Accounted.takeNext {m : PhotoMemory} (h : m.Accounted) : m.takeNext.Accounted := by
  unfold PhotoMemory.takeNext
  split
  · exact h
  · next k _ => exact (h.setState k .verifying).of_ranges rfl fun _ => rfl

theorem PhotoMemory.Accounted.judged {m : PhotoMemory} (h : m.Accounted) (k : Nat) : (m.judged k).Accounted :=
  (h.setState k _).of_ranges rfl fun _ => rfl

/-- A slot becomes EMPTY and its range is released (R122). -/
theorem PhotoMemory.Accounted.release {m : PhotoMemory} (h : m.Accounted) {k : Nat} {r : Slot}
    (hk : Table.find k m.slots = some r) (hc : 1 ≤ r.range.count) :
    FreeListOrdered (Machine.release r.range m.free) :=
  release_ordered hc h.1 fun _ he b hb hx => (h.2.1 b (BlockRange.has_lt hb)).1 ⟨_, he, hx⟩ k r hk hb

theorem PhotoMemory.Accounted.empty {m : PhotoMemory} (h : m.Accounted)
    (hc : ∀ k r, Table.find k m.slots = some r → 1 ≤ r.range.count) (k : Nat) : (m.empty k).Accounted := by
  unfold PhotoMemory.empty
  split
  · exact h
  · next r hr =>
    have find : ∀ j q, Table.find j (Table.erase k m.slots) = some q → j ≠ k ∧ Table.find j m.slots = some q := by
      intro j q hj
      have hne : j ≠ k := by rintro rfl; rw [Table.find_erase_self] at hj; cases hj
      rw [Table.find_erase_of_ne (Ne.symm hne)] at hj
      exact ⟨hne, hj⟩
    refine ⟨h.release hr (hc k r hr), fun b hb => ?_, fun i j p q b hi hj hp hq => ?_⟩
    · dsimp only
      rw [has_release, h.2.1 b hb]
      refine ⟨fun g j q hj hq => ?_, fun g => ?_⟩
      · obtain ⟨hne, hj⟩ := find j q hj
        rcases g with g | g
        · exact g j q hj hq
        · exact hne (h.2.2 j k q r b hj hr hq g)
      · by_cases hb : r.range.has b
        · exact .inr hb
        · refine .inl fun j q hj => ?_
          by_cases hjk : j = k
          · subst hjk; rw [hr] at hj; cases hj; exact hb
          · exact g j q (by rw [Table.find_erase_of_ne (Ne.symm hjk)]; exact hj)
    · exact h.2.2 i j p q b (find i p hi).2 (find j q hj).2 hp hq

/-- A load begins: the range comes out of the free list and into the new slot (R121, R123). -/
theorem PhotoMemory.Accounted.beginLoad {m : PhotoMemory} (h : m.Accounted) {k n : Nat}
    (hk : Table.find k m.slots = none) {r : BlockRange} {l : List BlockRange} (ha : allocate n m.free = some (r, l))
    (hn : 1 ≤ n) (v : Slot) (hv : v.range = r) (x : Option LoadSession) :
    PhotoMemory.Accounted { m with slots := Table.insert k v m.slots, free := l, session := x } := by
  obtain ⟨a1, a2, a3, _⟩ := allocate_spec hn h.1 ha
  have find : ∀ j q, Table.find j (Table.insert k v m.slots) = some q →
      (j = k ∧ q = v) ∨ (j ≠ k ∧ Table.find j m.slots = some q) := by
    intro j q hj
    by_cases hjk : j = k
    · subst hjk; rw [Table.find_insert_self] at hj; exact .inl ⟨rfl, (Option.some.inj hj).symm⟩
    · rw [Table.find_insert_of_ne (Ne.symm hjk)] at hj; exact .inr ⟨hjk, hj⟩
  have taken : ∀ b, r.has b → ∀ j q, Table.find j m.slots = some q → ¬ q.range.has b := fun b hb =>
    (h.2.1 b (BlockRange.has_lt hb)).1 ((a2 b).2 (.inr hb))
  refine ⟨a1, fun b hb => ?_, fun i j p q b hi hj hp hq => ?_⟩
  · dsimp only
    refine ⟨fun ⟨e, he, hx⟩ j q hj hq => ?_, fun g => ?_⟩
    · rcases find j q hj with ⟨_, rfl⟩ | ⟨_, hj⟩
      · rw [hv] at hq; exact a3 e he b hq hx
      · exact (h.2.1 b hb).1 ((a2 b).2 (.inl ⟨e, he, hx⟩)) j q hj hq
    · have hnot : ¬ r.has b := by rw [← hv]; exact g k v (Table.find_insert_self _ _ _)
      refine ((a2 b).1 ((h.2.1 b hb).2 fun j q hj => ?_)).resolve_right hnot
      have hjk : j ≠ k := by rintro rfl; rw [hk] at hj; cases hj
      exact g j q (by rw [Table.find_insert_of_ne (Ne.symm hjk)]; exact hj)
  · rcases find i p hi with ⟨hik, hpv⟩ | ⟨_, hi'⟩ <;> rcases find j q hj with ⟨hjk, hqv⟩ | ⟨_, hj'⟩
    · exact hik.trans hjk.symm
    · rw [hpv, hv] at hp; exact absurd hq (taken b hp j q hj')
    · rw [hqv, hv] at hq; exact absurd hp (taken b hq i p hi')
    · exact h.2.2 i j p q b hi' hj' hp hq

/-- The machine's first free list is one range of every block, and no slot holds any. -/
theorem PhotoMemory.Accounted.reset : PhotoMemory.reset.Accounted := by
  refine ⟨⟨List.pairwise_singleton _ _, fun e he => ?_⟩, fun b hb => ?_, fun _ _ _ _ _ hj => by cases hj⟩
  · rw [List.mem_singleton.1 he]; decide
  · refine ⟨fun _ k r hk => (by cases hk), fun _ => ⟨⟨0, 6144, by decide⟩, List.mem_singleton_self _, Nat.zero_le _, ?_⟩⟩
    simpa using hb

/-- What start-up makes of the retained slots and the free list (R140). -/
theorem PhotoMemory.Accounted.retained {m : PhotoMemory} (h : m.Accounted) (hs : m.Sound) (p : Nat → Nat) (f : Bool) :
    (m.retained p f).Accounted := by
  have hw := retainedSlots_wf p hs.2.1
  have from_ : ∀ k r, Table.find k (retainedSlots p m.slots) = some r →
      ∃ q, Table.find k m.slots = some q ∧ q.range = r.range := by
    intro k r hk
    rw [find_retainedSlots p hs.2.1] at hk
    obtain ⟨q, hq, hk⟩ := Option.bind_eq_some_iff.1 hk
    obtain ⟨x, hx, rfl⟩ := Option.map_eq_some_iff.1 hk
    refine ⟨q, hq, ?_⟩
    unfold Slot.retained at hx
    split at hx <;> cases hx <;> rfl
  have hc : ∀ e ∈ retainedSlots p m.slots, 1 ≤ e.2.range.count := by
    rw [countsPositive_iff hw]
    intro k r hk
    obtain ⟨q, hq, e⟩ := from_ k r hk
    rw [← e]; exact hs.count hq
  obtain ⟨f1, f2, f3⟩ := freeOfSlots_spec _ hc
  have base : PhotoMemory.Accounted
      { m.held with slots := retainedSlots p m.slots, free := freeOfSlots (retainedSlots p m.slots) } := by
    refine ⟨⟨f1, f2⟩, fun b hb => ?_, fun i j q r b hi hj hq hr => ?_⟩
    · refine (f3 b hb).trans ⟨fun g k r hk => g _ (Table.mem_of_find hk), fun g e he => g e.1 e.2 (Table.find_of_mem hw he)⟩
    · obtain ⟨x, hx, e⟩ := from_ i q hi
      obtain ⟨y, hy, g⟩ := from_ j r hj
      exact h.2.2 i j x y b hx hy (e ▸ hq) (g ▸ hr)
  unfold PhotoMemory.retained
  dsimp only
  split
  · refine PhotoMemory.Accounted.takeNext (base.of_ranges rfl fun _ => rfl)
  · exact base

end Sys2Proof.Machine
end

