-- ==== Sys2Proof/Laws/Catalogue.lean ====
section
/-! SUPPORT. The Catalogue Unit: what validation makes of one entry (R13 to R15), and what a minute makes of the promotions
(R24, R25). -/
namespace Sys2Proof.Machine

/-! ## Validation, entry by entry -/

theorem changeItem_checked (t : Table Item) (item : Nat) (f : Item → Item) : ∃ o, ItemChecked t item f o ∧
    (∀ reason, o = .error reason → changeItem t item f = .error reason) ∧
    ∀ r, o = .ok r → ∃ u, changeItem t item f = .ok u ∧ Table.find item u = r ∧
      ∀ k, k ≠ item → Table.find k u = Table.find k t := by
  unfold changeItem ItemChecked
  cases h : Table.find item t with
  | none => exact ⟨.error .noItem, ⟨fun _ => rfl, nofun⟩, fun _ h => by cases h; rfl, nofun⟩
  | some r =>
    refine ⟨.ok (some (f r)), ⟨nofun, fun q hq => by cases hq; rfl⟩, nofun, fun q hq => ⟨_, rfl, ?_, fun k hk => ?_⟩⟩
    · cases hq; exact Table.find_insert_self _ _ _
    · exact Table.find_insert_of_ne (Ne.symm hk) _ _

theorem changeVariant_checked (t : Table Item) (item variant : Nat) (f : Variant → Variant) :
    ∃ o, VariantChecked t item variant f o ∧
      (∀ reason, o = .error reason → changeVariant t item variant f = .error reason) ∧
      ∀ r, o = .ok r → ∃ u, changeVariant t item variant f = .ok u ∧ Table.find item u = r ∧
        ∀ k, k ≠ item → Table.find k u = Table.find k t := by
  unfold changeVariant VariantChecked
  cases h : Table.find item t with
  | none => exact ⟨.error .noItem, ⟨fun _ => rfl, nofun⟩, fun _ h => by cases h; rfl, nofun⟩
  | some r =>
    dsimp only
    cases hv : r.variants[variant]? with
    | none =>
      refine ⟨.error .noVariant, ⟨nofun, fun q hq => ?_⟩, fun _ h => by cases h; rfl, nofun⟩
      cases hq
      exact ⟨fun _ => rfl, fun v h => by rw [hv] at h; cases h⟩
    | some v =>
      refine ⟨.ok (some { r with variants := r.variants.set variant (f v) }), ⟨nofun, fun q hq => ?_⟩, nofun,
        fun q hq => ⟨_, rfl, ?_, fun k hk => ?_⟩⟩
      · cases hq
        refine ⟨fun g => ?_, fun w hw => ?_⟩
        · rw [List.getElem?_eq_none g] at hv; cases hv
        · rw [hv] at hw; cases hw; rfl
      · cases hq; exact Table.find_insert_self _ _ _
      · exact Table.find_insert_of_ne (Ne.symm hk) _ _

theorem Lane.names_iff (l : Lane) (item : Nat) :
    l.names item = true ↔ ∃ h ∈ l.holds, ∃ x ∈ h.2.lines, x.item = item := by
  unfold Lane.names
  simp [List.any_eq_true]

theorem itemHeld_iff (s : State) (item : Nat) : s.itemHeld item = true ↔ HeldOnALane s item := by
  unfold State.itemHeld HeldOnALane
  rw [Bool.or_eq_true, Lane.names_iff, Lane.names_iff]
  refine ⟨fun h => h.elim (fun h => ⟨0, h⟩) fun h => ⟨1, h⟩, fun ⟨l, h⟩ => ?_⟩
  match l with
  | 0 => exact Or.inl h
  | 1 => exact Or.inr h

theorem photo_ready_iff (m : PhotoMemory) (slot : Nat) :
    m.ready slot = true ↔ ∃ q, Table.find slot m.slots = some q ∧ q.state = .ready := by
  unfold PhotoMemory.ready
  cases Table.find slot m.slots with
  | none => exact ⟨fun h => absurd h (by decide), nofun⟩
  | some q => simp

/-- One entry's checks and effect (R13, R14, R15). -/
theorem applyEntry_checked (s : State) (t : Table Item) (e : BatchEntry) : ∃ o, EntryChecked s t e o ∧
    (∀ reason, o = .error reason → s.applyEntry t e = .error reason) ∧
    ∀ r, o = .ok r → ∃ u, s.applyEntry t e = .ok u ∧ Table.find (entryItem e) u = r ∧
      ∀ k, k ≠ entryItem e → Table.find k u = Table.find k t := by
  cases e with
  | itemDefine item count dayParts =>
    simp only [State.applyEntry, EntryChecked, entryItem]
    cases h : Table.find item t with
    | some r => exact ⟨.error .itemExists, ⟨fun _ => rfl, nofun⟩, fun _ h => by cases h; rfl, nofun⟩
    | none =>
      refine ⟨.ok (some _), ⟨fun g => absurd rfl g, fun _ => rfl⟩, nofun, fun q hq => ⟨_, rfl, ?_, fun k hk => ?_⟩⟩
      · cases hq; exact Table.find_insert_self _ _ _
      · exact Table.find_insert_of_ne (Ne.symm hk) _ _
  | itemRetire item =>
    simp only [State.applyEntry, EntryChecked, entryItem]
    cases h : Table.find item t with
    | none => exact ⟨.error .noItem, ⟨fun _ => rfl, fun g => absurd rfl g, fun g => absurd rfl g⟩,
        fun _ h => by cases h; rfl, nofun⟩
    | some r =>
      dsimp only
      cases hh : s.itemHeld item with
      | true =>
        exact ⟨.error .held, ⟨nofun, fun _ _ => rfl, fun _ g => absurd ((itemHeld_iff s item).1 hh) g⟩,
          fun _ h => by cases h; rfl, nofun⟩
      | false =>
        refine ⟨.ok none, ⟨nofun, fun _ g => ?_, fun _ _ => rfl⟩, nofun, fun q hq => ⟨_, rfl, ?_, fun k hk => ?_⟩⟩
        · rw [(itemHeld_iff s item).2 g] at hh; cases hh
        · cases hq; exact Table.find_erase_self _ _
        · exact Table.find_erase_of_ne (Ne.symm hk) _
  | setPrice item variant price => exact changeVariant_checked t item variant _
  | setAvail item variant a => exact changeVariant_checked t item variant _
  | setPromo item variant price minutes => exact changeVariant_checked t item variant _
  | clearPromo item variant => exact changeVariant_checked t item variant _
  | setDayparts item dayParts => exact changeItem_checked t item _
  | setLabel item label => exact changeItem_checked t item _
  | setPhoto item slot =>
    cases slot with
    | none => exact changeItem_checked t item _
    | some slot =>
      simp only [State.applyEntry, EntryChecked, entryItem]
      cases h : Table.find item t with
      | none => exact ⟨.error .noItem, ⟨fun _ => rfl, nofun⟩, fun _ h => by cases h; rfl, nofun⟩
      | some r =>
        dsimp only
        cases hr : s.photo.ready slot with
        | true =>
          refine ⟨.ok (some { r with photo := some slot }), ⟨nofun, fun q hq => ?_⟩, nofun,
            fun q hq => ⟨_, rfl, ?_, fun k hk => ?_⟩⟩
          · cases hq
            obtain ⟨x, hx, hs⟩ := (photo_ready_iff _ _).1 hr
            exact ⟨fun g => absurd hs (g x hx), fun _ => rfl⟩
          · cases hq; exact Table.find_insert_self _ _ _
          · exact Table.find_insert_of_ne (Ne.symm hk) _ _
        | false =>
          refine ⟨.error .slotState, ⟨nofun, fun q hq => ⟨fun _ => rfl, fun g => ?_⟩⟩, fun _ h => by cases h; rfl, nofun⟩
          rw [(photo_ready_iff _ _).2 g] at hr; cases hr

/-- Validation takes the entries one by one, and the first that fails ends it with its index (R13). -/
theorem validate_cons (s : State) (t : Table Item) (i : Nat) (e : BatchEntry) (rest : List BatchEntry) :
    ∃ o, EntryChecked s t e o ∧
      (∀ reason, o = .error reason → s.validate i t (e :: rest) = .error (reason, i)) ∧
      ∀ r, o = .ok r → ∃ u, Table.find (entryItem e) u = r ∧
        (∀ k, k ≠ entryItem e → Table.find k u = Table.find k t) ∧
        s.validate i t (e :: rest) = s.validate (i + 1) u rest := by
  obtain ⟨o, h1, h2, h3⟩ := applyEntry_checked s t e
  refine ⟨o, h1, fun reason g => ?_, fun r g => ?_⟩
  · unfold State.validate; rw [h2 reason g]
  · obtain ⟨u, k1, k2, k3⟩ := h3 r g
    refine ⟨u, k2, k3, ?_⟩
    conv => lhs; unfold State.validate
    rw [k1]

/-! ## Promotions -/

theorem anyPromotionOver_iff (t : Table Item) : anyPromotionOver t = true ↔ CountdownDue t 0 := by
  unfold anyPromotionOver CountdownDue
  simp only [List.any_eq_true]
  have hv : ∀ v : Variant, v.promotionOver = true ↔ ∃ x, v.promotion = some x ∧ x.minutes ≤ 0 := fun v => by
    unfold Variant.promotionOver
    cases v.promotion with
    | none => exact ⟨fun h => absurd h (by decide), nofun⟩
    | some x => simp
  simp only [hv]

theorem anyPromotionOver_lowered (t : Table Item) :
    anyPromotionOver (mapPromotions lowerPromotion t) = true ↔ CountdownDue t 1 := by
  rw [anyPromotionOver_iff]
  unfold CountdownDue mapPromotions Table.mapValues
  refine ⟨fun ⟨e, he, v, hv, x, hx, hm⟩ => ?_, fun ⟨e, he, v, hv, x, hx, hm⟩ => ?_⟩
  · obtain ⟨d, hd, rfl⟩ := List.mem_map.1 he
    obtain ⟨w, hw, rfl⟩ := List.mem_map.1 hv
    cases hp : w.promotion with
    | none => rw [hp] at hx; cases hx
    | some y =>
      rw [hp] at hx
      obtain rfl := Option.some.inj hx
      exact ⟨d, hd, w, hw, y, hp, by dsimp only at hm; omega⟩
  · refine ⟨_, List.mem_map.2 ⟨e, he, rfl⟩, _, List.mem_map.2 ⟨v, hv, rfl⟩, { x with minutes := x.minutes - 1 }, ?_, ?_⟩
    · dsimp only; rw [hx]; rfl
    · dsimp only; omega

theorem mapPromotions_changed (t : Table Item) (g : Option Promotion → Option Promotion) (f : Promotion → Option Promotion)
    (h : ∀ e ∈ t, ∀ v ∈ e.2.variants, g v.promotion = v.promotion.bind f) :
    PromotionsChanged t (mapPromotions g t) f := by
  unfold PromotionsChanged mapPromotions
  refine ⟨fun item hn => by rw [Table.find_mapValues, hn]; rfl, fun item r hr => ?_⟩
  refine ⟨{ r with variants := r.variants.map fun v => { v with promotion := g v.promotion } },
    by rw [Table.find_mapValues, hr]; rfl, rfl, rfl, rfl, List.length_map _, fun n v hv => ?_⟩
  refine ⟨{ v with promotion := g v.promotion }, by rw [List.getElem?_map, hv]; rfl, rfl, rfl, ?_⟩
  exact h _ (Table.mem_of_find hr) v (List.mem_of_getElem? hv)

/-- A minute with no countdown at its end (R24). -/
theorem lowered_changed (t : Table Item) (h : ¬ CountdownDue t 1) : PromotionsChanged t (mapPromotions lowerPromotion t)
    (fun x => if x.minutes ≤ 1 then none else some { x with minutes := x.minutes - 1 }) := by
  refine mapPromotions_changed t _ _ fun e he v hv => ?_
  cases hp : v.promotion with
  | none => rfl
  | some x =>
    rw [Option.bind_some, if_neg fun g => h ⟨e, he, v, hv, x, hp, g⟩]; rfl

theorem mapPromotions_twice (t : Table Item) (f g : Option Promotion → Option Promotion) :
    mapPromotions g (mapPromotions f t) = mapPromotions (fun x => g (f x)) t := by
  unfold mapPromotions Table.mapValues
  rw [List.map_map]
  refine List.map_congr_left fun e _ => ?_
  simp only [Function.comp, List.map_map]
  rfl

/-- A minute at which countdowns end (R24, R25). -/
theorem ended_changed (t : Table Item) : PromotionsChanged t (mapPromotions endPromotion (mapPromotions lowerPromotion t))
    (fun x => if x.minutes ≤ 1 then none else some { x with minutes := x.minutes - 1 }) := by
  rw [mapPromotions_twice]
  refine mapPromotions_changed t _ _ fun e _ v _ => ?_
  cases v.promotion with
  | none => rfl
  | some x =>
    show (if x.minutes - 1 = 0 then none else some _) = if x.minutes ≤ 1 then none else some _
    by_cases h : x.minutes ≤ 1
    · rw [if_pos h, if_pos (by omega)]
    · rw [if_neg h, if_neg (by omega)]

end Sys2Proof.Machine
end

