-- ==== Sys2Proof/Laws/Clock.lean ====
section
/-! SUPPORT. What the evaluation of the schedule, the next firing and the time order give (chapter 8). -/
namespace Sys2Proof.Machine

/-! ## Moments of the week -/

theorem ScheduleEntry.mem_moments {e : ScheduleEntry} {m : Nat} :
    m ∈ e.moments ↔ m < 604800 ∧ e.time = m % 86400 ∧ e.days.getLsbD (m / 86400) = true := by
  unfold ScheduleEntry.moments
  split
  · next h =>
    simp only [List.mem_map, List.mem_filter, List.mem_range, daySeconds] at h ⊢
    constructor
    · rintro ⟨d, ⟨hd, hb⟩, rfl⟩
      have : (d * 86400 + e.time) / 86400 = d := by omega
      exact ⟨by omega, by omega, by rw [this]; exact hb⟩
    · rintro ⟨hm, ht, hb⟩
      exact ⟨m / 86400, ⟨by omega, hb⟩, by omega⟩
  · next h =>
    simp only [List.not_mem_nil, false_iff, daySeconds] at h ⊢
    rintro ⟨_, ht, _⟩
    omega

theorem mem_dueMoments {schedule : List ScheduleEntry} {x : ScheduleEntry × Nat} :
    x ∈ dueMoments schedule ↔ x.1 ∈ schedule ∧ x.2 ∈ x.1.moments := by
  obtain ⟨e, m⟩ := x
  simp only [dueMoments, List.mem_flatMap, List.mem_map, Prod.mk.injEq]
  constructor
  · rintro ⟨f, hf, n, hn, rfl, rfl⟩; exact ⟨hf, hn⟩
  · rintro ⟨he, hm⟩; exact ⟨e, he, m, hm, rfl, rfl⟩

theorem nearest_of_none {α : Type} {d : α → Nat} {l : List α} (h : nearest d l = none) : l = [] := by
  cases l with
  | nil => rfl
  | cons x xs =>
    simp only [nearest] at h
    split at h
    · exact absurd h (by simp)
    · split at h <;> exact absurd h (by simp)

theorem nearest_of_some {α : Type} {d : α → Nat} : ∀ {l : List α} {x : α}, nearest d l = some x →
    x ∈ l ∧ ∀ y ∈ l, d x ≤ d y := by
  intro l
  induction l with
  | nil => intro x h; exact absurd h (by simp [nearest])
  | cons z zs ih =>
    intro x h
    simp only [nearest] at h
    split at h
    · next hn =>
      cases h
      rw [nearest_of_none hn]
      exact ⟨List.mem_singleton_self _, fun y hy => Nat.le_of_eq (by rw [List.mem_singleton.1 hy])⟩
    · next y hy =>
      obtain ⟨hm, hl⟩ := ih hy
      split at h
      · next hzy =>
        cases h
        refine ⟨List.mem_cons_self, fun w hw => ?_⟩
        rcases List.mem_cons.1 hw with rfl | hw
        · exact Nat.le_refl _
        · exact Nat.le_trans hzy (hl w hw)
      · next hzy =>
        cases h
        refine ⟨List.mem_cons_of_mem _ hm, fun w hw => ?_⟩
        rcases List.mem_cons.1 hw with rfl | hw
        · omega
        · exact hl w hw

/-! ## Due before and due ahead -/

theorem dueAgo_iff (c : StoreClock) (e : ScheduleEntry) (n : Nat) :
    DueAgo c e n ↔ (c.moment + (604800 - n)) % 604800 ∈ e.moments := by
  rw [ScheduleEntry.mem_moments]
  have : (c.moment + (604800 - n)) % 604800 = (c.day * 86400 + c.time + (604800 - n)) % 604800 := by
    simp only [StoreClock.moment, daySeconds, weekSeconds]; omega
  rw [this]
  exact ⟨fun h => ⟨Nat.mod_lt _ (by decide), h.1, h.2⟩, fun h => ⟨h.2.1, h.2.2⟩⟩

theorem dueAhead_iff (c : StoreClock) (e : ScheduleEntry) (n : Nat) :
    DueAhead c e n ↔ (c.moment + n) % 604800 ∈ e.moments := by
  rw [ScheduleEntry.mem_moments]
  have : (c.moment + n) % 604800 = (c.day * 86400 + c.time + n) % 604800 := by
    simp only [StoreClock.moment, daySeconds, weekSeconds]; omega
  rw [this]
  exact ⟨fun h => ⟨Nat.mod_lt _ (by decide), h.1, h.2⟩, fun h => ⟨h.2.1, h.2.2⟩⟩

theorem StoreClock.moment_lt (c : StoreClock) : c.moment < 604800 := Nat.mod_lt _ (by decide)

/-- What the evaluation gives (R167). -/
theorem evaluated_spec (c : StoreClock) : Evaluated c c.evaluated.scheduled := by
  have hM := c.moment_lt
  constructor
  · rintro (h | h)
    · simp [StoreClock.evaluated, h]
    · simp [StoreClock.evaluated, StoreClock.lastDue, h, dueMoments, nearest]
  · intro hv
    have hs : c.evaluated.scheduled = match c.lastDue with | none => StoreState.closed | some e => e.destination :=
      if_pos hv
    rw [hs]
    cases hn : nearest (fun x : ScheduleEntry × Nat => (c.moment + weekSeconds - x.2) % weekSeconds)
        (dueMoments c.schedule) with
    | none =>
      have hl : c.lastDue = none := by simp only [StoreClock.lastDue, hn, Option.map_none]
      rw [hl]
      refine ⟨fun ⟨e, he, n, hlt, hd⟩ => ?_, fun _ => rfl⟩
      have := nearest_of_none hn
      rw [dueAgo_iff] at hd
      have hmem : (e, (c.moment + (604800 - n)) % 604800) ∈ dueMoments c.schedule := mem_dueMoments.2 ⟨he, hd⟩
      rw [this] at hmem; exact absurd hmem (by simp)
    | some x =>
      have hl : c.lastDue = some x.1 := by simp only [StoreClock.lastDue, hn, Option.map_some]
      obtain ⟨hx, hmin⟩ := nearest_of_some hn
      obtain ⟨he, hm⟩ := mem_dueMoments.1 hx
      obtain ⟨hlt, _⟩ := ScheduleEntry.mem_moments.1 hm
      simp only [weekSeconds] at hmin
      have hdue : DueAgo c x.1 ((c.moment + 604800 - x.2) % 604800) := by
        rw [dueAgo_iff]
        have : (c.moment + (604800 - (c.moment + 604800 - x.2) % 604800)) % 604800 = x.2 := by omega
        rw [this]; exact hm
      rw [hl]
      refine ⟨fun _ => ⟨x.1, he, _, Nat.mod_lt _ (by decide), hdue, rfl, fun f hf k hk hd => ?_⟩,
        fun h => absurd hdue (h _ he _ (Nat.mod_lt _ (by decide)))⟩
      rw [dueAgo_iff] at hd
      have := hmin (f, (c.moment + (604800 - k)) % 604800) (mem_dueMoments.2 ⟨hf, hd⟩)
      dsimp only at this
      omega

/-- What the next firing is (R175). -/
theorem nextFiring_spec (c : StoreClock) : NextFiring c c.nextFiring := by
  have hM := c.moment_lt
  constructor
  · rintro (h | h)
    · simp [StoreClock.nextFiring, h]
    · simp [StoreClock.nextFiring, h, dueMoments, nearest]
  · intro hv
    cases hn : nearest (fun x : ScheduleEntry × Nat => (x.2 + weekSeconds - c.moment - 1) % weekSeconds)
        (dueMoments c.schedule) with
    | none =>
      have hl : c.nextFiring = none := by simp only [StoreClock.nextFiring, hv, hn, if_true, Option.map_none]
      rw [hl]
      refine ⟨fun ⟨e, he, n, h1, hlt, hd⟩ => ?_, fun _ => rfl⟩
      have := nearest_of_none hn
      rw [dueAhead_iff] at hd
      have hmem : (e, (c.moment + n) % 604800) ∈ dueMoments c.schedule := mem_dueMoments.2 ⟨he, hd⟩
      rw [this] at hmem; exact absurd hmem (by simp)
    | some x =>
      have hl : c.nextFiring = some (x.1, x.2 / 86400) := by
        simp only [StoreClock.nextFiring, hv, hn, if_true, Option.map_some, daySeconds]
      obtain ⟨hx, hmin⟩ := nearest_of_some hn
      obtain ⟨he, hm⟩ := mem_dueMoments.1 hx
      obtain ⟨hlt, _⟩ := ScheduleEntry.mem_moments.1 hm
      simp only [weekSeconds] at hmin
      have hat : (c.moment + ((x.2 + 604800 - c.moment - 1) % 604800 + 1)) % 604800 = x.2 := by omega
      have hdue : DueAhead c x.1 ((x.2 + 604800 - c.moment - 1) % 604800 + 1) := by
        rw [dueAhead_iff, hat]; exact hm
      have hn1 : (x.2 + 604800 - c.moment - 1) % 604800 + 1 ≤ 604800 := by omega
      rw [hl]
      refine ⟨fun _ => ⟨x.1, he, _, Nat.le_add_left 1 _, hn1, hdue, ?_, fun f hf k h1 hk hd => ?_⟩,
        fun h => absurd hdue (h _ he _ (Nat.le_add_left 1 _) hn1)⟩
      · have : (c.day * 86400 + c.time + ((x.2 + 604800 - c.moment - 1) % 604800 + 1)) % 604800 = x.2 := by
          rw [← hat]; simp only [StoreClock.moment, daySeconds, weekSeconds]; omega
        rw [this]
      · rw [dueAhead_iff] at hd
        have := hmin (f, (c.moment + k) % 604800) (mem_dueMoments.2 ⟨hf, hd⟩)
        dsimp only at this
        omega

/-! ## Time order (R165) -/

theorem insertEntry_mem {e x : ScheduleEntry} : ∀ {l : List ScheduleEntry}, x ∈ insertEntry e l ↔ x = e ∨ x ∈ l := by
  intro l
  induction l with
  | nil => simp [insertEntry]
  | cons f rest ih =>
    unfold insertEntry
    split
    · simp
    · simp only [List.mem_cons, ih]; exact or_left_comm

theorem insertEntry_pairwise {e : ScheduleEntry} : ∀ {l : List ScheduleEntry}, l.Pairwise (fun a b => a.time ≤ b.time) →
    (insertEntry e l).Pairwise (fun a b => a.time ≤ b.time) := by
  intro l
  induction l with
  | nil => intro _; simp [insertEntry]
  | cons f rest ih =>
    intro h
    have hf := List.pairwise_cons.1 h
    unfold insertEntry
    split
    · next hlt =>
      refine List.pairwise_cons.2 ⟨fun x hx => ?_, h⟩
      rcases List.mem_cons.1 hx with rfl | hx
      · omega
      · have := hf.1 x hx; omega
    · next hlt =>
      refine List.pairwise_cons.2 ⟨fun x hx => ?_, ih hf.2⟩
      rcases insertEntry_mem.1 hx with rfl | hx
      · omega
      · exact hf.1 x hx

theorem insertEntry_filter {e : ScheduleEntry} (time : Nat) : ∀ {l : List ScheduleEntry},
    l.Pairwise (fun a b => a.time ≤ b.time) →
    (insertEntry e l).filter (fun x => x.time = time) = (l ++ [e]).filter (fun x => x.time = time) := by
  intro l
  induction l with
  | nil => intro _; rfl
  | cons f rest ih =>
    intro h
    have hf := List.pairwise_cons.1 h
    unfold insertEntry
    split
    · next hlt =>
      by_cases ht : e.time = time
      · have : (f :: rest).filter (fun x => x.time = time) = [] := by
          rw [List.filter_eq_nil_iff]
          intro x hx
          have : f.time ≤ x.time := by
            rcases List.mem_cons.1 hx with rfl | hx
            · exact Nat.le_refl _
            · exact hf.1 x hx
          simp only [decide_eq_true_eq]; omega
        rw [List.filter_append, List.filter_cons, this]
        simp [ht]
      · rw [List.filter_append, List.filter_cons]
        simp [ht]
    · rw [List.cons_append, List.filter_cons, List.filter_cons, ih hf.2]

theorem timeOrder_spec (entries : List ScheduleEntry) : InTimeOrder entries (timeOrder entries) := by
  have key : ∀ (rest done given : List ScheduleEntry), InTimeOrder given done →
      InTimeOrder (given ++ rest) (rest.foldl (fun done e => insertEntry e done) done) := by
    intro rest
    induction rest with
    | nil => intro done given h; rwa [List.append_nil]
    | cons e rest ih =>
      intro done given h
      rw [List.foldl_cons, show given ++ e :: rest = (given ++ [e]) ++ rest by simp]
      refine ih _ _ ⟨insertEntry_pairwise h.1, fun time => ?_⟩
      rw [insertEntry_filter time h.1, List.filter_append, List.filter_append, h.2 time]
  exact key entries [] [] ⟨List.Pairwise.nil, fun _ => rfl⟩

/-- The time order is one list: what is in time order is what the loading makes. -/
theorem InTimeOrder.unique {given : List ScheduleEntry} : ∀ {a b : List ScheduleEntry}, InTimeOrder given a →
    InTimeOrder given b → a = b := by
  intro a b ha hb
  have same : ∀ time, a.filter (fun e => e.time = time) = b.filter (fun e => e.time = time) := fun time =>
    (ha.2 time).trans (hb.2 time).symm
  have key : ∀ (a b : List ScheduleEntry), a.Pairwise (fun x y => x.time ≤ y.time) →
      b.Pairwise (fun x y => x.time ≤ y.time) →
      (∀ time, a.filter (fun e => e.time = time) = b.filter (fun e => e.time = time)) → a = b := by
    intro a
    induction a with
    | nil =>
      intro b _ _ h
      cases b with
      | nil => rfl
      | cons f rest => have := h f.time; simp at this
    | cons e a ih =>
      intro b pa pb h
      cases b with
      | nil => have := h e.time; simp at this
      | cons f b =>
        have pa' := List.pairwise_cons.1 pa
        have pb' := List.pairwise_cons.1 pb
        have ht : e.time = f.time := by
          have h1 : f ∈ e :: a := (List.mem_filter.1 (by rw [h f.time]; simp : f ∈ (e :: a).filter fun x => x.time = f.time)).1
          have h2 : e ∈ f :: b := (List.mem_filter.1 (by rw [← h e.time]; simp : e ∈ (f :: b).filter fun x => x.time = e.time)).1
          have l1 : e.time ≤ f.time := by
            rcases List.mem_cons.1 h1 with h1 | h1
            · exact Nat.le_of_eq (by rw [h1])
            · exact pa'.1 f h1
          have l2 : f.time ≤ e.time := by
            rcases List.mem_cons.1 h2 with h2 | h2
            · exact Nat.le_of_eq (by rw [h2])
            · exact pb'.1 e h2
          omega
        have he : e = f := by
          have := h e.time
          rw [List.filter_cons, List.filter_cons, if_pos (by simp), if_pos (by simp [ht])] at this
          exact (List.cons.inj this).1
        subst he
        rw [ih b pa'.2 pb'.2 fun time => ?_]
        have := h time
        rw [List.filter_cons, List.filter_cons] at this
        split at this
        · exact (List.cons.inj this).2
        · exact this
  exact key a b ha.1 hb.1 same

end Sys2Proof.Machine
end

