-- ==== Sys2Proof/Laws/Composer.lean ====
section
/-! SUPPORT. What compose requests leave of the Composer, and what asking twice comes to. -/
namespace Sys2Proof.Machine

variable {s r : State}

/-! ## One request -/

/-- What a compose request reads: the Composer, and whether the panel is live. -/
theorem composeRequest_composer_congr (hc : s.composer = r.composer) (p : PanelNo) (x : ReasonSet)
    (hl : s.live p = r.live p) : (s.composeRequest p x).composer = (r.composeRequest p x).composer := by
  unfold State.composeRequest
  rw [hl, hc]
  split
  · exact hc
  · split
    · split <;> rfl
    · rfl

theorem composeRequest_live (p q : PanelNo) (x : ReasonSet) : (s.composeRequest p x).live q = s.live q := by
  unfold State.live State.link; rw [State.composeRequest_links]

theorem composeRequests_live (ps : List PanelNo) (q : PanelNo) (x : ReasonSet) : (s.composeRequests ps x).live q = s.live q := by
  unfold State.live State.link; rw [State.composeRequests_links]

/-- Requests for several panels read the Composer and which panels are live. -/
theorem composeRequests_composer_congr (x : ReasonSet) : ∀ (ps : List PanelNo) {s r : State}, s.composer = r.composer →
    (∀ p, s.live p = r.live p) → (s.composeRequests ps x).composer = (r.composeRequests ps x).composer := by
  intro ps
  induction ps with
  | nil => intro s r hc _; exact hc
  | cons p ps ih =>
    intro s r hc hl
    exact ih (composeRequest_composer_congr hc p x (hl p)) fun q => by rw [composeRequest_live, composeRequest_live, hl]

theorem livePanels_congr (hl : ∀ p, s.live p = r.live p) : livePanels s = livePanels r := by
  unfold livePanels; congr 1; funext p; exact hl p

theorem changeoverAsked_congr (hc : s.composer = r.composer) (hl : ∀ p, s.live p = r.live p) :
    changeoverAsked s = changeoverAsked r := by
  unfold changeoverAsked
  rw [livePanels_congr hl]
  exact composeRequests_composer_congr _ _ hc hl

/-- Compose requests change the Composer alone. -/
theorem composeRequests_eq (ps : List PanelNo) (x : ReasonSet) (s : State) :
    s.composeRequests ps x = { s with composer := (s.composeRequests ps x).composer } := by
  apply State.eq_of_fields <;> simp

/-! ## Asking twice -/

theorem reasons_absorb (a x : ReasonSet) : a ||| x ||| x = a ||| x := by
  apply BitVec.eq_of_getLsbD_eq; intro i _; simp [BitVec.getLsbD_or]

/-- Every entry of the panel holds the reasons, and there is one. -/
def Merged (p : PanelNo) (x : ReasonSet) (queue : List QueueEntry) : Prop :=
  (∃ e ∈ queue, e.panel = p) ∧ ∀ e ∈ queue, e.panel = p → e.reasons ||| x = e.reasons

theorem joinQueue_merged (p : PanelNo) (x : ReasonSet) (queue : List QueueEntry) : Merged p x (joinQueue p x queue) := by
  unfold joinQueue
  split
  · next h =>
    obtain ⟨e, he, hp⟩ := List.any_eq_true.1 h
    have hp : e.panel = p := by simpa using hp
    refine ⟨⟨_, List.mem_map.2 ⟨e, he, rfl⟩, by simp [hp]⟩, fun f hf hfp => ?_⟩
    obtain ⟨g, _, rfl⟩ := List.mem_map.1 hf
    by_cases hg : g.panel = p
    · simp only [hg, if_true]; exact reasons_absorb _ _
    · simp only [hg, if_false] at hfp
  · next h =>
    have h : ∀ e ∈ queue, e.panel ≠ p := fun e he hp => h (List.any_eq_true.2 ⟨e, he, by simpa using hp⟩)
    refine ⟨⟨⟨p, x⟩, by simp, rfl⟩, fun f hf hfp => ?_⟩
    rcases List.mem_append.1 hf with hf | hf
    · exact absurd hfp (h f hf)
    · rw [List.mem_singleton] at hf; subst hf; exact BitVec.or_self

theorem joinQueue_of_merged {p : PanelNo} {x : ReasonSet} {queue : List QueueEntry} (h : Merged p x queue) :
    joinQueue p x queue = queue := by
  obtain ⟨⟨e, he, hp⟩, hm⟩ := h
  unfold joinQueue
  rw [if_pos (List.any_eq_true.2 ⟨e, he, by simpa using hp⟩)]
  conv => rhs; rw [← List.map_id queue]
  refine List.map_congr_left fun f hf => ?_
  by_cases hg : f.panel = p
  · rw [if_pos hg, hm f hf hg]; rfl
  · rw [if_neg hg]; rfl

/-- A request for one panel keeps another panel's entries merged. -/
theorem Merged.joinQueue {p q : PanelNo} {x y : ReasonSet} {queue : List QueueEntry} (h : Merged p x queue) :
    Merged p x (joinQueue q y queue) := by
  obtain ⟨⟨e, he, hp⟩, hm⟩ := h
  unfold Machine.joinQueue
  split
  · refine ⟨⟨_, List.mem_map.2 ⟨e, he, rfl⟩, by split <;> exact hp⟩, fun f hf hfp => ?_⟩
    obtain ⟨g, hg, rfl⟩ := List.mem_map.1 hf
    by_cases hgq : g.panel = q
    · simp only [hgq, if_true] at hfp ⊢
      have := hm g hg (by rw [hgq]; simpa [hgq] using hfp)
      rw [BitVec.or_assoc, BitVec.or_comm y x, ← BitVec.or_assoc, this]
    · simp only [hgq, if_false] at hfp ⊢; exact hm g hg hfp
  · next hq =>
    refine ⟨⟨e, List.mem_append_left _ he, hp⟩, fun f hf hfp => ?_⟩
    rcases List.mem_append.1 hf with hf | hf
    · exact hm f hf hfp
    · rw [List.mem_singleton] at hf; subst hf
      exact absurd (List.any_eq_true.2 ⟨e, he, by simpa using hp.trans hfp.symm⟩) hq

/-- Asking for a panel again, with the same reasons, leaves the Composer as it is. -/
def Asked (p : PanelNo) (x : ReasonSet) (s : State) : Prop :=
  s.live p = false ∨
  (∃ c, s.composer.engine = some c ∧ c.panel = p ∧ c.again = true ∧ c.againReasons ||| x = c.againReasons) ∨
  ((∀ c, s.composer.engine = some c → c.panel ≠ p) ∧ Merged p x s.composer.queue)

theorem asked_composeRequest (p : PanelNo) (x : ReasonSet) : Asked p x (s.composeRequest p x) := by
  unfold Asked
  rw [composeRequest_live]
  cases hl : s.live p with
  | false => exact Or.inl rfl
  | true =>
    refine Or.inr ?_
    cases he : s.composer.engine with
    | none =>
      refine Or.inr ?_
      simp only [State.composeRequest, hl, he, Bool.true_eq_false, if_false, State.setComposer_composer]
      exact ⟨by simp, joinQueue_merged _ _ _⟩
    | some c =>
      by_cases hc : c.panel = p
      · refine Or.inl ⟨{ c with again := true, againReasons := c.againReasons ||| x }, ?_, hc, rfl, reasons_absorb _ _⟩
        simp [State.composeRequest, hl, he, hc]
      · refine Or.inr ?_
        simp only [State.composeRequest, hl, he, hc, Bool.true_eq_false, if_false, State.setComposer_composer]
        exact ⟨fun d hd => by cases hd; exact hc, joinQueue_merged _ _ _⟩

theorem Asked.composeRequest {p : PanelNo} {x : ReasonSet} (h : Asked p x s) (q : PanelNo) (y : ReasonSet) :
    Asked p x (s.composeRequest q y) := by
  unfold Asked at h ⊢
  rw [composeRequest_live]
  rcases h with h | h | h
  · exact Or.inl h
  · refine Or.inr (Or.inl ?_)
    obtain ⟨c, he, hp, ha, hx⟩ := h
    unfold State.composeRequest
    split
    · exact ⟨c, he, hp, ha, hx⟩
    · rw [he]; dsimp only
      split
      · refine ⟨{ c with again := true, againReasons := c.againReasons ||| y }, rfl, hp, rfl, ?_⟩
        dsimp only; rw [BitVec.or_assoc, BitVec.or_comm y x, ← BitVec.or_assoc, hx]
      · exact ⟨c, he, hp, ha, hx⟩
  · refine Or.inr (Or.inr ?_)
    obtain ⟨he, hm⟩ := h
    unfold State.composeRequest
    split
    · exact ⟨he, hm⟩
    · cases hc : s.composer.engine with
      | none => exact ⟨(fun d hd => by rw [State.setComposer_composer, hc] at hd; cases hd), hm.joinQueue⟩
      | some c =>
        dsimp only
        split
        · exact ⟨fun d hd => by cases hd; exact he c hc, hm⟩
        · exact ⟨fun d hd => by rw [State.setComposer_composer] at hd; exact he d hd, hm.joinQueue⟩

theorem Asked.same {p : PanelNo} {x : ReasonSet} (h : Asked p x s) : (s.composeRequest p x).composer = s.composer := by
  unfold State.composeRequest
  split
  · rfl
  · next hl =>
    rcases h with h | ⟨c, he, hp, ha, hx⟩ | ⟨he, hm⟩
    · exact absurd h hl
    · rw [he]; dsimp only; rw [if_pos hp]
      rw [State.setComposer_composer, hx, ← ha]
      rw [show ({ c with again := c.again, againReasons := c.againReasons } : Composition) = c from rfl, ← he]
    · cases hc : s.composer.engine with
      | none => dsimp only; rw [State.setComposer_composer, joinQueue_of_merged hm]
      | some c => dsimp only; rw [if_neg (he c hc), State.setComposer_composer, joinQueue_of_merged hm]

theorem asked_composeRequests (x : ReasonSet) : ∀ (ps : List PanelNo) (s : State) (p : PanelNo), (p ∈ ps ∨ Asked p x s) →
    Asked p x (s.composeRequests ps x) := by
  intro ps
  induction ps with
  | nil => intro s p h; exact h.resolve_left (by simp)
  | cons q ps ih =>
    intro s p h
    refine ih (s.composeRequest q x) p ?_
    rcases h with h | h
    · rcases List.mem_cons.1 h with rfl | h
      · exact Or.inr (asked_composeRequest _ _)
      · exact Or.inl h
    · exact Or.inr (h.composeRequest _ _)

theorem composeRequests_same (x : ReasonSet) : ∀ (ps : List PanelNo) (s : State), (∀ p ∈ ps, Asked p x s) →
    (s.composeRequests ps x).composer = s.composer := by
  intro ps
  induction ps with
  | nil => intro s _; rfl
  | cons p ps ih =>
    intro s h
    have h1 := h p List.mem_cons_self
    have := ih (s.composeRequest p x) fun q hq => (h q (List.mem_cons_of_mem _ hq)).composeRequest _ _
    exact this.trans h1.same

/-- Asking for the live panels twice is asking once. -/
theorem changeoverAsked_twice (hc : r.composer = changeoverAsked s) (hl : ∀ p, r.live p = s.live p) :
    changeoverAsked r = changeoverAsked s := by
  have h := composeRequests_same (Reason.set .changeover) (livePanels s)
    (s.composeRequests (livePanels s) (Reason.set .changeover)) fun p hp => asked_composeRequests _ _ _ _ (Or.inl hp)
  have e : changeoverAsked (s.composeRequests (livePanels s) (Reason.set .changeover)) = changeoverAsked s := by
    rw [← show (s.composeRequests (livePanels s) (Reason.set .changeover)).composer = changeoverAsked s from rfl, ← h]
    unfold changeoverAsked
    rw [livePanels_congr (r := s) (fun p => composeRequests_live _ _ _)]
  rw [← e]
  exact changeoverAsked_congr hc fun p => by rw [composeRequests_live]; exact hl p

/-- With no live panel nothing is asked for. -/
theorem changeoverAsked_none (h : ∀ p, s.live p = false) : changeoverAsked s = s.composer := by
  have : livePanels s = [] := by unfold livePanels; rw [List.filter_eq_nil_iff]; intro p _; rw [h p]; decide
  unfold changeoverAsked; rw [this]; rfl

/-! ## Cutting a composition short (R63, R64) -/

theorem abandon_of_some {c : Composition} (h : s.composer.engine = some c) :
    s.abandon = { s with composer := compositionCut s c } := by
  unfold State.abandon; rw [h]; rfl

theorem abandon_of_none (h : s.composer.engine = none) : s.abandon = s := by
  unfold State.abandon; rw [h]

theorem cutShort_eq (s : State) : s.cutShort = { s with composer := leaseCut s } := by
  unfold State.cutShort leaseCut
  cases h : s.composer.engine with
  | none => rfl
  | some c =>
    dsimp only
    split
    · exact abandon_of_some h
    · rfl

/-- Entries of other panels pass a request by. -/
theorem filter_joinQueue_of_ne {p q : PanelNo} (h : p ≠ q) (x : ReasonSet) (queue : List QueueEntry) :
    (joinQueue p x queue).filter (fun e => e.panel ≠ q) = joinQueue p x (queue.filter fun e => e.panel ≠ q) := by
  unfold joinQueue
  have any : ((queue.filter fun e => e.panel ≠ q).any fun e => e.panel = p) = queue.any fun e => e.panel = p := by
    rw [Bool.eq_iff_iff, List.any_eq_true, List.any_eq_true]
    constructor
    · rintro ⟨e, he, hp⟩; exact ⟨e, (List.mem_filter.1 he).1, hp⟩
    · rintro ⟨e, he, hp⟩
      have hp' : e.panel = p := by simpa using hp
      exact ⟨e, List.mem_filter.2 ⟨he, by simpa [hp'] using h⟩, hp⟩
  rw [any]
  split
  · rw [List.filter_map]
    congr 1
    refine List.filter_congr fun e _ => ?_
    show decide ((if e.panel = p then { e with reasons := e.reasons ||| x } else e).panel ≠ q) = _
    split <;> rfl
  · rw [List.filter_append]
    congr 1
    simp [h]

theorem joinQueue_cons_of_ne {p : PanelNo} {e : QueueEntry} (h : e.panel ≠ p) (x : ReasonSet) (queue : List QueueEntry) :
    joinQueue p x (e :: queue) = e :: joinQueue p x queue := by
  unfold joinQueue
  have : ((e :: queue).any fun e => decide (e.panel = p)) = queue.any fun e => decide (e.panel = p) := by simp [h]
  rw [this]
  split <;> simp [h]

theorem joinQueue_head (p : PanelNo) (a x : ReasonSet) (queue : List QueueEntry) (h : ∀ e ∈ queue, e.panel ≠ p) :
    joinQueue p x (⟨p, a⟩ :: queue) = ⟨p, a ||| x⟩ :: queue := by
  unfold joinQueue
  rw [if_pos (by simp)]
  simp only [List.map_cons, if_true, List.cons.injEq, true_and]
  conv => rhs; rw [← List.map_id queue]
  exact List.map_congr_left fun f hf => by rw [if_neg (h f hf)]; rfl

/-- A request before a composition is cut short, and after. -/
theorem composeRequest_cut {c : Composition} (h : s.composer.engine = some c) (hr : r.composer = compositionCut s c)
    (hl : ∀ p, r.live p = s.live p) (p : PanelNo) (x : ReasonSet) :
    ∃ d, (s.composeRequest p x).composer.engine = some d ∧ d.target = c.target ∧
      (r.composeRequest p x).composer = compositionCut (s.composeRequest p x) d := by
  have hre : r.composer.engine = none := by rw [hr]; rfl
  cases hp : s.live p with
  | false =>
    refine ⟨c, ?_, rfl, ?_⟩
    · simp [State.composeRequest, hp, h]
    · rw [show s.composeRequest p x = s by simp [State.composeRequest, hp],
        show r.composeRequest p x = r by simp [State.composeRequest, hl, hp], hr]
  | true =>
    have hR : (r.composeRequest p x).composer = { r.composer with queue := joinQueue p x r.composer.queue } := by
      simp [State.composeRequest, hl, hp, hre]
    by_cases hc : c.panel = p
    · have hS : s.composeRequest p x = s.setComposer { s.composer with
          engine := some { c with again := true, againReasons := c.againReasons ||| x } } := by
        simp [State.composeRequest, hp, h, hc]
      refine ⟨{ c with again := true, againReasons := c.againReasons ||| x }, by rw [hS]; rfl, rfl, ?_⟩
      rw [hR, hS, hr]
      unfold compositionCut
      have hlc : s.live c.panel = true := by rw [hc]; exact hp
      have hlc' : (s.setComposer { s.composer with
          engine := some { c with again := true, againReasons := c.againReasons ||| x } }).live c.panel = true := hlc
      dsimp only
      rw [if_pos hlc, if_pos hlc', hc, joinQueue_head _ _ _ _ (by
        intro e he; simpa using (List.mem_filter.1 he).2), BitVec.or_assoc]
      rfl
    · have hS : s.composeRequest p x = s.setComposer { s.composer with queue := joinQueue p x s.composer.queue } := by
        simp [State.composeRequest, hp, h, hc]
      refine ⟨c, by rw [hS]; exact h, rfl, ?_⟩
      rw [hR, hS, hr]
      unfold compositionCut
      dsimp only
      have hv : (s.setComposer { s.composer with queue := joinQueue p x s.composer.queue }).live c.panel =
          s.live c.panel := rfl
      rw [hv]
      split
      · rw [joinQueue_cons_of_ne hc, State.setComposer_composer, filter_joinQueue_of_ne (Ne.symm hc)]
      · rfl

theorem composeRequests_cut (x : ReasonSet) : ∀ (ps : List PanelNo) {s r : State} {c : Composition},
    s.composer.engine = some c → r.composer = compositionCut s c → (∀ p, r.live p = s.live p) →
    ∃ d, (s.composeRequests ps x).composer.engine = some d ∧ d.target = c.target ∧
      (r.composeRequests ps x).composer = compositionCut (s.composeRequests ps x) d := by
  intro ps
  induction ps with
  | nil => intro s r c h hr _; exact ⟨c, h, rfl, hr⟩
  | cons p ps ih =>
    intro s r c h hr hl
    obtain ⟨d, h1, h2, h3⟩ := composeRequest_cut h hr hl p x
    obtain ⟨e, g1, g2, g3⟩ := ih h1 h3 fun q => by rw [composeRequest_live, composeRequest_live, hl]
    exact ⟨e, g1, g2.trans h2, g3⟩

theorem composeRequests_idle (x : ReasonSet) : ∀ (ps : List PanelNo) {s : State}, s.composer.engine = none →
    (s.composeRequests ps x).composer.engine = none := by
  intro ps
  induction ps with
  | nil => intro s h; exact h
  | cons p ps ih =>
    intro s h
    refine ih (s := s.composeRequest p x) ?_
    unfold State.composeRequest
    split
    · exact h
    · rw [h]; exact h

/-- Whichever of the requests and the expiry is taken first at the Composer, it ends the same (R64). -/
theorem leaseCut_changeoverAsked (hc : r.composer = changeoverAsked s) (hl : ∀ p, r.live p = s.live p) :
    leaseCut r = changeoverAsked { s with composer := leaseCut s } := by
  have hlp : livePanels { s with composer := leaseCut s } = livePanels s := rfl
  cases he : s.composer.engine with
  | none =>
    have h1 := composeRequests_idle (Reason.set .changeover) (livePanels s) he
    have h2 : leaseCut s = s.composer := by unfold leaseCut; rw [he]
    unfold leaseCut changeoverAsked at *
    rw [hc, h1, h2]
  | some c =>
    by_cases hv : c.target.visibility = .shown
    · have h2 : leaseCut s = compositionCut s c := by unfold leaseCut; rw [he]; exact if_pos hv
      obtain ⟨d, h3, h4, h5⟩ := composeRequests_cut (Reason.set .changeover) (livePanels s)
        (r := { s with composer := leaseCut s }) he h2 (fun _ => rfl)
      unfold changeoverAsked at hc ⊢
      rw [hlp, h5]
      unfold leaseCut
      rw [hc, h3]
      dsimp only
      rw [h4, if_pos hv]
      unfold compositionCut
      rw [hl, composeRequests_live, hc]
    · have h2 : leaseCut s = s.composer := by unfold leaseCut; rw [he]; exact if_neg hv
      have h3 : changeoverAsked { s with composer := leaseCut s } = changeoverAsked s :=
        changeoverAsked_congr h2 fun _ => rfl
      rw [h3]
      obtain ⟨d, h4, h5, _⟩ := composeRequests_cut (Reason.set .changeover) (livePanels s)
        (r := { s with composer := compositionCut s c }) he rfl (fun _ => rfl)
      unfold leaseCut
      rw [hc]
      unfold changeoverAsked at *
      rw [h4]
      dsimp only
      rw [h5, if_neg hv]

end Sys2Proof.Machine
end

