-- ==== Sys2Proof/Laws/Effects.lean ====
section
/-! SUPPORT. What the shared operations do to the fields they touch: the current target, the freeze record, the timers and
the flags. -/
namespace Sys2Proof.Machine

variable (s : State)

/-! ## The Changeover Controller's current target -/

@[simp] theorem settleDone_current (t : Target) : (s.settleDone t).changeover.current = s.changeover.current := by
  simp [State.settleDone]

@[simp] theorem stageMembers_current : s.stageMembers.changeover.current = s.changeover.current := by
  simp [State.stageMembers]

@[simp] theorem startChangeover_current : s.startChangeover.changeover.current = s.changeover.current := by
  unfold State.startChangeover; split <;> simp

@[simp] theorem supersede_current : s.supersede.changeover.current = s.changeover.current := by
  unfold State.supersede; split <;> simp

/-- A hand-off makes the current target the one handed (R69). -/
@[simp] theorem handTarget_current (t : Target) : (s.handTarget t).changeover.current = t := by
  unfold State.handTarget
  split
  · next h => exact h.symm
  · dsimp only; (repeat' split) <;> simp

@[simp] theorem endFreeze_current (c : FreezeCause) : (s.endFreeze c).changeover.current = s.changeover.current := by
  unfold State.endFreeze; dsimp only; split <;> simp

@[simp] theorem endFreezeInForce_current (c : FreezeCause) :
    (s.endFreezeInForce c).changeover.current = s.changeover.current := by
  unfold State.endFreezeInForce; split <;> simp

/-! ## The freeze record -/

/-- An end of the freeze leaves it OFF with its cause and a clear target-changed flag (R185). -/
@[simp] theorem endFreeze_freeze (c : FreezeCause) : (s.endFreeze c).freeze = ⟨.off, false, some c⟩ := by
  unfold State.endFreeze; dsimp only; split <;> simp

theorem endFreezeInForce_freeze (c : FreezeCause) :
    (s.endFreezeInForce c).freeze = if s.freeze.state.inForce then ⟨.off, false, some c⟩ else s.freeze := by
  unfold State.endFreezeInForce; split <;> simp

@[simp] theorem handTarget_freeze_state (t : Target) : (s.handTarget t).freeze.state = s.freeze.state := by
  unfold State.handTarget; (try dsimp only); (repeat' split) <;> simp

@[simp] theorem handTarget_freeze_lastEnd (t : Target) : (s.handTarget t).freeze.lastEnd = s.freeze.lastEnd := by
  unfold State.handTarget; (try dsimp only); (repeat' split) <;> simp

/-! ## Timers the controller and the freeze do not touch -/

theorem timeLeft_of_timers {s t : State} (h : t.timers = s.timers) (u : TimerId) : t.timeLeft u = s.timeLeft u := by
  unfold State.timeLeft; rw [h]

theorem raise_timeLeft (f : NoticeFlag) (p : PortId) (u : TimerId) : (s.raise f p).timeLeft u = s.timeLeft u :=
  timeLeft_of_timers (State.raise_timers s f p) u

theorem raiseBoth_timeLeft (f : NoticeFlag) (u : TimerId) : (s.raiseBoth f).timeLeft u = s.timeLeft u :=
  timeLeft_of_timers (State.raiseBoth_timers s f) u

theorem raiseLanes_timeLeft (f : NoticeFlag) (u : TimerId) : (s.raiseLanes f).timeLeft u = s.timeLeft u :=
  timeLeft_of_timers (State.raiseLanes_timers s f) u

theorem stageMembers_timeLeft (u : TimerId) : s.stageMembers.timeLeft u = s.timeLeft u :=
  timeLeft_of_timers (State.stageMembers_timers s) u

theorem clockIn_timeLeft (p : PortId) (n : Nat) (u : TimerId) : (s.clockIn p n).timeLeft u = s.timeLeft u :=
  timeLeft_of_timers (State.clockIn_timers s p n) u

theorem settleDone_timeLeft (t : Target) {u : TimerId} (hu : u ≠ .changeoverLimit) :
    (s.settleDone t).timeLeft u = s.timeLeft u := by
  have hk : TimerId.changeoverLimit.key ≠ u.key := fun e => hu (TimerId.key_injective e).symm
  unfold State.settleDone
  rw [raiseBoth_timeLeft, State.stopTimer_timeLeft_of_ne _ hk, State.setChangeover_timeLeft]

theorem startChangeover_timeLeft {u : TimerId} (hu : u ≠ .changeoverLimit) :
    s.startChangeover.timeLeft u = s.timeLeft u := by
  have hk : TimerId.changeoverLimit.key ≠ u.key := fun e => hu (TimerId.key_injective e).symm
  unfold State.startChangeover
  split
  · rw [stageMembers_timeLeft, State.startTimer_timeLeft_of_ne _ hk]
  · exact settleDone_timeLeft s _ hu

theorem supersede_timeLeft {u : TimerId} (hu : u ≠ .changeoverLimit) : s.supersede.timeLeft u = s.timeLeft u := by
  unfold State.supersede
  split
  · exact stageMembers_timeLeft s u
  · exact settleDone_timeLeft s _ hu

/-- A hand-off touches no timer but the changeover limit. -/
theorem handTarget_timeLeft (t : Target) {u : TimerId} (hu : u ≠ .changeoverLimit) :
    (s.handTarget t).timeLeft u = s.timeLeft u := by
  unfold State.handTarget
  split
  · rfl
  · dsimp only
    (repeat' split) <;>
      simp only [supersede_timeLeft _ hu, startChangeover_timeLeft _ hu, State.setChangeover_timeLeft,
        State.setFreeze_timeLeft]

/-- An end of the freeze touches no timer but the freeze limit and the changeover limit. -/
theorem endFreeze_timeLeft (c : FreezeCause) {u : TimerId} (hu : u ≠ .changeoverLimit) (hf : u ≠ .freezeLimit) :
    (s.endFreeze c).timeLeft u = s.timeLeft u := by
  have hk : TimerId.freezeLimit.key ≠ u.key := fun e => hf (TimerId.key_injective e).symm
  unfold State.endFreeze
  dsimp only
  split <;>
    simp only [State.setFreeze_timeLeft, startChangeover_timeLeft _ hu, raiseBoth_timeLeft,
      State.stopTimer_timeLeft_of_ne _ hk]

theorem endFreezeInForce_timeLeft (c : FreezeCause) {u : TimerId} (hu : u ≠ .changeoverLimit) (hf : u ≠ .freezeLimit) :
    (s.endFreezeInForce c).timeLeft u = s.timeLeft u := by
  unfold State.endFreezeInForce
  split
  · exact endFreeze_timeLeft s c hu hf
  · rfl

theorem endFreeze_freezeLimit (c : FreezeCause) : (s.endFreeze c).timeLeft .freezeLimit = none := by
  unfold State.endFreeze
  dsimp only
  split <;>
    simp only [State.setFreeze_timeLeft, startChangeover_timeLeft _ (u := .freezeLimit) (by simp), raiseBoth_timeLeft,
      State.stopTimer_timeLeft_self]

/-! ## Flags -/

/-- What raising a notice does to each port (R196). -/
theorem raise_port (f : NoticeFlag) (p q : PortId) :
    (s.raise f p).port q = if q = p ∧ s.portFitted p = true then (s.port q).setFlag p f else s.port q := by
  unfold State.raise
  by_cases hq : q = p
  · subst hq; split
    · next h => simp [h]
    · next h => simp [h]
  · split
    · rw [State.setPort_port_of_ne s hq]; simp [hq]
    · simp [hq]

/-- A raised flag is set, on a fitted port whose set names it. -/
theorem raise_flag (f : NoticeFlag) {p : PortId} (hf : s.portFitted p = true) (hs : f.mask &&& flagSetOf p = f.mask) :
    ((s.raise f p).port p).flags &&& f.mask = f.mask := by
  rw [raise_port]
  simp only [hf, and_self, if_true, Port.setFlag, hs]
  rw [BitVec.and_comm, BitVec.and_or_distrib_left, BitVec.and_self]
  apply BitVec.eq_of_getLsbD_eq
  intro i _
  simp only [BitVec.getLsbD_or, BitVec.getLsbD_and]
  cases f.mask.getLsbD i <;> simp

/-- A set flag stays set when another notice is raised. -/
theorem raise_keeps_flag (f g : NoticeFlag) (p q : PortId) (h : (s.port q).flags &&& f.mask = f.mask) :
    ((s.raise g p).port q).flags &&& f.mask = f.mask := by
  rw [raise_port]
  split
  · simp only [Port.setFlag]
    rw [BitVec.and_comm, BitVec.and_or_distrib_left, BitVec.and_comm, h]
    apply BitVec.eq_of_getLsbD_eq
    intro i _
    simp only [BitVec.getLsbD_or, BitVec.getLsbD_and]
    cases f.mask.getLsbD i <;> simp
  · exact h

theorem raise_port_state (f : NoticeFlag) (p q : PortId) : ((s.raise f p).port q).state = (s.port q).state := by
  rw [raise_port]; split <;> rfl

theorem raise_port_mask (f : NoticeFlag) (p q : PortId) : ((s.raise f p).port q).mask = (s.port q).mask := by
  rw [raise_port]; split <;> rfl

end Sys2Proof.Machine
end

