-- ==== Sys2Proof/Laws/Controller.lean ====
section
/-! SUPPORT. The controller and the freeze through the shared operations: an idle controller stays idle through every
operation that is not a hand-off, and a hand-off under a freeze leaves it idle (R69, R178); what a hand-off makes of the
controller, with and without a freeze that ends first. -/
namespace Sys2Proof.Machine

variable {s : State}

/-- The controller is idle. -/
abbrev State.Idle (s : State) : Prop := s.changeover.controller = .idle

theorem State.Idle.inFlight (h : s.Idle) : s.changeover.controller.inFlight = none := by rw [h]; rfl

theorem State.Idle.of_changeover {t : State} (h : s.Idle) (e : t.changeover = s.changeover) : t.Idle := by
  unfold State.Idle; rw [e]; exact h

theorem State.Idle.checkMembers (h : s.Idle) : s.checkMembers.Idle := by
  unfold State.checkMembers; rw [h.inFlight]; exact h

theorem State.Idle.advance (h : s.Idle) (p : PanelNo) (v : Progress) : (s.advance p v).Idle := by
  unfold State.advance; exact State.Idle.checkMembers h

theorem State.Idle.advanceFrom (h : s.Idle) (p : PanelNo) (a b : Progress) (k : FrameKind) :
    (s.advanceFrom p a b k).Idle := by
  unfold State.advanceFrom; rw [h.inFlight]; exact h

theorem State.Idle.clearLagging (h : s.Idle) (p : PanelNo) (k : FrameKind) : (s.clearLagging p k).Idle := by
  unfold State.clearLagging; split <;> exact h

theorem State.Idle.memberLeaves (h : s.Idle) (p : PanelNo) : (s.memberLeaves p).Idle := by
  unfold State.memberLeaves
  split
  · exact h
  · exact State.Idle.checkMembers h

theorem State.Idle.memberJoins (h : s.Idle) (p : PanelNo) : (s.memberJoins p).Idle := by
  unfold State.memberJoins; rw [h.inFlight]; exact h

theorem State.Idle.stage (h : s.Idle) (p : PanelNo) (k : FrameKind) (pic : Picture) : (s.stage p k pic).Idle := by
  unfold State.stage; dsimp only; exact State.Idle.advanceFrom (h.of_changeover (by simp)) _ _ _ _

theorem State.Idle.leaveLive (h : s.Idle) (p : PanelNo) : (s.leaveLive p).Idle := by
  unfold State.leaveLive; exact State.Idle.memberLeaves (h.of_changeover (by simp)) _

theorem State.Idle.enterDark (h : s.Idle) (p : PanelNo) : (s.enterDark p).Idle := by
  unfold State.enterDark
  split <;>
    first
    | exact h
    | exact State.Idle.of_changeover (State.Idle.leaveLive h p) (by simp)

theorem State.Idle.addCause (h : s.Idle) (c : DarkCause) (p : PanelNo) : (s.addCause c p).Idle := by
  unfold State.addCause
  dsimp only
  split
  · exact State.Idle.enterDark (h.of_changeover (by simp)) p
  · exact h.of_changeover (by simp)

/-- A controller under a freeze in force is idle: what the freeze demands of a state follows from an idle controller. -/
theorem freezeHolds_of_idle (h : s.Idle) : FreezeHoldsController s := fun _ => h

/-- An operation that leaves the freeze record alone and an idle controller idle keeps the demand. -/
theorem freezeHolds_of_keeps {t : State} (hf : t.freeze.state = s.freeze.state) (hi : s.Idle → t.Idle)
    (h : FreezeHoldsController s) : FreezeHoldsController t := fun hin => hi (h (by rwa [hf] at hin))

/-- With no freeze in force nothing is demanded. -/
theorem freezeHolds_of_off (h : s.freeze.state.inForce = false) : FreezeHoldsController s := fun hin => by simp [h] at hin

/-- A hand-off under a freeze starts no changeover (R69). -/
theorem freezeHolds_handTarget (h : FreezeHoldsController s) (t : Target) : FreezeHoldsController (s.handTarget t) := by
  intro hin
  rw [handTarget_freeze_state] at hin
  have hi : s.Idle := h hin
  unfold State.handTarget
  split
  · exact hi
  · dsimp only
    have hn : ({ s.changeover with current := t } : Changeover).controller.inFlight = none := hi.inFlight
    simp only [State.setChangeover_changeover, hn, State.setChangeover_freeze, hin, if_true]
    exact hi

/-- An end of the freeze leaves nothing to demand. -/
theorem freezeHolds_endFreeze (c : FreezeCause) : FreezeHoldsController (s.endFreeze c) :=
  freezeHolds_of_off (by simp [FreezeState.inForce])

theorem freezeHolds_endFreezeInForce (h : FreezeHoldsController s) (c : FreezeCause) :
    FreezeHoldsController (s.endFreezeInForce c) := by
  unfold State.endFreezeInForce
  split
  · exact freezeHolds_endFreeze c
  · exact h

theorem mem_allPanels (p : PanelNo) : p ∈ allPanels := by revert p; decide

/-! ## The checks after an advance -/

/-- What a settling leaves (R71, R76, R79, R82, R89). -/
theorem settleDone_settled (u : Target) : SettledDone s.changeover (s.settleDone u) u := by
  refine ⟨by simp [State.settleDone], ?_, ?_, ?_⟩
  · unfold State.settleDone; rw [raiseBoth_timeLeft]; exact State.stopTimer_timeLeft_self _ _
  · unfold FlagSet State.settleDone State.raiseBoth
    exact raise_keeps_flag _ _ _ _ _ (raise_flag _ _ rfl (by decide))
  · unfold FlagSet State.settleDone State.raiseBoth
    exact raise_flag _ _ rfl (by decide)

theorem mem_memberList (c : Changeover) (p : PanelNo) : p ∈ c.memberList ↔ (c.members.get p).isSome = true := by
  unfold Changeover.memberList
  rw [List.mem_filter]
  exact ⟨fun h => h.2, fun h => ⟨mem_allPanels p, h⟩⟩

/-- What the checks make of the controller (R75, R76, R82). -/
theorem checkMembers_checked {u : Target} (h : s.changeover.controller.inFlight = some u) :
    MembersChecked s.changeover s.checkMembers.changeover u := by
  have all : (s.changeover.memberList.all fun p => s.changeover.members.get p = some .confirmed) = true ↔
      ∀ p v, s.changeover.members.get p = some v → v = .confirmed := by
    rw [List.all_eq_true]
    refine ⟨fun g p v hv => ?_, fun g p hp => ?_⟩
    · have := g p ((mem_memberList _ _).2 (by rw [hv]; rfl))
      rw [hv] at this; simpa using this
    · obtain ⟨v, hv⟩ := Option.isSome_iff_exists.1 ((mem_memberList _ _).1 hp)
      rw [hv, g p v hv]; decide
  have past : (s.changeover.memberList.all fun p =>
        ((s.changeover.members.get p).map Progress.pastQueued).getD true) = true ↔
      ∀ p, s.changeover.members.get p ≠ some .queued := by
    rw [List.all_eq_true]
    refine ⟨fun g p hv => ?_, fun g p hp => ?_⟩
    · have := g p ((mem_memberList _ _).2 (by rw [hv]; rfl))
      rw [hv] at this; exact absurd this (by decide)
    · obtain ⟨v, hv⟩ := Option.isSome_iff_exists.1 ((mem_memberList _ _).1 hp)
      have := g p
      rw [hv] at this ⊢
      cases v <;> first | rfl | exact absurd rfl this
  refine ⟨fun g => ?_, fun ⟨p, v, hv, hn⟩ g => ?_, fun ⟨p, hp⟩ => ?_⟩
  · unfold State.checkMembers
    rw [h]; dsimp only; rw [if_pos (all.2 g)]
    exact (settleDone_settled u).1
  · unfold State.checkMembers
    rw [h]; dsimp only; rw [if_neg (fun e => hn (all.1 e p v hv)), if_pos (past.2 g)]
    rfl
  · unfold State.checkMembers
    rw [h]; dsimp only
    rw [if_neg (fun e => absurd (all.1 e p .queued hp) (by decide)), if_neg (fun e => past.1 e p hp)]

/-- Once the checks leave the controller idle, the changeover has settled DONE (R76, R82, R89). -/
theorem checkMembers_idle {u : Target} (h : s.changeover.controller.inFlight = some u)
    (hi : s.checkMembers.changeover.controller = .idle) : SettledDone s.changeover s.checkMembers u := by
  unfold State.checkMembers at hi ⊢
  rw [h] at hi ⊢
  dsimp only at hi ⊢
  split
  · exact settleDone_settled u
  · next g =>
    rw [if_neg g] at hi
    split at hi
    · cases hi
    · rw [hi] at h; cases h

/-! ## Hand-offs -/

theorem anyLive_iff : s.anyLive = true ↔ ∃ p, s.live p = true := by
  unfold State.anyLive
  rw [List.any_eq_true]
  exact ⟨fun ⟨p, _, h⟩ => ⟨p, h⟩, fun ⟨p, h⟩ => ⟨p, mem_allPanels p, h⟩⟩

theorem anyLive_eq_false (h : ∀ p, s.live p = false) : s.anyLive = false := by
  cases hb : s.anyLive with
  | false => rfl
  | true => obtain ⟨p, hp⟩ := anyLive_iff.mp hb; rw [h p] at hp; exact absurd hp (by decide)

/-- What staging anew leaves of the controller and the links (R70, R79). -/
theorem stageMembers_changeover : s.stageMembers.changeover = { s.changeover with
    controller := .staging s.changeover.current
    members := PerPanel.ofFn fun p => if s.live p then some .queued else none } := by
  unfold State.stageMembers
  simp only [State.composeRequests_changeover, State.setChangeover_changeover]
  have : ∀ p, s.discardStaged.live p = s.live p := fun p => by
    unfold State.live State.link State.discardStaged
    simp only [PerPanel.get_ofFn]; split <;> rfl
  simp [State.liveMembers, this]

theorem stageMembers_link (p : PanelNo) :
    s.stageMembers.link p = if s.live p = true then { s.link p with staged := none } else s.link p := by
  unfold State.stageMembers
  simp [State.link, State.discardStaged]

theorem discardStaged_live (p : PanelNo) : s.discardStaged.live p = s.live p := by
  unfold State.live State.link State.discardStaged
  simp only [PerPanel.get_ofFn]; split <;> rfl

theorem stageMembers_live (p : PanelNo) : s.stageMembers.live p = s.live p := by
  unfold State.live
  rw [stageMembers_link]
  split <;> rfl

theorem live_of_links {t : State} (h : t.links = s.links) (p : PanelNo) : t.live p = s.live p := by
  unfold State.live State.link; rw [h]

/-- Staging anew asks for every live panel (R70 step 6, R79 step 5). -/
theorem stageMembers_composer : s.stageMembers.composer = changeoverAsked s := by
  have hm : ∀ c : Changeover, c.members = s.discardStaged.liveMembers → c.memberList = livePanels s := by
    intro c h
    unfold Changeover.memberList livePanels
    congr 1; funext p
    rw [h]; simp only [State.liveMembers, PerPanel.get_ofFn, discardStaged_live]
    cases s.live p <;> rfl
  unfold State.stageMembers changeoverAsked
  dsimp only
  rw [State.setChangeover_changeover, hm _ rfl]
  exact composeRequests_composer_congr _ _ rfl fun p => discardStaged_live p

/-- What a start leaves (R70, R71). -/
theorem startChangeover_staged (h : ∃ p, s.live p = true) :
    StagedAnew s s.startChangeover s.changeover.current ∧
      s.startChangeover.timeLeft .changeoverLimit = some s.changeoverLimitMs := by
  unfold State.startChangeover
  rw [if_pos (anyLive_iff.mpr h)]
  refine ⟨⟨?_, fun p => ?_, ?_⟩, ?_⟩
  · rw [stageMembers_changeover]; simp [live_of_links (s := s) (t := s.startTimer _ _) rfl]
  · rw [stageMembers_link]; simp [live_of_links (s := s) (t := s.startTimer _ _) rfl]
  · rw [stageMembers_composer]; exact changeoverAsked_congr rfl fun _ => rfl
  · rw [stageMembers_timeLeft]; exact State.startTimer_timeLeft_self _ _ _

theorem startChangeover_settled (h : ∀ p, s.live p = false) :
    SettledDone s.changeover s.startChangeover s.changeover.current ∧ NothingStarted s s.startChangeover := by
  unfold State.startChangeover
  rw [if_neg (by rw [anyLive_eq_false h]; decide)]
  exact ⟨settleDone_settled _, by simp, by simp⟩

/-- What a supersede leaves (R79). -/
theorem supersede_staged (h : ∃ p, s.live p = true) :
    StagedAnew s s.supersede s.changeover.current ∧
      s.supersede.timeLeft .changeoverLimit = s.timeLeft .changeoverLimit := by
  unfold State.supersede
  rw [if_pos (anyLive_iff.mpr h)]
  exact ⟨⟨stageMembers_changeover, stageMembers_link, stageMembers_composer⟩, stageMembers_timeLeft s _⟩

theorem supersede_settled (h : ∀ p, s.live p = false) :
    SettledDone s.changeover s.supersede s.changeover.current ∧ NothingStarted s s.supersede := by
  unfold State.supersede
  rw [if_neg (by rw [anyLive_eq_false h]; decide)]
  exact ⟨settleDone_settled _, by simp, by simp⟩

/-- What the controller makes of a hand-off (R69). -/
theorem handTarget_handed (u : Target) : TargetHanded s (s.handTarget u) u := by
  have hl : ∀ p, (s.setChangeover { s.changeover with current := u }).live p = s.live p := live_of_links rfl
  have ha : changeoverAsked (s.setChangeover { s.changeover with current := u }) = changeoverAsked s :=
    changeoverAsked_congr rfl hl
  refine ⟨fun h => ?_, fun v h hv => ?_, fun h hi => ⟨fun hf => ?_, fun hf => ?_⟩⟩
  · simp [State.handTarget, h, NothingStarted]
  · refine ⟨?_, fun e => ?_, fun e hp => ?_, fun e hp => ?_⟩
    · simp only [State.handTarget, h, State.setChangeover_changeover, hv, if_false]; split <;> simp
    · rw [State.handTarget, if_neg h]; simp [hv, e, NothingStarted]
    · have := supersede_staged (s := s.setChangeover { s.changeover with current := u }) (by simpa [hl] using hp)
      simpa [State.handTarget, h, hv, e, StagedAnew, hl, ha] using this
    · have := supersede_settled (s := s.setChangeover { s.changeover with current := u }) (by simpa [hl] using hp)
      simpa [State.handTarget, h, hv, e, NothingStarted] using this
  · have hn : s.changeover.controller.inFlight = none := by rw [hi]; rfl
    simp [State.handTarget, h, hn, hf, NothingStarted]
  · have hn : s.changeover.controller.inFlight = none := by rw [hi]; rfl
    refine ⟨?_, fun e => ?_, fun e hp => ?_, fun e hp => ?_⟩
    · unfold State.handTarget
      dsimp only
      split
      · rfl
      · split
        · next h' => rw [State.setChangeover_changeover] at h'; rw [show _ = _ from hn] at h'; cases h'
        · split
          · next h' => exact absurd (h'.symm.trans hf) (by decide)
          · split <;> simp
    · rw [State.handTarget, if_neg h]; simp [hn, hf, e, NothingStarted]
    · have hm : (s.setChangeover { s.changeover with current := u }).changeoverLimitMs = s.changeoverLimitMs := rfl
      have := startChangeover_staged (s := s.setChangeover { s.changeover with current := u }) (by simpa [hl] using hp)
      simpa [State.handTarget, h, hn, hf, e, StagedAnew, hl, hm, ha] using this
    · have := startChangeover_settled (s := s.setChangeover { s.changeover with current := u }) (by simpa [hl] using hp)
      simpa [State.handTarget, h, hn, hf, e, NothingStarted] using this

/-- What an end of the freeze leaves of the controller, idle before (R185). -/
theorem endFreezeInForce_same (c : FreezeCause) (h : s.changeover.current = s.changeover.settled) :
    (s.endFreezeInForce c).changeover = s.changeover ∧ NothingStarted s (s.endFreezeInForce c) := by
  unfold State.endFreezeInForce State.endFreeze NothingStarted
  split <;> simp [h]

theorem endFreezeInForce_off (c : FreezeCause) (h : s.freeze.state.inForce = false) : s.endFreezeInForce c = s := by
  unfold State.endFreezeInForce; simp [h]

/-- What the hand-off relations say stays said of a state that differs in other fields, and in more flags set. -/
theorem SettledDone.of_eq {c : Changeover} {t w : State} {u : Target} (h : SettledDone c t u)
    (hc : w.changeover = t.changeover) (ht : w.timeLeft .changeoverLimit = t.timeLeft .changeoverLimit)
    (hf : ∀ p, FlagSet t p .changeoverDone → FlagSet w p .changeoverDone) : SettledDone c w u :=
  ⟨hc.trans h.1, ht.trans h.2.1, hf _ h.2.2.1, hf _ h.2.2.2⟩

theorem link_of_links {t : State} (h : t.links = s.links) (p : PanelNo) : t.link p = s.link p := by
  unfold State.link; rw [h]

theorem StagedAnew.of_eq {t w : State} {u : Target} (h : StagedAnew s t u) (hc : w.changeover = t.changeover)
    (hl : w.links = t.links) (hq : w.composer = t.composer) : StagedAnew s w u :=
  ⟨hc.trans h.1, fun p => (link_of_links hl p).trans (h.2.1 p), hq.trans h.2.2⟩

theorem NothingStarted.of_eq {t w : State} (h : NothingStarted s t) (hl : w.links = t.links)
    (hq : w.composer = t.composer) : NothingStarted s w := ⟨hl.trans h.1, hq.trans h.2⟩

theorem TargetHanded.of_eq {t w : State} {u : Target} (h : TargetHanded s t u) (hc : w.changeover = t.changeover)
    (hz : w.freeze = t.freeze) (hl : w.links = t.links) (hq : w.composer = t.composer)
    (ht : w.timeLeft .changeoverLimit = t.timeLeft .changeoverLimit)
    (hf : ∀ p, FlagSet t p .changeoverDone → FlagSet w p .changeoverDone) : TargetHanded s w u := by
  have hn : NothingStarted s t → NothingStarted s w := fun g => g.of_eq hl hq
  refine ⟨fun e => ?_, fun v e hv => ⟨?_, fun a => ?_, fun a b => ?_, fun a b => ?_⟩,
    fun e hi => ⟨fun a => ?_, fun a => ⟨?_, fun b => ?_, fun b d => ?_, fun b d => ?_⟩⟩⟩
  · rw [hc, hz]; exact ⟨(h.1 e).1, (h.1 e).2.1, hn (h.1 e).2.2⟩
  · rw [hz]; exact (h.2.1 v e hv).1
  · rw [hc]; exact ⟨((h.2.1 v e hv).2.1 a).1, hn ((h.2.1 v e hv).2.1 a).2⟩
  · exact ⟨((h.2.1 v e hv).2.2.1 a b).1.of_eq hc hl hq, ht.trans ((h.2.1 v e hv).2.2.1 a b).2⟩
  · exact ⟨((h.2.1 v e hv).2.2.2 a b).1.of_eq hc ht hf, hn ((h.2.1 v e hv).2.2.2 a b).2⟩
  · rw [hc, hz]
    exact ⟨((h.2.2 e hi).1 a).1, ((h.2.2 e hi).1 a).2.1, hn ((h.2.2 e hi).1 a).2.2⟩
  · rw [hz]; exact ((h.2.2 e hi).2 a).1
  · rw [hc]; exact ⟨(((h.2.2 e hi).2 a).2.1 b).1, hn (((h.2.2 e hi).2 a).2.1 b).2⟩
  · exact ⟨(((h.2.2 e hi).2 a).2.2.1 b d).1.of_eq hc hl hq, ht.trans (((h.2.2 e hi).2 a).2.2.1 b d).2⟩
  · exact ⟨(((h.2.2 e hi).2 a).2.2.2 b d).1.of_eq hc ht hf, hn (((h.2.2 e hi).2 a).2.2.2 b d).2⟩

theorem TargetHandedAfterFreeze.of_eq {t w : State} {u : Target} (h : TargetHandedAfterFreeze s t u)
    (hc : w.changeover = t.changeover) (hz : w.freeze = t.freeze) (hl : w.links = t.links) (hq : w.composer = t.composer)
    (ht : w.timeLeft .changeoverLimit = t.timeLeft .changeoverLimit)
    (hf : ∀ p, FlagSet t p .changeoverDone → FlagSet w p .changeoverDone) : TargetHandedAfterFreeze s w u := by
  refine ⟨fun a => (h.1 a).of_eq hc hz hl hq ht hf, fun a hi => ⟨fun b d => ?_, fun b d => ?_, fun b d => ?_⟩⟩
  · rw [hc]; exact ⟨((h.2 a hi).1 b d).1, ((h.2 a hi).1 b d).2.of_eq hl hq⟩
  · exact ⟨((h.2 a hi).2.1 b d).1.of_eq hc hl hq, ht.trans ((h.2 a hi).2.1 b d).2⟩
  · exact ⟨((h.2 a hi).2.2 b d).1.of_eq hc ht hf, ((h.2 a hi).2.2 b d).2.of_eq hl hq⟩

/-- The relations look at the state before through these fields alone. -/
theorem TargetHanded.of_before {r t : State} {u : Target} (h : TargetHanded r t u) (hc : r.changeover = s.changeover)
    (hz : r.freeze = s.freeze) (hl : r.links = s.links) (hq : r.composer = s.composer)
    (ht : r.timeLeft .changeoverLimit = s.timeLeft .changeoverLimit)
    (hm : r.changeoverLimitMs = s.changeoverLimitMs) : TargetHanded s t u := by
  have hv : ∀ p, r.live p = s.live p := live_of_links hl
  have hk : ∀ p, r.link p = s.link p := link_of_links hl
  have ha : changeoverAsked r = changeoverAsked s := changeoverAsked_congr hq hv
  simpa only [TargetHanded, StagedAnew, SettledDone, NothingStarted, hc, hz, hl, hq, ht, hm, hv, hk, ha] using h

theorem TargetHandedAfterFreeze.of_before {r t : State} {u : Target} (h : TargetHandedAfterFreeze r t u)
    (hc : r.changeover = s.changeover) (hz : r.freeze = s.freeze) (hl : r.links = s.links)
    (hq : r.composer = s.composer) (ht : r.timeLeft .changeoverLimit = s.timeLeft .changeoverLimit)
    (hm : r.changeoverLimitMs = s.changeoverLimitMs) : TargetHandedAfterFreeze s t u := by
  have hv : ∀ p, r.live p = s.live p := live_of_links hl
  have hk : ∀ p, r.link p = s.link p := link_of_links hl
  have ha : changeoverAsked r = changeoverAsked s := changeoverAsked_congr hq hv
  refine ⟨fun a => (h.1 (by rw [hz]; exact a)).of_before hc hz hl hq ht hm, ?_⟩
  simpa only [StagedAnew, SettledDone, NothingStarted, hc, hz, hl, hq, hm, hv, hk, ha] using h.2

theorem endFreezeInForce_inForce (c : FreezeCause) : (s.endFreezeInForce c).freeze.state.inForce = false := by
  rw [endFreezeInForce_freeze]
  split
  · rfl
  · next h => simpa using h

/-- The controller after an end of the freeze that held a change back (R185). -/
theorem endFreezeInForce_changed (c : FreezeCause) (hf : s.freeze.state.inForce = true)
    (h : s.changeover.current ≠ s.changeover.settled) :
    ∃ w : State, w.changeover = s.changeover ∧ w.links = s.links ∧ w.composer = s.composer ∧
      w.changeoverLimitMs = s.changeoverLimitMs ∧
      (s.endFreezeInForce c).changeover = w.startChangeover.changeover ∧
      (s.endFreezeInForce c).links = w.startChangeover.links ∧
      (s.endFreezeInForce c).composer = w.startChangeover.composer ∧
      (s.endFreezeInForce c).timeLeft .changeoverLimit = w.startChangeover.timeLeft .changeoverLimit ∧
      ∀ p, FlagSet w.startChangeover p .changeoverDone → FlagSet (s.endFreezeInForce c) p .changeoverDone := by
  refine ⟨((s.setFreeze { s.freeze with state := .off, lastEnd := some c }).stopTimer .freezeLimit).raiseBoth
    .freezeEnded, by simp, by simp, by simp, by simp [State.changeoverLimitMs, State.profileNat], ?_, ?_, ?_, ?_, ?_⟩ <;>
  · unfold State.endFreezeInForce State.endFreeze
    rw [if_pos hf]
    simp [h]
    try rfl
    try exact fun _ h => h

/-- What a command that ends a freeze finds of the Composer afterwards: asked for every live panel when the end started a
changeover, as it was otherwise. -/
theorem endFreezeInForce_composer (c : FreezeCause) : (s.endFreezeInForce c).composer =
    if s.freeze.state.inForce = true ∧ s.changeover.current ≠ s.changeover.settled then changeoverAsked s
    else s.composer := by
  split
  · next h =>
    obtain ⟨w, _, w2, w3, _, _, _, w7, _⟩ := endFreezeInForce_changed c h.1 h.2
    have hv : ∀ p, w.live p = s.live p := live_of_links w2
    rw [w7]
    by_cases hp : ∃ p, w.live p = true
    · rw [(startChangeover_staged hp).1.2.2]; exact changeoverAsked_congr w3 hv
    · have hp : ∀ p, w.live p = false := fun p => by simpa using fun h => hp ⟨p, h⟩
      rw [(startChangeover_settled hp).2.2, w3, changeoverAsked_none (fun p => by rw [← hv]; exact hp p)]
  · next h =>
    cases hf : s.freeze.state.inForce with
    | false => rw [endFreezeInForce_off c hf]
    | true => exact (endFreezeInForce_same c (by simpa [hf] using h)).2.2

/-- A hand-off after the end of a freeze, whatever the command does to other fields between the two. -/
theorem handTarget_handedAfterFreeze (c : FreezeCause) (w : State) (u : Target)
    (hc : w.changeover = (s.endFreezeInForce c).changeover) (hl : w.links = (s.endFreezeInForce c).links)
    (hz : w.freeze = (s.endFreezeInForce c).freeze)
    (hq : w.composer =
      if s.freeze.state.inForce = true ∧ s.changeover.current ≠ s.changeover.settled
      then changeoverAsked s else s.composer)
    (ht : w.timeLeft .changeoverLimit = (s.endFreezeInForce c).timeLeft .changeoverLimit)
    (hm : w.changeoverLimitMs = s.changeoverLimitMs)
    (hd : ∀ p, FlagSet (s.endFreezeInForce c) p .changeoverDone → FlagSet w p .changeoverDone) :
    TargetHandedAfterFreeze s (w.handTarget u) u := by
  have hh := handTarget_handed (s := w) u
  have hzf : w.freeze.state.inForce = false := by rw [hz]; exact endFreezeInForce_inForce c
  refine ⟨fun hf => ?_, fun hf hi => ⟨fun a b => ?_, fun a hp => ?_, fun a hp => ?_⟩⟩
  · rw [endFreezeInForce_off c hf] at hc hl hz ht
    rw [if_neg (fun h => by rw [hf] at h; exact absurd h.1 (by decide))] at hq
    exact hh.of_before hc hz hl hq ht hm
  · obtain ⟨h1, h2, _⟩ := endFreezeInForce_same c b
    rw [h1] at hc; rw [h2] at hl
    rw [if_neg (fun h => h.2 b)] at hq
    obtain ⟨h3, _, h4, h5⟩ := hh.1 (by rw [hc]; exact a)
    exact ⟨h3.trans hc, h4.trans hl, h5.trans hq⟩
  · by_cases b : s.changeover.current = s.changeover.settled
    · obtain ⟨h1, h2, _⟩ := endFreezeInForce_same c b
      rw [h1] at hc; rw [h2] at hl
      rw [if_neg (fun h => h.2 b)] at hq
      have hv : ∀ p, w.live p = s.live p := live_of_links hl
      have hk : ∀ p, w.link p = s.link p := link_of_links hl
      have ha : changeoverAsked w = changeoverAsked s := changeoverAsked_congr hq hv
      have hu : u ≠ s.changeover.current := fun e => a ⟨e, b⟩
      have := (((hh.2.2 (by rw [hc]; exact hu) (by rw [hc]; exact hi)).2 hzf).2.2.1 (by rw [hc, ← b]; exact hu)
        (by simpa only [hv] using hp))
      simpa only [StagedAnew, hc, hv, hk, hm, ha] using this
    · rw [if_pos ⟨hf, b⟩] at hq
      obtain ⟨x, x1, x2, _, x3, x4, x5, _, x6, _⟩ := endFreezeInForce_changed c hf b
      have hv : ∀ p, x.live p = s.live p := live_of_links x2
      have hk : ∀ p, x.link p = s.link p := link_of_links x2
      obtain ⟨⟨y1, y2, _⟩, y3⟩ := startChangeover_staged (s := x) (by simpa only [hv] using hp)
      rw [x4, y1, x1] at hc
      rw [x6, y3, x3] at ht
      have hkw : ∀ p, w.link p = if s.live p = true then { s.link p with staged := none } else s.link p := fun p => by
        rw [link_of_links (hl.trans x5) p, y2, hv, hk]
      have hvw : ∀ p, w.live p = s.live p := fun p => by
        unfold State.live; rw [hkw]; split <;> rfl
      by_cases e : u = s.changeover.current
      · rw [show w.handTarget u = w by rw [State.handTarget, if_pos (by rw [hc]; exact e)]]
        refine ⟨⟨?_, hkw, hq⟩, ht⟩
        rw [hc]; simp only [hv, e]
      · have := (hh.2.1 s.changeover.current (by rw [hc]; exact e) (by rw [hc]; rfl)).2.2.1 e
          (by simpa only [hvw] using hp)
        refine ⟨⟨?_, fun p => ?_, ?_⟩, ?_⟩
        · rw [this.1.1, hc]; simp only [hvw]
        · rw [this.1.2.1, hvw, hkw]; split <;> rfl
        · rw [this.1.2.2]; exact changeoverAsked_twice hq hvw
        · rw [this.2, ht]
  · rw [changeoverAsked_none hp, ite_self] at hq
    by_cases b : s.changeover.current = s.changeover.settled
    · obtain ⟨h1, h2, _⟩ := endFreezeInForce_same c b
      rw [h1] at hc; rw [h2] at hl
      have hv : ∀ p, w.live p = s.live p := live_of_links hl
      have hu : u ≠ s.changeover.current := fun e => a ⟨e, b⟩
      have := (((hh.2.2 (by rw [hc]; exact hu) (by rw [hc]; exact hi)).2 hzf).2.2.2 (by rw [hc, ← b]; exact hu)
        (by simpa only [hv] using hp))
      simpa only [NothingStarted, hc, hl, hq] using this
    · obtain ⟨x, x1, x2, _, x3, x4, x5, _, x6, x7⟩ := endFreezeInForce_changed c hf b
      have hv : ∀ p, x.live p = s.live p := live_of_links x2
      obtain ⟨⟨y1, y3, y4, y5⟩, y2, _⟩ := startChangeover_settled (s := x) (by simpa only [hv] using hp)
      rw [x4, y1, x1] at hc
      rw [x6, y3] at ht
      have hlw : w.links = s.links := by rw [hl, x5, y2, x2]
      have hvw : ∀ p, w.live p = s.live p := live_of_links hlw
      by_cases e : u = s.changeover.current
      · rw [show w.handTarget u = w by rw [State.handTarget, if_pos (by rw [hc]; exact e)]]
        refine ⟨⟨?_, ht, hd _ (x7 _ y4), hd _ (x7 _ y5)⟩, hlw, hq⟩
        rw [hc, e]
      · have := (((hh.2.2 (by rw [hc]; exact e) (by rw [hc])).2 hzf).2.2.2 (by rw [hc]; exact e)
          (by simpa only [hvw] using hp))
        refine ⟨?_, this.2.1.trans hlw, this.2.2.trans hq⟩
        have h1 := this.1
        rw [hc] at h1
        exact h1

/-- The Composer decides nothing about what a start does to other fields. -/
theorem startChangeover_of_composer (s : State) (q : Composer) :
    ({ s with composer := q } : State).startChangeover =
      { s.startChangeover with composer := ({ s with composer := q } : State).startChangeover.composer } := by
  unfold State.startChangeover
  have h : ({ s with composer := q } : State).anyLive = s.anyLive := rfl
  rw [h]
  split
  · unfold State.stageMembers; dsimp only; rw [composeRequests_eq]; conv => rhs; rw [composeRequests_eq]
    rfl
  · rfl

/-- Nor about what the end of a freeze does. -/
theorem endFreezeInForce_of_composer (c : FreezeCause) (s : State) (q : Composer) :
    ({ s with composer := q } : State).endFreezeInForce c =
      { s.endFreezeInForce c with composer := (({ s with composer := q } : State).endFreezeInForce c).composer } := by
  have held (v : State) :
      (if v.changeover.current = v.changeover.settled then { v with composer := q }
        else ({ v with composer := q } : State).startChangeover) =
      { (if v.changeover.current = v.changeover.settled then v else v.startChangeover) with
        composer := (if v.changeover.current = v.changeover.settled then { v with composer := q }
          else ({ v with composer := q } : State).startChangeover).composer } := by
    split
    · rfl
    · exact startChangeover_of_composer v q
  unfold State.endFreezeInForce
  have h : ({ s with composer := q } : State).freeze.state.inForce = s.freeze.state.inForce := rfl
  rw [h]
  split
  · exact congrArg (fun v : State => v.setFreeze { v.freeze with targetChanged := false })
      (held (((s.setFreeze { s.freeze with state := .off, lastEnd := some c }).stopTimer .freezeLimit).raiseBoth
        .freezeEnded))
  · rfl

theorem startChangeover_live (p : PanelNo) : s.startChangeover.live p = s.live p := by
  unfold State.startChangeover
  split
  · rw [stageMembers_live]; rfl
  · exact live_of_links (by simp) p

/-- The end of a freeze changes no link's state. -/
theorem endFreezeInForce_live (c : FreezeCause) (p : PanelNo) : (s.endFreezeInForce c).live p = s.live p := by
  unfold State.endFreezeInForce State.endFreeze
  split
  · dsimp only
    rw [live_of_links (State.setFreeze_links _ _)]
    split
    · exact live_of_links (by simp) p
    · rw [startChangeover_live]; exact live_of_links (by simp) p
  · rfl

/-- The hand-off of an expiring lease: the freeze's end first, then the composition that is cut short, then the visibility
(R22, R64). -/
theorem expireLease_handed (s : State) :
    TargetHandedAfterFreeze { s with composer := leaseCut s } s.expireLease
      { s.changeover.current with visibility := .withheld } := by
  generalize hr : ({ s with composer := leaseCut s } : State) = r
  have he := endFreezeInForce_of_composer .lease s (leaseCut s)
  rw [hr] at he
  unfold State.expireLease
  dsimp only
  generalize hw : (State.setCatalogue { (s.endFreezeInForce .lease).catalogue with lease := .expired }
    (s.endFreezeInForce .lease)) = v
  have hq : (v.cutShort).composer =
      if r.freeze.state.inForce = true ∧ r.changeover.current ≠ r.changeover.settled then changeoverAsked r
      else r.composer := by
    rw [cutShort_eq]
    have hv : v.composer = _ := (show v.composer = (s.endFreezeInForce .lease).composer by rw [← hw]; rfl).trans
      (endFreezeInForce_composer (s := s) .lease)
    have hl : ∀ p, v.live p = s.live p := fun p => by rw [← hw]; exact endFreezeInForce_live _ _
    have hf : r.freeze = s.freeze := by rw [← hr]
    have hc : r.changeover = s.changeover := by rw [← hr]
    rw [hf, hc]
    show leaseCut v = _
    split
    · next h => rw [if_pos h] at hv; rw [leaseCut_changeoverAsked hv hl, hr]
    · next h =>
      rw [if_neg h] at hv
      rw [← hr]; unfold leaseCut compositionCut; rw [hv]; simp only [hl]
  have hv : v.cutShort = { v with composer := v.cutShort.composer } := by rw [cutShort_eq]
  have hcur : v.cutShort.changeover.current = s.changeover.current := by
    rw [hv, ← hw]; exact endFreezeInForce_current s .lease
  have key := handTarget_handedAfterFreeze (s := r) .lease v.cutShort { v.cutShort.changeover.current with visibility := .withheld }
    (by rw [hv, ← hw, he]; rfl) (by rw [hv, ← hw, he]; rfl) (by rw [hv, ← hw, he]; rfl) hq
    (by rw [hv, ← hw, he]; rfl) (by
      rw [hv, ← hw, ← hr]
      show natOf (fieldValue (State.endFreezeInForce _ s).inForce _) = _
      simp [State.changeoverLimitMs, State.profileNat]) (by rw [hv, ← hw, he]; exact fun _ h => h)
  have handed := key.of_eq
    (w := ((v.cutShort.handVisibility .withheld).raiseLanes .pricesWithheld).raise .leaseExpired .store)
    (by simp [State.handVisibility]) (by simp [State.handVisibility]) (by simp [State.handVisibility])
    (by simp [State.handVisibility]) (by rw [raise_timeLeft, raiseLanes_timeLeft]; rfl) fun p h =>
      raise_keeps_flag _ _ _ _ _ (raise_keeps_flag _ _ _ _ _ (raise_keeps_flag _ _ _ _ _ h))
  rw [hcur] at handed
  exact handed

end Sys2Proof.Machine
end

