-- ==== Sys2Proof/Laws/Departures.lean ====
section
/-! SUPPORT. What a link that leaves LOCKED and STREAMING leaves of the Composer and of the changeover (R48, R82, R99), and
what an added dark cause leaves of a link (R109); both through many links at once, as a closing of the store has them. -/
namespace Sys2Proof.Machine

variable {s r t : State}

/-! ## The member set (R82) -/

theorem MembersLeft.of_eq {gone : PanelNo → Bool} (h : MembersLeft s r gone) (hc : t.changeover = r.changeover)
    (hl : t.timeLeft .changeoverLimit = r.timeLeft .changeoverLimit)
    (hf : ∀ q f, FlagSet r q f → FlagSet t q f) : MembersLeft s t gone := by
  refine ⟨fun g => ?_, fun u p v hu hp hv => ?_⟩
  · rw [hc, hl]; exact h.1 g
  · obtain ⟨h1, h2, h3⟩ := h.2 u p v hu hp hv
    rw [hc, hl]
    exact ⟨h1, fun g => ⟨(h2 g).1, hf _ _ (h2 g).2.1, hf _ _ (h2 g).2.2⟩, h3⟩

theorem MembersLeft.of_before {gone : PanelNo → Bool} (h : MembersLeft r t gone) (hc : r.changeover = s.changeover)
    (hl : r.timeLeft .changeoverLimit = s.timeLeft .changeoverLimit) : MembersLeft s t gone := by
  unfold MembersLeft at h ⊢
  rw [← hc, ← hl]; exact h

theorem membersLeft_none {gone : PanelNo → Bool} (hg : ∀ p, gone p = false) (hc : t.changeover = s.changeover)
    (hl : t.timeLeft .changeoverLimit = s.timeLeft .changeoverLimit) : MembersLeft s t gone :=
  ⟨fun _ => ⟨hc, hl⟩, fun _ p _ _ hp => by rw [hg p] at hp; cases hp⟩

theorem MembersLeft.congr {a b : PanelNo → Bool} (h : MembersLeft s t a) (hab : ∀ p, a p = b p) : MembersLeft s t b := by
  rwa [show a = b from funext hab] at h

theorem checkMembers_limit (hi : s.checkMembers.changeover.controller ≠ .idle) :
    s.checkMembers.timeLeft .changeoverLimit = s.timeLeft .changeoverLimit := by
  unfold State.checkMembers at hi ⊢
  split
  · rfl
  · next u hu =>
    rw [hu] at hi
    dsimp only at hi ⊢
    split
    · next g => rw [if_pos g] at hi; exact absurd rfl hi
    · split <;> rfl

theorem memberLeaves_left (s : State) (p : PanelNo) : MembersLeft s (s.memberLeaves p) (fun q => q = p) := by
  unfold State.memberLeaves
  cases hm : s.changeover.members.get p with
  | none =>
    refine ⟨fun _ => ⟨rfl, rfl⟩, fun u q v _ hq hv => ?_⟩
    rw [of_decide_eq_true hq, hm] at hv; cases hv
  | some w =>
    refine ⟨fun g => ?_, fun u q v hu hq hv => ?_⟩
    · have := g p (decide_eq_true rfl)
      rw [hm] at this; cases this
    · dsimp only
      have he : (s.changeover.members.set p none) = PerPanel.ofFn fun q =>
          if decide (q = p) = true then none else s.changeover.members.get q := by
        refine PerPanel.ext_get fun q => ?_
        rw [PerPanel.get_ofFn]
        by_cases hq : q = p
        · subst hq; rw [PerPanel.get_set_self, if_pos (decide_eq_true rfl)]
        · rw [PerPanel.get_set_of_ne _ hq, if_neg (by simpa using hq)]
      generalize hw : s.setChangeover { s.changeover with members := s.changeover.members.set p none } = w
      have hwc : w.changeover = { s.changeover with members := s.changeover.members.set p none } := by rw [← hw]; rfl
      have hwu : w.changeover.controller.inFlight = some u := by rw [hwc]; exact hu
      have hwl : w.timeLeft .changeoverLimit = s.timeLeft .changeoverLimit := by rw [← hw]; rfl
      refine ⟨?_, fun g => ?_, fun g => ?_⟩
      · rw [← he, ← hwc]; exact checkMembers_checked hwu
      · exact (checkMembers_idle hwu g).2
      · rw [checkMembers_limit g, hwl]

/-- Two sets of departures, one after the other, are one set. -/
theorem MembersLeft.trans {a b : PanelNo → Bool} (h1 : MembersLeft s r a) (h2 : MembersLeft r t b)
    (hf : ∀ q f, FlagSet r q f → FlagSet t q f) : MembersLeft s t (fun p => a p || b p) := by
  have eq_of : ∀ {x y : PerPanel (Option Progress)}, (∀ q, x.get q = y.get q) → x = y := PerPanel.ext_get
  by_cases ha : ∀ p, a p = true → s.changeover.members.get p = none
  · obtain ⟨hc, hl⟩ := h1.1 ha
    have hb := h2.of_before hc hl
    refine ⟨fun g => hb.1 fun p hp => g p (by simp [hp]), fun u p v hu hp hv => ?_⟩
    have hpb : b p = true := by
      rcases Bool.or_eq_true _ _ ▸ hp with hp | hp
      · rw [ha p hp] at hv; cases hv
      · exact hp
    have he : (PerPanel.ofFn fun q => if b q = true then none else s.changeover.members.get q) =
        PerPanel.ofFn fun q => if (a q || b q) = true then none else s.changeover.members.get q := by
      refine eq_of fun q => ?_
      rw [PerPanel.get_ofFn, PerPanel.get_ofFn]
      by_cases hqa : a q = true
      · rw [ha q hqa]; simp
      · simp [hqa]
    rw [← he]; exact hb.2 u p v hu hpb hv
  · obtain ⟨p0, hp0⟩ := Classical.not_forall.1 ha
    obtain ⟨hap, hmp⟩ := Classical.not_imp.1 hp0
    obtain ⟨v0, hv0⟩ := Option.ne_none_iff_exists'.1 hmp
    refine ⟨fun g => absurd (g p0 (by simp [hap])) hmp, fun u p v hu _ _ => ?_⟩
    obtain ⟨k1, k2, k3⟩ := h1.2 u p0 v0 hu hap hv0
    generalize hm1 : (PerPanel.ofFn fun q => if a q = true then none else s.changeover.members.get q) = m1 at k1
    generalize hm2 : (PerPanel.ofFn fun q => if (a q || b q) = true then none else s.changeover.members.get q) = m2
    have g1 : ∀ q, m1.get q = if a q = true then none else s.changeover.members.get q := fun q => by
      rw [← hm1, PerPanel.get_ofFn]
    have g2 : ∀ q, m2.get q = if (a q || b q) = true then none else s.changeover.members.get q := fun q => by
      rw [← hm2, PerPanel.get_ofFn]
    have g12 : ∀ q, m2.get q = if b q = true then none else m1.get q := fun q => by
      rw [g1, g2]; cases a q <;> cases b q <;> rfl
    have sub : ∀ q x, m2.get q = some x → m1.get q = some x := fun q x hx => by
      rw [g12] at hx; split at hx
      · cases hx
      · exact hx
    by_cases hall : ∀ q x, m1.get q = some x → x = .confirmed
    · have hr := k1.1 hall
      have hidle : r.changeover.controller = .idle := by rw [hr]
      obtain ⟨hc, hl⟩ := h2.1 fun q _ => by rw [hr]; exact PerPanel.get_ofFn _ q
      refine ⟨⟨fun _ => by rw [hc, hr], fun ⟨q, x, hx, hn⟩ => absurd (hall q x (sub q x hx)) hn,
        fun ⟨q, hx⟩ => absurd (hall q _ (sub q _ hx)) (by decide)⟩, fun _ => ?_, fun g => ?_⟩
      · rw [hl]; obtain ⟨e1, e2, e3⟩ := k2 hidle; exact ⟨e1, hf _ _ e2, hf _ _ e3⟩
      · rw [hc] at g; exact absurd hidle g
    · have hex : ∃ q x, m1.get q = some x ∧ x ≠ .confirmed := by
        simpa [Classical.not_forall] using hall
      have hr : r.changeover = { s.changeover with members := m1, controller := r.changeover.controller } ∧
          r.changeover.controller.inFlight = some u ∧
          ((∀ q, m1.get q ≠ some .queued) → r.changeover.controller = .armed u) ∧
          ((∃ q, m1.get q = some .queued) → r.changeover.controller = s.changeover.controller) := by
        by_cases hq : ∃ q, m1.get q = some .queued
        · have := k1.2.2 hq
          rw [this]; exact ⟨rfl, hu, fun g => absurd hq.choose_spec (g _), fun _ => rfl⟩
        · have := k1.2.1 hex fun q g => hq ⟨q, g⟩
          rw [this]; exact ⟨rfl, rfl, fun _ => rfl, fun g => absurd g hq⟩
      obtain ⟨hr, hru, harm, hstay⟩ := hr
      have hni : r.changeover.controller ≠ .idle := fun g => by rw [g] at hru; cases hru
      have hrm : r.changeover.members = m1 := by rw [hr]
      by_cases hb : ∀ q, b q = true → r.changeover.members.get q = none
      · obtain ⟨hc, hl⟩ := h2.1 hb
        have he : m2 = m1 := eq_of fun q => by
          rw [g12]; split
          · next hbq => rw [← hrm, hb q hbq]
          · rfl
        rw [he, hc, hl]
        exact ⟨k1, fun g => absurd g hni, fun _ => k3 hni⟩
      · obtain ⟨q0, hq0⟩ := Classical.not_forall.1 hb
        obtain ⟨hbq, hmq⟩ := Classical.not_imp.1 hq0
        obtain ⟨w0, hw0⟩ := Option.ne_none_iff_exists'.1 hmq
        obtain ⟨j1, j2, j3⟩ := h2.2 u q0 w0 hru hbq hw0
        have he : (PerPanel.ofFn fun q => if b q = true then none else r.changeover.members.get q) = m2 :=
          eq_of fun q => by rw [PerPanel.get_ofFn, g12, hrm]
        rw [he] at j1
        refine ⟨⟨fun g => ?_, fun g1 g2 => ?_, fun g => ?_⟩, j2, fun g => (j3 g).trans (k3 hni)⟩
        · rw [j1.1 g, hr]
        · rw [j1.2.1 g1 g2, hr]
        · obtain ⟨q, hq⟩ := g
          rw [j1.2.2 ⟨q, hq⟩, hr]
          dsimp only
          rw [hstay ⟨q, sub q _ hq⟩]

/-! ## The Composer (R48) -/

theorem composerWithout_none {gone : PanelNo → Bool} (hg : ∀ p, gone p = false) : composerWithout s gone = s.composer := by
  unfold composerWithout
  have h1 : s.composer.queue.filter (fun e => gone e.panel = false) = s.composer.queue :=
    List.filter_eq_self.2 fun e _ => decide_eq_true (hg _)
  have h2 : (s.composer.engine.map fun c => if gone c.panel = true then { c with lost := true } else c) =
      s.composer.engine := by
    cases s.composer.engine with
    | none => rfl
    | some c => simp [hg]
  rw [h1, h2]

theorem composerWithout_trans {a b : PanelNo → Bool} (h1 : r.composer = composerWithout s a) :
    composerWithout r b = composerWithout s (fun p => a p || b p) := by
  unfold composerWithout at h1 ⊢
  rw [h1]
  dsimp only
  congr 1
  · rw [List.filter_filter]
    have h : ∀ x y : Bool, (decide (y = false) && decide (x = false)) = decide ((x || y) = false) := by decide
    exact List.filter_congr fun e _ => h _ _
  · cases s.composer.engine with
    | none => rfl
    | some c => cases ha : a c.panel <;> cases hb : b c.panel <;> simp [ha, hb]

theorem composerRemoval_composer (s : State) (p : PanelNo) :
    (s.composerRemoval p).composer = composerWithout s (fun q => q = p) := by
  unfold State.composerRemoval composerWithout State.setComposer
  dsimp only
  congr 1
  · exact List.filter_congr fun e _ => by by_cases h : e.panel = p <;> simp [h]
  · cases s.composer.engine with
    | none => rfl
    | some c => by_cases h : c.panel = p <;> simp [h]

theorem composerWithout_congr {a b : PanelNo → Bool} (hc : r.composer = s.composer) (h : ∀ p, a p = b p) :
    composerWithout r a = composerWithout s b := by
  unfold composerWithout; rw [hc, show a = b from funext h]

/-! ## A live link leaves (R99) -/

theorem memberLeaves_timeLeft (s : State) (p : PanelNo) {u : TimerId} (hu : u ≠ .changeoverLimit) :
    (s.memberLeaves p).timeLeft u = s.timeLeft u := by
  unfold State.memberLeaves State.checkMembers
  (repeat' split) <;> first
    | rfl
    | (dsimp only; (repeat' split) <;> first
        | rfl
        | simp only [settleDone_timeLeft _ _ hu, State.setChangeover_timeLeft])

theorem leaveLive_link (s : State) (p : PanelNo) : (s.leaveLive p).link p = { s.link p with
    showing := none, staged := none, confirmed := none, transmitting := none, mismatchMark := false } := by
  have h : (s.leaveLive p).link p = (s.setLink p
      { s.link p with
        showing := none, staged := none, confirmed := none, transmitting := none, mismatchMark := false }).link p := by
    unfold State.leaveLive
    dsimp only
    exact link_of_links (by simp) p
  rw [h, State.setLink_link_self]

theorem leaveLive_link_of_ne {p q : PanelNo} (hq : q ≠ p) : (s.leaveLive p).link q = s.link q := by
  have h : (s.leaveLive p).link q = (s.setLink p
      { s.link p with
        showing := none, staged := none, confirmed := none, transmitting := none, mismatchMark := false }).link q := by
    unfold State.leaveLive
    dsimp only
    exact link_of_links (by simp) q
  rw [h, State.setLink_link_of_ne _ hq]

theorem leaveLive_timeLeft (s : State) (p : PanelNo) {u : TimerId} (hu : u ≠ .changeoverLimit) :
    (s.leaveLive p).timeLeft u = if u = .lockSilence p ∨ u = .framePeriod p then none else s.timeLeft u := by
  unfold State.leaveLive
  dsimp only
  rw [memberLeaves_timeLeft _ _ hu, timeLeft_of_timers (State.composerRemoval_timers _ _)]
  by_cases h2 : u = .framePeriod p
  · subst h2; rw [State.stopTimer_timeLeft_self, if_pos (Or.inr rfl)]
  · rw [State.stopTimer_timeLeft_of_ne _ fun e => h2 (TimerId.key_injective e).symm]
    by_cases h1 : u = .lockSilence p
    · subst h1; rw [State.stopTimer_timeLeft_self, if_pos (Or.inl rfl)]
    · rw [State.stopTimer_timeLeft_of_ne _ fun e => h1 (TimerId.key_injective e).symm, State.setLink_timeLeft,
        if_neg (by simp [h1, h2])]

theorem leaveLive_composer (s : State) (p : PanelNo) : (s.leaveLive p).composer = composerWithout s (fun q => q = p) := by
  unfold State.leaveLive
  dsimp only
  rw [State.memberLeaves_composer, composerRemoval_composer]
  exact composerWithout_congr rfl fun _ => rfl

theorem leaveLive_members (s : State) (p : PanelNo) : MembersLeft s (s.leaveLive p) (fun q => q = p) := by
  unfold State.leaveLive
  dsimp only
  refine (memberLeaves_left _ p).of_before (by simp) ?_
  rw [timeLeft_of_timers (State.composerRemoval_timers _ _),
    State.stopTimer_timeLeft_of_ne _ fun e => absurd (TimerId.key_injective e) (by simp),
    State.stopTimer_timeLeft_of_ne _ fun e => absurd (TimerId.key_injective e) (by simp), State.setLink_timeLeft]

theorem memberLeaves_flag (s : State) (p : PanelNo) (q : PortId) (f : NoticeFlag) (h : FlagSet s q f) :
    FlagSet (s.memberLeaves p) q f := by
  unfold State.memberLeaves State.checkMembers
  split
  · exact h
  · dsimp only
    split
    · exact h
    · split
      · unfold State.settleDone State.raiseBoth
        exact raise_keeps_flag _ _ _ _ _ (raise_keeps_flag _ _ _ _ _ h)
      · split <;> exact h

theorem leaveLive_flag (s : State) (p : PanelNo) (q : PortId) (f : NoticeFlag) (h : FlagSet s q f) :
    FlagSet (s.leaveLive p) q f := by
  unfold State.leaveLive
  dsimp only
  exact memberLeaves_flag _ _ _ _ h

/-- A live link that leaves LOCKED and STREAMING (R99). -/
theorem leaveLive_left (s : State) (p : PanelNo) : LeftLive s (s.leaveLive p) p := by
  refine ⟨?_, ?_, ?_, ?_, ?_, ?_, leaveLive_composer s p, leaveLive_members s p⟩
  · rw [leaveLive_link]
  · rw [leaveLive_link]
  · rw [leaveLive_link]
  · rw [leaveLive_link]
  · rw [leaveLive_timeLeft _ _ (by simp), if_pos (Or.inl rfl)]
  · rw [leaveLive_timeLeft _ _ (by simp), if_pos (Or.inr rfl)]

/-- What later changes of the link's state, of other timers and of flags leave of a departure. -/
theorem LeftLive.of_eq {p : PanelNo} (h : LeftLive s r p) (h1 : (t.link p).showing = (r.link p).showing)
    (h2 : (t.link p).staged = (r.link p).staged) (h3 : (t.link p).confirmed = (r.link p).confirmed)
    (h4 : (t.link p).sequence = (r.link p).sequence) (hc : t.composer = r.composer) (hg : t.changeover = r.changeover)
    (ht : ∀ u, u = .lockSilence p ∨ u = .framePeriod p ∨ u = .changeoverLimit → t.timeLeft u = r.timeLeft u)
    (hf : ∀ q f, FlagSet r q f → FlagSet t q f) : LeftLive s t p := by
  obtain ⟨a1, a2, a3, a4, a5, a6, a7, a8⟩ := h
  exact ⟨h1.trans a1, h2.trans a2, h3.trans a3, h4.trans a4, (ht _ (Or.inl rfl)).trans a5,
    (ht _ (Or.inr (Or.inl rfl))).trans a6, hc.trans a7, a8.of_eq hg (ht _ (Or.inr (Or.inr rfl))) hf⟩

/-! ## A dark cause joins (R109) -/

theorem raise_link (s : State) (f : NoticeFlag) (o : PortId) (q : PanelNo) : (s.raise f o).link q = s.link q :=
  link_of_links (by simp) q

theorem setLinkState_flag (s : State) (p : PanelNo) (v : LinkState) (q : PortId) (f : NoticeFlag) :
    FlagSet (s.setLinkState p v) q f ↔ FlagSet s q f := Iff.rfl

/-- A link that is already dark for a cause. -/
theorem addCause_of_causes {p : PanelNo} (c : DarkCause) (h : (s.link p).causes.isEmpty = false) :
    s.addCause c p = s.setLink p { s.link p with causes := (s.link p).causes.add c } := by
  unfold State.addCause; dsimp only; rw [h]; rfl

theorem isEmpty_iff (d : DarkSet) : d.isEmpty = true ↔ d = ⟨false, false⟩ := by
  obtain ⟨a, b⟩ := d; cases a <;> cases b <;> simp [DarkSet.isEmpty]

/-- What is left alone as a cause joins link `p`: other links and the timers that are none of `p`'s. -/
theorem addCause_rest (s : State) (c : DarkCause) (p : PanelNo) :
    (∀ q, q ≠ p → (s.addCause c p).link q = s.link q) ∧
    (∀ u, u ≠ .changeoverLimit → u ≠ .lockSilence p → u ≠ .framePeriod p → u ≠ .trainingLimit p → u ≠ .testSecond p →
      (s.addCause c p).timeLeft u = s.timeLeft u) ∧
    ∀ q f, FlagSet s q f → FlagSet (s.addCause c p) q f := by
  unfold State.addCause
  dsimp only
  split
  · unfold State.enterDark
    refine ⟨fun q hq => ?_, fun u h0 h1 h2 h3 h4 => ?_, fun q f h => ?_⟩
    · split <;> simp only [State.setLinkState_link_of_ne _ hq, leaveLive_link_of_ne hq, State.setLink_link_of_ne _ hq,
        State.stopTimer_link, State.endTest, raise_link]
    · split <;> simp only [State.setLinkState_timeLeft, leaveLive_timeLeft _ _ h0, if_neg (not_or.2 ⟨h1, h2⟩),
        State.setLink_timeLeft, State.endTest, raise_timeLeft,
        State.stopTimer_timeLeft_of_ne _ fun e => h3 (TimerId.key_injective e).symm,
        State.stopTimer_timeLeft_of_ne _ fun e => h4 (TimerId.key_injective e).symm]
    · split
      · exact leaveLive_flag _ _ _ _ h
      · exact leaveLive_flag _ _ _ _ h
      · exact h
      · exact h
      · exact raise_keeps_flag _ _ _ _ _ h
      · exact h
      · exact h
      · exact h
  · exact ⟨fun q hq => State.setLink_link_of_ne _ hq _, fun _ _ _ _ _ _ => rfl, fun _ _ h => h⟩

/-- A cause that joins a link: its own record and timers, the Composer and the member set (R109, R99). -/
theorem addCause_added (s : State) (c : DarkCause) (p : PanelNo) :
    CauseAdded s (s.addCause c p) p ((s.link p).causes.add c) ∧
    (s.addCause c p).composer = composerWithout s (fun q => decide (q = p) && leavesForDark s q) ∧
    MembersLeft s (s.addCause c p) (fun q => decide (q = p) && leavesForDark s q) := by
  have hdet := (addCause_rest s c p).2.1 (.detach p) (by simp) (by simp) (by simp) (by simp) (by simp)
  by_cases he : (s.link p).causes = ⟨false, false⟩
  · have hem : (s.link p).causes.isEmpty = true := (isEmpty_iff _).2 he
    generalize hw : s.setLink p { s.link p with causes := (s.link p).causes.add c } = w
    have hlk : w.link p = { s.link p with causes := (s.link p).causes.add c } := by rw [← hw, State.setLink_link_self]
    have hst : (w.link p).state = (s.link p).state := by rw [hlk]
    have htl : ∀ u, w.timeLeft u = s.timeLeft u := fun u => by rw [← hw, State.setLink_timeLeft]
    have hcm : w.composer = s.composer := by rw [← hw]; rfl
    have hco : w.changeover = s.changeover := by rw [← hw]; rfl
    have hadd : s.addCause c p = w.enterDark p := by
      unfold State.addCause; dsimp only; rw [hem, if_pos rfl, hw]
    have gone_true : s.live p = true → ∀ q, decide (q = p) = (decide (q = p) && leavesForDark s q) := fun hl q => by
      by_cases hq : q = p
      · subst hq; simp [leavesForDark, hl, he]
      · simp [hq]
    have gone_false : s.live p = false → ∀ q, (decide (q = p) && leavesForDark s q) = false := fun hl q => by
      by_cases hq : q = p
      · subst hq; simp [leavesForDark, hl]
      · simp [hq]
    have live_case : s.live p = true → s.addCause c p = (w.leaveLive p).setLinkState p .dark := fun hl => by
      rw [hadd]; unfold State.enterDark
      unfold State.live LinkState.live at hl
      rw [hst]
      cases hs : (s.link p).state <;> rw [hs] at hl <;> first | rfl | exact absurd hl (by decide)
    have dead_case : s.live p = false → (s.addCause c p).composer = s.composer ∧
        (s.addCause c p).changeover = s.changeover ∧
        (s.addCause c p).timeLeft .changeoverLimit = s.timeLeft .changeoverLimit := fun hl => by
      rw [hadd]; unfold State.enterDark
      unfold State.live LinkState.live at hl
      rw [hst]
      have k1 : (TimerId.trainingLimit p).key ≠ TimerId.changeoverLimit.key :=
        fun e => absurd (TimerId.key_injective e) (by simp)
      have k2 : (TimerId.testSecond p).key ≠ TimerId.changeoverLimit.key :=
        fun e => absurd (TimerId.key_injective e) (by simp)
      cases hs : (s.link p).state <;> rw [hs] at hl <;> first
        | exact absurd hl (by decide)
        | (refine ⟨?_, ?_, ?_⟩ <;> simp [hcm, hco, htl, State.endTest, raise_timeLeft,
            State.stopTimer_timeLeft_of_ne _ k1, State.stopTimer_timeLeft_of_ne _ k2])
    refine ⟨⟨hdet, fun g => absurd he g, fun _ => ⟨fun hl => ?_, fun hs => ?_, fun hs => ?_, fun hs => ?_, fun hs => ?_⟩⟩,
      ?_, ?_⟩
    · rw [live_case hl, State.setLinkState_link_self, leaveLive_link, hlk]
      refine ⟨rfl, ?_, ?_⟩
      · rw [State.setLinkState_timeLeft, leaveLive_timeLeft _ _ (by simp), if_pos (Or.inl rfl)]
      · rw [State.setLinkState_timeLeft, leaveLive_timeLeft _ _ (by simp), if_pos (Or.inr rfl)]
    · rw [hadd]; unfold State.enterDark; rw [hst, hs]
      dsimp only
      rw [State.setLinkState_link_self, State.stopTimer_link, hlk, State.setLinkState_timeLeft]
      exact ⟨rfl, State.stopTimer_timeLeft_self _ _⟩
    · rw [hadd]; unfold State.enterDark; rw [hst, hs]
      dsimp only
      rw [State.setLinkState_link_self, hlk]
    · rw [hadd]; unfold State.enterDark; rw [hst, hs]
      dsimp only [State.endTest]
      rw [State.setLinkState_link_self, raise_link, State.stopTimer_link, State.setLink_link_self, hlk,
        State.setLinkState_timeLeft, raise_timeLeft]
      exact ⟨rfl, State.stopTimer_timeLeft_self _ _, raise_flag _ _ rfl (by decide)⟩
    · rw [hadd]; unfold State.enterDark; rw [hst]
      rcases hs with hs | hs | hs <;> rw [hs] <;> exact hlk
    · cases hl : s.live p with
      | true =>
        rw [live_case hl]
        refine Eq.trans ?_ (composerWithout_congr (s := s) rfl (gone_true hl))
        rw [State.setLinkState_composer, leaveLive_composer]
        exact composerWithout_congr hcm fun _ => rfl
      | false => rw [composerWithout_none (gone_false hl)]; exact (dead_case hl).1
    · cases hl : s.live p with
      | true =>
        rw [live_case hl]
        refine MembersLeft.congr ?_ (gone_true hl)
        exact ((leaveLive_members w p).of_before hco (htl _)).of_eq rfl (State.setLinkState_timeLeft _ _ _ _)
          fun _ _ h => h
      | false => exact membersLeft_none (gone_false hl) (dead_case hl).2.1 (dead_case hl).2.2
  · have hem : (s.link p).causes.isEmpty = false := by
      cases h : (s.link p).causes.isEmpty with
      | true => exact absurd ((isEmpty_iff _).1 h) he
      | false => rfl
    have hg : ∀ q, (decide (q = p) && leavesForDark s q) = false := fun q => by
      by_cases hq : q = p
      · subst hq; simp [leavesForDark, he]
      · simp [hq]
    refine ⟨⟨hdet, fun _ => ?_, fun g => absurd g he⟩, ?_, ?_⟩
    · rw [addCause_of_causes c hem, State.setLink_link_self]
    · rw [composerWithout_none hg, addCause_of_causes c hem]; rfl
    · exact membersLeft_none hg (by rw [addCause_of_causes c hem]; rfl) (by rw [addCause_of_causes c hem]; rfl)

/-- The timers that an added cause may stop on a link. -/
theorem CauseAdded.of_eq {p : PanelNo} {d : DarkSet} (h : CauseAdded s r p d) (hl : t.link p = r.link p)
    (ht : ∀ u, u = .detach p ∨ u = .lockSilence p ∨ u = .framePeriod p ∨ u = .trainingLimit p ∨ u = .testSecond p →
      t.timeLeft u = r.timeLeft u)
    (hf : ∀ q f, FlagSet r q f → FlagSet t q f) : CauseAdded s t p d := by
  obtain ⟨h1, h2, h3⟩ := h
  refine ⟨(ht _ (by simp)).trans h1, fun g => hl.trans (h2 g), fun g => ?_⟩
  obtain ⟨k1, k2, k3, k4, k5⟩ := h3 g
  refine ⟨fun e => ?_, fun e => ?_, fun e => hl.trans (k3 e), fun e => ?_, fun e => hl.trans (k5 e)⟩
  · obtain ⟨e1, e2, e3⟩ := k1 e
    exact ⟨hl.trans e1, (ht _ (by simp)).trans e2, (ht _ (by simp)).trans e3⟩
  · exact ⟨hl.trans (k2 e).1, (ht _ (by simp)).trans (k2 e).2⟩
  · obtain ⟨e1, e2, e3⟩ := k4 e
    exact ⟨hl.trans e1, (ht _ (by simp)).trans e2, hf _ _ e3⟩

theorem CauseAdded.of_before {p : PanelNo} {d : DarkSet} (h : CauseAdded r t p d) (hl : r.link p = s.link p)
    (ht : r.timeLeft (.detach p) = s.timeLeft (.detach p)) : CauseAdded s t p d := by
  unfold CauseAdded State.live at h ⊢
  rw [← hl, ← ht]; exact h

/-- A cause that joins each link of a list. -/
theorem foldl_addCause_added (c : DarkCause) : ∀ (ps : List PanelNo) (s : State), ps.Nodup →
    (∀ q, q ∉ ps → (ps.foldl (fun s p => s.addCause c p) s).link q = s.link q ∧
      ∀ u, u = .detach q ∨ u = .lockSilence q ∨ u = .framePeriod q ∨ u = .trainingLimit q ∨ u = .testSecond q →
        (ps.foldl (fun s p => s.addCause c p) s).timeLeft u = s.timeLeft u) ∧
    (∀ q, q ∈ ps → CauseAdded s (ps.foldl (fun s p => s.addCause c p) s) q ((s.link q).causes.add c)) ∧
    (ps.foldl (fun s p => s.addCause c p) s).composer =
      composerWithout s (fun q => decide (q ∈ ps) && leavesForDark s q) ∧
    MembersLeft s (ps.foldl (fun s p => s.addCause c p) s) (fun q => decide (q ∈ ps) && leavesForDark s q) ∧
    ∀ q f, FlagSet s q f → FlagSet (ps.foldl (fun s p => s.addCause c p) s) q f := by
  intro ps
  induction ps with
  | nil =>
    intro s _
    exact ⟨fun _ _ => ⟨rfl, fun _ _ => rfl⟩, fun q h => absurd h (by simp), (composerWithout_none fun _ => by simp).symm,
      membersLeft_none (fun _ => by simp) rfl rfl, fun _ _ h => h⟩
  | cons p ps ih =>
    intro s hn
    obtain ⟨hp, hn⟩ := List.nodup_cons.1 hn
    obtain ⟨i1, i2, i3, i4, i5⟩ := ih (s.addCause c p) hn
    obtain ⟨r1, r2, r3⟩ := addCause_rest s c p
    obtain ⟨a1, a2, a3⟩ := addCause_added s c p
    have own : ∀ q, q ≠ p → ∀ u, u = .detach q ∨ u = .lockSilence q ∨ u = .framePeriod q ∨ u = .trainingLimit q ∨
        u = .testSecond q → (s.addCause c p).timeLeft u = s.timeLeft u := fun q hq u hu => by
      rcases hu with rfl | rfl | rfl | rfl | rfl <;>
        exact r2 _ (by simp) (by simp [hq]) (by simp [hq]) (by simp [hq]) (by simp [hq])
    have leaves : ∀ q, (decide (q = p) && leavesForDark s q || decide (q ∈ ps) && leavesForDark (s.addCause c p) q) =
        (decide (q ∈ p :: ps) && leavesForDark s q) := fun q => by
      by_cases hq : q = p
      · subst hq; simp [hp]
      · have : leavesForDark (s.addCause c p) q = leavesForDark s q := by
          unfold leavesForDark State.live; rw [r1 q hq]
        rw [this]; simp [hq]
    refine ⟨fun q hq => ?_, fun q hq => ?_, ?_, ?_, fun q f h => i5 q f (r3 q f h)⟩
    · obtain ⟨hqp, hq⟩ := not_or.1 (fun g => hq (List.mem_cons.2 g))
      exact ⟨(i1 q hq).1.trans (r1 q hqp), fun u hu => ((i1 q hq).2 u hu).trans (own q hqp u hu)⟩
    · by_cases hqp : q = p
      · subst hqp
        exact a1.of_eq (i1 q hp).1 (i1 q hp).2 i5
      · have := i2 q ((List.mem_cons.1 hq).resolve_left hqp)
        rw [r1 q hqp] at this
        exact this.of_before (r1 q hqp) (own q hqp _ (Or.inl rfl))
    · rw [List.foldl_cons, i3, composerWithout_trans a2]
      exact composerWithout_congr rfl leaves
    · exact (a3.trans i4 i5).congr leaves

/-- The cause CLOSED joins every fitted link (R173). -/
theorem closedAdded (s : State) : ClosedAdded s (s.fittedLinks.foldl (fun s p => s.addCause .closed p) s) := by
  have hm : ∀ p, p ∈ s.fittedLinks ↔ s.linkFitted p = true := fun p => by
    unfold State.fittedLinks; rw [List.mem_filter]; exact ⟨fun h => h.2, fun h => ⟨mem_allPanels p, h⟩⟩
  have hn : s.fittedLinks.Nodup := List.Pairwise.filter _ (by decide : allPanels.Nodup)
  have hg : ∀ q, (decide (q ∈ s.fittedLinks) && leavesForDark s q) = (s.linkFitted q && leavesForDark s q) := fun q => by
    by_cases h : s.linkFitted q = true
    · rw [decide_eq_true ((hm q).2 h), h]
    · rw [decide_eq_false fun g => h ((hm q).1 g), Bool.eq_false_iff.2 h]
  obtain ⟨h1, h2, h3, h4, _⟩ := foldl_addCause_added .closed s.fittedLinks s hn
  exact ⟨fun p hp => (h1 p (by rw [hm, hp]; decide)).1, fun p hp => h2 p ((hm p).2 hp),
    h3.trans (composerWithout_congr rfl hg), h4.congr hg⟩

theorem ClosedAdded.of_eq (h : ClosedAdded s r) (hl : ∀ p, t.link p = r.link p) (hc : t.composer = r.composer)
    (hg : t.changeover = r.changeover) (ht : ∀ u, t.timeLeft u = r.timeLeft u)
    (hf : ∀ q f, FlagSet r q f → FlagSet t q f) : ClosedAdded s t :=
  ⟨fun p hp => (hl p).trans (h.1 p hp), fun p hp => (h.2.1 p hp).of_eq (hl p) (fun u _ => ht u) hf, hc.trans h.2.2.1,
    h.2.2.2.of_eq hg (ht _) hf⟩

/-- A change of the clock record before the closing changes nothing of it. -/
theorem ClosedAdded.of_before {k : StoreClock} {w : State} (h : ClosedAdded w t) (hw : s.setClock k = w) :
    ClosedAdded s t := by
  subst hw; exact h

end Sys2Proof.Machine
end

