-- ==== Sys2Proof/Laws/Painting.lean ====
section
/-! SUPPORT. Painting: each kind of placement makes of the picture what the words of Sys2Proof/Painting.lean say (R32, R52 to
R58). -/
namespace Sys2Proof.Machine

open Sys2Proof.Painting

/-! ## Cells -/

theorem paintCells_length (n : Nat) (f : Nat → Nat → Cell → Cell) : ∀ (l : List Cell) (i : Nat),
    (paintCells n f i l).length = l.length
  | [], _ => rfl
  | _ :: l, i => congrArg Nat.succ (paintCells_length n f l (i + 1))

theorem paintCells_getElem? (n : Nat) (f : Nat → Nat → Cell → Cell) : ∀ (l : List Cell) (i k : Nat),
    (paintCells n f i l)[k]? = l[k]?.map (f ((i + k) % n) ((i + k) / n))
  | [], _, _ => rfl
  | _ :: _, _, 0 => rfl
  | _ :: l, i, k + 1 => by
    show (paintCells n f (i + 1) l)[k]? = _
    rw [paintCells_getElem? n f l (i + 1) k, List.getElem?_cons_succ, Nat.add_right_comm, Nat.add_assoc i k 1]

/-- What a change of every cell does. -/
theorem redrawn_mapPicture {f g : Nat → Nat → Cell → Cell} (h : ∀ x y cell, f x y cell = g x y cell) (pic : Picture) :
    Redrawn pic (mapPicture f pic) g := by
  refine ⟨rfl, rfl, paintCells_length _ _ _ _, fun i cell hc => ?_⟩
  show (paintCells pic.columns f 0 pic.cells)[i]? = _
  rw [paintCells_getElem?, hc, Nat.zero_add, Option.map_some, h]

theorem filledPicture_filled (g : Grid) (c : BitVec 4) : Filled (filledPicture g c) g c :=
  ⟨rfl, rfl, List.length_replicate, fun _ h => List.eq_of_mem_replicate h⟩

/-! ## Texts -/

theorem position_eq (first : Nat) (text : List Byte) (c : BitVec 4) (k : Nat) (held : Option Glyph) :
    overGlyph held (glyphAt first text c k) = position first text c k held := by
  unfold position glyphAt
  by_cases h : first ≤ k
  · rw [if_pos h, if_neg (by omega)]
    cases text[k - first]? <;> rfl
  · rw [if_neg h, if_pos (by omega)]; rfl

theorem lineDrawn (r : Rect) (row first : Nat) (text : List Byte) (c : BitVec 4) (pic : Picture) :
    LineDrawn pic (drawLine r row first text c pic) r row first text c :=
  redrawn_mapPicture (fun x y cell => by simp only [position_eq]) pic

theorem textDrawn (r : Rect) (text : List Byte) (c : BitVec 4) (pic : Picture) :
    TextDrawn pic (drawText r text c pic) r text c := lineDrawn r r.row 0 text c pic

theorem priceDrawn (r : Rect) (row : Nat) (text : List Byte) (c : BitVec 4) (pic : Picture) :
    PriceDrawn pic (drawRight r row text c pic) r row text c := by
  unfold drawRight Rect.lineLength
  refine ⟨fun h => ?_, fun h => ?_⟩
  · rw [if_pos h]; exact lineDrawn r row _ text c pic
  · rw [if_neg (by omega)]

theorem digitsExactly_eq (n : Nat) : ∀ d, digitsExactly d n = fraction d n
  | 0 => rfl
  | d + 1 => by
    rw [digitsExactly, digitsExactly_eq n d]
    unfold fraction digitGlyph
    rw [List.range_succ_eq_map, List.map_cons, List.map_map]
    congr 1
    exact List.map_congr_left fun k _ => by simp only [Function.comp]; congr 5; omega

/-- The price format (R55). -/
theorem priceGlyphs_eq (s : State) (price : Nat) : s.priceGlyphs price = priceText s price := by
  unfold State.priceGlyphs priceText
  simp only [digitsExactly_eq, List.singleton_append, List.append_assoc]
  rfl

/-! ## Placements -/

theorem photoDrawn (s : State) (r : Rect) (slot : Nat) (pic : Picture) :
    PhotoDrawn s pic (s.drawPhoto r slot pic) r slot := by
  unfold State.drawPhoto PhotoDrawn
  cases h : Table.find slot s.photo.slots with
  | none => exact ⟨nofun, fun _ => rfl⟩
  | some p =>
    dsimp only
    refine ⟨fun q hq hr => ?_, fun hn => if_neg (hn p rfl)⟩
    cases hq
    rw [if_pos hr]
    refine redrawn_mapPicture (fun x y cell => ?_) pic
    refine ite_congr (propext ?_) (fun _ => rfl) fun _ => rfl
    unfold Rect.covers
    rw [decide_eq_true_eq]
    omega

theorem offeredItem_iff (s : State) (item : Nat) (d : DayPart) (r : Item) :
    s.offeredItem item d = some r ↔ Offered s item d r := by
  unfold State.offeredItem Offered Item.offeredIn
  cases Table.find item s.catalogue.items with
  | none => exact ⟨nofun, fun h => nomatch h.1⟩
  | some q =>
    dsimp only
    refine ⟨fun h => ?_, fun ⟨h, g⟩ => ?_⟩
    · split at h
      · cases h; exact ⟨rfl, by assumption⟩
      · cases h
    · cases h; rw [if_pos g]

theorem not_offered {s : State} {item : Nat} {d : DayPart} (h : s.offeredItem item d = none) (r : Item) :
    ¬ Offered s item d r := fun g => by rw [(offeredItem_iff s item d r).2 g] at h; cases h

theorem orderRowDrawn (s : State) (r : Rect) (row : Nat) (x : HoldLine) (c : BitVec 4) (pic : Picture) :
    OrderRowDrawn s pic (s.drawOrderRow r row x c pic) r row x c := by
  unfold OrderRowDrawn State.drawOrderRow Rect.lineLength State.labelOf
  simp only [priceGlyphs_eq]
  have e : digits x.quantity = number x.quantity := rfl
  rw [e]
  refine ⟨fun h => if_pos (by omega), fun h => ?_⟩
  rw [if_neg (by omega)]
  unfold drawRight Rect.lineLength
  rw [if_pos (by omega), List.append_assoc, List.singleton_append, Nat.add_assoc _ 1 1]
  exact ⟨_, lineDrawn r row 0 _ c pic, lineDrawn r row _ _ c _⟩

theorem orderDrawn (s : State) (r : Rect) (c : BitVec 4) : ∀ (lines : List HoldLine) (row : Nat) (pic : Picture),
    OrderDrawn s r c row lines pic (s.drawOrderRows r c row lines pic)
  | [], _, _ => rfl
  | x :: rest, row, pic => ⟨_, orderRowDrawn s r row x c pic, orderDrawn s r c rest (row + 1) _⟩

theorem hold_absent {c : Composition} (h : c.hold = none) :
    ∀ x y, c.holdCopy = some x → x.hold = some y → False := fun x y hx hy => by
  unfold Composition.hold at h; rw [hx, Option.bind_some, hy] at h; cases h

theorem hold_present {c : Composition} {y : Hold} (h : c.hold = some y) :
    ∃ x, c.holdCopy = some x ∧ x.hold = some y := by
  unfold Composition.hold at h
  exact Option.bind_eq_some_iff.1 h

/-- One placement (R53 to R58). -/
theorem painted (s : State) (c : Composition) (pl : Placement) (pic : Picture) :
    Painted s c.target c.holdCopy pl pic (s.paint c pl pic) := by
  unfold Painted State.paint
  cases pl.kind with
  | fill colour =>
    exact redrawn_mapPicture (fun x y cell =>
      ite_congr (propext (by unfold Rect.covers; rw [decide_eq_true_eq])) (fun _ => rfl) fun _ => rfl) pic
  | photo slot => exact photoDrawn s pl.rect slot pic
  | itemPhoto item =>
    dsimp only
    cases h : s.offeredItem item c.target.dayPart with
    | none => exact ⟨fun r _ g => absurd g (not_offered h r), fun _ => rfl⟩
    | some r =>
      rw [Option.bind_some]
      refine ⟨fun q slot g hp => ?_, fun g => ?_⟩
      · rw [(offeredItem_iff _ _ _ _).2 g] at h
        cases h
        rw [hp]; exact photoDrawn s pl.rect slot pic
      · rw [g r ((offeredItem_iff _ _ _ _).1 h)]
  | label item colour =>
    dsimp only
    cases h : s.offeredItem item c.target.dayPart with
    | none => exact ⟨fun r g => absurd g (not_offered h r), fun _ => rfl⟩
    | some r =>
      refine ⟨fun q g => ?_, fun g => absurd ((offeredItem_iff _ _ _ _).1 h) (g r)⟩
      rw [(offeredItem_iff _ _ _ _).2 g] at h
      cases h
      exact textDrawn pl.rect r.label colour pic
  | price item variant colour =>
    unfold State.drawPrice
    dsimp only
    cases h : s.offeredItem item c.target.dayPart with
    | none => exact ⟨fun r _ g => absurd g (not_offered h r), fun _ => rfl⟩
    | some r =>
      dsimp only
      have ho := (offeredItem_iff _ _ _ _).1 h
      cases hv : r.variants[variant]? with
      | none =>
        refine ⟨fun q v g hq => ?_, fun _ => rfl⟩
        rw [(offeredItem_iff _ _ _ _).2 g] at h
        cases h
        rw [hv] at hq; cases hq
      | some v =>
        dsimp only
        refine ⟨fun q w g hq => ?_, fun g => ?_⟩
        · rw [(offeredItem_iff _ _ _ _).2 g] at h
          cases h
          rw [hv] at hq; cases hq
          refine ⟨fun hw => ?_, fun hs ha => ?_, fun hs ha => ?_⟩
          · rw [if_pos hw]; exact textDrawn _ _ _ _
          · rw [if_neg (by rw [hs]; decide), if_pos ha]; exact textDrawn _ _ _ _
          · rw [if_neg (by rw [hs]; decide), if_neg (by rw [ha]; decide), priceGlyphs_eq]
            exact priceDrawn _ _ _ _ _
        · have := g r ho
          rw [List.getElem?_eq_none this] at hv; cases hv
  | text colour glyphs => exact textDrawn pl.rect glyphs colour pic
  | order colour =>
    dsimp only
    cases h : c.hold with
    | none => exact ⟨fun x y hx hy => (hold_absent h x y hx hy).elim, fun _ => rfl⟩
    | some y =>
      obtain ⟨x, hx, hy⟩ := hold_present h
      refine ⟨fun x' y' hx' hy' => ?_, fun g => ?_⟩
      · rw [hx] at hx'; cases hx'
        rw [hy] at hy'; cases hy'
        exact orderDrawn s pl.rect colour _ _ pic
      · rw [g x hx] at hy; cases hy
  | total colour =>
    dsimp only
    cases h : c.hold with
    | none => exact ⟨fun x y hx hy => (hold_absent h x y hx hy).elim, fun _ => rfl⟩
    | some y =>
      dsimp only
      obtain ⟨x, hx, hy⟩ := hold_present h
      refine ⟨fun x' y' hx' hy' => ?_, fun g => ?_⟩
      · rw [hx] at hx'; cases hx'
        rw [hy] at hy'; cases hy'
        rw [priceGlyphs_eq]; exact priceDrawn _ _ _ _ _
      · rw [g x hx] at hy; cases hy

/-- All placements, first to last (R32, R52). -/
theorem allPainted (s : State) (c : Composition) : ∀ (pls : List Placement) (pic : Picture),
    AllPainted s c.target c.holdCopy pls pic (s.paintAll c pls pic)
  | [], _ => rfl
  | pl :: rest, pic => ⟨_, painted s c pl pic, allPainted s c rest _⟩

/-- The engine paints one placement (log 7). -/
theorem paintNext_painted {s : State} {c : Composition} {pl : Placement} {rest : List Placement}
    (h : s.composer.engine = some c) (ht : c.todo = pl :: rest) :
    ∃ pic, Painted s c.target c.holdCopy pl c.picture pic ∧
      s.paintNext = { s with composer := { s.composer with engine := some { c with todo := rest, picture := pic } } } := by
  refine ⟨_, painted s c pl c.picture, ?_⟩
  unfold State.paintNext
  rw [h]; dsimp only; rw [ht]; rfl

end Sys2Proof.Machine
end

