-- ==== Sys2Proof/Laws/Payloads.lean ====
section
/-! SUPPORT. What the readers of BATCH_ADD, PLAN_LOAD and PROFILE_BURN answer on each payload of Sys2Proof/Payloads.lean (R8,
R9, R30, R34, R35, R206). -/
namespace Sys2Proof.Machine

open Sys2Proof.Payload

/-! ## Fields of a batch entry -/

theorem takeField_be {k lo hi v : Nat} (rest : List Byte) (hv : v < 256 ^ k) (h : lo ≤ v ∧ v ≤ hi) :
    takeField k lo hi (be k v ++ rest) = .ok (v, rest) := by
  unfold takeField
  rw [if_neg (by rw [List.length_append, be_length]; omega)]
  simp only [take_be_append, drop_be_append, natOf_be hv]
  rw [if_pos h]

theorem be_one (n : Nat) : be 1 n = [BitVec.ofNat 8 n] := by simp [be]

theorem takeGlyphs_append : ∀ (glyphs rest : List Byte), (∀ g ∈ glyphs, g ≠ 0) →
    takeGlyphs glyphs.length (glyphs ++ rest) = .ok (glyphs, rest)
  | [], _, _ => rfl
  | g :: gs, rest, h => by
    have hg : g.toNat ≠ 0 := fun e => h g List.mem_cons_self (BitVec.eq_of_toNat_eq e)
    have e : g :: gs ++ rest = be 1 g.toNat ++ (gs ++ rest) := by rw [be_one, BitVec.ofNat_toNat]; rfl
    rw [List.length_cons, takeGlyphs, e, takeField_be _ (by have := g.isLt; omega) ⟨by omega, by have := g.isLt; omega⟩]
    dsimp only
    rw [takeGlyphs_append gs rest fun x hx => h x (List.mem_cons_of_mem _ hx)]
    dsimp only
    rw [BitVec.ofNat_toNat]; rfl

theorem takeField_bind {α : Type} {k lo hi v : Nat} (hv : v < 256 ^ k) (h : lo ≤ v ∧ v ≤ hi) (rest : List Byte)
    (f : Nat × List Byte → Except EntryFault α) : (takeField k lo hi (be k v ++ rest) >>= f) = f (v, rest) := by
  rw [takeField_be rest hv h]; rfl

theorem readEntry_cons {role : WritingRole} {kind : Byte} (h : kindOfRole role kind.toNat = true) (bytes : List Byte) :
    readEntry role (kind :: bytes) = readFields kind.toNat bytes := if_pos h

/-- An entry in range reads as itself. -/
theorem readEntry_entry {role : WritingRole} {e : BatchEntry} (h : EntryInRange role e) (rest : List Byte) :
    readEntry role (entry e ++ rest) = .ok (e, rest) := by
  obtain ⟨p1, p2, p3⟩ : (256 : Nat) ^ 1 = 256 ∧ 256 ^ 2 = 65536 ∧ 256 ^ 3 = 16777216 := by decide
  cases e with
  | itemDefine item count dayParts =>
    obtain ⟨rfl, h1, h2, h3⟩ := h
    have := dayParts.isLt
    simp only [entry, List.append_assoc, List.cons_append, List.nil_append]
    rw [readEntry_cons (by decide)]
    unfold readFields
    refine (takeField_bind (by omega) ⟨by omega, h1⟩ _ _).trans ?_
    refine (takeField_bind (by omega) ⟨h2, h3⟩ _ _).trans ?_
    refine (takeField_bind (by omega) ⟨by omega, by omega⟩ _ _).trans ?_
    dsimp only
    rw [BitVec.ofNat_toNat]
    simp [pure, Except.pure]
  | itemRetire item =>
    obtain ⟨rfl, h1⟩ := h
    simp only [entry, List.cons_append, List.nil_append]
    rw [readEntry_cons (by decide)]
    unfold readFields
    refine (takeField_bind (by omega) ⟨by omega, h1⟩ _ _).trans ?_
    rfl
  | setPrice item variant price =>
    obtain ⟨rfl, h1, h2, h3⟩ := h
    simp only [entry, List.append_assoc, List.cons_append, List.nil_append]
    rw [readEntry_cons (by decide)]
    unfold readFields
    refine (takeField_bind (by omega) ⟨by omega, h1⟩ _ _).trans ?_
    refine (takeField_bind (by omega) ⟨by omega, h2⟩ _ _).trans ?_
    refine (takeField_bind (by omega) ⟨by omega, h3⟩ _ _).trans ?_
    rfl
  | setAvail item variant a =>
    obtain ⟨rfl, h1, h2⟩ := h
    have one (b : Byte) : b :: rest = be 1 b.toNat ++ rest := by rw [be_one, BitVec.ofNat_toNat]; rfl
    cases a <;>
    · simp only [entry, List.append_assoc, List.cons_append, List.nil_append]
      rw [readEntry_cons (by decide), one]
      unfold readFields
      refine (takeField_bind (by omega) ⟨by omega, h1⟩ _ _).trans ?_
      refine (takeField_bind (by omega) ⟨by omega, h2⟩ _ _).trans ?_
      refine (takeField_bind (by decide) (by decide) _ _).trans ?_
      rfl
  | setPromo item variant price minutes =>
    obtain ⟨rfl, h1, h2, h3, h4, h5⟩ := h
    simp only [entry, List.append_assoc, List.cons_append, List.nil_append]
    rw [readEntry_cons (by decide)]
    unfold readFields
    refine (takeField_bind (by omega) ⟨by omega, h1⟩ _ _).trans ?_
    refine (takeField_bind (by omega) ⟨by omega, h2⟩ _ _).trans ?_
    refine (takeField_bind (by omega) ⟨by omega, h3⟩ _ _).trans ?_
    refine (takeField_bind (by omega) ⟨h4, h5⟩ _ _).trans ?_
    rfl
  | clearPromo item variant =>
    obtain ⟨rfl, h1, h2⟩ := h
    simp only [entry, List.append_assoc, List.cons_append, List.nil_append]
    rw [readEntry_cons (by decide)]
    unfold readFields
    refine (takeField_bind (by omega) ⟨by omega, h1⟩ _ _).trans ?_
    refine (takeField_bind (by omega) ⟨by omega, h2⟩ _ _).trans ?_
    rfl
  | setDayparts item dayParts =>
    obtain ⟨rfl, h1⟩ := h
    have := dayParts.isLt
    simp only [entry, List.append_assoc, List.cons_append, List.nil_append]
    rw [readEntry_cons (by decide)]
    unfold readFields
    refine (takeField_bind (by omega) ⟨by omega, h1⟩ _ _).trans ?_
    refine (takeField_bind (by omega) ⟨by omega, by omega⟩ _ _).trans ?_
    dsimp only
    rw [BitVec.ofNat_toNat]
    simp [pure, Except.pure]
  | setLabel item label =>
    obtain ⟨rfl, h1, h2, h3⟩ := h
    simp only [entry, List.append_assoc, List.cons_append, List.nil_append]
    rw [readEntry_cons (by decide)]
    unfold readFields
    refine (takeField_bind (by omega) ⟨by omega, h1⟩ _ _).trans ?_
    refine (takeField_bind (by omega) ⟨by omega, h2⟩ _ _).trans ?_
    dsimp only
    rw [takeGlyphs_append _ _ h3]
    rfl
  | setPhoto item slot =>
    cases slot with
    | none =>
      obtain ⟨rfl, h1⟩ := h
      have one (b : Byte) : b :: rest = be 1 b.toNat ++ rest := by rw [be_one, BitVec.ofNat_toNat]; rfl
      simp only [entry, List.append_assoc, List.cons_append, List.nil_append]
      rw [readEntry_cons (by decide), one]
      unfold readFields
      refine (takeField_bind (by omega) ⟨by omega, h1⟩ _ _).trans ?_
      refine (takeField_bind (by decide) (by decide) _ _).trans ?_
      rfl
    | some slot =>
      obtain ⟨rfl, h1, h2⟩ := h
      simp only [entry, List.append_assoc, List.cons_append, List.nil_append]
      rw [readEntry_cons (by decide)]
      unfold readFields
      refine (takeField_bind (by omega) ⟨by omega, h1⟩ _ _).trans ?_
      refine (takeField_bind (by omega) ⟨by omega, by omega⟩ _ _).trans ?_
      show (if slot = 255 then _ else if slot < 192 then _ else _) = _
      rw [if_neg (by omega), if_pos (by omega)]
      rfl

/-! ## Entries that end or go wrong -/

/-- The first field after those read that is not right: it ends the payload, or it is whole and out of its range. -/
def FieldFault (kind : Nat) (read : List Nat) (tail : List Byte) (f : EntryFault) : Prop :=
  ∃ size inRange, nextField kind read = some (size, inRange) ∧
    (f = .ends ∧ tail.length < size ∨ f = .range ∧ size ≤ tail.length ∧ inRange (natOf (tail.take size)) = false)

/-- One field: it is the one that is not right, or it reads and the fault lies further on. -/
theorem field_step {α : Type} {kind k lo hi : Nat} {read values : List Nat} {p : Nat → Bool} {good tail : List Byte}
    {f : EntryFault} (e : nextField kind read = some (k, p)) (hp : ∀ v, p v = true ↔ lo ≤ v ∧ v ≤ hi)
    (hv : FieldsRead kind read values good) (hf : FieldFault kind (read ++ values) tail f)
    (g : Nat × List Byte → Except EntryFault α)
    (next : ∀ v vs rest, FieldsRead kind (read ++ [v]) vs rest → FieldFault kind (read ++ [v] ++ vs) tail f →
      p v = true → g (v, rest ++ tail) = .error f) : (takeField k lo hi (good ++ tail) >>= g) = .error f := by
  match values, hv with
  | [], hv =>
    obtain rfl : good = [] := hv
    obtain ⟨size, inRange, hn, hf⟩ := hf
    rw [List.append_nil, e] at hn
    obtain ⟨rfl, rfl⟩ := Prod.mk.inj (Option.some.inj hn)
    have : takeField k lo hi tail = .error f := by
      unfold takeField
      rcases hf with ⟨rfl, h⟩ | ⟨rfl, h, h3⟩
      · exact if_pos h
      · rw [if_neg (by omega)]
        exact if_neg fun c => by rw [(hp _).2 c] at h3; cases h3
    rw [List.nil_append, this]; rfl
  | v :: vs, hv =>
    obtain ⟨size, inRange, rest, hn, hb, hr, rfl, hw⟩ := hv
    rw [e] at hn
    obtain ⟨rfl, rfl⟩ := Prod.mk.inj (Option.some.inj hn)
    rw [List.append_assoc, takeField_bind hb ((hp v).1 hr)]
    exact next v vs rest hw (by rw [List.append_assoc]; exact hf) hr

/-- A complete entry has no further field. -/
theorem field_none {kind : Nat} {read values : List Nat} {good tail : List Byte} {f : EntryFault}
    (e : nextField kind read = none) (hv : FieldsRead kind read values good) (hf : FieldFault kind (read ++ values) tail f) :
    False := by
  match values, hv with
  | [], hv => obtain ⟨_, _, hn, _⟩ := hf; rw [List.append_nil, e] at hn; cases hn
  | v :: vs, hv => obtain ⟨_, _, _, hn, _⟩ := hv; rw [e] at hn; cases hn

theorem nextField_glyphs (item count : Nat) : ∀ glyphs : List Nat, nextField 8 (item :: count :: glyphs) =
    if glyphs.length < count then some (1, fun glyph => decide (1 ≤ glyph)) else none
  | [] => rfl
  | [_] => rfl
  | _ :: _ :: _ => rfl

/-- The glyphs of a label. -/
theorem takeGlyphs_fault {item count : Nat} {tail : List Byte} {f : EntryFault} : ∀ (n : Nat) (read values : List Nat)
    (good : List Byte), read.length + n = count → FieldsRead 8 (item :: count :: read) values good →
    FieldFault 8 (item :: count :: read ++ values) tail f → takeGlyphs n (good ++ tail) = .error f
  | 0, read, values, good, hc, hv, hf => by
    refine (field_none ?_ hv hf).elim
    rw [nextField_glyphs, if_neg (by omega)]
  | n + 1, read, values, good, hc, hv, hf => by
    have e : nextField 8 (item :: count :: read) = some (1, fun glyph => decide (1 ≤ glyph)) := by
      rw [nextField_glyphs, if_pos (by omega)]
    have h : (takeField 1 1 255 (good ++ tail) >>= fun x => match takeGlyphs n x.2 with
        | .error e => .error e
        | .ok (gs, rest) => .ok (BitVec.ofNat 8 x.1 :: gs, rest)) = .error f := by
      match values, hv with
      | [], hv =>
        obtain rfl : good = [] := hv
        obtain ⟨size, inRange, hn, hf⟩ := hf
        rw [List.append_nil, e] at hn
        obtain ⟨rfl, rfl⟩ := Prod.mk.inj (Option.some.inj hn)
        have : takeField 1 1 255 tail = .error f := by
          unfold takeField
          rcases hf with ⟨rfl, h⟩ | ⟨rfl, h, h3⟩
          · exact if_pos h
          · rw [if_neg (by omega)]
            exact if_neg fun c => of_decide_eq_false h3 c.1
        rw [List.nil_append, this]; rfl
      | v :: vs, hv =>
        obtain ⟨size, inRange, rest, hn, hb, hr, rfl, hw⟩ := hv
        rw [e] at hn
        obtain ⟨rfl, rfl⟩ := Prod.mk.inj (Option.some.inj hn)
        have hb' : v < 256 := hb
        rw [List.append_assoc, takeField_bind hb ⟨of_decide_eq_true hr, by omega⟩]
        dsimp only
        rw [takeGlyphs_fault n (read ++ [v]) vs rest (by simp; omega) hw (by simpa using hf)]
    unfold takeGlyphs
    cases ht : takeField 1 1 255 (good ++ tail) with
    | error x => rw [ht] at h; exact h
    | ok x => rw [ht] at h; exact h

/-- The bytes of an entry after its kind byte, up to the field that is not right, read field by field: each kind in turn. -/
theorem readFields_fault {kind : Nat} (hk : 1 ≤ kind ∧ kind ≤ 9) {values : List Nat} {good tail : List Byte} {f : EntryFault}
    (hv : FieldsRead kind [] values good) (hf : FieldFault kind values tail f) :
    readFields kind (good ++ tail) = .error f := by
  have e : nextField kind [] = some (2, fun item => decide (item ≤ 511)) := by unfold nextField; rfl
  unfold readFields
  refine field_step e (fun v => by simp) hv hf _ fun item vs rest hv hf _ => ?_
  dsimp only
  have cases9 : kind = 1 ∨ kind = 2 ∨ kind = 3 ∨ kind = 4 ∨ kind = 5 ∨ kind = 6 ∨ kind = 7 ∨ kind = 8 ∨ kind = 9 := by omega
  rcases cases9 with rfl | rfl | rfl | rfl | rfl | rfl | rfl | rfl | rfl
  · refine field_step rfl (fun v => by simp) hv hf _ fun _ vs rest hv hf _ => ?_
    refine field_step rfl (fun v => by simp) hv hf _ fun _ vs rest hv hf _ => ?_
    exact (field_none rfl hv hf).elim
  · exact (field_none rfl hv hf).elim
  · refine field_step rfl (fun v => by simp) hv hf _ fun _ vs rest hv hf _ => ?_
    refine field_step rfl (fun v => by simp) hv hf _ fun _ vs rest hv hf _ => ?_
    exact (field_none rfl hv hf).elim
  · refine field_step rfl (fun v => by simp) hv hf _ fun _ vs rest hv hf _ => ?_
    refine field_step rfl (fun v => by simp) hv hf _ fun _ vs rest hv hf _ => ?_
    exact (field_none rfl hv hf).elim
  · refine field_step rfl (fun v => by simp) hv hf _ fun _ vs rest hv hf _ => ?_
    refine field_step rfl (fun v => by simp) hv hf _ fun _ vs rest hv hf _ => ?_
    refine field_step rfl (fun v => by simp) hv hf _ fun _ vs rest hv hf _ => ?_
    exact (field_none rfl hv hf).elim
  · refine field_step rfl (fun v => by simp) hv hf _ fun _ vs rest hv hf _ => ?_
    exact (field_none rfl hv hf).elim
  · refine field_step rfl (fun v => by simp) hv hf _ fun _ vs rest hv hf _ => ?_
    exact (field_none rfl hv hf).elim
  · refine field_step rfl (fun v => by simp) hv hf _ fun count vs rest hv hf _ => ?_
    dsimp only
    rw [takeGlyphs_fault count [] vs rest (by simp) hv hf]
    rfl
  · -- the slot byte: every byte is a field, and one from 192 to 254 is out of range
    match vs, hv with
    | [], hv =>
      obtain rfl : rest = [] := hv
      obtain ⟨size, inRange, hn, hf⟩ := hf
      obtain ⟨rfl, rfl⟩ := Prod.mk.inj (Option.some.inj (show some (1, _) = _ from hn))
      rcases hf with ⟨rfl, h⟩ | ⟨rfl, h, h3⟩
      · have ht : takeField 1 0 255 tail = .error .ends := if_pos h
        rw [List.nil_append]
        show (takeField 1 0 255 tail >>= _) = _
        rw [ht]; rfl
      · have hb : natOf (tail.take 1) < 256 := by
          match tail, h with
          | b :: _, _ => have := b.isLt; simp [natOf]; omega
        have ht : takeField 1 0 255 tail = .ok (natOf (tail.take 1), tail.drop 1) := by
          unfold takeField; rw [if_neg (by omega)]; exact if_pos (by omega)
        have h4 := of_decide_eq_false h3
        rw [List.nil_append]
        show (takeField 1 0 255 tail >>= _) = _
        rw [ht]
        show (if natOf (tail.take 1) = 255 then _ else if natOf (tail.take 1) < 192 then _ else _) = _
        rw [if_neg (by omega), if_neg (by omega)]
    | v :: vs, hv =>
      obtain ⟨size, inRange, rest, hn, hb, hr, rfl, hw⟩ := hv
      exact (field_none (f := f) (read := [item] ++ [v]) rfl hw (by rw [List.append_assoc]; exact hf)).elim

theorem kindOf_iff (role : WritingRole) (kind : Byte) : kindOfRole role kind.toNat = true ↔ KindOf role kind := by
  unfold kindOfRole KindOf
  cases role with
  | store => exact decide_eq_true_iff
  | media => simp only [decide_eq_true_eq]; omega

theorem kindOf_range {role : WritingRole} {kind : Byte} (h : KindOf role kind) : 1 ≤ kind.toNat ∧ kind.toNat ≤ 9 := by
  unfold KindOf at h
  cases role <;> simp only at h <;> omega

theorem readEntry_ends {role : WritingRole} {bytes : List Byte} (h : EntryEnds role bytes) :
    readEntry role bytes = .error .ends := by
  rcases h with rfl | ⟨kind, values, good, tail, size, inRange, hk, rfl, hv, hn, hl⟩
  · rfl
  · rw [readEntry_cons ((kindOf_iff _ _).2 hk)]
    exact readFields_fault (kindOf_range hk) hv ⟨size, inRange, hn, Or.inl ⟨rfl, hl⟩⟩

theorem readEntry_wrong {role : WritingRole} {bytes : List Byte} (h : EntryWrong role bytes) :
    readEntry role bytes = .error .range := by
  rcases h with ⟨kind, tail, rfl, hk⟩ | ⟨kind, values, good, tail, size, inRange, hk, rfl, hv, hn, hl, hr⟩
  · exact if_neg fun g => hk ((kindOf_iff _ _).1 g)
  · rw [readEntry_cons ((kindOf_iff _ _).2 hk)]
    exact readFields_fault (kindOf_range hk) hv ⟨size, inRange, hn, Or.inr ⟨rfl, hl, hr⟩⟩

/-! ## The payload of BATCH_ADD -/

theorem readEntries_step {role : WritingRole} {e : BatchEntry} (h : EntryInRange role e) (n i : Nat) (bytes : List Byte) :
    readEntries role (n + 1) i (entry e ++ bytes) =
      match readEntries role n (i + 1) bytes with
      | .error p => .error p
      | .ok es => .ok (e :: es) := by
  rw [readEntries, readEntry_entry h] <;> rfl

theorem readEntries_good {role : WritingRole} : ∀ (es : List BatchEntry) (i : Nat), (∀ e ∈ es, EntryInRange role e) →
    readEntries role es.length i (es.flatMap entry) = .ok es
  | [], _, _ => rfl
  | e :: es, i, h => by
    rw [List.flatMap_cons, List.length_cons, readEntries_step (h e List.mem_cons_self),
      readEntries_good es (i + 1) fun x hx => h x (List.mem_cons_of_mem _ hx)]

theorem readEntries_after {role : WritingRole} (position m : Nat) (rest : List Byte) :
    ∀ (good : List BatchEntry) (i : Nat), (∀ e ∈ good, EntryInRange role e) →
      readEntries role m (i + good.length) rest = .error position →
      readEntries role (good.length + m) i (good.flatMap entry ++ rest) = .error position
  | [], i, _, hr => by rw [List.length_nil, Nat.zero_add]; exact hr
  | e :: good, i, h, hr => by
    rw [List.flatMap_cons, List.length_cons, List.append_assoc, Nat.add_right_comm, readEntries_step (h e List.mem_cons_self),
      readEntries_after position m rest good (i + 1) (fun x hx => h x (List.mem_cons_of_mem _ hx))
        (by rw [Nat.add_right_comm, Nat.add_assoc]; exact hr)]

/-- A payload of entries in range reads as them (R9). -/
theorem readBatchAdd_good {role : WritingRole} {payload : List Byte} {es : List BatchEntry} (h : EntriesAre role payload es) :
    readBatchAdd role payload = .ok es := by
  obtain ⟨h1, h8, hr, rfl⟩ := h
  have hn : (BitVec.ofNat 8 es.length).toNat = es.length := by rw [BitVec.toNat_ofNat]; omega
  rw [be_one, List.singleton_append, readBatchAdd, hn, if_neg (by omega)]
  exact readEntries_good es 0 hr

/-- The first fault of a payload, and the position it gives (R9 step 1). -/
theorem readBatchAdd_fault {role : WritingRole} {payload : List Byte} {position : Nat} (h : BatchFault role payload position) :
    readBatchAdd role payload = .error position := by
  obtain ⟨count, bytes, rfl, h⟩ := h
  rw [readBatchAdd]
  rcases h with ⟨hc, rfl⟩ | ⟨h1, h8, good, rest, hg, rfl, h⟩
  · rw [if_pos hc]
  · rw [if_neg (by omega)]
    rcases h with ⟨hl, hr, rfl⟩ | ⟨hl, he, rfl⟩ | ⟨hl, he, rfl⟩
    · rw [← hl, ← Nat.add_zero good.length]
      refine readEntries_after _ _ _ good 0 hg ?_
      rw [readEntries, if_neg hr]
    · obtain ⟨m, hm⟩ : ∃ m, count.toNat = good.length + (m + 1) := ⟨count.toNat - good.length - 1, by omega⟩
      rw [hm]
      refine readEntries_after _ _ _ good 0 hg ?_
      rw [readEntries, readEntry_ends he]
    · obtain ⟨m, hm⟩ : ∃ m, count.toNat = good.length + (m + 1) := ⟨count.toNat - good.length - 1, by omega⟩
      rw [hm]
      refine readEntries_after _ _ _ good 0 hg ?_
      rw [readEntries, readEntry_wrong he, Nat.zero_add]

/-! ## The payload of PLAN_LOAD -/

/-- A whole placement as the reader holds it. -/
def rawOf : List Byte → RawPlacement
  | column :: row :: width :: height :: kind :: fields =>
    ⟨column.toNat, row.toNat, width.toNat, height.toNat, kind.toNat, fields⟩
  | _ => ⟨0, 0, 0, 0, 0, []⟩

theorem placementLength_whole {kind : Byte} {fields : List Byte}
    (h : (kind.toNat = 1 ∨ kind.toNat = 2 ∨ kind.toNat = 7 ∨ kind.toNat = 8) ∧ fields.length = 1 ∨
      kind.toNat = 3 ∧ fields.length = 2 ∨ kind.toNat = 4 ∧ fields.length = 3 ∨ kind.toNat = 5 ∧ fields.length = 4 ∨
      kind.toNat = 6 ∧ ∃ colour count glyphs, fields = colour :: count :: glyphs ∧ glyphs.length = count.toNat)
    (bytes : List Byte) : placementLength kind.toNat (fields ++ bytes) = some fields.length := by
  rcases h with ⟨h | h | h | h, hf⟩ | ⟨h, hf⟩ | ⟨h, hf⟩ | ⟨h, hf⟩ | ⟨h, c, count, glyphs, rfl, hf⟩
  all_goals rw [h]
  all_goals first
    | (rw [hf]; rfl)
    | (show some (2 + count.toNat) = some (glyphs.length + 1 + 1); rw [hf, Nat.add_comm])

theorem readPlacements_step {w : List Byte} (h : WholePlacement w) (n i : Nat) (bytes : List Byte) :
    readPlacements (n + 1) i (w ++ bytes) =
      match readPlacements n (i + 1) bytes with
      | .error p => .error p
      | .ok ps => .ok (rawOf w :: ps) := by
  obtain ⟨column, row, width, height, kind, fields, rfl, h⟩ := h
  simp only [List.cons_append, readPlacements]
  rw [placementLength_whole h]
  dsimp only
  rw [if_neg (by rw [List.length_append]; omega), List.drop_left, List.take_left]
  rfl

theorem readPlacements_whole : ∀ (whole : List (List Byte)) (i : Nat), (∀ w ∈ whole, WholePlacement w) →
    readPlacements whole.length i whole.flatten = .ok (whole.map rawOf)
  | [], _, _ => rfl
  | w :: whole, i, h => by
    rw [List.flatten_cons, List.length_cons, readPlacements_step (h w List.mem_cons_self),
      readPlacements_whole whole (i + 1) fun x hx => h x (List.mem_cons_of_mem _ hx)]
    rfl

theorem readPlacements_after (index m : Nat) (rest : List Byte) : ∀ (whole : List (List Byte)) (i : Nat),
    (∀ w ∈ whole, WholePlacement w) → readPlacements m (i + whole.length) rest = .error index →
    readPlacements (whole.length + m) i (whole.flatten ++ rest) = .error index
  | [], i, _, hr => by rw [List.length_nil, Nat.zero_add]; exact hr
  | w :: whole, i, h, hr => by
    rw [List.flatten_cons, List.length_cons, List.append_assoc, Nat.add_right_comm, readPlacements_step (h w List.mem_cons_self),
      readPlacements_after index m rest whole (i + 1) (fun x hx => h x (List.mem_cons_of_mem _ hx))
        (by rw [Nat.add_right_comm, Nat.add_assoc]; exact hr)]

/-- An end inside a placement (R34). -/
theorem readPlacements_ends {rest more : List Byte} (hm : more ≠ []) (h : WholePlacement (rest ++ more)) (n i : Nat) :
    readPlacements (n + 1) i rest = .error 0 := by
  obtain ⟨column, row, width, height, kind, fields, e, h⟩ := h
  match rest with
  | [] => rfl
  | [_] => rfl
  | [_, _] => rfl
  | [_, _, _] => rfl
  | [_, _, _, _] => rfl
  | a :: b :: c :: d :: k :: fs =>
    simp only [List.cons_append, List.cons.injEq] at e
    obtain ⟨rfl, rfl, rfl, rfl, rfl, rfl⟩ := e
    have hml : 0 < more.length := List.length_pos_iff.2 hm
    have : ∃ n, placementLength k.toNat fs = some n ∧ fs.length < n := by
      rcases h with ⟨h | h | h | h, hf⟩ | ⟨h, hf⟩ | ⟨h, hf⟩ | ⟨h, hf⟩ | ⟨h, c, count, glyphs, hf, hg⟩
      all_goals rw [h]
      all_goals first
        | (rw [List.length_append] at hf; exact ⟨_, rfl, by omega⟩)
        | skip
      refine ⟨_, rfl, ?_⟩
      match fs with
      | [] => exact Nat.lt_add_right _ (by decide)
      | [_] => exact Nat.lt_add_right _ (Nat.lt_succ_self 1)
      | _ :: n :: gs =>
        simp only [List.cons_append, List.cons.injEq] at hf
        obtain ⟨_, rfl, rfl⟩ := hf
        rw [List.length_append] at hg
        show gs.length + 1 + 1 < 2 + n.toNat
        omega
    obtain ⟨n, h1, h2⟩ := this
    rw [readPlacements, h1]
    exact if_pos h2

/-- An unknown kind (R34). -/
theorem readPlacements_kind {column row width height kind : Byte} (tail : List Byte) (h : kind.toNat = 0 ∨ 8 < kind.toNat)
    (n i : Nat) : readPlacements (n + 1) i (column :: row :: width :: height :: kind :: tail) = .error i := by
  have : placementLength kind.toNat tail = none := by
    unfold placementLength
    split <;> first | rfl | omega
  rw [readPlacements, this]

/-- The first fault of structure (R34 step 1). -/
theorem readPlacements_fault {count : Nat} {bytes : List Byte} {index : Nat} (h : PlanFault count bytes index) :
    readPlacements count 0 bytes = .error index := by
  obtain ⟨whole, rest, hw, rfl, h⟩ := h
  rcases h with ⟨rfl, hr, rfl⟩ | ⟨hl, ⟨more, hm, he⟩, rfl⟩ | ⟨hl, rfl, c, r, w, hh, k, tail, rfl, hk⟩
  · rw [← Nat.add_zero whole.length]
    refine readPlacements_after _ _ _ whole 0 hw ?_
    rw [readPlacements, if_neg hr]
  · obtain ⟨m, rfl⟩ : ∃ m, count = whole.length + (m + 1) := ⟨count - whole.length - 1, by omega⟩
    exact readPlacements_after _ _ _ whole 0 hw (readPlacements_ends hm he _ _)
  · obtain ⟨m, rfl⟩ : ∃ m, count = whole.length + (m + 1) := ⟨count - whole.length - 1, by omega⟩
    exact readPlacements_after _ _ _ whole 0 hw (by rw [readPlacements_kind tail hk, Nat.zero_add])

/-! ## The checks of R35 -/

theorem colour_byte (c : BitVec 4) : colour? (BitVec.ofNat 8 c.toNat) = some c := by
  have := c.isLt
  unfold colour?
  rw [BitVec.toNat_ofNat, Nat.mod_eq_of_lt (by omega), if_pos (by omega), BitVec.ofNat_toNat, BitVec.setWidth_eq]

theorem colour_some {b : Byte} {c : BitVec 4} (h : colour? b = some c) : b = BitVec.ofNat 8 c.toNat := by
  unfold colour? at h
  split at h
  · cases h
    refine BitVec.eq_of_toNat_eq ?_
    rw [BitVec.toNat_ofNat, BitVec.toNat_ofNat]
    omega
  · cases h

theorem be_two (n : Nat) : be 2 n = [BitVec.ofNat 8 (n / 256), BitVec.ofNat 8 n] := by simp [be]

theorem item_be {n : Nat} (h : n ≤ 511) : item? (BitVec.ofNat 8 (n / 256)) (BitVec.ofNat 8 n) = some n := by
  have e : natOf [BitVec.ofNat 8 (n / 256), BitVec.ofNat 8 n] = n := by rw [← be_two]; exact natOf_be (by omega)
  unfold item?
  rw [e, if_pos h]

theorem item_some {hi lo : Byte} {n : Nat} (h : item? hi lo = some n) :
    n ≤ 511 ∧ hi = BitVec.ofNat 8 (n / 256) ∧ lo = BitVec.ofNat 8 n := by
  unfold item? at h
  split at h
  · rename_i g
    have e : natOf [hi, lo] = hi.toNat * 256 + lo.toNat := by simp [natOf]
    have h1 := hi.isLt
    have h2 := lo.isLt
    obtain rfl := Option.some.inj h
    rw [e] at g ⊢
    refine ⟨g, BitVec.eq_of_toNat_eq ?_, BitVec.eq_of_toNat_eq ?_⟩ <;> rw [BitVec.toNat_ofNat] <;> omega
  · cases h

theorem slot_byte {n : Nat} (h : n ≤ 191) : slot? (BitVec.ofNat 8 n) = some n := by
  unfold slot?
  rw [BitVec.toNat_ofNat, Nat.mod_eq_of_lt (by omega), if_pos (by omega)]

theorem slot_some {b : Byte} {n : Nat} (h : slot? b = some n) : n ≤ 191 ∧ b = BitVec.ofNat 8 n := by
  unfold slot? at h
  split at h
  · cases h
    exact ⟨by omega, by rw [BitVec.ofNat_toNat, BitVec.setWidth_eq]⟩
  · cases h

theorem glyphsFit_iff (glyphs : List Byte) : glyphsFit glyphs = true ↔ glyphs.length ≤ 24 ∧ ∀ g ∈ glyphs, g ≠ 0 := by
  unfold glyphsFit
  simp

/-- The kind byte's number and the fields after it. -/
def kindParts : PlacementKind → Nat × List Byte
  | .fill c => (1, be 1 c.toNat)
  | .photo slot => (2, be 1 slot)
  | .itemPhoto item => (3, be 2 item)
  | .label item c => (4, be 2 item ++ be 1 c.toNat)
  | .price item variant c => (5, be 2 item ++ be 1 variant ++ be 1 c.toNat)
  | .text c glyphs => (6, be 1 c.toNat ++ be 1 glyphs.length ++ glyphs)
  | .order c => (7, be 1 c.toNat)
  | .total c => (8, be 1 c.toNat)

/-- A kind's fields lie in their ranges. -/
def KindInRange : PlacementKind → Prop
  | .photo slot => slot ≤ 191
  | .itemPhoto item => item ≤ 511
  | .label item _ => item ≤ 511
  | .price item variant _ => item ≤ 511 ∧ variant ≤ 3
  | .text _ glyphs => glyphs.length ≤ 24 ∧ ∀ g ∈ glyphs, g ≠ 0
  | _ => True

theorem kindFields_parts {k : PlacementKind} (h : KindInRange k) : kindFields (kindParts k).1 (kindParts k).2 = some k := by
  cases k with
  | fill c => simp only [kindParts, be_one, kindFields, colour_byte, Option.map_some]
  | photo slot => simp only [kindParts, be_one, kindFields, slot_byte h, Option.map_some]
  | itemPhoto item => simp only [kindParts, be_two, kindFields, item_be h, Option.map_some]
  | label item c =>
    simp only [kindParts, be_two, be_one, List.cons_append, List.nil_append, kindFields, item_be h, Option.bind_some,
      colour_byte, Option.map_some]
  | price item variant c =>
    have e : (BitVec.ofNat 8 variant).toNat = variant := by rw [BitVec.toNat_ofNat]; have := h.2; omega
    simp only [kindParts, be_two, be_one, List.cons_append, List.nil_append, kindFields, item_be h.1, Option.bind_some,
      colour_byte, Option.map_some, e]
    rw [if_pos h.2]
  | text c glyphs =>
    have e : (BitVec.ofNat 8 glyphs.length).toNat = glyphs.length := by rw [BitVec.toNat_ofNat]; have := h.1; omega
    simp only [kindParts, be_one, List.cons_append, List.nil_append, kindFields, colour_byte, Option.map_some, e]
    rw [if_pos ⟨trivial, (glyphsFit_iff _).2 h⟩]
  | order c => simp only [kindParts, be_one, kindFields, colour_byte, Option.map_some]
  | total c => simp only [kindParts, be_one, kindFields, colour_byte, Option.map_some]

theorem kindFields_some {n : Nat} {fields : List Byte} {k : PlacementKind} (h : kindFields n fields = some k) :
    KindInRange k ∧ kindParts k = (n, fields) := by
  unfold kindFields at h
  split at h
  · obtain ⟨c, hc, rfl⟩ := Option.map_eq_some_iff.1 h
    exact ⟨trivial, by rw [colour_some hc]; simp only [kindParts, be_one]⟩
  · obtain ⟨c, hc, rfl⟩ := Option.map_eq_some_iff.1 h
    exact ⟨(slot_some hc).1, by rw [(slot_some hc).2]; simp only [kindParts, be_one]⟩
  · obtain ⟨c, hc, rfl⟩ := Option.map_eq_some_iff.1 h
    obtain ⟨h1, rfl, rfl⟩ := item_some hc
    exact ⟨h1, by simp only [kindParts, be_two]⟩
  · obtain ⟨i, hi, h⟩ := Option.bind_eq_some_iff.1 h
    obtain ⟨c, hc, rfl⟩ := Option.map_eq_some_iff.1 h
    obtain ⟨h1, rfl, rfl⟩ := item_some hi
    exact ⟨h1, by rw [colour_some hc]; simp only [kindParts, be_two, be_one, List.cons_append, List.nil_append]⟩
  · obtain ⟨i, hi, h⟩ := Option.bind_eq_some_iff.1 h
    split at h
    · obtain ⟨c, hc, rfl⟩ := Option.map_eq_some_iff.1 h
      obtain ⟨h1, rfl, rfl⟩ := item_some hi
      refine ⟨⟨h1, by assumption⟩, ?_⟩
      rw [colour_some hc]
      simp only [kindParts, be_two, be_one, List.cons_append, List.nil_append, BitVec.ofNat_toNat, BitVec.setWidth_eq]
    · cases h
  · split at h
    · rename_i g
      obtain ⟨c, hc, rfl⟩ := Option.map_eq_some_iff.1 h
      refine ⟨(glyphsFit_iff _).1 g.2, ?_⟩
      rw [colour_some hc]
      simp only [kindParts, be_one, List.cons_append, List.nil_append, ← g.1, BitVec.ofNat_toNat, BitVec.setWidth_eq]
    · cases h
  · obtain ⟨c, hc, rfl⟩ := Option.map_eq_some_iff.1 h
    exact ⟨trivial, by rw [colour_some hc]; simp only [kindParts, be_one]⟩
  · obtain ⟨c, hc, rfl⟩ := Option.map_eq_some_iff.1 h
    exact ⟨trivial, by rw [colour_some hc]; simp only [kindParts, be_one]⟩
  · cases h

theorem placement_eq (pl : Placement) : placement pl =
    BitVec.ofNat 8 pl.rect.column :: BitVec.ofNat 8 pl.rect.row :: BitVec.ofNat 8 pl.rect.width ::
      BitVec.ofNat 8 pl.rect.height :: BitVec.ofNat 8 (kindParts pl.kind).1 :: (kindParts pl.kind).2 := by
  unfold placement
  simp only [be_one, List.cons_append, List.nil_append]
  cases pl.kind <;> simp only [kindParts, be_one, List.cons_append, List.nil_append] <;> rfl

theorem inRange_iff (pl : Placement) : PlacementInRange pl ↔ pl.rect.column ≤ 15 ∧ pl.rect.row ≤ 8 ∧ 1 ≤ pl.rect.width ∧
    pl.rect.width ≤ 16 ∧ 1 ≤ pl.rect.height ∧ pl.rect.height ≤ 9 ∧ KindInRange pl.kind := by
  unfold PlacementInRange
  cases pl.kind <;> exact Iff.rfl

theorem kindParts_lt (k : PlacementKind) : (kindParts k).1 < 256 := by cases k <;> simp [kindParts]

/-- A whole placement in range is the placement whose bytes it is (R30, R202). -/
theorem placement?_iff {w : List Byte} (h : WholePlacement w) (pl : Placement) :
    (rawOf w).placement? = some pl ↔ PlacementInRange pl ∧ placement pl = w := by
  obtain ⟨column, row, width, height, kind, fields, rfl, _⟩ := h
  rw [inRange_iff, placement_eq]
  unfold rawOf RawPlacement.placement?
  dsimp only
  refine ⟨fun g => ?_, fun ⟨⟨h1, h2, h3, h4, h5, h6, h7⟩, e⟩ => ?_⟩
  · split at g
    · rename_i r
      obtain ⟨k, hk, rfl⟩ := Option.map_eq_some_iff.1 g
      obtain ⟨k1, k2⟩ := kindFields_some hk
      refine ⟨⟨r.1, r.2.1, r.2.2.1, r.2.2.2.1, r.2.2.2.2.1, r.2.2.2.2.2, k1⟩, ?_⟩
      dsimp only
      rw [k2]
      simp only [BitVec.ofNat_toNat, BitVec.setWidth_eq]
    · cases g
  · simp only [List.cons.injEq] at e
    obtain ⟨rfl, rfl, rfl, rfl, rfl, rfl⟩ := e
    have hk := kindParts_lt pl.kind
    simp only [BitVec.toNat_ofNat]
    rw [Nat.mod_eq_of_lt (by omega : pl.rect.column < 2 ^ 8), Nat.mod_eq_of_lt (by omega : pl.rect.row < 2 ^ 8),
      Nat.mod_eq_of_lt (by omega : pl.rect.width < 2 ^ 8), Nat.mod_eq_of_lt (by omega : pl.rect.height < 2 ^ 8),
      Nat.mod_eq_of_lt (by omega : (kindParts pl.kind).1 < 2 ^ 8), if_pos ⟨h1, h2, h3, h4, h5, h6⟩, kindFields_parts h7]
    rfl

theorem wholePlacement_of_inRange {pl : Placement} (h : PlacementInRange pl) : WholePlacement (placement pl) := by
  rw [inRange_iff] at h
  have h := h.2.2.2.2.2.2
  rw [placement_eq]
  refine ⟨_, _, _, _, _, _, rfl, ?_⟩
  cases hk : pl.kind with
  | text c glyphs =>
    rw [hk] at h
    refine Or.inr (Or.inr (Or.inr (Or.inr ⟨rfl, _, _, glyphs, by simp only [kindParts, be_one, List.cons_append, List.nil_append]; rfl, ?_⟩)))
    rw [BitVec.toNat_ofNat]
    have := h.1
    omega
  | _ => simp [kindParts]

theorem photoReady_iff (s : State) (k : PlacementKind) : s.photoReady k = true ↔
    ∀ slot, k = .photo slot → ∃ r, Table.find slot s.photo.slots = some r ∧ r.state = .ready := by
  unfold State.photoReady
  cases k with
  | photo slot =>
    refine ⟨fun h n e => ?_, fun h => (photo_ready_iff _ _).2 (h slot rfl)⟩
    cases e; exact (photo_ready_iff _ _).1 h
  | _ => exact ⟨fun _ _ e => (nomatch e), fun _ => rfl⟩

theorem checkPlacements_passes (s : State) (p : PanelNo) : ∀ (pls : List Placement) (i : Nat),
    (∀ pl ∈ pls, PlacementPasses s p pl) → s.checkPlacements p i ((pls.map placement).map rawOf) = .ok pls
  | [], _, _ => rfl
  | pl :: pls, i, h => by
    obtain ⟨h1, h2, h3⟩ := h pl List.mem_cons_self
    rw [List.map_cons, List.map_cons, State.checkPlacements,
      (placement?_iff (wholePlacement_of_inRange h1) pl).2 ⟨h1, rfl⟩]
    dsimp only
    rw [if_neg (by rw [h2]; decide), if_neg (by rw [(photoReady_iff s pl.kind).2 h3]; decide),
      checkPlacements_passes s p pls (i + 1) fun x hx => h x (List.mem_cons_of_mem _ hx)]

theorem checkPlacements_refused {s : State} {p : PanelNo} {w : List Byte} {status : Status} (hw : WholePlacement w)
    (h : PlacementRefused s p w status) (later : List (List Byte)) : ∀ (good : List Placement) (i : Nat),
    (∀ pl ∈ good, PlacementPasses s p pl) →
    s.checkPlacements p i ((good.map placement ++ w :: later).map rawOf) = .error (status, i + good.length)
  | [], i, _ => by
    rw [List.map_nil, List.nil_append, List.map_cons, State.checkPlacements]
    rcases h with ⟨h, rfl⟩ | ⟨pl, slot, h1, h2, h3, h4, h5, rfl⟩
    · cases hp : (rawOf w).placement? with
      | none => rfl
      | some pl =>
        obtain ⟨h1, h2⟩ := (placement?_iff hw pl).1 hp
        dsimp only
        rw [if_pos (h pl h1 h2)]
        rfl
    · rw [(placement?_iff hw pl).2 ⟨h1, h2⟩]
      dsimp only
      rw [if_neg (by rw [h3]; decide), if_pos]
      · rfl
      · refine Bool.eq_false_iff.2 fun g => ?_
        obtain ⟨r, k1, k2⟩ := (photoReady_iff s pl.kind).1 g slot h4
        exact h5 r k1 k2
  | pl :: good, i, hg => by
    obtain ⟨h1, h2, h3⟩ := hg pl List.mem_cons_self
    rw [List.map_cons, List.cons_append, List.map_cons, State.checkPlacements,
      (placement?_iff (wholePlacement_of_inRange h1) pl).2 ⟨h1, rfl⟩]
    dsimp only
    rw [if_neg (by rw [h2]; decide), if_neg (by rw [(photoReady_iff s pl.kind).2 h3]; decide),
      checkPlacements_refused hw h later good (i + 1) fun x hx => hg x (List.mem_cons_of_mem _ hx)]
    simp only [List.length_cons]
    congr 2
    omega

/-! ## The values of the profile's fields (R206) -/

theorem be_natOf_one {value : List Byte} (h : value.length = 1) : value = be 1 (natOf value) := by
  match value, h with
  | [b], _ => rw [be_one, natOf, List.foldl_cons, List.foldl_nil, Nat.zero_mul, Nat.zero_add, BitVec.ofNat_toNat,
      BitVec.setWidth_eq]

theorem be_natOf_two {value : List Byte} (h : value.length = 2) : value = be 2 (natOf value) := by
  match value, h with
  | [a, b], _ =>
    have e : natOf [a, b] = a.toNat * 256 + b.toNat := by simp [natOf]
    have h1 := a.isLt
    have h2 := b.isLt
    rw [be_two, e]
    congr 1
    · exact BitVec.eq_of_toNat_eq (by rw [BitVec.toNat_ofNat]; omega)
    · congr 1
      exact BitVec.eq_of_toNat_eq (by rw [BitVec.toNat_ofNat]; omega)

theorem numberIn_iff {size low high : Nat} (hs : size = 1 ∨ size = 2) (hh : high < 256 ^ size) (value : List Byte) :
    numberIn size low high value = true ↔ NumberIn size low high value := by
  unfold numberIn NumberIn
  simp only [Bool.and_eq_true, decide_eq_true_eq]
  refine ⟨fun ⟨⟨h1, h2⟩, h3⟩ => ⟨natOf value, h2, h3, ?_⟩, fun ⟨v, h1, h2, h3⟩ => ?_⟩
  · rcases hs with rfl | rfl
    · exact be_natOf_one h1
    · exact be_natOf_two h1
  · rw [h3, be_length, natOf_be (Nat.lt_of_le_of_lt h2 hh)]
    exact ⟨⟨rfl, h1⟩, h2⟩

theorem pairIn_iff {low high low' high' : Nat} (h : high < 256) (h' : high' < 256) (value : List Byte) :
    (numberIn 1 low high (value.take 1) && numberIn 1 low' high' (value.drop 1)) = true ↔
      PairIn low high low' high' value := by
  rw [Bool.and_eq_true, numberIn_iff (Or.inl rfl) h, numberIn_iff (Or.inl rfl) h']
  refine ⟨fun ⟨⟨v, h1, h2, h3⟩, w, h4, h5, h6⟩ => ⟨v, w, h1, h2, h4, h5, ?_⟩,
    fun ⟨v, w, h1, h2, h3, h4, e⟩ => ⟨⟨v, h1, h2, ?_⟩, w, h3, h4, ?_⟩⟩
  · rw [← h3, ← h6, List.take_append_drop]
  · rw [e, take_be_append]
  · rw [e, drop_be_append]

theorem isGlyphString_iff (value : List Byte) : isGlyphString value = true ↔ IsGlyphString value := by
  unfold IsGlyphString
  refine ⟨fun h => ?_, fun ⟨glyphs, h1, h2, e⟩ => ?_⟩
  · match value, h with
    | count :: glyphs, h =>
      unfold isGlyphString at h
      rw [Bool.and_eq_true, decide_eq_true_eq, glyphsFit_iff] at h
      exact ⟨glyphs, h.2.1, h.2.2, by rw [← h.1, be_one, BitVec.ofNat_toNat, BitVec.setWidth_eq]; rfl⟩
  · rw [e, be_one, List.singleton_append, isGlyphString, Bool.and_eq_true, decide_eq_true_eq, glyphsFit_iff]
    exact ⟨by rw [BitVec.toNat_ofNat]; omega, h1, h2⟩

/-- The ranges of R206, field by field. -/
theorem profileValue_iff (n : Nat) (value : List Byte) : fieldInRange n value = true ↔ ProfileValue n value := by
  unfold fieldInRange ProfileValue
  split <;> first
    | exact numberIn_iff (Or.inl rfl) (by decide) value
    | exact numberIn_iff (Or.inr rfl) (by decide) value
    | exact pairIn_iff (by decide) (by decide) value
    | exact isGlyphString_iff value
    | (refine ⟨nofun, fun h => ?_⟩
       first | exact h.elim | (split at h <;> first | exact h.elim | contradiction | omega))

/-! ## PLAN_LOAD -/

theorem panel?_eq_some {b : Byte} {p : PanelNo} (h : b.toNat = p.val) : panel? b = some p := by
  unfold panel? index?
  rw [dif_pos (by rw [h]; exact p.isLt)]
  exact congrArg some (Fin.ext h)

theorem panel?_eq_none {b : Byte} (h : 5 < b.toNat) : panel? b = none := dif_neg (by omega)

theorem dayPart?_some {b : Byte} (h : b.toNat ≤ 3) : ∃ d, dayPart? b = some d := ⟨⟨b.toNat, by omega⟩, dif_pos (by omega)⟩

theorem dayPart?_eq_none {b : Byte} (h : 3 < b.toNat) : dayPart? b = none := dif_neg (by omega)

/-- What PLAN_LOAD refuses, and with which index (R34, R35). -/
theorem planLoad_refuses (s : State) (panel dayPart count : Byte) (bytes : List Byte) :
      ((5 < panel.toNat ∨ 3 < dayPart.toNat ∨ 48 < count.toNat) →
        planLoad (panel :: dayPart :: count :: bytes) s = (⟨.badField, be 1 0⟩, s)) ∧
      (panel.toNat ≤ 5 → dayPart.toNat ≤ 3 → count.toNat ≤ 48 →
        ∀ index, PlanFault count.toNat bytes index →
        planLoad (panel :: dayPart :: count :: bytes) s = (⟨.badField, be 1 index⟩, s)) ∧
      (∀ (p : PanelNo) (placements : List (List Byte)), panel.toNat = p.val → dayPart.toNat ≤ 3 → count.toNat ≤ 48 →
        PlacementsWhole count.toNat bytes placements →
        (s.linkFitted p = false →
        planLoad (panel :: dayPart :: count :: bytes) s = (⟨.badField, be 1 0⟩, s)) ∧
        (s.linkFitted p = true → ∀ (good : List Placement) (w : List Byte) (later : List (List Byte)) (status : Status),
          placements = good.map placement ++ w :: later →
          (∀ pl ∈ good, PlacementPasses s p pl) → PlacementRefused s p w status →
        planLoad (panel :: dayPart :: count :: bytes) s = (⟨status, be 1 good.length⟩, s))) := by
  refine ⟨fun h => ?_, fun h1 h2 h3 index hf => ?_, fun p placements h1 h2 h3 ⟨hl, hw, he⟩ => ?_⟩
  · unfold planLoad; dsimp only
    rcases h with h | h | h
    · rw [panel?_eq_none h]; rfl
    · rw [dayPart?_eq_none h]; cases panel? panel <;> rfl
    · cases panel? panel <;> cases dayPart? dayPart <;> first | rfl | (dsimp only; rw [if_pos h]; rfl)
  · unfold planLoad; dsimp only
    obtain ⟨d, hd⟩ := dayPart?_some h2
    rw [hd, panel?_eq_some (p := ⟨panel.toNat, by omega⟩) rfl]
    dsimp only
    rw [if_neg (by omega), readPlacements_fault hf]
  · obtain ⟨d, hd⟩ := dayPart?_some h2
    unfold planLoad; dsimp only
    rw [hd, panel?_eq_some h1]
    dsimp only
    rw [if_neg (by omega), ← hl, he, readPlacements_whole placements 0 hw]
    dsimp only
    refine ⟨fun g => by rw [if_pos g]; rfl, fun g good w later status hp hg hr => ?_⟩
    rw [if_neg (by rw [g]; decide)]
    subst hp
    rw [checkPlacements_refused (hw w (by simp)) hr later good 0 hg]
    simp

/-- No placement in range is longer than 31 bytes. -/
theorem placement_length {pl : Placement} (h : PlacementInRange pl) : (placement pl).length ≤ 31 := by
  rw [inRange_iff] at h
  have h := h.2.2.2.2.2.2
  rw [placement_eq]
  cases hk : pl.kind <;> rw [hk] at h <;> simp [kindParts, KindInRange] at * <;> omega

/-- What PLAN_LOAD takes (R36). -/
theorem planLoad_takes (s : State) (p : PanelNo) (d : DayPart) (pls : List Placement) (h : pls.length ≤ 48) (hf : s.linkFitted p = true)
   (hp : ∀ pl ∈ pls, PlacementPasses s p pl) :
   planLoad (be 1 p.val ++ be 1 d.val ++ be 1 pls.length ++ pls.flatMap placement) s =
     (.ok (be 2 ((s.replacePlan p d pls).plan p d).revision.toNat), s.replacePlan p d pls) := by
  have e1 : (BitVec.ofNat 8 p.val).toNat = p.val := by rw [BitVec.toNat_ofNat]; omega
  have e2 : (BitVec.ofNat 8 d.val).toNat = d.val := by rw [BitVec.toNat_ofNat]; omega
  have e3 : (BitVec.ofNat 8 pls.length).toNat = pls.length := by rw [BitVec.toNat_ofNat]; omega
  have dd : dayPart? (BitVec.ofNat 8 d.val) = some d := by
    unfold dayPart? index?; rw [dif_pos (by omega)]; exact congrArg some (Fin.ext e2)
  simp only [be_one, List.cons_append, List.nil_append, planLoad, dd, panel?_eq_some e1, e3]
  rw [if_neg (by omega)]
  have := readPlacements_whole (pls.map placement) 0 (fun w hw => by
    obtain ⟨pl, h1, rfl⟩ := List.mem_map.1 hw
    exact wholePlacement_of_inRange (hp pl h1).1)
  rw [List.length_map, ← List.flatMap_def] at this
  rw [this]
  dsimp only
  rw [if_neg (by rw [hf]; decide), checkPlacements_passes s p pls 0 hp]

end Sys2Proof.Machine
end

