-- ==== Sys2Proof/Laws/Transition.lean ====
section
/-! SUPPORT. What a transition of the store state leaves (chapter 8): the day-part's hand-off and the CLOSED cause. -/
namespace Sys2Proof.Machine

/-! ## The CLOSED cause leaves every fitted link (R174) -/

theorem raiseBoth_link (s : State) (f : NoticeFlag) (q : PanelNo) : (s.raiseBoth f).link q = s.link q :=
  link_of_links (by simp) q

theorem trainOrReject_link_of_ne {s : State} {p q : PanelNo} (h : q ≠ p) : (s.trainOrReject p).link q = s.link q := by
  unfold State.trainOrReject State.enterTraining State.enterRejected
  dsimp only
  split
  · rw [State.startTimer_link, State.setLink_link_of_ne _ h]
  · rw [raiseBoth_link, State.setLinkState_link_of_ne _ h]

theorem trainOrReject_link (s : State) (p : PanelNo) : ((s.trainOrReject p).link p).causes = (s.link p).causes ∧
    ((s.trainOrReject p).link p).state = if s.gridMatches p then .training else .rejected := by
  unfold State.trainOrReject State.enterTraining State.enterRejected
  dsimp only
  split
  · rw [State.startTimer_link, State.setLink_link_self]; exact ⟨rfl, rfl⟩
  · rw [raiseBoth_link, State.setLinkState_link_self]; exact ⟨rfl, rfl⟩

theorem removeCause_link_of_ne {s : State} {p q : PanelNo} (h : q ≠ p) (c : DarkCause) :
    (s.removeCause c p).link q = s.link q := by
  unfold State.removeCause
  dsimp only
  split
  · rw [trainOrReject_link_of_ne h, State.setLink_link_of_ne _ h]
  · exact State.setLink_link_of_ne _ h _

/-- What the removal of the CLOSED cause leaves of a link (R110). -/
theorem removeClosed_link (s : State) (p : PanelNo) :
    ((s.removeCause .closed p).link p).causes = { (s.link p).causes with closed := false } ∧
    ((s.removeCause .closed p).link p).state =
      (if (s.link p).causes = ⟨false, true⟩ ∧ (s.link p).state = .dark then
        (if s.gridMatches p then .training else .rejected) else (s.link p).state) := by
  have hc : ((s.link p).causes.isEmpty = false ∧ ((s.link p).causes.remove .closed).isEmpty = true ∧
      (s.link p).state = .dark) ↔ ((s.link p).causes = ⟨false, true⟩ ∧ (s.link p).state = .dark) := by
    rcases (s.link p).causes with ⟨a, b⟩
    cases a <;> cases b <;> simp [DarkSet.isEmpty, DarkSet.remove]
  unfold State.removeCause
  dsimp only
  generalize hv : ({ s.link p with causes := (s.link p).causes.remove .closed } : Link) = v
  have hg : (s.setLink p v).gridMatches p = s.gridMatches p := by
    unfold State.gridMatches
    rw [State.setLink_link_self, ← hv]; rfl
  by_cases h : (s.link p).causes = ⟨false, true⟩ ∧ (s.link p).state = .dark
  · rw [if_pos (hc.2 h), if_pos h, (trainOrReject_link _ p).1, (trainOrReject_link _ p).2, hg, State.setLink_link_self,
      ← hv]
    exact ⟨rfl, rfl⟩
  · rw [if_neg (fun g => h (hc.1 g)), if_neg h, State.setLink_link_self, ← hv]
    exact ⟨rfl, rfl⟩

/-- The removal of a cause reads a link by its own record and its grid. -/
theorem removeCause_gridMatches {s : State} {p q : PanelNo} (h : q ≠ p) (c : DarkCause) :
    (s.removeCause c p).gridMatches q = s.gridMatches q := by
  unfold State.gridMatches State.grid
  rw [removeCause_link_of_ne h, State.removeCause_inForce]

theorem foldl_removeClosed_link : ∀ (ps : List PanelNo) (s : State), ps.Nodup → ∀ q,
    (q ∉ ps → (ps.foldl (fun s p => s.removeCause .closed p) s).link q = s.link q) ∧
    (q ∈ ps →
      ((ps.foldl (fun s p => s.removeCause .closed p) s).link q).causes = { (s.link q).causes with closed := false } ∧
      ((ps.foldl (fun s p => s.removeCause .closed p) s).link q).state =
        (if (s.link q).causes = ⟨false, true⟩ ∧ (s.link q).state = .dark then
          (if s.gridMatches q then .training else .rejected) else (s.link q).state)) := by
  intro ps
  induction ps with
  | nil => intro s _ q; exact ⟨fun _ => rfl, fun h => absurd h (by simp)⟩
  | cons p ps ih =>
    intro s hn q
    have hn := List.nodup_cons.1 hn
    obtain ⟨h1, h2⟩ := ih (s.removeCause .closed p) hn.2 q
    rw [List.foldl_cons]
    by_cases hq : q = p
    · subst hq
      refine ⟨fun h => absurd List.mem_cons_self h, fun _ => ?_⟩
      rw [h1 hn.1]; exact removeClosed_link s q
    · rw [removeCause_link_of_ne hq, removeCause_gridMatches hq] at h2
      rw [removeCause_link_of_ne hq] at h1
      refine ⟨fun h => h1 fun g => h (List.mem_cons_of_mem _ g), fun h => h2 ?_⟩
      exact (List.mem_cons.1 h).resolve_left hq

theorem trainingLimit_key (p : PanelNo) : (TimerId.trainingLimit p).key ≠ TimerId.changeoverLimit.key := by revert p; decide

theorem trainOrReject_changeoverLimit (s : State) (p : PanelNo) :
    (s.trainOrReject p).timeLeft .changeoverLimit = s.timeLeft .changeoverLimit := by
  unfold State.trainOrReject State.enterTraining State.enterRejected
  dsimp only
  split
  · rw [State.startTimer_timeLeft_of_ne _ (trainingLimit_key p), State.setLink_timeLeft]
  · rw [raiseBoth_timeLeft, State.setLinkState_timeLeft]

theorem trainOrReject_flag (s : State) (p : PanelNo) (q : PortId) (f : NoticeFlag) (h : FlagSet s q f) :
    FlagSet (s.trainOrReject p) q f := by
  unfold State.trainOrReject State.enterTraining State.enterRejected
  dsimp only
  split
  · exact h
  · exact raise_keeps_flag _ _ _ _ _ (raise_keeps_flag _ _ _ _ _ h)

theorem removeCause_changeoverLimit (s : State) (c : DarkCause) (p : PanelNo) :
    (s.removeCause c p).timeLeft .changeoverLimit = s.timeLeft .changeoverLimit := by
  unfold State.removeCause
  dsimp only
  split
  · rw [trainOrReject_changeoverLimit, State.setLink_timeLeft]
  · rfl

theorem removeCause_flag (s : State) (c : DarkCause) (p : PanelNo) (q : PortId) (f : NoticeFlag) (h : FlagSet s q f) :
    FlagSet (s.removeCause c p) q f := by
  unfold State.removeCause
  dsimp only
  split
  · exact trainOrReject_flag _ _ _ _ h
  · exact h

theorem foldl_removeCause_rest : ∀ (ps : List PanelNo) (s : State),
    (ps.foldl (fun s p => s.removeCause .closed p) s).changeover = s.changeover ∧
    (ps.foldl (fun s p => s.removeCause .closed p) s).composer = s.composer ∧
    (ps.foldl (fun s p => s.removeCause .closed p) s).timeLeft .changeoverLimit = s.timeLeft .changeoverLimit ∧
    ∀ q f, FlagSet s q f → FlagSet (ps.foldl (fun s p => s.removeCause .closed p) s) q f := by
  intro ps
  induction ps with
  | nil => intro s; exact ⟨rfl, rfl, rfl, fun _ _ h => h⟩
  | cons p ps ih =>
    intro s
    obtain ⟨h1, h2, h3, h4⟩ := ih (s.removeCause .closed p)
    exact ⟨h1.trans (by simp), h2.trans (by simp), h3.trans (removeCause_changeoverLimit _ _ _),
      fun q f h => h4 q f (removeCause_flag _ _ _ _ _ h)⟩

/-- The CLOSED cause leaves every fitted link (R174). -/
theorem closedLifted (s : State) : ClosedLifted s (s.fittedLinks.foldl (fun s p => s.removeCause .closed p) s) := by
  have hm : ∀ p, p ∈ s.fittedLinks ↔ s.linkFitted p = true := fun p => by
    unfold State.fittedLinks; rw [List.mem_filter]; exact ⟨fun h => h.2, fun h => ⟨mem_allPanels p, h⟩⟩
  have hn : s.fittedLinks.Nodup := List.Pairwise.filter _ (by decide : allPanels.Nodup)
  exact ⟨fun p hp => (foldl_removeClosed_link _ s hn p).1 (by rw [hm, hp]; decide),
    fun p hp => (foldl_removeClosed_link _ s hn p).2 ((hm p).2 hp)⟩

/-! ## The CLOSED cause joins every fitted link (R173) -/

theorem leaveLive_causes (s : State) (p q : PanelNo) : ((s.leaveLive p).link q).causes = (s.link q).causes := by
  by_cases hq : q = p
  · subst hq; rw [leaveLive_link]
  · rw [leaveLive_link_of_ne hq]

theorem setLinkState_causes (s : State) (p q : PanelNo) (v : LinkState) :
    ((s.setLinkState p v).link q).causes = (s.link q).causes := by
  by_cases hq : q = p
  · subst hq; rw [State.setLinkState_link_self]
  · rw [State.setLinkState_link_of_ne _ hq]

theorem endTest_causes (s : State) (p q : PanelNo) (r : TestResult) :
    ((s.endTest p r).link q).causes = (s.link q).causes := by
  unfold State.endTest
  dsimp only
  rw [raise_link, State.stopTimer_link]
  by_cases hq : q = p
  · subst hq; rw [State.setLink_link_self]
  · rw [State.setLink_link_of_ne _ hq]

theorem enterDark_causes (s : State) (p q : PanelNo) : ((s.enterDark p).link q).causes = (s.link q).causes := by
  unfold State.enterDark
  split <;> simp only [setLinkState_causes, leaveLive_causes, endTest_causes, State.stopTimer_link]

theorem addCause_causes (s : State) (c : DarkCause) (p q : PanelNo) :
    ((s.addCause c p).link q).causes = if q = p then (s.link q).causes.add c else (s.link q).causes := by
  have h : ((s.setLink p { s.link p with causes := (s.link p).causes.add c }).link q).causes =
      if q = p then (s.link q).causes.add c else (s.link q).causes := by
    by_cases hq : q = p
    · subst hq; rw [State.setLink_link_self, if_pos rfl]
    · rw [State.setLink_link_of_ne _ hq, if_neg hq]
  unfold State.addCause
  dsimp only
  split
  · rw [enterDark_causes, h]
  · exact h

theorem checkMembers_current (s : State) : s.checkMembers.changeover.current = s.changeover.current := by
  unfold State.checkMembers
  split
  · rfl
  · dsimp only; split
    · simp
    · split <;> rfl

theorem memberLeaves_current (s : State) (p : PanelNo) : (s.memberLeaves p).changeover.current = s.changeover.current := by
  unfold State.memberLeaves
  split
  · rfl
  · dsimp only; rw [checkMembers_current]; rfl

theorem leaveLive_current (s : State) (p : PanelNo) : (s.leaveLive p).changeover.current = s.changeover.current := by
  unfold State.leaveLive
  dsimp only
  rw [memberLeaves_current]; simp

theorem addCause_current (s : State) (c : DarkCause) (p : PanelNo) :
    (s.addCause c p).changeover.current = s.changeover.current := by
  unfold State.addCause
  dsimp only
  split
  · unfold State.enterDark
    split <;> simp [leaveLive_current]
  · rfl

theorem foldl_addClosed : ∀ (ps : List PanelNo) (s : State),
    (ps.foldl (fun s p => s.addCause .closed p) s).changeover.current = s.changeover.current ∧
    (∀ q, (s.link q).causes.closed = true ∨ q ∈ ps →
      ((ps.foldl (fun s p => s.addCause .closed p) s).link q).causes.closed = true) := by
  intro ps
  induction ps with
  | nil => intro s; exact ⟨rfl, fun q h => h.resolve_right (by simp)⟩
  | cons p ps ih =>
    intro s
    obtain ⟨h1, h2⟩ := ih (s.addCause .closed p)
    refine ⟨h1.trans (addCause_current _ _ _), fun q h => h2 q ?_⟩
    rw [addCause_causes]
    by_cases hq : q = p
    · rw [if_pos hq]; exact Or.inl rfl
    · rw [if_neg hq]; exact h.imp id fun g => (List.mem_cons.1 g).resolve_left hq

/-! ## The hand-off of a day-part -/

theorem stageMembers_causes (s : State) (p : PanelNo) : (s.stageMembers.link p).causes = (s.link p).causes := by
  rw [stageMembers_link]; split <;> rfl

theorem settleDone_link (s : State) (u : Target) (p : PanelNo) : (s.settleDone u).link p = s.link p :=
  link_of_links (by simp) p

theorem startChangeover_causes (s : State) (p : PanelNo) : (s.startChangeover.link p).causes = (s.link p).causes := by
  unfold State.startChangeover
  split
  · rw [stageMembers_causes]; rfl
  · rw [settleDone_link]

theorem supersede_causes (s : State) (p : PanelNo) : (s.supersede.link p).causes = (s.link p).causes := by
  unfold State.supersede
  split
  · rw [stageMembers_causes]
  · rw [settleDone_link]

theorem handTarget_causes (s : State) (u : Target) (p : PanelNo) :
    ((s.handTarget u).link p).causes = (s.link p).causes := by
  unfold State.handTarget
  split
  · rfl
  · dsimp only
    split
    · split
      · rfl
      · rw [supersede_causes]; rfl
    · split
      · rfl
      · split
        · rfl
        · rw [startChangeover_causes]; rfl

theorem endFreezeInForce_causes (s : State) (c : FreezeCause) (p : PanelNo) :
    ((s.endFreezeInForce c).link p).causes = (s.link p).causes := by
  unfold State.endFreezeInForce
  split
  · unfold State.endFreeze
    dsimp only
    rw [State.setFreeze_link]
    split
    · rw [raiseBoth_link, State.stopTimer_link]; rfl
    · rw [startChangeover_causes, raiseBoth_link, State.stopTimer_link]; rfl
  · rfl

/-- The hand-off of a day-part, after the end of a freeze in force and alone. -/
theorem handDayPart_handedAfterFreeze (s : State) (k : StoreClock) (d : DayPart) :
    TargetHandedAfterFreeze s (((s.endFreezeInForce .daypart).setClock k).handDayPart d)
      { s.changeover.current with dayPart := d } := by
  have h := handTarget_handedAfterFreeze (s := s) .daypart ((s.endFreezeInForce .daypart).setClock k)
    { ((s.endFreezeInForce .daypart).setClock k).changeover.current with dayPart := d } rfl rfl rfl
    (endFreezeInForce_composer _) rfl
    (by
      show natOf (fieldValue (s.endFreezeInForce .daypart).inForce _) = _
      rw [State.endFreezeInForce_inForce]; rfl) fun _ h => h
  rw [State.setClock_changeover, endFreezeInForce_current] at h
  unfold State.handDayPart
  rw [State.setClock_changeover, endFreezeInForce_current]
  exact h

theorem handDayPart_handed (s : State) (k : StoreClock) (d : DayPart) :
    TargetHanded s ((s.setClock k).handDayPart d) { s.changeover.current with dayPart := d } :=
  (handTarget_handed (s := s.setClock k) { s.changeover.current with dayPart := d }).of_before rfl rfl rfl rfl rfl rfl

/-- What a transition leaves (R171 to R174). -/
theorem transition_made (s : State) (k : StoreClock) (hk : k.lastOpen = s.clock.lastOpen) :
    TransitionMade s ((s.setClock k).transition s.clock.storeState) := by
  have hmem : ∀ p, s.linkFitted p = true → p ∈ s.fittedLinks := fun p hp => by
    unfold State.fittedLinks; rw [List.mem_filter]; exact ⟨mem_allPanels p, hp⟩
  generalize hw : s.setClock k = w
  have hwc : w.clock = k := by rw [← hw]; rfl
  unfold State.transition
  split
  · next h =>
    rw [hwc] at h
    subst hw
    refine ⟨fun _ => ⟨hk, rfl, rfl, rfl, rfl⟩, fun g => absurd h g, fun d g1 g2 => ?_, fun g1 g2 => ?_⟩
    · exact absurd (h.symm.trans g1) g2
    · exact absurd (h.symm.trans g1) g2
  · next h =>
    rw [hwc] at h
    split
    · next d0 d hb ha =>
      rw [hwc] at ha
      dsimp only
      generalize hv : w.endFreezeInForce .daypart = v
      have hvc : v.clock = k := by rw [← hv, State.endFreezeInForce_clock, hwc]
      generalize hu : (v.setClock { v.clock with lastOpen := d }).handDayPart d = u
      have huc : u.clock = { k with lastOpen := d } := by rw [← hu, hvc]; unfold State.handDayPart; simp
      have hus : (u.raise .daypartChanged .store).clock.storeState = .opened d := by
        rw [State.raise_clock, huc]; exact ha
      have hand : TargetHandedAfterFreeze s (u.raise .daypartChanged .store) { s.changeover.current with dayPart := d } := by
        have := (handDayPart_handedAfterFreeze w { v.clock with lastOpen := d } d).of_before (s := s)
          (by rw [← hw]; rfl) (by rw [← hw]; rfl) (by rw [← hw]; rfl) (by rw [← hw]; rfl) (by rw [← hw]; rfl)
          (by rw [← hw]; rfl)
        rw [hv, hu, show w.changeover.current = s.changeover.current by rw [← hw]; rfl] at this
        exact this.of_eq (by simp) (by simp) (by simp) (by simp) (raise_timeLeft _ _ _ _) fun _ h => raise_keeps_flag _ _ _ _ _ h
      have hcur : u.changeover.current = { s.changeover.current with dayPart := d } := by
        rw [← hu]; unfold State.handDayPart
        rw [handTarget_current, State.setClock_changeover, ← hv, endFreezeInForce_current, ← hw]; rfl
      refine ⟨fun g => ?_, fun _ => raise_flag _ _ rfl (by decide), fun e g1 g2 => ?_, fun g1 _ => ?_⟩
      · rw [hus, ← ha] at g; exact absurd g h
      · obtain rfl : d = e := StoreState.opened.inj (hus.symm.trans g1)
        refine ⟨by rw [State.raise_clock, huc], by rw [State.raise_changeover, hcur], fun _ => ⟨?_, fun hf => ?_⟩,
          fun g => ?_, fun g => ?_, fun _ p => ?_, fun _ => hand, fun g => ?_⟩
        · rw [State.raise_freeze, ← hu]; unfold State.handDayPart
          rw [handTarget_freeze_state, State.setClock_freeze, ← hv, endFreezeInForce_inForce]
        · rw [State.raise_freeze, ← hu]; unfold State.handDayPart
          rw [handTarget_freeze_lastEnd, State.setClock_freeze, ← hv, endFreezeInForce_freeze,
            if_pos (by rw [← hw]; exact hf)]
        · rw [hb] at g; exact absurd g (by simp)
        · rw [hb] at g; exact absurd g (by simp)
        · rw [raise_link, ← hu]; unfold State.handDayPart
          rw [handTarget_causes, State.setClock_link, ← hv, endFreezeInForce_causes, ← hw]; rfl
        · rw [hb] at g; exact absurd g (by simp)
      · rw [hus] at g1; exact absurd g1 (by simp)
    · next d hb ha =>
      rw [hwc] at ha
      dsimp only
      generalize hv : (if d = w.clock.lastOpen then w else w.endFreezeInForce .daypart) = v
      have hvc : v.clock = k := by rw [← hv]; split <;> simp [hwc]
      generalize hu : (v.setClock { v.clock with lastOpen := d }).handDayPart d = u
      have huc : u.clock = { k with lastOpen := d } := by rw [← hu, hvc]; unfold State.handDayPart; simp
      generalize hx : u.fittedLinks.foldl (fun s p => s.removeCause .closed p) u = x
      have hxc : x.clock = { k with lastOpen := d } := by rw [← hx, foldl_removeCause_clock, huc]
      have hus : (x.raise .daypartChanged .store).clock.storeState = .opened d := by
        rw [State.raise_clock, hxc]; exact ha
      have hvi : v.inForce = s.inForce := by rw [← hv, ← hw]; split <;> simp
      have hui : u.inForce = s.inForce := by rw [← hu]; unfold State.handDayPart; simp [hvi]
      have hlift : ClosedLifted u x := by rw [← hx]; exact closedLifted u
      obtain ⟨r1, r2, r3, r4⟩ := foldl_removeCause_rest u.fittedLinks u
      rw [hx] at r1 r2 r3 r4
      have hcur : u.changeover.current = { s.changeover.current with dayPart := d } := by
        rw [← hu]; unfold State.handDayPart
        rw [handTarget_current, State.setClock_changeover, ← hv, ← hw]
        split
        · rfl
        · rw [endFreezeInForce_current]; rfl
      have hxf : x.freeze = u.freeze := by rw [← hx, foldl_removeCause_freeze]
      refine ⟨fun g => ?_, fun _ => raise_flag _ _ rfl (by decide), fun e g1 g2 => ?_, fun g1 _ => ?_⟩
      · rw [hus, ← ha] at g; exact absurd g h
      · obtain rfl : d = e := StoreState.opened.inj (hus.symm.trans g1)
        have hlo : w.clock.lastOpen = s.clock.lastOpen := by rw [hwc]; exact hk
        refine ⟨by rw [State.raise_clock, hxc], by rw [State.raise_changeover, r1, hcur], fun g => ?_,
          fun _ g => ?_, fun _ p hp => ?_, fun g => absurd hb g, fun g => absurd hb g,
          fun _ => ⟨u, fun g => ?_, fun g => ?_, by simp [r1], by simp [hxf], by simp [r2], ?_, fun q f hf => ?_, hui, ?_, ?_⟩⟩
        · have g : ¬ d = w.clock.lastOpen := by rw [hlo]; exact g.resolve_left (fun z => z hb)
          rw [if_neg g] at hv
          refine ⟨?_, fun hf => ?_⟩
          · rw [State.raise_freeze, hxf, ← hu]; unfold State.handDayPart
            rw [handTarget_freeze_state, State.setClock_freeze, ← hv, endFreezeInForce_inForce]
          · rw [State.raise_freeze, hxf, ← hu]; unfold State.handDayPart
            rw [handTarget_freeze_lastEnd, State.setClock_freeze, ← hv, endFreezeInForce_freeze,
              if_pos (by rw [← hw]; exact hf)]
        · rw [if_pos (by rw [hlo]; exact g)] at hv
          rw [State.raise_freeze, hxf, ← hu]; unfold State.handDayPart
          rw [handTarget_freeze_state, State.setClock_freeze, ← hv, ← hw]; rfl
        · rw [raise_link, (hlift.2 p (by
            rw [show u.linkFitted p = s.linkFitted p by unfold State.linkFitted State.profileNat; rw [hui]]; exact hp)).1]
        · rw [if_neg (by rw [hlo]; exact g)] at hv
          have := (handDayPart_handedAfterFreeze w { v.clock with lastOpen := d } d).of_before (s := s)
            (by rw [← hw]; rfl) (by rw [← hw]; rfl) (by rw [← hw]; rfl) (by rw [← hw]; rfl) (by rw [← hw]; rfl)
            (by rw [← hw]; rfl)
          rw [hv, hu, show w.changeover.current = s.changeover.current by rw [← hw]; rfl] at this
          exact this
        · rw [if_pos (by rw [hlo]; exact g)] at hv
          have := (handDayPart_handed v { v.clock with lastOpen := d } d).of_before (s := s)
            (by rw [← hv, ← hw]; rfl) (by rw [← hv, ← hw]; rfl) (by rw [← hv, ← hw]; rfl) (by rw [← hv, ← hw]; rfl)
            (by rw [← hv, ← hw]; rfl) (by rw [← hv, ← hw]; rfl)
          rw [hu, show v.changeover.current = s.changeover.current by rw [← hv, ← hw]; rfl] at this
          exact this
        · rw [raise_timeLeft, r3]
        · exact raise_keeps_flag _ _ _ _ _ (r4 q f hf)
        · intro p hp; rw [raise_link]; exact hlift.1 p hp
        · intro p hp; rw [raise_link]; exact hlift.2 p hp
      · rw [hus] at g1; exact absurd g1 (by simp)
    · next ha =>
      rw [hwc] at ha
      generalize hx : w.fittedLinks.foldl (fun s p => s.addCause .closed p) w = x
      have hxc : x.clock = k := by rw [← hx, foldl_addCause_clock, hwc]
      have hus : (x.raise .daypartChanged .store).clock.storeState = .closed := by
        rw [State.raise_clock, hxc]; exact ha
      obtain ⟨r1, r2⟩ := foldl_addClosed w.fittedLinks w
      rw [hx] at r1 r2
      refine ⟨fun g => ?_, fun _ => raise_flag _ _ rfl (by decide), fun e g1 g2 => ?_, fun _ _ => ⟨?_, ?_, ?_, fun p hp => ?_, ?_⟩⟩
      · rw [hus, ← ha] at g; exact absurd g h
      · rw [hus] at g1; exact absurd g1 (by simp)
      · rw [State.raise_clock, hxc]; exact hk
      · rw [State.raise_changeover, r1, ← hw]; rfl
      · rw [State.raise_freeze, ← hx, foldl_addCause_freeze, ← hw]; rfl
      · rw [raise_link]
        refine r2 p (Or.inr ?_)
        rw [← hw]; exact hmem p hp
      · have hc := closedAdded w
        rw [hx] at hc
        exact (hc.of_before hw).of_eq (fun p => raise_link _ _ _ _) (by simp) (by simp)
          (fun u => raise_timeLeft _ _ _ u) fun _ _ h => raise_keeps_flag _ _ _ _ _ h

end Sys2Proof.Machine
end

