-- ==== Sys2Proof/WellFormed.lean ====
section
/-! DEFINITION. Which commands are well formed: a command whose operands are those of the event its row names. An
ill-formed command has a meaning all the same (log 19): its bytes are taken as what they are. -/
namespace Sys2Proof

/-- A payload no message could carry is ill formed (first check of R191). -/
def payloadFits (payload : List Byte) : Bool := decide (payload.length ≤ Config.payloadLimit)

/-- Whether bytes arrive at a port as one request: the bytes of an SPI transaction always do (R192), the bytes on a lane
port when they are one message (R193). -/
def oneMessage : PortId → List Byte → Bool
  | .store, _ => true
  | .media, _ => true
  | .lane _, message => decide (message ≠ [] ∧ Message.rest message = [])

/-- The checks, constructor by constructor. -/
def Instr.wellFormed : Instr → Bool
  | .batchOpen _ _ payload => payloadFits payload
  | .batchAdd _ _ payload => payloadFits payload
  | .batchCommit _ _ payload => payloadFits payload
  | .batchDiscard _ _ payload => payloadFits payload
  | .leaseRenew _ _ payload => payloadFits payload
  | .itemRead _ _ payload => payloadFits payload
  | .priceQuery _ _ payload => payloadFits payload
  | .planLoad _ _ payload => payloadFits payload
  | .planClear _ _ payload => payloadFits payload
  | .planRead _ _ payload => payloadFits payload
  | .loadBegin _ _ payload => payloadFits payload
  | .loadBlock _ _ payload => payloadFits payload
  | .loadAbort _ _ payload => payloadFits payload
  | .slotErase _ _ payload => payloadFits payload
  | .slotVerify _ _ payload => payloadFits payload
  | .verifyAll _ _ payload => payloadFits payload
  | .spaceRead _ _ payload => payloadFits payload
  | .slotRead _ _ payload => payloadFits payload
  | .panelDark _ _ payload => payloadFits payload
  | .panelLight _ _ payload => payloadFits payload
  | .linkTest _ _ payload => payloadFits payload
  | .linkTestStop _ _ payload => payloadFits payload
  | .panelStatus _ _ payload => payloadFits payload
  | .changeoverStatus _ _ payload => payloadFits payload
  | .holdOpen _ _ payload => payloadFits payload
  | .holdAdd _ _ payload => payloadFits payload
  | .holdRemove _ _ payload => payloadFits payload
  | .holdFocus _ _ payload => payloadFits payload
  | .holdRefresh _ _ payload => payloadFits payload
  | .holdClose _ _ payload => payloadFits payload
  | .holdRead _ _ payload => payloadFits payload
  | .clockSet _ _ payload => payloadFits payload
  | .scheduleLoad _ _ payload => payloadFits payload
  | .daypartForce _ _ payload => payloadFits payload
  | .daypartAuto _ _ payload => payloadFits payload
  | .scheduleRead _ _ payload => payloadFits payload
  | .freeze _ _ payload => payloadFits payload
  | .unfreeze _ _ payload => payloadFits payload
  | .profileBurn _ _ payload => payloadFits payload
  | .profileRead _ _ payload => payloadFits payload
  | .describe _ _ payload => payloadFits payload
  | .restart _ _ payload => payloadFits payload
  | .noticeRead _ _ payload => payloadFits payload
  | .noticeClear _ _ payload => payloadFits payload
  | .noticeMask _ _ payload => payloadFits payload
  | .requestDiscarded _ => true
  | .frameError port message => oneMessage port message &&
    match Message.read message with
    | .good _ _ _ => false
    | .bad _ _ _ => true
  | .answerRead port _ =>
    match port with
    | .store => true
    | .media => true
    | .lane _ => false
  | .answerSent _ => true
  | .uartIdleGap _ received => decide (received ≠ [] ∧ received.length < 6 + Message.lengthField received)
  | .present _ columns rows period _ => Report.presentInRange columns rows period
  | .badReport _ bytes => decide (Report.stream bytes = [none])
  | .locked _ => true
  | .unlocked _ => true
  | .shown _ _ _ => true
  | .testReport _ _ => true
  | .panelFault _ _ => true
  | .batchIdleExpiry _ => true
  | .priceLeaseExpiry => true
  | .minuteTimerExpiry => true
  | .promotionEndCommit => true
  | .lockSilenceExpiry _ => true
  | .detachTimerExpiry _ => true
  | .trainingLimitExpiry _ => true
  | .frameBoundary _ => true
  | .testSecondExpiry _ => true
  | .linkTestExpiry _ => true
  | .loadIdleExpiry => true
  | .changeoverLimitExpiry => true
  | .holdLeaseExpiry _ _ => true
  | .freezeLimitExpiry => true
  | .secondTimerTick => true
  | .tickEdge => true
  | .scheduleEntryFire => true
  | .compositionStart => true
  | .compositionComplete => true
  | .verifyStart => true
  | .verificationComplete => true
  | .powerOn => true
  | .resetLineAsserted => true
  | .startUp => true

end Sys2Proof
end

