-- ==== Sys2Proof/Tests/Slice0.lean ====
section
/-! SUPPORT. Tests: an ill-formed term for each check of WellFormed, messages and reports written out byte by byte, a few
steps of the manual's worked examples, and for every statement with hypotheses a concrete state that meets them. -/
namespace Sys2Proof.Tests

open Sys2Proof.Machine

-- The kernel checks each test in turn; side by side they would ask for a thread each.
set_option Elab.async false

/-! ## Ill-formed commands -/

theorem test_payload_too_long_is_ill_formed (t : RequestType) (port : PortId) (tag : Byte) :
    (t.toInstr port tag (List.replicate 4105 0)).wellFormed = false := by
  have h : payloadFits (List.replicate 4105 0) = false := by unfold payloadFits; rw [List.length_replicate]; rfl
  cases t <;> exact h

theorem test_longest_payload_is_well_formed (t : RequestType) (port : PortId) (tag : Byte) :
    (t.toInstr port tag (List.replicate 4104 0)).wellFormed = true := by
  have h : payloadFits (List.replicate 4104 0) = true := by unfold payloadFits; rw [List.length_replicate]; rfl
  cases t <;> exact h

theorem test_good_message_is_no_frame_error :
    Instr.wellFormed (.frameError .store (Message.encode .describe 7 [])) = false := by decide +kernel

theorem test_answer_read_on_lane_port_is_ill_formed : Instr.wellFormed (.answerRead (.lane 1) 8) = false := by decide

theorem test_gap_after_whole_message_is_ill_formed :
    Instr.wellFormed (.uartIdleGap 0 (Message.encode .holdClose 7 [3])) = false := by decide

theorem test_present_out_of_range_is_ill_formed :
    Instr.wellFormed (.present 0 3 9 20 0) = false ∧ Instr.wellFormed (.present 0 16 10 20 0) = false ∧
    Instr.wellFormed (.present 0 16 9 51 0) = false ∧ Instr.wellFormed (.present 0 16 9 50 0) = true := by decide

/-- A good report, with and without a second one cut short after it; a report of an unknown kind is one bad report. -/
theorem test_good_report_is_no_bad_report : Instr.wellFormed (.badReport 0 [2, crc8 [2]]) = false ∧
    Instr.wellFormed (.badReport 0 [2, crc8 [2], 3]) = false ∧ Instr.wellFormed (.badReport 0 [9, 1, 2]) = true := by
  decide +kernel

/-- A FRAME_ERROR is one message: on a lane port bytes past the length field are none of its own; on an SPI port they
are. An idle gap ends bytes that are there. -/
theorem test_bytes_past_a_lane_message_are_no_frame_error :
    Instr.wellFormed (.frameError (.lane 0) [0x55, 7, 0, 0, 0, 0, 1]) = false ∧
    Instr.wellFormed (.frameError .store [0x55, 7, 0, 0, 0, 0, 1]) = true ∧
    Instr.wellFormed (.uartIdleGap 0 []) = false := by decide +kernel

/-! ## Checksums and messages (R200, R203, R125) -/

theorem test_crc16_check_value : crc16 [0x31, 0x32, 0x33, 0x34, 0x35, 0x36, 0x37, 0x38, 0x39] = 0x29B1 := by decide +kernel

theorem test_crc32_check_value :
    crc32 [0x31, 0x32, 0x33, 0x34, 0x35, 0x36, 0x37, 0x38, 0x39] = 0xCBF43926 := by decide +kernel

theorem test_crc8_check_value : crc8 [0x31, 0x32, 0x33, 0x34, 0x35, 0x36, 0x37, 0x38, 0x39] = 0xF4 := by decide +kernel

/-- HOLD_ADD, tag 0xA5: hold 1, item 300, variant 2, quantity 3. -/
theorem test_hold_add_message :
    Message.command (.lane 0) ([0x51, 0xA5, 0x00, 0x05, 0x01, 0x01, 0x2C, 0x02, 0x03] ++
      be 2 (crc16 [0x51, 0xA5, 0x00, 0x05, 0x01, 0x01, 0x2C, 0x02, 0x03]).toNat) =
    .holdAdd (.lane 0) 0xA5 [0x01, 0x01, 0x2C, 0x02, 0x03] := by decide +kernel

/-- PRESENT: 16 columns, 9 rows, 20 ms, model 0x1234. -/
theorem test_present_report :
    Report.read [1, 16, 9, 20, 0x12, 0x34, crc8 [1, 16, 9, 20, 0x12, 0x34]] = some (.present 16 9 20 0x1234) := by
  decide +kernel

/-- The two codes of R200, and a poll. -/
theorem test_transaction_codes : Transaction.ofCode 1 = .request ∧ Transaction.ofCode 2 = .answerRead ∧
    Transaction.ofCode 0 = .poll ∧ Transaction.command .store [2, 0, 0] = some (.answerRead .store 2) ∧
    Transaction.command .media [0xFF] = none := by decide

/-- A good LOCKED report, then one cut short by the gap (R203). -/
theorem test_report_stream : Report.stream [2, crc8 [2], 3] = [some .locked, none] := by decide +kernel

theorem test_wrong_crc_is_bad_report : Report.read [2, crc8 [2] ^^^ 1] = none := by decide +kernel

/-! ## States -/

/-- An item offered in every day-part, with one variant at 649. -/
def item : Item := ⟨15, [], none, [⟨649, .available, none⟩]⟩

/-- A panel of the default grid. -/
def descriptor : Descriptor := ⟨⟨16, 9⟩, 20, 0⟩

/-- A slate frame. -/
def frame : Frame := ⟨⟨.slate, 0xDEADBEEF, 5⟩, ⟨16, 9, []⟩⟩

/-- A frame composed for the target after reset. -/
def composed : Frame := ⟨⟨.composed Target.reset 0 none, 0xDEADBEEF, 6⟩, ⟨16, 9, []⟩⟩

/-- Link 5 in a state, without dark causes, showing the slate. -/
def linkIn (v : LinkState) : Link :=
  { Link.reset true with state := v, descriptor := some descriptor, causes := ⟨false, false⟩, showing := some frame }

/-- The machine after reset with link 5 in a state. -/
def withLink (v : LinkState) : State := State.reset.setLink 5 (linkIn v)

/-- The store open in day-part 1 with a catalogue of item 511, the lease LIVE, and hold 7 with one line on lane 1. -/
def serving : State :=
  { State.reset with
    catalogue := { Catalogue.reset with items := [(511, item)], generation := 60, lease := .live }
    clock := { StoreClock.reset [⟨86399, 0x7F, .opened 2⟩] with
      time := 86398, day := 6, valid := true, override := some (.opened 1), lastOpen := 1 }
    timers := (State.reset.startTimer (.holdLease 1 7) 3).timers
    lanes := ⟨Lane.reset, ⟨[(7, ⟨9999, [⟨511, 0, 98, 649, 60, false⟩], 63602⟩)], some 7, 65535, []⟩⟩ }

/-- A composition of panel 5 for the target after reset. -/
def composition : Composition := ⟨5, 1, Target.reset, 0, none, false, 0, false, [], ⟨16, 9, []⟩⟩

/-- A block range of two blocks at the end of the DRAM. -/
def lastBlocks : BlockRange := ⟨6142, 2, by decide⟩

/-- Every block before it. -/
def frontBlocks : BlockRange := ⟨0, 6142, by decide⟩

/-- Slot 191 on it, in a state. -/
def slotIn (v : SlotState) (pins : Nat) : Slot := ⟨v, lastBlocks, 16, 9, 0, pins⟩

/-- The machine after reset with slot 191 in a state. -/
def withSlot (v : SlotState) (pins : Nat) : State :=
  State.reset.setPhoto { PhotoMemory.reset with slots := [(191, slotIn v pins)], free := [frontBlocks] }

/-- Slot 191 on the last two blocks and the rest free: every block is accounted for. -/
theorem accounted_of_191 {s : State} (v : SlotState) (pins : Nat) (hf : s.photo.free = [frontBlocks])
    (hs : s.photo.slots = [(191, slotIn v pins)]) : BlocksAccounted s := by
  have find : ∀ k r, Table.find k s.photo.slots = some r → k = 191 ∧ r = slotIn v pins := by
    intro k r h
    have := Table.mem_of_find h
    rw [hs, List.mem_singleton] at this
    exact ⟨congrArg Prod.fst this, congrArg Prod.snd this⟩
  refine ⟨by rw [hf]; exact ⟨List.pairwise_singleton _ _, by decide⟩, fun b hb => ?_, fun j k q r b hj hk _ _ =>
    (find j q hj).1.trans (find k r hk).1.symm⟩
  rw [hf]
  refine ⟨fun ⟨e, he, h⟩ k r hk hr => ?_, fun h => ⟨frontBlocks, List.mem_singleton_self _, Nat.zero_le b, ?_⟩⟩
  · rw [List.mem_singleton.1 he] at h
    rw [(find k r hk).2] at hr
    exact absurd (Nat.lt_of_lt_of_le h.2 hr.1) (Nat.lt_irrefl _)
  · have := h 191 (slotIn v pins) (by rw [hs]; rfl)
    have hlt : ¬ 6142 ≤ b := fun g => this ⟨g, hb⟩
    show b < 0 + 6142
    omega

/-- A changeover in flight with panel 5 a member. -/
def changing (c : Controller) (v : Progress) : State :=
  (withLink .locked).setChangeover { Changeover.reset with controller := c, members := noMembers.set 5 (some v) }

/-- The machine after reset with a freeze in force. -/
def frozen (m : FreezeMode) (r : WritingRole) : State :=
  (State.reset.setFreeze ⟨.frozen m r, true, none⟩).startTimer .freezeLimit 600000

theorem takes_frozen (m : FreezeMode) (r : WritingRole) (p : PortId) : (frozen m r).Takes p := by
  rcases p with _ | _ | l
  · exact ⟨rfl, rfl, rfl, rfl⟩
  · exact ⟨rfl, rfl, rfl, rfl⟩
  · match l with
    | 0 => exact ⟨rfl, rfl, rfl, rfl⟩
    | 1 => exact ⟨rfl, rfl, rfl, rfl⟩

theorem takes_reset (p : PortId) : State.reset.Takes p := by
  rcases p with _ | _ | l
  · exact ⟨rfl, rfl, rfl, rfl⟩
  · exact ⟨rfl, rfl, rfl, rfl⟩
  · match l with
    | 0 => exact ⟨rfl, rfl, rfl, rfl⟩
    | 1 => exact ⟨rfl, rfl, rfl, rfl⟩

/-! ## Worked steps -/

/-- Worked example 7.8, step 5: more of a line already quoted comes at the line's own price, and the focus raises the
revision, here over its wrap. -/
theorem test_hold_add_at_snapshot_price :
    (match exec (.holdAdd (.lane 1) 9 [7, 1, 255, 0, 1]) serving with
      | .next t => decide (t.lane 1 = ⟨[(7, ⟨9999, [⟨511, 0, 99, 649, 60, false⟩], 64251⟩)], some 7, 0, []⟩) &&
          decide ((t.port (.lane 1)).state =
            .answer (okTo .holdAdd 9 ([99] ++ be 3 649 ++ [0] ++ be 3 64251 ++ be 2 0)))
      | _ => false) = true := by decide +kernel

/-- The same line takes no second unit: its quantity would be 100. -/
theorem test_hold_add_over_99_is_refused :
    (match exec (.holdAdd (.lane 1) 9 [7, 1, 255, 0, 2]) serving with
      | .next t => decide (t.lanes = serving.lanes) &&
          decide ((t.port (.lane 1)).state = .answer (refusalOf .holdAdd 9 .badField [98]))
      | _ => false) = true := by decide +kernel

/-- The tick to the last second of day 6 fires the entry due then: the override is cleared, and the store moves to
day-part 2. -/
theorem test_tick_fires_entry :
    (match exec .secondTimerTick serving with
      | .next t => decide (t.clock.time = 86399) && decide (t.clock.storeState = .opened 2) &&
          decide (t.clock.lastOpen = 2) && decide (t.clock.override = none) && decide (t.changeover.current.dayPart = 2)
      | _ => false) = true := by decide +kernel

/-- Worked example 10.9: a request to a port that holds an answer is lost. -/
theorem test_request_in_answer_is_lost :
    (match exec (.describe .store 1 []) State.reset with
      | .next t =>
        match exec (.leaseRenew .store 10 []) t with
        | .next u => decide ((u.port .store).state = (t.port .store).state) && decide ((u.port .store).flags = 3)
        | _ => false
      | _ => false) = true := by decide +kernel

/-- The commit after a reset: generation 1, and the expired lease renewed in the same change (R16, R21). -/
theorem test_first_store_commit :
    (match exec (.batchCommit .store 3 []) (State.reset.setCatalogue
        (State.reset.catalogue.setBatch .store (some [.itemDefine 511 1 15, .setPrice 511 0 649]))) with
      | .next t => decide (t.catalogue = ⟨[(511, ⟨15, [], none, [⟨649, .soldOut, none⟩]⟩)], 1, none, none, .live⟩) &&
          decide (t.changeover.settled = ⟨1, 0, .shown⟩) && decide (t.timeLeft .priceLease = some 60000) &&
          decide ((t.port .store).state = .answer (okTo .batchCommit 3 [0, 0, 0, 1, 1]))
      | _ => false) = true := by decide +kernel

/-- Worked example 8.8, step 1: day 3, 00:05, after a pin reset with the week's schedule; the late menu is on. -/
theorem test_clock_set_opens_late_menu :
    (match exec (.clockSet .store 4 [0, 1, 0x2C, 3]) (State.reset.setClock (StoreClock.reset
        [⟨3600, 0x3E, .closed⟩, ⟨21600, 0x7F, .opened 0⟩, ⟨37800, 0x7F, .opened 1⟩, ⟨57600, 0x7F, .opened 2⟩,
          ⟨79200, 0x1F, .opened 3⟩, ⟨82800, 0x60, .closed⟩])) with
      | .next t => decide (t.clock.storeState = .opened 3) && decide (t.changeover.settled.dayPart = 3) &&
          decide (t.links.get 5 = { Link.reset true with causes := ⟨false, false⟩ }) &&
          decide ((t.port .store).state = .answer (okTo .clockSet 4 [3]))
      | _ => false) = true := by decide +kernel

/-- A panel that announces itself while the store is CLOSED goes DARK (R95). -/
theorem test_present_while_closed_goes_dark :
    (match exec (.present 5 16 9 20 0) State.reset with
      | .next t => decide ((t.link 5).state = .dark) && decide ((t.link 5).good = 1) &&
          decide (t.timeLeft (.detach 5) = some 2000)
      | _ => false) = true := by decide +kernel

/-- LOAD_BEGIN on a new machine takes the first 320 blocks (R121, R123). -/
theorem test_load_begin_takes_first_blocks :
    (match exec (.loadBegin .media 5 [191, 1, 64, 16, 9, 0, 0, 0, 0]) State.reset with
      | .next t => decide (t.photo.free.map (fun r => (r.start, r.count)) = [(320, 5824)]) &&
          decide ((t.port .media).state = .answer (okTo .loadBegin 5 [0, 0, 1, 64]))
      | _ => false) = true := by decide +kernel

/-- The prices of R55 with two decimals and the currency glyph before; with the glyph after and no decimals, 0. -/
theorem test_price_format (s : State) (_ : s = { State.reset with inForce := [(15, [2]), (16, [36, 0])] }) :
    s.priceGlyphs 649 = [36, 54, 46, 52, 57] ∧ s.priceGlyphs 5 = [36, 48, 46, 48, 53] ∧
    s.priceGlyphs 999999 = [36, 57, 57, 57, 57, 46, 57, 57] ∧
    ({ State.reset with inForce := [(15, [0]), (16, [36, 1])] } : State).priceGlyphs 0 = [48, 36] := by
  subst s; decide +kernel

/-- A text of four glyphs in a rectangle of one cell: three of them are drawn, over the second cell of the row (R56). -/
theorem test_text_is_cut :
    (State.reset.paint composition ⟨⟨1, 0, 1, 1⟩, .text 3 [65, 66, 67, 68]⟩ (filledPicture ⟨2, 1⟩ 0)).cells =
      [⟨.colour 0, none, none, none⟩, ⟨.colour 0, some ⟨65, 3⟩, some ⟨66, 3⟩, some ⟨67, 3⟩⟩] := by decide +kernel

/-- An ORDER row of three cells, for 2 of an item labelled 65, 66 at 7 in whole units: quantity, gap glyph, label, one free
position, and the price with its currency glyph on the right; a row of two cells cuts the label to one glyph (R58). -/
theorem test_order_row (s : State) (_ : s = { State.reset with
      inForce := [(15, [0]), (16, [36, 0])]
      catalogue := { Catalogue.reset with items := [(511, { item with label := [65, 66] })] } }) :
    (s.drawOrderRow ⟨0, 0, 3, 1⟩ 0 ⟨511, 0, 2, 7, 1, false⟩ 1 (filledPicture ⟨3, 1⟩ 0)).cells =
      [⟨.colour 0, some ⟨50, 1⟩, some ⟨32, 1⟩, some ⟨65, 1⟩⟩, ⟨.colour 0, some ⟨66, 1⟩, none, none⟩,
        ⟨.colour 0, none, some ⟨36, 1⟩, some ⟨55, 1⟩⟩] ∧
    (s.drawOrderRow ⟨0, 0, 2, 1⟩ 0 ⟨511, 0, 2, 7, 1, false⟩ 1 (filledPicture ⟨2, 1⟩ 0)).cells =
      [⟨.colour 0, some ⟨50, 1⟩, some ⟨32, 1⟩, some ⟨65, 1⟩⟩, ⟨.colour 0, none, some ⟨36, 1⟩, some ⟨55, 1⟩⟩] := by
  subst s; decide +kernel

/-- The store closes on link 5, live and the one member of a changeover, link 4 in TEST and link 3 in TRAINING: each goes
DARK, the Composer loses panel 5, the test is ABORTED, and the changeover settles DONE (R109, R116, R82, R83). -/
theorem test_closing_takes_links_dark :
    (match exec (.daypartForce .store 3 [4]) { serving with
        links := (changing (.armed ⟨60, 1, .shown⟩) .flipped).links.set 4 { linkIn .test with
          test := some ⟨.latched, 2, 0, 0, 0, false, .running⟩ } |>.set 3 (linkIn .training)
        changeover := (changing (.armed ⟨60, 1, .shown⟩) .flipped).changeover
        composer := ⟨[⟨5, 1⟩], some { composition with panel := 5 }, Composer.reset.last⟩ } with
      | .next t => decide ((t.link 5).state = .dark) && decide ((t.link 4).state = .dark) &&
          decide ((t.link 3).state = .dark) && decide ((t.link 4).test.map TestRecord.result = some .aborted) &&
          decide (t.composer.queue = []) && decide (t.composer.engine.map Composition.lost = some true) &&
          decide (t.changeover.controller = .idle) && decide (t.changeover.settled = ⟨60, 1, .shown⟩)
      | _ => false) = true := by decide +kernel

/-- A power-on while the RESET line is low: held as a power-on, and START_UP ends it (R209, log 24). -/
theorem test_power_on_is_held_by_the_line :
    (match exec .powerOn { State.reset with phase := .resetLow .pin } with
      | .next t => decide (t.phase = .resetLow .power) && t.ownEvent.isNone &&
          decide ((t.port .store).state = .working)
      | _ => false) = true := by decide +kernel

/-! ## Hypotheses met: for each statement with hypotheses a state that meets them, each clause on its own line -/

theorem test_witness_StepRunsFrontCommandOrOwnEvent :
    (State.reset.pending = [] ∧ State.reset.ownEvent = none) ∧
    (({ State.reset with phase := .starting .pin } : State).pending = [] ∧
      ({ State.reset with phase := .starting .pin } : State).ownEvent = some .startUp) ∧
    ((State.reset.setComposer ⟨[], some composition, Composer.reset.last⟩).composer.engine = some composition ∧
      composition.todo = [] ∧ { composition with todo := [⟨⟨0, 0, 1, 1⟩, .fill 0⟩] }.todo = ⟨⟨0, 0, 1, 1⟩, .fill 0⟩ :: []) := by
  decide +kernel

/-- The machine after reset with the media batch OPEN and holding these entries. -/
def withBatch (entries : List BatchEntry) : State :=
  State.reset.setCatalogue (State.reset.catalogue.setBatch .media (some entries))

theorem takes_withBatch (entries : List BatchEntry) : (withBatch entries).Takes .media := ⟨rfl, rfl, rfl, rfl⟩

theorem test_witness_BatchOpenOpensClosedSlotOrRefuses :
    (State.reset.Takes (portOfRole .store) ∧ State.reset.catalogue.batch .store = none) ∧
    ((withBatch []).Takes (portOfRole .media) ∧ (withBatch []).catalogue.batch .media = some []) :=
  ⟨⟨takes_reset _, rfl⟩, takes_withBatch _, rfl⟩

/-- A CLOSED slot; an entry cut off; a slot just out of range; a kind of the other role behind a good entry; a byte after
the last entry; a count of 9; one entry into an empty batch; one more entry into a full batch. -/
theorem test_witness_BatchAddAppendsOrRefuses (good : BatchEntry) (_ : good = .setPhoto 511 (some 191)) :
    (State.reset.Takes (portOfRole .media) ∧ State.reset.catalogue.batch .media = none) ∧
    ((withBatch []).Takes (portOfRole .media) ∧ (withBatch []).catalogue.batch .media = some []) ∧
    (Payload.BatchFault .media [1, 9, 1] 0 ∧ Payload.BatchFault .media [1, 9, 1, 255, 192] 0 ∧
      Payload.BatchFault .media [2, 9, 1, 255, 191, 7] 1 ∧ Payload.BatchFault .media [1, 9, 1, 255, 191, 0] 0 ∧
      Payload.BatchFault .media [9] 0) ∧
    Payload.EntriesAre .media [1, 9, 1, 255, 191] [good] ∧
    ((withBatch (List.replicate 64 (.setPhoto 0 none))).Takes (portOfRole .media) ∧
      (withBatch (List.replicate 64 (.setPhoto 0 none))).catalogue.batch .media =
        some (List.replicate 64 (.setPhoto 0 none)) ∧
      64 < (List.replicate 64 (BatchEntry.setPhoto 0 none)).length + [good].length) := by
  have inRange : ∀ e ∈ [good], Payload.EntryInRange .media e := fun e h => by
    rw [List.mem_singleton.1 h]; subst good; exact ⟨rfl, by decide, by decide⟩
  refine ⟨⟨takes_reset _, rfl⟩, ⟨takes_withBatch _, rfl⟩, ⟨⟨1, _, rfl, Or.inr ⟨by decide, by decide, [], [9, 1], nofun, rfl,
      Or.inr (Or.inl ⟨by decide, Or.inr ⟨9, [], [], [1], 2, _, Or.inr rfl, rfl, rfl, rfl, by decide⟩, rfl⟩)⟩⟩,
    ⟨1, _, rfl, Or.inr ⟨by decide, by decide, [], [9, 1, 255, 192], nofun, rfl, Or.inr (Or.inr ⟨by decide, Or.inr
      ⟨9, [511], [1, 255], [192], 1, _, Or.inr rfl, rfl, ⟨2, _, [], rfl, by decide, rfl, rfl, rfl⟩, rfl, by decide, by decide⟩,
      rfl⟩)⟩⟩,
    ⟨2, _, rfl, Or.inr ⟨by decide, by decide, [good], [7], inRange, by subst good; rfl, Or.inr (Or.inr ⟨Nat.lt_succ_self 1,
      Or.inl ⟨7, [], rfl, fun h => h.elim (by decide) (by decide)⟩, rfl⟩)⟩⟩,
    ⟨1, _, rfl, Or.inr ⟨by decide, by decide, [good], [0], inRange, by subst good; rfl, Or.inl ⟨rfl, by decide, rfl⟩⟩⟩,
    ⟨9, [], rfl, Or.inl ⟨Or.inr (by decide), rfl⟩⟩⟩, ⟨Nat.le_refl 1, Nat.le_add_left 1 7, inRange, by subst good; rfl⟩,
    takes_withBatch _, rfl, by simp⟩

theorem test_witness_BatchDiscardClosesOrRefuses :
    ((withBatch []).Takes (portOfRole .media) ∧ (withBatch []).catalogue.batch .media = some []) ∧
    (State.reset.Takes (portOfRole .media) ∧ State.reset.catalogue.batch .media = none) :=
  ⟨⟨takes_withBatch _, rfl⟩, takes_reset _, rfl⟩

/-- The machine after reset with an OPEN store batch of these entries, and a freeze in this state. -/
def withStoreBatch (entries : List BatchEntry) (f : FreezeState) : State :=
  (State.reset.setCatalogue (State.reset.catalogue.setBatch .store (some entries))).setFreeze ⟨f, false, none⟩

theorem takes_withStoreBatch (entries : List BatchEntry) (f : FreezeState) : (withStoreBatch entries f).Takes .store :=
  ⟨rfl, rfl, rfl, rfl⟩

/-- Entries that pass at the top of their ranges; a store commit under a freeze; an entry that fails at index 1. -/
theorem test_witness_BatchCommitInstallsBatchOrKeepsIt :
    ((withStoreBatch [.itemDefine 511 1 15, .setPrice 511 0 999999] .off).Takes (portOfRole .store) ∧
      (withStoreBatch [.itemDefine 511 1 15, .setPrice 511 0 999999] .off).freeze.state.inForce = false ∧
      (withStoreBatch [.itemDefine 511 1 15, .setPrice 511 0 999999] .off).validate 0 []
        [.itemDefine 511 1 15, .setPrice 511 0 999999] = .ok [(511, ⟨15, [], none, [⟨999999, .soldOut, none⟩]⟩)] ∧
      (withStoreBatch [.itemDefine 511 1 15, .setPrice 511 0 999999] .off).catalogue.lease = .expired ∧
      (withStoreBatch [.itemDefine 511 1 15, .setPrice 511 0 999999] .off).portFitted (.lane 1) = true) ∧
    ((withStoreBatch [] (.frozen .stopNow .media)).Takes (portOfRole .store) ∧
      (withStoreBatch [] (.frozen .stopNow .media)).catalogue.batch .store = some [] ∧
      (withStoreBatch [] (.frozen .stopNow .media)).freeze.state.inForce = true) ∧
    ((withStoreBatch [.itemDefine 511 1 15, .setPrice 511 1 5] .off).Takes (portOfRole .store) ∧
      (withStoreBatch [.itemDefine 511 1 15, .setPrice 511 1 5] .off).validate 0 []
        [.itemDefine 511 1 15, .setPrice 511 1 5] = .error (.noVariant, 1)) ∧
    (State.reset.Takes (portOfRole .store) ∧ State.reset.catalogue.batch .store = none) :=
  ⟨⟨takes_withStoreBatch _ _, rfl, rfl, rfl, rfl⟩, ⟨takes_withStoreBatch _ _, rfl, rfl⟩, ⟨takes_withStoreBatch _ _, rfl⟩,
    takes_reset _, rfl⟩

/-- Each reason of R13: at a present item, an absent one, the first variant past the count, a held item, and a slot that
is not READY; a retirement and a slot reference that pass. -/
theorem test_validation_reasons :
    serving.validate 0 [(511, item)] [.itemDefine 511 1 15] = .error (.itemExists, 0) ∧
    serving.validate 0 [] [.setLabel 511 []] = .error (.noItem, 0) ∧
    serving.validate 0 [(511, item)] [.clearPromo 511 0, .setAvail 511 1 .soldOut] = .error (.noVariant, 1) ∧
    serving.validate 0 [(511, item)] [.itemRetire 511] = .error (.held, 0) ∧
    serving.validate 0 [(511, item)] [.setPhoto 511 (some 191)] = .error (.slotState, 0) ∧
    State.reset.validate 0 [(511, item)] [.itemRetire 511] = .ok [] ∧
    (withSlot .ready 0).validate 0 [(511, item)] [.setPhoto 511 (some 191)] =
      .ok [(511, { item with photo := some 191 })] := ⟨rfl, rfl, rfl, rfl, rfl, rfl, rfl⟩

/-- The cases of a hand-off, of the target `u`: the current target; in flight to it, and to another with and without a
live panel; idle under a freeze; idle without one, to the settled target, and to another with and without a live
panel. -/
theorem test_witness_TargetHanded (u v : Target) (_ : u = ⟨1, 0, .shown⟩) (_ : v = ⟨2, 0, .shown⟩) :
    State.reset.changeover.current = Target.reset ∧
    ((changing (.staging u) .queued).changeover.controller.inFlight = some u ∧ u ≠ Target.reset ∧ v ≠ u ∧
      (changing (.staging u) .queued).live 5 = true) ∧
    ((State.reset.setChangeover { Changeover.reset with controller := .armed u }).changeover.controller.inFlight = some u ∧
      ∀ p, (State.reset.setChangeover { Changeover.reset with controller := .armed u }).live p = false) ∧
    ((frozen .stopNow .media).changeover.controller = .idle ∧ (frozen .stopNow .media).freeze.state.inForce = true) ∧
    ((State.reset.setChangeover { Changeover.reset with settled := u }).changeover.controller = .idle ∧
      (State.reset.setChangeover { Changeover.reset with settled := u }).changeover.settled = u ∧ u ≠ Target.reset) ∧
    ((withLink .locked).changeover.controller = .idle ∧ (withLink .locked).freeze.state.inForce = false ∧
      (withLink .locked).changeover.settled ≠ u ∧ (withLink .locked).live 5 = true) ∧
    (State.reset.changeover.settled ≠ u ∧ ∀ p, State.reset.live p = false) := by
  subst_vars; decide +kernel

/-- The same after the end of a freeze in force: nothing held back and nothing changed; a target held back, with and
without a live panel. -/
theorem test_witness_TargetHandedAfterFreeze (x y : State) (_ : x = frozen .stopNow .media)
    (_ : y = ((withLink .locked).setFreeze ⟨.frozen .stopNow .media, true, none⟩).setChangeover
      { Changeover.reset with current := ⟨1, 0, .shown⟩ }) :
    (x.freeze.state.inForce = true ∧ x.changeover.controller = .idle ∧ x.changeover.current = x.changeover.settled ∧
      ∀ p, x.live p = false) ∧
    (y.freeze.state.inForce = true ∧ y.changeover.controller = .idle ∧ y.changeover.current ≠ y.changeover.settled ∧
      y.live 5 = true) := by
  subst_vars; decide +kernel

theorem test_witness_LeaseRenewalAndExpiryMoveVisibility :
    (State.reset.Takes .store ∧ State.reset.catalogue.lease = .expired) ∧
    (State.reset.makeLive.Takes .store ∧ State.reset.makeLive.catalogue.lease = .live ∧
      State.reset.makeLive.timeLeft .priceLease = some 60000) :=
  ⟨⟨takes_reset _, rfl⟩, ⟨rfl, rfl, rfl, rfl⟩, rfl, by decide +kernel⟩

theorem test_witness_BatchIdleExpiryDiscardsBatch :
    (State.reset.startTimer (.batchIdle .media) 0).timeLeft (.batchIdle .media) = some 0 := by decide +kernel

/-- The machine after reset with one promotion of so many minutes left. -/
def withPromotion (minutes : Nat) : State :=
  State.reset.setCatalogue
    { Catalogue.reset with items := [(511, ⟨15, [], none, [⟨649, .available, some ⟨599, minutes⟩⟩]⟩)] }

/-- A countdown that stays above 0, one that reaches it, under a freeze too, one that stands at it and one above. -/
theorem test_witness_MinutesLowerAndEndPromotions :
    ((withPromotion 2).timeLeft .minute = some 60000 ∧ ¬ CountdownDue (withPromotion 2).catalogue.items 1) ∧
    ((withPromotion 1).timeLeft .minute = some 60000 ∧ CountdownDue (withPromotion 1).catalogue.items 1) ∧
    ((withPromotion 1).setFreeze ⟨.frozen .stopNow .media, false, none⟩).freeze.state.inForce = true ∧
    CountdownDue (withPromotion 0).catalogue.items 0 ∧ ¬ CountdownDue (withPromotion 1).catalogue.items 0 := by
  rw [← anyPromotionOver_lowered, ← anyPromotionOver_lowered, ← anyPromotionOver_iff, ← anyPromotionOver_iff]
  decide +kernel

theorem test_witness_CatalogueReadsGiveCommittedRecords : serving.Takes (.lane 1) ∧
    Table.find 511 serving.catalogue.items = some item ∧ item.variants[0]? = some ⟨649, .available, none⟩ :=
  ⟨⟨rfl, rfl, rfl, rfl⟩, rfl, rfl⟩

/-- A FILL placement that covers the grid of panel 5, and a PHOTO placement of a READY slot; a panel and a day-part just out
of range; a second placement of an unknown kind, one cut off, and a byte too many; a link that is not fitted; behind a good
placement, a width of 17, a rectangle past the grid, and a slot that is EMPTY. -/
theorem test_witness_PlanRequestsReplacePlan (good : Placement) (_ : good = ⟨⟨0, 0, 16, 9⟩, .fill 15⟩) :
    (State.reset.Takes .media ∧ State.reset.linkFitted 5 = true ∧ Payload.PlacementPasses State.reset 5 good ∧
      Payload.PlacementPasses (withSlot .ready 0) 5 ⟨⟨0, 0, 16, 9⟩, .photo 191⟩) ∧
    (5 < (6 : Byte).toNat ∧ 3 < (4 : Byte).toNat ∧ 48 < (49 : Byte).toNat ∧ (5 : Byte).toNat = (5 : PanelNo).val) ∧
    (Payload.PlanFault 2 [0, 0, 16, 9, 1, 15, 0, 0, 1, 1, 9] 1 ∧ Payload.PlanFault 1 [0, 0, 16, 9, 1] 0 ∧
      Payload.PlanFault 1 [0, 0, 16, 9, 1, 15, 0] 0) ∧
    Payload.PlacementsWhole 1 [0, 0, 16, 9, 1, 15] ([good].map Payload.placement) ∧
    ({ State.reset with inForce := [(1, [5])] } : State).linkFitted 5 = false ∧
    (Payload.PlacementRefused State.reset 5 [0, 0, 17, 9, 1, 15] .badField ∧
      Payload.PlacementRefused State.reset 5 [1, 0, 16, 9, 1, 15] .badField ∧
      Payload.PlacementRefused State.reset 5 [0, 0, 16, 9, 2, 191] .slotState) := by
  have whole : Payload.WholePlacement [0, 0, 16, 9, 1, 15] :=
    ⟨0, 0, 16, 9, 1, [15], rfl, Or.inl ⟨Or.inl rfl, rfl⟩⟩
  have rect : ∀ {pl : Placement} {a b c d : Byte} {rest : List Byte}, Payload.PlacementInRange pl →
      Payload.placement pl = a :: b :: c :: d :: rest → pl.rect = ⟨a.toNat, b.toNat, c.toNat, d.toNat⟩ := by
    intro pl a b c d rest hr he
    obtain ⟨h1, h2, h3, h4, h5, h6, _⟩ := hr
    rw [placement_eq] at he
    simp only [List.cons.injEq] at he
    obtain ⟨e1, e2, e3, e4, _⟩ := he
    rw [← e1, ← e2, ← e3, ← e4]
    simp only [BitVec.toNat_ofNat]
    rw [Nat.mod_eq_of_lt (by omega), Nat.mod_eq_of_lt (by omega), Nat.mod_eq_of_lt (by omega), Nat.mod_eq_of_lt (by omega)]
  refine ⟨⟨takes_reset _, by decide, ?_, ?_⟩, by decide, ⟨?_, ?_, ?_⟩, ?_, by decide, ?_, ?_, ?_⟩
  · subst good; exact ⟨⟨by decide, by decide, by decide, by decide, by decide, by decide, trivial⟩, by decide +kernel, nofun⟩
  · exact ⟨⟨by decide, by decide, by decide, by decide, by decide, by decide, (by decide : 191 ≤ 191)⟩, by decide +kernel,
      fun slot h => by cases h; exact ⟨_, rfl, rfl⟩⟩
  · exact ⟨[[0, 0, 16, 9, 1, 15]], _, fun w h => by rw [List.mem_singleton.1 h]; exact whole, rfl,
      Or.inr (Or.inr ⟨by decide, rfl, 0, 0, 1, 1, 9, [], rfl, Or.inr (by decide)⟩)⟩
  · exact ⟨[], _, nofun, rfl, Or.inr (Or.inl ⟨by decide, ⟨[15], by decide, whole⟩, rfl⟩)⟩
  · exact ⟨[[0, 0, 16, 9, 1, 15]], [0], fun w h => by rw [List.mem_singleton.1 h]; exact whole, rfl,
      Or.inl ⟨rfl, by decide, rfl⟩⟩
  · subst good
    exact ⟨rfl, fun w h => by rw [List.mem_singleton.1 h]; exact whole, rfl⟩
  · refine Or.inl ⟨fun pl hr he => ?_, rfl⟩
    have h4 := hr.2.2.2.1
    rw [rect hr he] at h4
    exact absurd h4 (by decide)
  · refine Or.inl ⟨fun pl hr he => ?_, rfl⟩
    unfold State.placementFits Rect.insideGrid
    rw [rect hr he]
    rfl
  · exact Or.inr ⟨⟨⟨0, 0, 16, 9⟩, .photo 191⟩, 191, ⟨by decide, by decide, by decide, by decide, by decide, by decide,
      (by decide : 191 ≤ 191)⟩, rfl, by decide +kernel, rfl, nofun, rfl⟩

/-- Link 5 streaming, with this queue and engine. -/
def composing (queue : List QueueEntry) (engine : Option Composition) : State :=
  (withLink .streaming).setComposer ⟨queue, engine, Composer.reset.last⟩

/-- The states of R46: not live; being composed; queued; neither. -/
theorem test_witness_ComposeRequestByPanelState :
    State.reset.live 5 = false ∧
    ((composing [] (some composition)).live 5 = true ∧
      (composing [] (some composition)).composer.engine = some composition ∧ composition.panel = 5) ∧
    ((composing [⟨5, 1⟩] none).live 5 = true ∧ (composing [⟨5, 1⟩] none).composing 5 = false ∧
      ∃ e ∈ (composing [⟨5, 1⟩] none).composer.queue, e.panel = 5) ∧
    ((composing [⟨4, 1⟩] none).live 5 = true ∧ (composing [⟨4, 1⟩] none).composing 5 = false ∧
      ∀ e ∈ (composing [⟨4, 1⟩] none).composer.queue, e.panel ≠ 5) := by decide +kernel

/-- A member; a panel that is none; no changeover. -/
theorem test_witness_ComposeTargetFollowsMembership :
    ((changing (.staging Target.reset) .queued).changeover.controller.inFlight = some Target.reset ∧
      ((changing (.staging Target.reset) .queued).changeover.members.get 5).isSome = true) ∧
    (changing (.staging Target.reset) .queued).changeover.members.get 4 = none ∧
    State.reset.changeover.controller.inFlight = none := by decide +kernel

/-- On a MENU panel and on a LANE0 panel. -/
theorem test_witness_CompositionStartCopiesAndBusies :
    ((composing [⟨5, 1⟩] none).composer.engine = none ∧ (composing [⟨5, 1⟩] none).freeze.state = .off ∧
      (composing [⟨5, 1⟩] none).composer.queue.find? (fun x => (composing [⟨5, 1⟩] none).startCheck x.panel) =
        some ⟨5, 1⟩ ∧ (composing [⟨5, 1⟩] none).role 5 = .menu) ∧
    ({ composing [⟨5, 1⟩] none with inForce := [(7, [1])] } : State).role 5 = .lane 0 := by decide +kernel

/-- A changeover in flight with panel 5 a QUEUED member whose composition is about to end. -/
def composingMember : State := (changing (.staging Target.reset) .queued).setComposer ⟨[], some composition, Composer.reset.last⟩

/-- Panels 4 and 5 wait, panel 5 a member of a changeover to the committed generation and panel 4 not, as the composition of
panel 3 ends with its again mark set. -/
def closing : State :=
  { (changing (.staging ⟨1, 0, .withheld⟩) .queued).setLink 3 (linkIn .locked) with
    catalogue := { Catalogue.reset with generation := 1 }
    composer := ⟨[⟨4, 1⟩, ⟨5, 2⟩], some { composition with panel := 3, again := true, againReasons := 8 }, Composer.reset.last⟩ }

/-- A composition that will be staged; one that has lost its panel; one that ends under a FREEZING freeze; one that moves a
QUEUED member on, alone in its set; one whose panel joins the queue again, in which the second panel passes the start check
and the first does not; with that one gone, none passes. -/
theorem test_witness_CompositionCompleteStagesOrDiscards :
    ((composing [] (some composition)).composer.engine = some composition ∧
      (composing [] (some composition)).judge composition = .staged) ∧
    (composing [] (some composition)).judge { composition with lost := true } = .discardedLink ∧
    (((composing [] (some composition)).setFreeze ⟨.freezing .stopAfter .media, false, none⟩).freeze.state =
        .freezing .stopAfter .media ∧
      ((composing [] (some composition)).setFreeze ⟨.freezing .stopAfter .media, false, none⟩).composer.engine =
        some composition) ∧
    (composingMember.composer.engine = some composition ∧ composingMember.judge composition = .staged ∧
      composingMember.changeover.controller.inFlight = some Target.reset ∧
      composingMember.changeover.members.get 5 = some .queued) ∧
    (closing.live 3 = true ∧ closing.freeze.state.inForce = false ∧
      (match exec .compositionComplete closing with
        | .next t => !t.startCheck 4 && t.startCheck 5 && !t.startCheck 3 &&
            decide (t.composer.queue = [⟨4, 1⟩, ⟨3, 8⟩]) && decide (t.composer.engine.map Composition.panel = some 5)
        | _ => false) = true) ∧
    (match exec .compositionComplete (closing.setComposer { closing.composer with queue := [⟨4, 1⟩] }) with
      | .next t => !t.startCheck 4 && !t.startCheck 3 && decide (t.composer.queue = [⟨4, 1⟩, ⟨3, 8⟩])
      | _ => false) = true := by decide +kernel

theorem test_witness_ChangeoverStartQueuesLivePanels : (withLink .locked).anyLive = true ∧ State.reset.anyLive = false := by
  decide +kernel

/-- In STAGING and in ARMED, with panel 5 QUEUED and panel 4 no member. -/
theorem test_witness_ChangeoverLimitSettlesPartial :
    (((changing (.staging Target.reset) .queued).startTimer .changeoverLimit 2000).timeLeft .changeoverLimit =
        some 2000 ∧
      (changing (.staging Target.reset) .queued).changeover.controller.inFlight = some Target.reset ∧
      (changing (.staging Target.reset) .queued).changeover.members.get 5 = some .queued ∧
      (changing (.staging Target.reset) .queued).changeover.members.get 4 ≠ some .queued) ∧
    (((changing (.armed Target.reset) .flipped).startTimer .changeoverLimit 0).timeLeft .changeoverLimit = some 0 ∧
      (changing (.armed Target.reset) .flipped).changeover.controller.inFlight = some Target.reset) := by decide +kernel

/-- Link 5 locked with its frame period running and this frame staged. -/
def staging (f : Option Frame) : State :=
  (State.reset.setLink 5 { linkIn .locked with staged := f }).startTimer (.framePeriod 5) 20

/-- A frame for another target. -/
def otherFrame : Frame := ⟨⟨.composed ⟨1, 0, .shown⟩ 0 none, 0, 6⟩, ⟨16, 9, []⟩⟩

/-- The same with panel 5 a STAGED member of the changeover that the frame was composed for. -/
def stagingMember : State :=
  (staging (some composed)).setChangeover
    { Changeover.reset with controller := .armed Target.reset, members := noMembers.set 5 (some .staged) }

/-- A staged frame that passes the gate, one that does not, and none; one whose flip moves a member on; a link whose
training has begun. -/
theorem test_witness_FrameBoundaryFlipsThroughGate :
    ((staging (some composed)).timeLeft (.framePeriod 5) = some 20 ∧ (staging (some composed)).live 5 = true ∧
      ((staging (some composed)).link 5).descriptor = some descriptor ∧
      ((staging (some composed)).link 5).staged = some composed ∧
      (staging (some composed)).gatePasses composed.record.kind = true) ∧
    (((staging (some otherFrame)).link 5).staged = some otherFrame ∧ (staging (some otherFrame)).live 5 = true ∧
      (staging (some otherFrame)).gatePasses otherFrame.record.kind = false) ∧
    ((staging none).live 5 = true ∧ ((staging none).link 5).staged = none) ∧
    ((stagingMember.link 5).staged = some composed ∧ stagingMember.gatePasses composed.record.kind = true ∧
      stagingMember.changeover.controller.inFlight = some Target.reset ∧
      stagingMember.changeover.members.get 5 = some .staged ∧ composed.record.kind.carries Target.reset = true) ∧
    (((withLink .training).startTimer (.trainingLimit 5) 250).timeLeft (.trainingLimit 5) = some 250) := by decide +kernel

/-- A mode out of range; a freeze FREEZING and one FROZEN; a changeover in flight; the freeze OFF and the controller IDLE,
with the engine idle and with a composition. -/
theorem test_witness_FreezeTakesHold :
    (State.reset.Takes (portOfRole .media) ∧ 1 < (2 : Byte).toNat) ∧
    ((frozen .stopNow .media).Takes (portOfRole .store) ∧ (frozen .stopNow .media).freeze.state = .frozen .stopNow .media) ∧
    (((frozen .stopNow .media).setFreeze ⟨.freezing .stopAfter .store, false, none⟩).freeze.state =
      .freezing .stopAfter .store) ∧
    ((changing (.armed Target.reset) .staged).Takes (portOfRole .media) ∧
      (changing (.armed Target.reset) .staged).freeze.state = .off ∧
      (changing (.armed Target.reset) .staged).changeover.controller ≠ .idle) ∧
    (State.reset.freeze.state = .off ∧ State.reset.changeover.controller = .idle ∧ State.reset.composer.engine = none) ∧
    ((composing [⟨4, 1⟩] (some composition)).Takes (portOfRole .media) ∧
      (composing [⟨4, 1⟩] (some composition)).freeze.state = .off ∧
      (composing [⟨4, 1⟩] (some composition)).changeover.controller = .idle ∧
      (composing [⟨4, 1⟩] (some composition)).composer.engine = some composition) :=
  ⟨⟨takes_reset _, by decide⟩, ⟨takes_frozen _ _ _, rfl⟩, rfl, ⟨⟨rfl, rfl, rfl, rfl⟩, rfl, by decide⟩, ⟨rfl, rfl, rfl⟩,
    ⟨rfl, rfl, rfl, rfl⟩, rfl, rfl, rfl⟩

/-- STOP_NOW abandons the composition: its panel stands at the head of the queue with both sets of reasons (R63). -/
theorem test_stop_now_abandons :
    (match exec (.freeze .media 2 [0]) (composing [⟨4, 1⟩] (some { composition with again := true, againReasons := 2 })) with
      | .next t => decide (t.composer.queue = [⟨5, 3⟩, ⟨4, 1⟩]) && decide (t.composer.engine = none) &&
          decide ((t.composer.last.get 5).map LastComposition.outcome = some .abandoned)
      | _ => false) = true := by decide +kernel

/-- The lease's expiry abandons a composition that paints shown prices (R64), before the changeover it starts takes the
panel, queued with both reasons again, for a member (R46, R70). -/
theorem test_lease_expiry_abandons :
    (match exec .priceLeaseExpiry ((composing [] (some { composition with
        target := ⟨0, 0, .shown⟩ })).startTimer .priceLease 0 |>.setChangeover
          { Changeover.reset with current := ⟨0, 0, .shown⟩, settled := ⟨0, 0, .shown⟩ }) with
      | .next t => decide (t.composer.queue = [⟨5, 1 ||| Reason.set .changeover⟩]) && decide (t.composer.engine = none) &&
          decide ((t.composer.last.get 5).map LastComposition.outcome = some .abandoned) &&
          decide (t.changeover.members.get 5 = some .queued)
      | _ => false) = true := by decide +kernel

/-- The freeze OFF; lifted by its owner; lifted by the store port; the media port against the store's; the limit. -/
theorem test_witness_UnfreezeOrLimitEndsFreeze :
    (State.reset.Takes (portOfRole .media) ∧ State.reset.freeze.state.inForce = false) ∧
    ((frozen .stopNow .media).Takes (portOfRole .media) ∧
      (frozen .stopNow .media).freeze.state.holder = some (.stopNow, .media)) ∧
    ((frozen .stopAfter .store).Takes (portOfRole .store) ∧
      (frozen .stopAfter .store).freeze.state.holder = some (.stopAfter, .store)) ∧
    ((frozen .stopAfter .store).Takes (portOfRole .media) ∧
      (frozen .stopAfter .store).freeze.state.holder = some (.stopAfter, .store)) ∧
    ((frozen .stopNow .media).timeLeft .freezeLimit = some 600000 ∧
      (frozen .stopNow .media).freeze.state.inForce = true) :=
  ⟨⟨takes_reset _, rfl⟩, ⟨takes_frozen _ _ _, rfl⟩, ⟨takes_frozen _ _ _, rfl⟩, ⟨takes_frozen _ _ _, rfl⟩, rfl, rfl⟩

/-- At both ends of the ranges of R93, in DETACHED and on a live link; in each other state of R96 with both timers running, the
grid equal to the profile's and different. -/
theorem test_witness_PresentReportAnnouncesPanel :
    (State.reset.phase = .running ∧ (State.reset.link 5).state = .detached ∧ Report.presentInRange 4 2 10 = true) ∧
    ((withLink .streaming).phase = .running ∧ (withLink .streaming).live 5 = true ∧
      Report.presentInRange 16 9 50 = true) ∧
    (∀ v ∈ [LinkState.training, .rejected, .dark, .test], (withLink v).phase = .running ∧ ((withLink v).link 5).state = v ∧
      ((withLink v).startTimer (.detach 5) 7).timeLeft (.detach 5) = some 7 ∧
      (⟨(16 : Byte).toNat, (9 : Byte).toNat⟩ : Grid) = (withLink v).grid 5 ∧
      (⟨(4 : Byte).toNat, (2 : Byte).toNat⟩ : Grid) ≠ (withLink v).grid 5) := by decide +kernel

theorem test_witness_TrainingLocksOrRestarts :
    ((withLink .training).phase = .running ∧ ((withLink .training).link 5).state = .training ∧
      ((withLink .training).link 5).descriptor = some descriptor) ∧
    (withLink .training).changeover.controller = .idle ∧
    ((changing (.staging Target.reset) .queued).setLink 5 (linkIn .training)).changeover.controller ≠ .idle ∧
    (((withLink .training).startTimer (.trainingLimit 5) 250).timeLeft (.trainingLimit 5) = some 250 ∧
      (((withLink .training).startTimer (.trainingLimit 5) 250).link 5).state = .training) := by decide +kernel

theorem test_witness_LockLossReturnsLinkToTraining :
    ((withLink .locked).phase = .running ∧ (withLink .locked).live 5 = true) ∧
    (((withLink .streaming).startTimer (.lockSilence 5) 100).live 5 = true ∧
      ((withLink .streaming).startTimer (.lockSilence 5) 100).timeLeft (.lockSilence 5) = some 100) ∧
    (withLink .locked).changeover.members.get 5 = none ∧
    ((changing (.armed Target.reset) .flipped).phase = .running ∧ (changing (.armed Target.reset) .flipped).live 5 = true ∧
      (changing (.armed Target.reset) .flipped).changeover.controller.inFlight = some Target.reset ∧
      (changing (.armed Target.reset) .flipped).changeover.members.get 5 = some .flipped) := by decide +kernel

/-- A changeover whose one member shows the frame composed for it. -/
def flippedMember : State :=
  (changing (.armed Target.reset) .flipped).setLink 5 { linkIn .streaming with showing := some composed }

/-- A report that matches (sequence 5, checksum 0xDEADBEEF); any other checksum with sequence 5 is a mismatch. A member in
FLIPPED that is confirmed, its set then all CONFIRMED. -/
theorem test_witness_ShownReportConfirmsOrMarks : (withLink .locked).phase = .running ∧ (withLink .locked).live 5 = true ∧
    ((withLink .locked).link 5).showing = some frame ∧ frame.record.sequence = 5 ∧
    frame.record.checksum = 0xDEADBEEF ∧ ((withLink .locked).link 5).mismatchMark = false ∧
    (flippedMember.live 5 = true ∧ (flippedMember.link 5).showing = some composed ∧ (flippedMember.link 5).confirmed = none ∧
      flippedMember.changeover.controller.inFlight = some Target.reset ∧
      flippedMember.changeover.members.get 5 = some .flipped ∧ composed.record.kind.carries Target.reset = true) := by
  decide +kernel

/-- Link 5 in TEST with two seconds to run, so many of them gone. -/
def testing (seconds : Nat) : State :=
  (State.reset.setLink 5 { linkIn .test with test := some ⟨.latched, 2, seconds, 0, 65535, false, .running⟩ }).startTimer
    (.testSecond 5) 1000

theorem test_witness_TestReportsAndSecondsAreCounted : (testing 0).phase = .running ∧ ((testing 0).link 5).state = .test ∧
    ((testing 0).link 5).test = some ⟨.latched, 2, 0, 0, 65535, false, .running⟩ ∧
    (testing 0).timeLeft (.testSecond 5) = some 1000 ∧ 0 + 1 < 2 := by decide +kernel

theorem test_witness_FaultAndBadReportsAreCounted : State.reset.phase = .running ∧ (State.reset.link 5).state ≠ .off ∧
    Report.stream [2, crc8 [2] ^^^ 1] = [none] ∧ Report.read [2, crc8 [2]] = some .locked ∧ Report.length 9 = none ∧
    Report.length 1 = some 7 ∧ [16, 9, 20, 0, 0].length + 1 < 7 := by decide +kernel

/-- On a DARK link, a live one, one in TEST and one in TRAINING. -/
theorem test_witness_DetachForgetsPanel : ∀ v ∈ [LinkState.dark, .locked, .test, .training],
    ((withLink v).startTimer (.detach 5) 2000).timeLeft (.detach 5) = some 2000 ∧
    (((withLink v).startTimer (.detach 5) 2000).link 5).state ≠ .off ∧
    (((withLink v).startTimer (.detach 5) 2000).link 5).state ≠ .detached := by decide +kernel

/-- Link 5 DARK for this set of causes. -/
def dark (causes : DarkSet) : State := State.reset.setLink 5 { linkIn .dark with causes := causes }

/-- A panel just out of range and one whose link is OFF; the first cause on a live link, in TRAINING and in TEST; a further
cause; the last cause leaves a DARK link. -/
theorem test_witness_PanelDarkAndLightMoveRequestCause :
    (5 < (6 : Byte).toNat ∧ panel? 5 = some 5 ∧ (State.reset.setLink 5 (Link.reset false)).Takes .store ∧
      ((State.reset.setLink 5 (Link.reset false)).link 5).state = .off) ∧
    ((withLink .streaming).Takes .store ∧ ((withLink .streaming).link 5).state ≠ .off ∧
      ((withLink .streaming).link 5).causes = ⟨false, false⟩ ∧ (withLink .streaming).live 5 = true ∧
      leavesForDark (withLink .streaming) 5 = true) ∧
    (((withLink .training).link 5).causes = ⟨false, false⟩ ∧ leavesForDark (withLink .training) 5 = false ∧
      ((testing 0).link 5).causes = ⟨false, false⟩ ∧ ((testing 0).link 5).state = .test) ∧
    ((dark ⟨false, true⟩).Takes .store ∧ ((dark ⟨false, true⟩).link 5).causes.isEmpty = false) ∧
    ((dark ⟨true, false⟩).Takes .store ∧ ((dark ⟨true, false⟩).link 5).state = .dark ∧
      ((dark ⟨true, false⟩).link 5).causes = ⟨true, false⟩) :=
  ⟨⟨by decide, rfl, ⟨rfl, rfl, rfl, rfl⟩, rfl⟩, ⟨⟨rfl, rfl, rfl, rfl⟩, by decide, rfl, rfl, rfl⟩, ⟨rfl, rfl, rfl, rfl⟩,
    ⟨⟨rfl, rfl, rfl, rfl⟩, rfl⟩, ⟨rfl, rfl, rfl, rfl⟩, rfl, rfl⟩

/-- At the least and the greatest duration, and just past both; a panel and a mode just out of range; a link in TRAINING. -/
theorem test_witness_LinkTestTakesLinkOutOfService : ((withLink .locked).Takes .media ∧ panel? 5 = some 5 ∧
    testMode? 0 = some .latched ∧ testMode? 1 = some .live ∧ 1 ≤ 1 ∧ 600 ≤ 600 ∧ (withLink .locked).live 5 = true) ∧
    (5 < (6 : Byte).toNat ∧ 1 < (2 : Byte).toNat ∧ 0 < 1 ∧ 600 < 601) ∧
    ((withLink .training).Takes .media ∧ (withLink .training).live 5 = false) :=
  ⟨⟨⟨rfl, rfl, rfl, rfl⟩, rfl, rfl, rfl, by decide, by decide, rfl⟩, by decide, ⟨rfl, rfl, rfl, rfl⟩, rfl⟩

/-- By a stop, by the last second, by the expiry row; a panel just out of range, and a link that is in no test. -/
theorem test_witness_LinkTestEndsAndLinkTrains : ((testing 1).Takes .media ∧ ((testing 1).link 5).state = .test ∧
    ((testing 1).link 5).test = some ⟨.latched, 2, 1, 0, 65535, false, .running⟩ ∧
    (testing 1).timeLeft (.testSecond 5) = some 1000 ∧ panel? 5 = some 5 ∧ 2 = 1 + 1) ∧
    5 < (6 : Byte).toNat ∧ ((withLink .locked).Takes .media ∧ ((withLink .locked).link 5).state ≠ .test) :=
  ⟨⟨⟨rfl, rfl, rfl, rfl⟩, rfl, rfl, rfl, rfl, rfl⟩, by decide, ⟨rfl, rfl, rfl, rfl⟩, by decide⟩

/-- The machine after reset with one block free in front of the last two. -/
def twoRanges : State := State.reset.setPhoto { PhotoMemory.reset with free := [⟨0, 1, by decide⟩, lastBlocks] }

/-- A load session on slot 191, which has two blocks, that expects this index. -/
def loadingAt (index : Nat) : State :=
  (State.reset.setPhoto
    { PhotoMemory.reset with
      slots := [(191, slotIn .loading 0)], free := [frontBlocks], session := some ⟨191, index, index, 0⟩ }).startTimer
    .loadIdle 5000

/-- A slot and a count just out of range; an open session; a slot that is not EMPTY; three blocks where no range holds as many,
and one where nothing is free; two blocks fit the second range exactly; one block fits the first. -/
theorem test_witness_LoadBeginAllocatesFirstFit :
    (State.reset.Takes .media ∧ ¬ (192 ≤ 191) ∧ ¬ (321 ≤ 320)) ∧
    ((loadingAt 0).Takes .media ∧ (loadingAt 0).photo.session ≠ none) ∧
    ((withSlot .ready 0).Takes .media ∧ (withSlot .ready 0).photo.session = none ∧
      Table.find 191 (withSlot .ready 0).photo.slots ≠ none) ∧
    (twoRanges.photo.free = [⟨0, 1, by decide⟩] ++ lastBlocks :: [] ∧ (∀ e ∈ twoRanges.photo.free, e.count < 3) ∧
      ∀ x ∈ [(⟨0, 1, by decide⟩ : BlockRange)], x.count < lastBlocks.count) ∧
    ((State.reset.setPhoto { PhotoMemory.reset with free := [] }).Takes .media ∧
      (State.reset.setPhoto { PhotoMemory.reset with free := [] }).photo.free = []) ∧
    twoRanges.Takes .media ∧ twoRanges.photo.session = none ∧
    Table.find 191 twoRanges.photo.slots = none ∧ twoRanges.photo.free = [⟨0, 1, by decide⟩] ++ lastBlocks :: [] ∧
    (∀ x ∈ [(⟨0, 1, by decide⟩ : BlockRange)], x.count < 2) ∧ 2 ≤ lastBlocks.count ∧
    State.reset.photo.free = [] ++ (⟨0, 6144, by decide⟩ : BlockRange) :: [] ∧ 320 ≤ 6144 :=
  ⟨⟨takes_reset _, by decide, by decide⟩, ⟨⟨rfl, rfl, rfl, rfl⟩, by decide⟩, ⟨⟨rfl, rfl, rfl, rfl⟩, rfl, by decide⟩,
    ⟨rfl, by decide, by decide⟩, ⟨⟨rfl, rfl, rfl, rfl⟩, rfl⟩, ⟨rfl, rfl, rfl, rfl⟩, rfl, rfl, rfl, by decide, by decide, rfl,
    by decide⟩

/-- The first block of two, and the last. -/
theorem test_witness_LoadBlockStoresBlock :
    ((loadingAt 0).Takes .media ∧ (loadingAt 0).photo.openLoad = .ok (some (⟨191, 0, 0, 0⟩, slotIn .loading 0)) ∧
      0 + 1 < lastBlocks.count) ∧
    ((loadingAt 1).Takes .media ∧ (loadingAt 1).photo.openLoad = .ok (some (⟨191, 1, 1, 0⟩, slotIn .loading 0)) ∧
      1 + 1 = lastBlocks.count) ∧ (List.replicate 4096 (0 : Byte)).length = 4096 :=
  ⟨⟨⟨rfl, rfl, rfl, rfl⟩, rfl, by decide⟩, ⟨⟨rfl, rfl, rfl, rfl⟩, rfl, rfl⟩, List.length_replicate⟩

/-- A session on a slot that is EMPTY: a state no run reaches. -/
def broken : State := State.reset.setPhoto { PhotoMemory.reset with session := some ⟨0, 0, 0, 0⟩ }

/-- A broken session; none; an open one with an index past the range, out of order, and a block whose checksum fails. -/
theorem test_witness_LoadBlockRefusals : (broken.Takes .media ∧ ¬ SessionSound broken) ∧
    (State.reset.Takes .media ∧ State.reset.photo.session = none) ∧
    ((loadingAt 1).Takes .media ∧ (loadingAt 1).photo.openLoad = .ok (some (⟨191, 1, 1, 0⟩, slotIn .loading 0)) ∧
      (319 : Nat) < 320 ∧ (0 : Nat) ≠ 1 ∧ ∀ data : List Byte, crc32 data ≠ ~~~ (crc32 data)) := by
  refine ⟨⟨⟨rfl, rfl, rfl, rfl⟩, ?_⟩, ⟨takes_reset _, rfl⟩, ⟨rfl, rfl, rfl, rfl⟩, rfl, by decide, by decide, fun data h => ?_⟩
  · rintro ⟨x, hx⟩; cases hx
  · have := congrArg (fun x => x.getLsbD 0) h
    simp at this

theorem test_witness_LoadAbortAndTimeoutEmptySlot : (loadingAt 1).photo.session = some ⟨191, 1, 1, 0⟩ ∧
    Table.find 191 (loadingAt 1).photo.slots = some (slotIn .loading 0) ∧ (loadingAt 1).Takes .media ∧
    (loadingAt 1).timeLeft .loadIdle = some 5000 ∧ BlocksAccounted (loadingAt 1) ∧ 1 ≤ (slotIn .loading 0).range.count :=
  ⟨rfl, rfl, ⟨rfl, rfl, rfl, rfl⟩, rfl, accounted_of_191 .loading 0 rfl rfl, by decide⟩

theorem takes_withSlot (v : SlotState) (pins : Nat) : (withSlot v pins).Takes .media := ⟨rfl, rfl, rfl, rfl⟩

/-- A slot that goes, and each refusal of R130: EMPTY, LOADING, VERIFYING, pinned. -/
theorem test_witness_SlotEraseChecksInOrder :
    ((withSlot .ready 0).Takes .media ∧ Table.find 191 (withSlot .ready 0).photo.slots = some (slotIn .ready 0) ∧
      BlocksAccounted (withSlot .ready 0) ∧ 1 ≤ (slotIn .ready 0).range.count) ∧
    (State.reset.Takes .media ∧ Table.find 191 State.reset.photo.slots = none) ∧
    ((withSlot .loading 0).Takes .media ∧ Table.find 191 (withSlot .loading 0).photo.slots = some (slotIn .loading 0)) ∧
    ((withSlot .verifying 0).Takes .media ∧
      Table.find 191 (withSlot .verifying 0).photo.slots = some (slotIn .verifying 0)) ∧
    ((withSlot .ready 1).Takes .media ∧ Table.find 191 (withSlot .ready 1).photo.slots = some (slotIn .ready 1)) :=
  ⟨⟨takes_withSlot _ _, rfl, accounted_of_191 .ready 0 rfl rfl, by decide⟩, ⟨takes_reset _, rfl⟩,
    ⟨takes_withSlot _ _, rfl⟩, ⟨takes_withSlot _ _, rfl⟩, takes_withSlot _ _, rfl⟩

/-- Slot 191 UNVERIFIED and in the verify queue. -/
def waiting : State :=
  State.reset.setPhoto { PhotoMemory.reset with
    slots := [(191, slotIn .unverified 0)], free := [frontBlocks], verifyQueue := [191] }

/-- Slot 191 under verification. -/
def verifying : State :=
  State.reset.setPhoto
    { PhotoMemory.reset with
      slots := [(191, slotIn .verifying 0)], free := [frontBlocks], verifyQueue := [191], verifying := some 191 }

/-- Photo Memory with these slots, queue and engine is sound. -/
theorem photoSound_of_slots {slots : Table Slot} {free : List BlockRange} (queue : List Nat) (v : Option Nat) (hw : Table.Wf slots)
    (hc : ∀ e ∈ slots, 1 ≤ e.2.range.count) (hq : queue.Pairwise (fun a b => a < b))
    (hv : ∀ k, v = some k → ∃ r, Table.find k slots = some r ∧ r.state = .verifying) :
    PhotoSound (State.reset.setPhoto
      { PhotoMemory.reset with slots := slots, free := free, verifyQueue := queue, verifying := v }) :=
  ⟨⟨List.Pairwise.nil, nofun⟩, hw, hc, ⟨none, rfl⟩, hq, hv⟩

theorem photoSound_waiting : PhotoSound waiting :=
  photoSound_of_slots [191] none (by decide) (by decide) (by decide) nofun

theorem photoSound_verifying : PhotoSound verifying :=
  photoSound_of_slots [191] (some 191) (by decide) (by decide) (by decide) (fun k h => by cases h; exact ⟨_, rfl, rfl⟩)

/-- A slot to queue, one under verification, an EMPTY one and one in no slot's range; the lowest waiting slot; a busy engine
and an idle one with nothing waiting. -/
theorem test_witness_VerifyRequestsQueueAndEngineTakesLowest :
    ((withSlot .unverified 0).Takes .media ∧
      Table.find 191 (withSlot .unverified 0).photo.slots = some (slotIn .unverified 0)) ∧
    Table.find 191 (withSlot .verifying 0).photo.slots = some (slotIn .verifying 0) ∧
    Table.find 191 State.reset.photo.slots = none ∧ (191 : Nat) < 192 ∧
    (PhotoSound waiting ∧ waiting.photo.verifying = none ∧ 191 ∈ waiting.photo.verifyQueue ∧
      Table.find 191 waiting.photo.slots = some (slotIn .unverified 0) ∧ ∀ j ∈ waiting.photo.verifyQueue, ¬ j < 191) ∧
    (PhotoSound verifying ∧ verifying.photo.verifying ≠ none) ∧
    (PhotoSound State.reset ∧ State.reset.photo.verifyQueue = []) :=
  ⟨⟨takes_withSlot _ _, rfl⟩, rfl, rfl, by decide, ⟨photoSound_waiting, rfl, by decide, rfl, by decide⟩,
    ⟨photoSound_verifying, by decide⟩, photoSound_of_slots [] none (by decide) (by decide) (by decide) nofun, rfl⟩

/-- Slot 191 under verification, and the plan that panel 5, which alone is live, is composed from holds a PHOTO of it. -/
def used : State :=
  { verifying.setLink 5 (linkIn .locked) with
    plans := resetPlans.set 5 ((resetPlans.get 5).set 0 ⟨[⟨⟨0, 0, 16, 9⟩, .photo 191⟩], 1⟩) }

/-- The panels that use slot 191 there. -/
theorem test_witness_VerificationAsksUsers (p : PanelNo) : p ∈ [(5 : PanelNo)] ↔ UsesPhoto used 191 p := by
  have live : ∀ p : PanelNo, used.live p = decide (p = 5) := by decide +kernel
  refine ⟨fun h => ?_, fun h => List.mem_singleton.2 (of_decide_eq_true ((live p).symm.trans h.1))⟩
  rw [List.mem_singleton.1 h]
  exact ⟨rfl, ⟨⟨0, 0, 16, 9⟩, .photo 191⟩, by decide +kernel, Or.inl rfl⟩

/-- Alone, and with another slot waiting behind it. -/
theorem test_witness_VerificationJudgesSlot (x : State) (_ : x = verifying.setPhoto { verifying.photo with
      slots := [(190, slotIn .unverified 0), (191, slotIn .verifying 0)], verifyQueue := [190, 191] }) :
    (verifying.photo.verifying = some 191 ∧ Table.find 191 verifying.photo.slots = some (slotIn .verifying 0)) ∧
    (x.photo.verifying = some 191 ∧ Table.find 191 x.photo.slots = some (slotIn .verifying 0) ∧
      x.photo.verifyQueue.filter (fun j => j ≠ 191) = [190]) := by
  subst x; decide +kernel

theorem test_witness_SlotReadGivesRecord :
    (State.reset.Takes (.lane 1) ∧ Table.find 191 State.reset.photo.slots = none) ∧
    ((withSlot .ready 1).Takes .media ∧ Table.find 191 (withSlot .ready 1).photo.slots = some (slotIn .ready 1)) :=
  ⟨⟨takes_reset _, rfl⟩, takes_withSlot _ _, rfl⟩

/-- Serving, with every hold id of lane 1 taken, by orders 1 to 8. -/
def full : State := serving.setLane 1 ⟨(List.range 8).map fun n => (n, ⟨n + 1, [], 0⟩), none, 0, []⟩

theorem takes_serving : serving.Takes (.lane 1) := ⟨rfl, rfl, rfl, rfl⟩

/-- Order numbers just outside the range; one in use; a free one with every id taken; a free one with id 0 free. -/
theorem test_witness_HoldOpenTakesLowestFreeId :
    (serving.Takes (.lane 1) ∧ (0 : Nat) < 1 ∧ (9999 : Nat) < 10000) ∧
    (∃ e ∈ (serving.lane 1).holds, e.2.order = 9999 ∧ ∀ x ∈ (serving.lane 1).holds, x.2.order = 9999 → x.1 = e.1) ∧
    (full.Takes (.lane 1) ∧ (∀ e ∈ (full.lane 1).holds, e.2.order ≠ 9999) ∧
      ∀ h : HoldId, ((full.lane 1).hold h).isSome = true) ∧
    ((∀ e ∈ (serving.lane 1).holds, e.2.order ≠ 1) ∧ (serving.lane 1).hold 0 = none ∧
      ∀ j : HoldId, j < 0 → ((serving.lane 1).hold j).isSome = true) := by
  refine ⟨⟨takes_serving, by decide, by decide⟩, by decide +kernel, ⟨⟨rfl, rfl, rfl, rfl⟩, by decide +kernel, by decide +kernel⟩,
    by decide +kernel⟩

/-- A unit more of the line of 98, which then stands at 99; and a first unit of another variant. -/
theorem test_witness_HoldAddMakesOrRaisesLine (x : Hold) (_ : x = ⟨9999, [⟨511, 0, 98, 649, 60, false⟩], 63602⟩) :
    serving.Takes (.lane 1) ∧ (serving.lane 1).hold 7 = some x ∧ serving.clock.storeState = .opened 1 ∧
    Table.find 511 serving.catalogue.items = some item ∧ item.variants[0]? = some ⟨649, .available, none⟩ ∧
    item.dayParts.getLsbD 1 = true ∧ serving.catalogue.lease = .live ∧
    x.lines.find? (fun z => z.item = 511 ∧ z.variant = 0) = some ⟨511, 0, 98, 649, 60, false⟩ ∧ 98 + 1 ≤ 99 ∧
    x.total + 1 * 649 ≤ 9999999 ∧ x.lines.find? (fun z => z.item = 511 ∧ z.variant = 1) = none ∧
    (x.lines ++ [(⟨511, 1, 1, 649, 60, false⟩ : HoldLine)]).length ≤ 24 := by
  subst x; exact ⟨takes_serving, by decide +kernel⟩

/-- Serving, with a catalogue of item 511 with one variant, offered in these day-parts, and hold 7 on lane 1. -/
def offering (dayParts : BitVec 4) (v : Variant) (x : Hold) : State :=
  (serving.setCatalogue { serving.catalogue with items := [(511, ⟨dayParts, [], none, [v]⟩)] }).setLane 1
    ⟨[(7, x)], none, 0, []⟩

/-- So many lines of item 0. -/
def lines (n : Nat) : List HoldLine := List.replicate n ⟨0, 0, 1, 0, 60, false⟩

/-- The fields of R145 just out of range; then R147 check by check: store, item, variant, day-part, availability, lease,
quantity, lines and total, each on a state that passes those before it. -/
theorem test_witness_HoldAddRefusals (v : Variant) (x : Hold) (_ : v = ⟨649, .available, none⟩)
    (_ : x = ⟨9999, [⟨511, 0, 98, 649, 60, false⟩], 9999999⟩) :
    (7 < (8 : Byte).toNat ∧ (511 : Nat) < 512 ∧ 3 < (4 : Byte).toNat ∧ (0 : Byte).toNat < 1 ∧ 99 < (100 : Byte).toNat) ∧
    ((offering 2 v x).Takes (.lane 1) ∧ ((offering 2 v x).lane 1).hold 7 = some x ∧
      (offering 2 v x).clock.storeState = .opened 1 ∧ (offering 2 v x).catalogue.lease = .live) ∧
    ((offering 2 v x).setClock { serving.clock with override := some .closed }).clock.storeState = .closed ∧
    Table.find 510 (offering 2 v x).catalogue.items = none ∧
    Table.find 511 (offering 2 v x).catalogue.items = some ⟨2, [], none, [v]⟩ ∧ [v][1]? = none ∧ [v][0]? = some v ∧
    (13 : BitVec 4).getLsbD 1 = false ∧ (2 : BitVec 4).getLsbD 1 = true ∧
    ({ v with availability := .soldOut } : Variant).availability = .soldOut ∧
    (State.reset.catalogue.lease = .expired) ∧
    (x.lines.find? (fun z => z.item = 511 ∧ z.variant = 0) = some ⟨511, 0, 98, 649, 60, false⟩ ∧ 99 < 98 + 2 ∧ 98 + 1 ≤ 99 ∧
      24 < (x.lines ++ lines 24).length ∧ x.lines.length ≤ 24 ∧ 9999999 < x.total + 1 * 649) ∧
    ((lines 24).find? (fun z => z.item = 511 ∧ z.variant = 0) = none ∧ 24 < (lines 24).length + 1 ∧
      (lines 23).length + 1 ≤ 24) := by
  subst_vars
  exact ⟨by decide, ⟨⟨rfl, rfl, rfl, rfl⟩, by decide +kernel⟩, by decide +kernel⟩

/-- Part of the line, and all of it; more than all of it; a variant with no line. -/
theorem test_witness_HoldRemoveLowersOrDropsLine (x : Hold) (_ : x = ⟨9999, [⟨511, 0, 98, 649, 60, false⟩], 63602⟩) :
    serving.Takes (.lane 1) ∧ (serving.lane 1).hold 7 = some x ∧
    x.lines.find? (fun z => z.item = 511 ∧ z.variant = 0) = some ⟨511, 0, 98, 649, 60, false⟩ ∧ 1 ≤ 98 ∧ 98 ≤ 98 ∧ 98 < 99 ∧
    ∀ z ∈ x.lines, ¬ (z.item = 511 ∧ z.variant = 1) := by
  subst x; exact ⟨takes_serving, by decide +kernel⟩

theorem test_witness_HoldFocusRefreshReadKeepLines : serving.Takes (.lane 1) ∧
    ((serving.lane 1).hold 7).isSome = true ∧ (serving.lane 1).focus = some 7 := ⟨takes_serving, by decide +kernel⟩

theorem test_witness_HoldCloseAndExpiryDropHold : serving.Takes (.lane 1) ∧
    (serving.lane 1).hold 7 = some ⟨9999, [⟨511, 0, 98, 649, 60, false⟩], 63602⟩ ∧
    serving.timeLeft (.holdLease 1 7) = some 3 ∧ serving.portFitted (.lane 1) = true := ⟨takes_serving, by decide +kernel⟩

/-- An id whose hold was lost, and one that never had one. -/
theorem test_witness_MissingHoldIsRefusedByItsMark :
    ((State.reset.setLane 0 ⟨[], none, 0, [(7, 1207)]⟩).Takes (.lane 0) ∧
      ((State.reset.setLane 0 ⟨[], none, 0, [(7, 1207)]⟩).lane 0).hold 7 = none ∧
      Table.find 7 ((State.reset.setLane 0 ⟨[], none, 0, [(7, 1207)]⟩).lane 0).expired = some 1207) ∧
    (State.reset.Takes (.lane 0) ∧ (State.reset.lane 0).hold 7 = none ∧
      Table.find 7 (State.reset.lane 0).expired = none) :=
  ⟨⟨⟨rfl, rfl, rfl, rfl⟩, rfl, rfl⟩, takes_reset _, rfl, rfl⟩

/-- Entries given out of time order, two of them at one time on different days; one entry due now, and one due a second
ahead, so 604,799 s ago and again in 604,800 s, the ends of both weeks. -/
theorem test_witness_ClockRequestsSetClockAndMakeTransition (given : List ScheduleEntry)
    (_ : given = [⟨86399, 1, .closed⟩, ⟨86399, 64, .opened 3⟩, ⟨0, 0x7F, .opened 0⟩]) :
    (State.reset.Takes .store ∧ (86399 : Nat) ≤ 86399 ∧ (6 : Nat) ≤ 6) ∧
    ((∀ e ∈ given, e.time ≤ 86399 ∧ e.days ≠ 0) ∧
      given.Pairwise (fun a b => ¬ (a.time = b.time ∧ a.days &&& b.days ≠ 0)) ∧
      InTimeOrder given [⟨0, 0x7F, .opened 0⟩, ⟨86399, 1, .closed⟩, ⟨86399, 64, .opened 3⟩]) ∧
    (DueAgo (StoreClock.reset []) ⟨0, 1, .closed⟩ 0 ∧ DueAgo (StoreClock.reset []) ⟨1, 1, .closed⟩ 604799 ∧
      DueAhead (StoreClock.reset []) ⟨1, 1, .closed⟩ 1 ∧ DueAhead (StoreClock.reset []) ⟨0, 1, .closed⟩ 604800) := by
  subst given
  unfold DueAgo DueAhead
  exact ⟨⟨takes_reset _, by decide, by decide⟩, ⟨by decide, by decide, timeOrder_spec _⟩, by decide +kernel⟩

/-- A field just out of range; a count of 17 and a body that does not fit its count; a bad entry behind a good one; an entry
that shares its time and a day with the second of two before it. -/
theorem test_witness_ClockRequestRefusals :
    ((86399 : Nat) < 86400 ∧ (6 : Nat) < 7 ∧ 4 < (5 : Byte).toNat ∧ 16 < (17 : Byte).toNat ∧
      ([0, 0, 0, 1] : List Byte).length ≠ 5 * (1 : Byte).toNat) ∧
    (5 * [(⟨0, 1, .closed⟩ : ScheduleEntry)].length + 5 + ([] : List Byte).length = 5 * (2 : Byte).toNat ∧
      (0x80 : Byte).getLsbD 7 = true) ∧
    ([(⟨0, 1, .closed⟩ : ScheduleEntry), ⟨0, 66, .opened 0⟩][1]? = some ⟨0, 66, .opened 0⟩ ∧
      (66 : BitVec 7) &&& 64 ≠ 0 ∧ ¬ (1 : BitVec 7) &&& 64 ≠ 0) := by decide

/-- Ticks of both sources, on a valid clock and on an invalid one; an entry due now. -/
theorem test_witness_TicksAdvanceClockAndFireEntries :
    (serving.timeLeft .second = some 1000 ∧ serving.clock.valid = true) ∧
    (State.reset.timeLeft .second = some 1000 ∧ State.reset.clock.valid = false) ∧
    (({ serving with inForce := [(25, [0])] } : State).phase = .running ∧
      ({ serving with inForce := [(25, [0])] } : State).internalTick = false) ∧
    ((serving.setClock { serving.clock with time := 86399 }).clock.valid = true ∧
      (serving.setClock { serving.clock with time := 86399 }).clock.schedule.find? (fun e => e.due 86399 6) =
        some ⟨86399, 0x7F, .opened 2⟩) := by decide +kernel

/-- The machine after reset with a lane port that is losing a message and is READY by now. -/
def losing : State := State.reset.setPort (.lane 1) { State.reset.port (.lane 1) with receiving := some 1 }

/-- A port that holds an answer; a READY port that is losing a message; a lane port that is not fitted, in a reset too. -/
theorem test_witness_BusyPortLosesRequest :
    ((State.reset.holdAnswer .store (okTo .describe 0 [])).portFitted .store = true ∧
      ((State.reset.holdAnswer .store (okTo .describe 0 [])).port .store).state ≠ .ready ∧
      SessionSound (State.reset.holdAnswer .store (okTo .describe 0 []))) ∧
    (losing.portFitted (.lane 1) = true ∧ (losing.port (.lane 1)).receiving ≠ none ∧ SessionSound losing) ∧
    ({ State.reset with inForce := [(14, [1])] } : State).portFitted (.lane 1) = false ∧
    ({ State.reset with phase := .resetLow .pin, inForce := [(14, [1])] } : State).portFitted (.lane 1) = false :=
  ⟨⟨rfl, by decide, ⟨_, rfl⟩⟩, ⟨rfl, by decide, ⟨_, rfl⟩⟩, rfl, rfl⟩

/-- A message that is lost sets REQUEST_LOST once, when it is over, whatever the port has become meanwhile (R193). -/
theorem test_lost_message_ends_in_ready :
    (match exec (.describe (.lane 1) 1 []) losing with
      | .next t => decide (t.port (.lane 1) = { State.reset.port (.lane 1) with flags := 3 })
      | _ => false) = true := by decide +kernel

/-- A message cut short, one with a wrong CRC-16, one of an unknown type; bytes that follow a whole message; a type not
permitted; a wrong length. -/
theorem test_witness_BadMessagesAreAnswered : State.reset.Takes (.lane 1) ∧ SessionSound State.reset ∧
    (Message.complete [0x82, 1] = false ∧ [0x82, 1].length ≤ 6 + Message.lengthField [0x82, 1]) ∧
    be 2 (crc16 [0x82, 1, 0, 0]).toNat ≠ [0, 0] ∧
    (Message.complete ([0xFF, 1, 0, 0] ++ be 2 (crc16 [0xFF, 1, 0, 0]).toNat) = true ∧
      RequestType.ofCode 0xFF = none) ∧
    (4 ≤ (Message.encode .describe 7 []).length ∧
      (Message.encode .describe 7 []).length = 6 + Message.lengthField (Message.encode .describe 7 []) ∧
      [0x82].length < 6 + Message.lengthField [0x82] ∧
      (match exec (Message.command (.lane 1) (Message.encode .describe 7 [])) State.reset with
        | .next u => decide ((u.port (.lane 1)).state ≠ .ready) && u.portFitted (.lane 1)
        | _ => false) = true) ∧
    RequestType.clockSet.permission.holds (.lane 1) = false ∧ RequestType.describe.permission.holds (.lane 1) = true ∧
    RequestType.describe.lengths.2 < 1 :=
  ⟨takes_reset _, ⟨_, rfl⟩, by decide +kernel⟩

theorem test_witness_RefusedRequestsChangeNothing : State.reset.Takes .media ∧
    (match exec (RequestType.toInstr .slotErase .media 0 [192]) State.reset with
      | .next t => decide ((t.port .media).state = .answer (refusalOf .slotErase 0 .badField []))
      | _ => false) = true := ⟨takes_reset _, by decide +kernel⟩

theorem test_witness_AnswerReadEmptiesPort :
    ((State.reset.holdAnswer .media (okTo .describe 0 [])).port .media).state = .answer (okTo .describe 0 []) ∧
    ((State.reset.holdAnswer (.lane 1) (okTo .describe 0 [])).port (.lane 1)).state = .answer (okTo .describe 0 []) ∧
    (okTo .describe 0 []).bytes.length = 7 := by decide +kernel

/-- The whole flag set of a lane port, and a bit that belongs to no flag. -/
theorem test_witness_NoticeRequestsReadClearAndMask : State.reset.Takes (.lane 1) ∧
    (0x01C003 : BitVec 24) &&& ~~~ (flagSetOf (.lane 1)) = 0 ∧ (0x020000 : BitVec 24) &&& ~~~ (flagSetOf (.lane 1)) ≠ 0 :=
  ⟨takes_reset _, by decide, by decide⟩

theorem test_witness_RecordReadsChangeNothing : State.reset.Takes .media ∧ State.reset.Takes (.lane 1) ∧
    panel? 5 = some 5 ∧ dayPart? 3 = some 3 ∧ (State.reset.link 5).state ≠ .off ∧
    (State.reset.setLink 5 (Link.reset false)).Takes .media ∧
    ((State.reset.setLink 5 (Link.reset false)).link 5).state = .off ∧
    ((State.reset.setPhoto { PhotoMemory.reset with free := [] }).Takes .media ∧
      (State.reset.setPhoto { PhotoMemory.reset with free := [] }).photo.free = []) ∧
    (twoRanges.Takes .media ∧ twoRanges.photo.free = [⟨0, 1, by decide⟩] ++ lastBlocks :: [] ∧
      ∀ x ∈ [(⟨0, 1, by decide⟩ : BlockRange)], x.count < lastBlocks.count) :=
  ⟨takes_reset _, takes_reset _, rfl, rfl, by decide, ⟨rfl, rfl, rfl, rfl⟩, rfl, ⟨⟨rfl, rfl, rfl, rfl⟩, rfl⟩,
    ⟨rfl, rfl, rfl, rfl⟩, rfl, by decide⟩

/-- A number past the last field; a burned field, an unburned one; each kind of range at its ends and just past them, a
value of the wrong length, and glyph strings with none, with a code 0 and with 25 glyphs. -/
theorem test_witness_ProfileBurnBurnsFieldOnce :
    (State.reset.Takes .media ∧ (25 : Nat) < 26) ∧
    (({ State.reset with burned := [(25, [0])] } : State).Takes .media ∧ Payload.ProfileValue 25 [1] ∧
      Table.find 25 ({ State.reset with burned := [(25, [0])] } : State).burned = some [0]) ∧
    Table.find 25 State.reset.burned = none ∧
    (¬ Payload.ProfileValue 25 [2] ∧ ¬ Payload.ProfileValue 1 [0] ∧ Payload.ProfileValue 1 [6] ∧
      ¬ Payload.ProfileValue 1 [6, 0] ∧ Payload.ProfileValue 7 [2] ∧ ¬ Payload.ProfileValue 7 [3]) ∧
    (Payload.ProfileValue 8 [4, 2] ∧ Payload.ProfileValue 13 [16, 9] ∧ ¬ Payload.ProfileValue 13 [16, 10] ∧
      Payload.ProfileValue 16 [255, 1] ∧ ¬ Payload.ProfileValue 16 [0, 0] ∧ ¬ Payload.ProfileValue 16 [1, 2]) ∧
    (Payload.ProfileValue 21 (be 2 30) ∧ Payload.ProfileValue 21 (be 2 1800) ∧ ¬ Payload.ProfileValue 21 (be 2 1801)) ∧
    (Payload.ProfileValue 17 [0] ∧ ¬ Payload.ProfileValue 18 [1, 0] ∧
      ¬ Payload.ProfileValue 18 (25 :: List.replicate 25 88)) := by
  simp only [← profileValue_iff]
  exact ⟨⟨takes_reset _, by decide⟩, ⟨⟨rfl, rfl, rfl, rfl⟩, rfl, rfl⟩, rfl, by decide, by decide, by decide, by decide⟩

theorem test_witness_ResetsLeaveResetState : State.reset.Takes .store ∧ (∀ kind, State.reset.phase ≠ .resetLow kind) ∧
    ({ State.reset with phase := .resetLow .pin } : State).phase = .resetLow .pin ∧ 1 < (2 : Byte).toNat :=
  ⟨takes_reset _, nofun, rfl, by decide⟩

/-- Slots in each state a pin reset may find, at one block each. -/
def retainedTable : Table Slot :=
  [(0, ⟨.loading, ⟨0, 1, by decide⟩, 16, 9, 0, 0⟩), (1, ⟨.ready, ⟨1, 1, by decide⟩, 16, 9, 0, 2⟩),
    (2, ⟨.damaged .loadChecksum, ⟨3, 1, by decide⟩, 16, 9, 0, 0⟩), (191, slotIn .verifying 0)]

/-- After a power-on and after a pin reset, with the line still low or up; with slots for a pin start-up to deal with,
under FULL start-up and under FAST. -/
theorem test_witness_StartUpReadsProfileAndRunsPorts (x : State)
    (_ : x = (State.reset.setPhoto { PhotoMemory.reset with slots := retainedTable })) :
    ({ State.reset with phase := .starting .power } : State).phase = .starting .power ∧
    (∀ kind, ({ State.reset with phase := .resetLow kind } : State).phase = .resetLow kind) ∧
    (({ x with phase := .starting .pin } : State).phase = .starting .pin ∧
      PhotoSound { x with phase := .starting .pin }) ∧
    (match exec .startUp { x with phase := .starting .pin } with
      | .next t => t.fullStartUp && decide (t.photo.verifying = some 1) && decide (t.photo.verifyQueue = [1, 191]) &&
          decide (t.photo.free.map (fun r => (r.start, r.count)) = [(0, 1), (2, 1), (4, 6138)])
      | _ => false) = true ∧
    (match exec .startUp { x with phase := .starting .pin, burned := [(24, [0])] } with
      | .next t => !t.fullStartUp && decide (t.photo.verifyQueue = [])
      | _ => false) = true := by
  subst x
  refine ⟨rfl, fun _ => rfl, ⟨rfl, photoSound_of_slots (slots := retainedTable) [] none (by decide) (by decide) (by decide) nofun⟩,
    by decide +kernel, by decide +kernel⟩

theorem test_witness_MessageReadsBackAsSent : (List.replicate 4104 (0 : Byte)).length ≤ 4104 ∧ (3 : Byte) ≠ 0x01 ∧
    (3 : Byte) ≠ 0x02 := ⟨Nat.le_of_eq List.length_replicate, by decide, by decide⟩

/-- A burned field through a step that takes a reset. -/
theorem test_witness_BurnedFieldsPersist :
    (match step { State.reset with burned := [(25, [0])], pending := [.powerOn] } with
      | .next t => decide (Table.find 25 t.burned = some [0])
      | _ => false) = true := by decide +kernel

/-- A sound Photo Memory with a load in progress, and one with a verification in progress, every block accounted for. -/
theorem test_witness_PhotoMemoryStaysSound : PhotoSound (loadingAt 1) ∧ PhotoSound verifying ∧
    BlocksAccounted (loadingAt 1) ∧ BlocksAccounted verifying :=
  ⟨⟨⟨List.Pairwise.nil, nofun⟩, (by decide : Table.Wf [(191, slotIn .loading 0)]),
    (by decide : ∀ e ∈ [(191, slotIn .loading 0)], 1 ≤ e.2.range.count), ⟨_, rfl⟩, List.Pairwise.nil, nofun⟩,
    photoSound_verifying, accounted_of_191 .loading 0 rfl rfl, accounted_of_191 .verifying 0 rfl rfl⟩

theorem test_witness_FreezeKeepsControllerIdle : FreezeHoldsController (frozen .stopNow .store) ∧
    (frozen .stopNow .store).freeze.state.inForce = true := ⟨fun _ => rfl, rfl⟩

end Sys2Proof.Tests
end

section
/-! PROOFS. The catalogue (chapter 1): the batch requests, what a commit, a lease and a minute make of the state, the
reads, and the statements O2 to O9. -/
namespace Sys2Proof.Machine

/-! ## Flags, timers and the profile -/

section Fields

variable (s : State)

theorem raiseLanes_eq (f : NoticeFlag) : s.raiseLanes f = { s with ports := (s.raiseLanes f).ports } := by
  apply State.eq_of_fields <;> simp

theorem raiseLanes_keeps_flag (f : NoticeFlag) {g : NoticeFlag} {p : PortId} (h : FlagSet s p g) :
    FlagSet (s.raiseLanes f) p g :=
  raise_keeps_flag _ _ _ _ _ (raise_keeps_flag _ _ _ _ _ h)

theorem portFitted_of_inForce {s t : State} (h : t.inForce = s.inForce) (q : PortId) :
    t.portFitted q = s.portFitted q := by
  unfold State.portFitted State.profileNat; rw [h]

/-- A notice that the lane ports' flag set names is set on every fitted lane port. -/
theorem raiseLanes_flagSet {f : NoticeFlag} (hs : ∀ l, f.mask &&& flagSetOf (.lane l) = f.mask) {l : LaneNo}
    (hf : s.portFitted (.lane l) = true) : FlagSet (s.raiseLanes f) (.lane l) f := by
  match l with
  | 0 => exact raise_keeps_flag _ _ _ _ _ (raise_flag _ _ hf (hs 0))
  | 1 => exact raise_flag _ _ ((portFitted_of_inForce (by simp) _).trans hf) (hs 1)

theorem holdAnswer_flagSet {p q : PortId} (a : Answer) {f : NoticeFlag} (h : FlagSet s q f) :
    FlagSet (s.holdAnswer p a) q f := by
  unfold FlagSet at h ⊢
  by_cases hq : q = p
  · subst hq; simpa using h
  · rw [State.holdAnswer_port_of_ne s hq]; exact h

theorem stopTimer_timeLeft_other {t u : TimerId} (h : u ≠ t) : (s.stopTimer t).timeLeft u = s.timeLeft u :=
  State.stopTimer_timeLeft_of_ne s fun e => h (TimerId.key_injective e).symm

theorem startTimer_timeLeft_other {t u : TimerId} (h : u ≠ t) (ms : Nat) :
    (s.startTimer t ms).timeLeft u = s.timeLeft u :=
  State.startTimer_timeLeft_of_ne s (fun e => h (TimerId.key_injective e).symm) ms

theorem leaseMs_of_inForce {s t : State} (h : t.inForce = s.inForce) : t.leaseMs = s.leaseMs := by
  unfold State.leaseMs State.profileNat; rw [h]

end Fields

/-! ## Hand-offs: an answer held on a port, and the message of a request, leave what is said of them as it is -/

section HandOffs

variable {s t : State} {u : Target}

theorem TargetHanded.holdAnswer (h : TargetHanded s t u) (p : PortId) (a : Answer) :
    TargetHanded s (t.holdAnswer p a) u := h.of_eq rfl rfl rfl rfl rfl fun _ => holdAnswer_flagSet _ _

theorem TargetHandedAfterFreeze.holdAnswer (h : TargetHandedAfterFreeze s t u) (p : PortId) (a : Answer) :
    TargetHandedAfterFreeze s (t.holdAnswer p a) u := h.of_eq rfl rfl rfl rfl rfl fun _ => holdAnswer_flagSet _ _

theorem clockIn_changeoverLimitMs (s : State) (p : PortId) (n : Nat) :
    (s.clockIn p n).changeoverLimitMs = s.changeoverLimitMs := by
  simp [State.changeoverLimitMs, State.profileNat]

theorem TargetHanded.of_clockIn {p : PortId} {n : Nat} (h : TargetHanded (s.clockIn p n) t u) : TargetHanded s t u :=
  h.of_before (by simp) (by simp) (by simp) (by simp) (clockIn_timeLeft _ _ _ _) (clockIn_changeoverLimitMs s p n)

theorem TargetHandedAfterFreeze.of_clockIn {p : PortId} {n : Nat} (h : TargetHandedAfterFreeze (s.clockIn p n) t u) :
    TargetHandedAfterFreeze s t u :=
  h.of_before (by simp) (by simp) (by simp) (by simp) (clockIn_timeLeft _ _ _ _) (clockIn_changeoverLimitMs s p n)

/-- A command that ends a freeze in force leaves it ended through its hand-off. -/
theorem handTarget_freeze_ended {s w : State} {c : FreezeCause} (hz : w.freeze = (s.endFreezeInForce c).freeze)
    (u : Target) : (w.handTarget u).freeze.state.inForce = false ∧
      (s.freeze.state.inForce = true → (w.handTarget u).freeze.lastEnd = some c) := by
  rw [handTarget_freeze_state, handTarget_freeze_lastEnd, hz]
  refine ⟨endFreezeInForce_inForce c, fun hf => ?_⟩
  rw [endFreezeInForce_freeze, if_pos hf]

/-- The hand-off of a command that, after the end of a freeze, changes the catalogue and the timers. -/
theorem handTarget_handedAfterFreeze_of_catalogue (s : State) (c : FreezeCause) {w : State} {v : Catalogue}
    {timers : Table Nat} (hw : w = { s.endFreezeInForce c with catalogue := v, timers := timers })
    (ht : w.timeLeft .changeoverLimit = (s.endFreezeInForce c).timeLeft .changeoverLimit) (u : Target) :
    TargetHandedAfterFreeze s (w.handTarget u) u := by
  refine handTarget_handedAfterFreeze c w u (by rw [hw]) (by rw [hw]) (by rw [hw])
    (by rw [hw]; exact endFreezeInForce_composer c) ht ?_ fun p hp => by rw [hw]; exact hp
  rw [hw]; exact congrArg natOf (congrArg (fieldValue · 22) (State.endFreezeInForce_inForce s c))

end HandOffs

/-! ## The batch requests, outcome by outcome -/

section Batches

variable {s : State} {role : WritingRole} {entries : List BatchEntry}

theorem batchOpen_of_closed (h : s.catalogue.batch role = none) : batchOpen role s = (.ok [], s.keepBatch role []) := by
  simp only [batchOpen, h]

theorem batchOpen_of_open (h : s.catalogue.batch role = some entries) :
    batchOpen role s = (.refuse .batchOpen, s) := by
  simp only [batchOpen, h]

theorem batchDiscard_of_closed (h : s.catalogue.batch role = none) :
    batchDiscard role s = (.refuse .noBatch, s) := by
  simp only [batchDiscard, h]

theorem batchDiscard_of_open (h : s.catalogue.batch role = some entries) :
    batchDiscard role s = (.ok [], s.closeBatch role) := by
  simp only [batchDiscard, h]

theorem batchAdd_of_closed (payload : List Byte) (h : s.catalogue.batch role = none) :
    batchAdd role payload s = (.refuse .noBatch, s) := by
  simp only [batchAdd, h]

theorem batchAdd_of_fault {payload : List Byte} {position : Nat} (h : s.catalogue.batch role = some entries)
    (hr : readBatchAdd role payload = .error position) :
    batchAdd role payload s = (⟨.badField, be 1 position⟩, s.keepBatch role entries) := by
  simp only [batchAdd, h, hr]

theorem batchAdd_of_full {payload : List Byte} {added : List BatchEntry} (h : s.catalogue.batch role = some entries)
    (hr : readBatchAdd role payload = .ok added) (hl : 64 < entries.length + added.length) :
    batchAdd role payload s = (⟨.batchFull, be 1 entries.length⟩, s.keepBatch role entries) := by
  simp only [batchAdd, h, hr]; exact if_pos hl

theorem batchAdd_of_room {payload : List Byte} {added : List BatchEntry} (h : s.catalogue.batch role = some entries)
    (hr : readBatchAdd role payload = .ok added) (hl : entries.length + added.length ≤ 64) :
    batchAdd role payload s =
      (.ok (be 1 (entries.length + added.length)), s.keepBatch role (entries ++ added)) := by
  simp only [batchAdd, h, hr]; exact if_neg (Nat.not_lt.2 hl)

theorem batchCommit_of_closed (h : s.catalogue.batch role = none) : batchCommit role s = (.refuse .noBatch, s) := by
  simp only [batchCommit, h]

theorem batchCommit_of_frozen (h : s.catalogue.batch role = some entries)
    (hf : role = .store ∧ s.freeze.state.inForce = true) :
    batchCommit role s = (⟨.commitRefused, [CommitReason.frozen.byte, 255]⟩, s.keepBatch role entries) := by
  simp only [batchCommit, h]; exact if_pos hf

theorem batchCommit_of_invalid {reason : CommitReason} {i : Nat} (h : s.catalogue.batch role = some entries)
    (hf : ¬ (role = .store ∧ s.freeze.state.inForce = true))
    (hv : s.validate 0 s.catalogue.items entries = .error (reason, i)) :
    batchCommit role s = (⟨.commitRefused, reason.byte :: be 1 i⟩, s.keepBatch role entries) := by
  simp only [batchCommit, h, hv]; exact if_neg hf

/-- The state after a commit whose entries validate to `items`. -/
def State.committed (role : WritingRole) (items : Table Item) (s : State) : State :=
  (s.installCommit role items).finishCommit role (decide (role = .store ∧ s.catalogue.lease = .expired))

theorem batchCommit_of_valid {items : Table Item} (h : s.catalogue.batch role = some entries)
    (hf : ¬ (role = .store ∧ s.freeze.state.inForce = true))
    (hv : s.validate 0 s.catalogue.items entries = .ok items) :
    batchCommit role s = (.ok (be 4 (s.committed role items).catalogue.generation ++
      [flagByte (decide (role = .store ∧ s.catalogue.lease = .expired))]), s.committed role items) := by
  simp only [batchCommit, h, hv]; exact if_neg hf

theorem setBatch_items (c : Catalogue) (role : WritingRole) (v : Option (List BatchEntry)) :
    (c.setBatch role v).items = c.items := by cases role <;> rfl

theorem setBatch_generation (c : Catalogue) (role : WritingRole) (v : Option (List BatchEntry)) :
    (c.setBatch role v).generation = c.generation := by cases role <;> rfl

/-- The message of a request changes neither the catalogue nor the timers, so what follows it on a batch is said of the
state before. -/
theorem keepBatch_clockIn (s : State) (p : PortId) (n : Nat) (role : WritingRole) (es : List BatchEntry) :
    (s.clockIn p n).keepBatch role es = { s.clockIn p n with
      catalogue := s.catalogue.setBatch role (some es)
      timers := (s.startTimer (.batchIdle role) 30000).timers } := by
  rw [clockIn_eq]; rfl

theorem closeBatch_clockIn (s : State) (p : PortId) (n : Nat) (role : WritingRole) :
    (s.clockIn p n).closeBatch role = { s.clockIn p n with
      catalogue := s.catalogue.setBatch role none
      timers := (s.stopTimer (.batchIdle role)).timers } := by
  rw [clockIn_eq]; rfl

end Batches

/-- A request that its port takes and whose owner changes the catalogue and the timers alone. -/
theorem answered_with_catalogue {s : State} {p : PortId} (h : s.Takes p) {t : RequestType} {tag : Byte}
    {payload : List Byte} (hr : t.permission.holds p = true) (hlo : t.lengths.1 ≤ payload.length)
    (hhi : payload.length ≤ t.lengths.2) {owner : State → Reply × State} {r : Reply} {i : Instr} {c : Catalogue}
    {timers : Table Nat} (hi : exec i s = .next (s.request t p tag payload owner))
    (ho : owner (s.clockIn p (6 + payload.length)) =
      (r, { s.clockIn p (6 + payload.length) with catalogue := c, timers := timers })) :
    ∃ u, exec i s = .next u ∧ AnsweredOn s u p ⟨t.code, tag, r.status, r.payload⟩ ∧
      u = { s with ports := u.ports, catalogue := c, timers := timers } := by
  refine ⟨_, hi.trans (request_answers h hr hlo hhi ho), answeredOn_of_ports (n := _) rfl _, ?_⟩
  conv => lhs; rw [clockIn_eq]
  rfl

/-- A batch request on the port of its role whose outcome keeps the batch OPEN with `es` (R7, R9, R17). -/
theorem answered_with_keepBatch {s : State} {role : WritingRole} (h : s.Takes (portOfRole role)) {t : RequestType}
    {tag : Byte} {payload : List Byte} (hr : t.permission = .writers) (hlo : t.lengths.1 ≤ payload.length)
    (hhi : payload.length ≤ t.lengths.2) {owner : State → Reply × State} {r : Reply} {i : Instr}
    {es : List BatchEntry} (hi : exec i s = .next (s.request t (portOfRole role) tag payload owner))
    (ho : ∀ n, owner (s.clockIn (portOfRole role) n) = (r, (s.clockIn (portOfRole role) n).keepBatch role es)) :
    ∃ u, exec i s = .next u ∧ AnsweredOn s u (portOfRole role) ⟨t.code, tag, r.status, r.payload⟩ ∧
      u = { s with
        ports := u.ports
        catalogue := s.catalogue.setBatch role (some es)
        timers := (s.startTimer (.batchIdle role) 30000).timers } :=
  answered_with_catalogue h (by rw [hr]; exact writers_hold role) hlo hhi hi ((ho _).trans (by rw [keepBatch_clockIn]))

section BatchCommands

variable (s : State) (role : WritingRole) (tag : Byte) (payload : List Byte)

theorem exec_batchOpen : exec (.batchOpen (portOfRole role) tag payload) s =
    .next (s.request .batchOpen (portOfRole role) tag payload (batchOpen role)) := by
  simp only [exec, execBatchOpen, roleOfPort_portOfRole]

theorem exec_batchAdd : exec (.batchAdd (portOfRole role) tag payload) s =
    .next (s.request .batchAdd (portOfRole role) tag payload (batchAdd role payload)) := by
  simp only [exec, execBatchAdd, roleOfPort_portOfRole]

theorem exec_batchDiscard : exec (.batchDiscard (portOfRole role) tag payload) s =
    .next (s.request .batchDiscard (portOfRole role) tag payload (batchDiscard role)) := by
  simp only [exec, execBatchDiscard, roleOfPort_portOfRole]

theorem exec_batchCommit : exec (.batchCommit (portOfRole role) tag payload) s =
    .next (s.request .batchCommit (portOfRole role) tag payload (batchCommit role)) := by
  simp only [exec, execBatchCommit, roleOfPort_portOfRole]

end BatchCommands

/-- Settles O2: a CLOSED slot is kept OPEN with no entries, and an OPEN one is refused with no effect. -/
theorem batchOpenOpensClosedSlotOrRefuses : Obligations.BatchOpenOpensClosedSlotOrRefuses := by
  intro s role tag h
  refine ⟨fun hc => ?_, fun entries ho => ?_⟩
  · exact answered_with_keepBatch (t := .batchOpen) (payload := []) h rfl (Nat.zero_le _) (Nat.le_refl 0)
      (exec_batchOpen s role tag []) fun n => batchOpen_of_closed (by simpa using hc)
  · exact answersOnly_of_takes (t := .batchOpen) (payload := []) h (writers_hold role) (Nat.zero_le _) (Nat.le_refl 0)
      (exec_batchOpen s role tag []) (batchOpen_of_open (entries := entries) (by simpa using ho)) rfl

/-- Settles O4: an OPEN slot is closed, and a CLOSED one is refused with no effect. -/
theorem batchDiscardClosesOrRefuses : Obligations.BatchDiscardClosesOrRefuses := by
  intro s role tag h
  refine ⟨fun entries ho => ?_, fun hc => ?_⟩
  · exact answered_with_catalogue (t := .batchDiscard) (payload := []) h (writers_hold role) (Nat.zero_le _)
      (Nat.le_refl 0) (exec_batchDiscard s role tag [])
      ((batchDiscard_of_open (entries := entries) (by simpa using ho)).trans (by rw [closeBatch_clockIn]))
  · exact answersOnly_of_takes (t := .batchDiscard) (payload := []) h (writers_hold role) (Nat.zero_le _)
      (Nat.le_refl 0) (exec_batchDiscard s role tag []) (batchDiscard_of_closed (by simpa using hc)) rfl

/-- BATCH_ADD on an OPEN batch, by its reply and the entries the batch holds after it (R9). -/
theorem batchAdd_answered {s : State} {role : WritingRole} (tag : Byte) {payload : List Byte}
    (h : s.Takes (portOfRole role)) (hlo : 1 ≤ payload.length) (hhi : payload.length ≤ 4104) {r : Reply}
    {es : List BatchEntry}
    (ho : ∀ n, batchAdd role payload (s.clockIn (portOfRole role) n) =
      (r, (s.clockIn (portOfRole role) n).keepBatch role es)) :
    ∃ t, exec (.batchAdd (portOfRole role) tag payload) s = .next t ∧
      AnsweredOn s t (portOfRole role) ⟨RequestType.batchAdd.code, tag, r.status, r.payload⟩ ∧
      t.catalogue = s.catalogue.setBatch role (some es) ∧
      t = { s with
        ports := t.ports, catalogue := t.catalogue, timers := (s.startTimer (.batchIdle role) 30000).timers } := by
  obtain ⟨t, he, ha, ht⟩ := answered_with_keepBatch (t := .batchAdd) h rfl hlo hhi (exec_batchAdd s role tag payload) ho
  have hc : t.catalogue = s.catalogue.setBatch role (some es) := congrArg State.catalogue ht
  exact ⟨t, he, ha, hc, by rw [hc]; exact ht⟩

/-- Settles O3: the reader answers one fault or one list of entries, so each payload meets one clause, and the length of
the list decides between the last two. -/
theorem batchAddAppendsOrRefuses : Obligations.BatchAddAppendsOrRefuses := by
  refine ⟨fun s role tag payload h hlo hhi hc => ?_, fun s role tag payload entries h hlo hhi ho => ?_⟩
  · exact answersOnly_of_takes (t := .batchAdd) h (writers_hold role) hlo hhi (exec_batchAdd s role tag payload)
      (batchAdd_of_closed payload (by simpa using hc)) rfl
  have ho' : ∀ n, (s.clockIn (portOfRole role) n).catalogue.batch role = some entries := fun n => by simpa using ho
  have same : s.catalogue.setBatch role (some entries) = s.catalogue := setBatch_batch _ role ho
  cases hr : readBatchAdd role payload with
  | error position =>
    obtain ⟨t, he, ha, hcat, hframe⟩ := batchAdd_answered tag h hlo hhi fun n => batchAdd_of_fault (ho' n) hr
    refine ⟨t, he, fun q hq => ?_, fun added hg => ?_, fun added hg => ?_, hframe⟩
    · obtain rfl : position = q := by simpa [hr] using readBatchAdd_fault hq
      exact ⟨ha, hcat.trans same⟩
    all_goals exact absurd (hr.symm.trans (readBatchAdd_good hg)) nofun
  | ok read =>
    have fault : ∀ q, ¬ Payload.BatchFault role payload q := fun q hq =>
      absurd (hr.symm.trans (readBatchAdd_fault hq)) nofun
    have good : ∀ added, Payload.EntriesAre role payload added → read = added := fun added hg => by
      simpa [hr] using readBatchAdd_good hg
    by_cases hl : 64 < entries.length + read.length
    · obtain ⟨t, he, ha, hcat, hframe⟩ := batchAdd_answered tag h hlo hhi fun n => batchAdd_of_full (ho' n) hr hl
      refine ⟨t, he, fun q hq => absurd hq (fault q), fun added hg _ => ⟨ha, hcat.trans same⟩, fun added hg hle => ?_,
        hframe⟩
      rw [good added hg] at hl
      exact absurd hl (Nat.not_lt.2 hle)
    · obtain ⟨t, he, ha, hcat, hframe⟩ := batchAdd_answered tag h hlo hhi fun n =>
        batchAdd_of_room (ho' n) hr (Nat.not_lt.1 hl)
      refine ⟨t, he, fun q hq => absurd hq (fault q), fun added hg hgt => ?_, fun added hg _ => ?_, hframe⟩
      · rw [good added hg] at hl
        exact absurd hgt hl
      · rw [← good added hg]
        exact ⟨ha, hcat⟩

/-! ## A commit that passes (R16, R20, R21) -/

section Commit

variable (s : State) (role : WritingRole) (items : Table Item)

/-- The state in which a commit hands its target: the batch is installed, and a store commit has renewed the lease. -/
def State.readyToHand : State :=
  match role with
  | .media => s.installCommit .media items
  | .store => (s.installCommit .store items).makeLive

/-- The target that a commit hands (R16 step 5, R21). -/
def State.commitTarget : Target :=
  { s.changeover.current with
    generation := nextGeneration s.catalogue.generation
    visibility := if role = .store ∧ s.catalogue.lease = .expired then .shown else s.changeover.current.visibility }

/-- A commit hands one target, and raises PRICES_RESTORED where it renewed an EXPIRED lease. -/
theorem committed_eq : s.committed role items =
    if role = .store ∧ s.catalogue.lease = .expired then
      ((s.readyToHand role items).handTarget (s.commitTarget role)).raiseLanes .pricesRestored
    else (s.readyToHand role items).handTarget (s.commitTarget role) := by
  cases role with
  | media => rfl
  | store => cases h : s.catalogue.lease <;> simp only [State.committed, State.commitTarget, h] <;> rfl

/-- Beside the hand-off a commit touches no field but the ports. -/
theorem committed_frame : s.committed role items =
    { (s.readyToHand role items).handTarget (s.commitTarget role) with ports := (s.committed role items).ports } := by
  rw [committed_eq]
  split
  · exact raiseLanes_eq _ _
  · rfl

theorem committed_keeps_flag {f : NoticeFlag} {p : PortId}
    (h : FlagSet ((s.readyToHand role items).handTarget (s.commitTarget role)) p f) :
    FlagSet (s.committed role items) p f := by
  rw [committed_eq]
  split
  · exact raiseLanes_keeps_flag _ _ h
  · exact h

/-- What a commit changes before its hand-off: the catalogue, two timers and the pins. -/
theorem readyToHand_eq : s.readyToHand role items = { s with
    catalogue := ({ s.catalogue with
      items := items
      generation := nextGeneration s.catalogue.generation
      lease := if role = .store then .live else s.catalogue.lease } : Catalogue).setBatch role none
    timers := (s.readyToHand role items).timers
    photo := s.photo.movePins (photoRefs s.catalogue.items) (photoRefs items) } := by
  cases role <;> rfl

theorem readyToHand_batchIdle : (s.readyToHand role items).timeLeft (.batchIdle role) = none := by
  cases role with
  | media => exact State.stopTimer_timeLeft_self _ _
  | store => exact (startTimer_timeLeft_other _ (by decide) _).trans (State.stopTimer_timeLeft_self _ _)

theorem readyToHand_priceLease :
    (s.readyToHand role items).timeLeft .priceLease =
      if role = .store then some s.leaseMs else s.timeLeft .priceLease := by
  cases role with
  | media => exact stopTimer_timeLeft_other s (by decide)
  | store => exact State.startTimer_timeLeft_self _ _ _

theorem readyToHand_changeoverLimit :
    (s.readyToHand role items).timeLeft .changeoverLimit = s.timeLeft .changeoverLimit := by
  cases role with
  | media => exact stopTimer_timeLeft_other s (by decide)
  | store => exact (startTimer_timeLeft_other _ (by decide) _).trans (stopTimer_timeLeft_other s (by decide))

/-- A commit touches the changeover limit in its hand-off alone, and no other timer there. -/
theorem committed_timeLeft (u : TimerId) (hu : u ≠ .changeoverLimit) :
    (s.committed role items).timeLeft u = (s.readyToHand role items).timeLeft u := by
  rw [committed_frame]; exact handTarget_timeLeft _ _ hu

theorem committed_catalogue : (s.committed role items).catalogue = ({ s.catalogue with
    items := items
    generation := nextGeneration s.catalogue.generation
    lease := if role = .store then .live else s.catalogue.lease } : Catalogue).setBatch role none := by
  rw [committed_frame]
  show (State.handTarget _ _).catalogue = _
  rw [State.handTarget_catalogue, readyToHand_eq]

theorem committed_photo :
    (s.committed role items).photo = s.photo.movePins (photoRefs s.catalogue.items) (photoRefs items) := by
  rw [committed_frame]
  show (State.handTarget _ _).photo = _
  rw [State.handTarget_photo, readyToHand_eq]

theorem committed_current : (s.committed role items).changeover.current = s.commitTarget role := by
  rw [committed_frame]; exact handTarget_current _ _

/-- What a commit hands is taken by the controller as it stood before the commit. -/
theorem committed_handed : TargetHanded s (s.committed role items) (s.commitTarget role) := by
  have hb := readyToHand_eq s role items
  have hf := committed_frame s role items
  exact ((handTarget_handed (s.commitTarget role)).of_eq (by rw [hf]) (by rw [hf]) (by rw [hf]) (by rw [hf])
      (timeLeft_of_timers (by rw [hf]) _) fun p => committed_keeps_flag s role items).of_before
    (by rw [hb]) (by rw [hb]) (by rw [hb]) (by rw [hb]) (readyToHand_changeoverLimit s role items)
    (congrArg natOf (by rw [hb]))

theorem committed_pricesRestored (hr : role = .store) (hl : s.catalogue.lease = .expired) {l : LaneNo}
    (hf : s.portFitted (.lane l) = true) : FlagSet (s.committed role items) (.lane l) .pricesRestored := by
  rw [committed_eq, if_pos ⟨hr, hl⟩]
  refine raiseLanes_flagSet _ (by decide) ((portFitted_of_inForce ?_ _).trans hf)
  rw [State.handTarget_inForce, readyToHand_eq]

/-- The frame of a commit, with the answer that its port then holds. -/
theorem committed_holdAnswer_frame (p : PortId) (a : Answer) (u : State)
    (hu : u = (s.committed role items).holdAnswer p a) : u = { s with
      ports := u.ports, catalogue := u.catalogue, timers := u.timers, photo := u.photo, changeover := u.changeover
      freeze := u.freeze, links := u.links, composer := u.composer } := by
  subst hu
  apply State.eq_of_fields <;> simp [State.committed]

/-- Validation reads the slots and the holds alone, and no port. -/
theorem validate_clockIn (p : PortId) (n : Nat) (es : List BatchEntry) : ∀ (i : Nat) (t : Table Item),
    (s.clockIn p n).validate i t es = s.validate i t es := by
  have entry : ∀ t e, (s.clockIn p n).applyEntry t e = s.applyEntry t e := fun t e => by rw [clockIn_eq]; rfl
  induction es with
  | nil => exact fun _ _ => rfl
  | cons e es ih =>
    intro i t
    simp only [State.validate, entry, ih]

end Commit

/-- A commit that passes, on the port of its role: what it answers and leaves (R16, R18, R20, R21). -/
theorem batchCommit_passes {s : State} {role : WritingRole} (tag : Byte) {entries : List BatchEntry}
    {items : Table Item} (h : s.Takes (portOfRole role)) (ho : s.catalogue.batch role = some entries)
    (hf : ¬ (role = .store ∧ s.freeze.state.inForce = true))
    (hv : s.validate 0 s.catalogue.items entries = .ok items) :
    exec (.batchCommit (portOfRole role) tag []) s =
      .next (((s.clockIn (portOfRole role) 6).committed role items).holdAnswer (portOfRole role)
        (okTo .batchCommit tag (be 4 ((s.clockIn (portOfRole role) 6).committed role items).catalogue.generation ++
          [flagByte (decide (role = .store ∧ s.catalogue.lease = .expired))]))) := by
  have hc := batchCommit_of_valid (s := s.clockIn (portOfRole role) 6) (role := role) (entries := entries)
    (items := items) (by simpa using ho) (by simpa using hf) (by simpa [validate_clockIn] using hv)
  rw [State.clockIn_catalogue s] at hc
  exact (exec_batchCommit s role tag []).trans
    (request_answers (t := .batchCommit) (payload := []) h (writers_hold role) (Nat.zero_le _) (Nat.le_refl 0) hc)

/-- A refused commit keeps its batch, and its idle timer restarts (R12, R17). -/
theorem batchCommit_refused {s : State} {role : WritingRole} (tag : Byte) {entries : List BatchEntry} {r : Reply}
    (h : s.Takes (portOfRole role)) (ho : s.catalogue.batch role = some entries)
    (hr : ∀ n, batchCommit role (s.clockIn (portOfRole role) n) =
      (r, (s.clockIn (portOfRole role) n).keepBatch role entries)) :
    ∃ t, exec (.batchCommit (portOfRole role) tag []) s = .next t ∧
      AnsweredOn s t (portOfRole role) ⟨RequestType.batchCommit.code, tag, r.status, r.payload⟩ ∧
      t = { s with ports := t.ports, timers := (s.startTimer (.batchIdle role) 30000).timers } := by
  have hk := answered_with_keepBatch (t := .batchCommit) (payload := []) h rfl (Nat.zero_le _) (Nat.le_refl 0)
    (exec_batchCommit s role tag []) hr
  rwa [setBatch_batch s.catalogue role ho] at hk

/-- Settles O5: validation by `validate_cons`; a commit that passes leaves `State.committed` of the state `u` that its
message leaves, and one that fails keeps its batch. -/
theorem batchCommitInstallsBatchOrKeepsIt : Obligations.BatchCommitInstallsBatchOrKeepsIt := by
  refine ⟨fun s t i => rfl, validate_cons, fun s role tag h hc => ?noBatch,
    fun s role tag entries items h ho hf hv => ?passes,
    fun s role tag entries h ho => ⟨fun hrole hfrozen => ?underFreeze, fun reason i hf hv => ?fails⟩⟩
  case noBatch =>
    exact answersOnly_of_takes (t := .batchCommit) (payload := []) h (writers_hold role) (Nat.zero_le _) (Nat.le_refl 0)
      (exec_batchCommit s role tag []) (batchCommit_of_closed (by simpa using hc)) rfl
  case underFreeze =>
    exact batchCommit_refused tag h ho fun n =>
      batchCommit_of_frozen (by simpa using ho) (by simpa using And.intro hrole hfrozen)
  case fails =>
    exact batchCommit_refused tag h ho fun n =>
      batchCommit_of_invalid (by simpa using ho) (by simpa using hf) (by simpa [validate_clockIn] using hv)
  case passes =>
    generalize hu : s.clockIn (portOfRole role) 6 = u
    have hpass := batchCommit_passes tag h ho hf hv
    rw [hu] at hpass
    have hframe : u = { s with ports := u.ports } := by rw [← hu]; exact clockIn_eq _ _ _
    have hcat : u.catalogue = s.catalogue := by rw [hframe]
    have hcommit := committed_catalogue u role items
    rw [hcat] at hcommit
    have hgen : (u.committed role items).catalogue.generation = nextGeneration s.catalogue.generation := by
      rw [hcommit, setBatch_generation]
    have hcurrent : (u.committed role items).changeover.current = s.commitTarget role := by
      rw [committed_current, hframe]; rfl
    have hlease : (u.committed role items).timeLeft .priceLease =
        if role = .store then some u.leaseMs else u.timeLeft .priceLease :=
      (committed_timeLeft u role items .priceLease nofun).trans (readyToHand_priceLease u role items)
    refine ⟨_, hpass, by simp [Holds], ?installed, hgen, ?closed, ?idleStopped, ?otherBatch, ?pins, ?media, ?store,
      ?flags, ?current, ?handed, committed_holdAnswer_frame u role items _ _ _ rfl |>.trans ?frame⟩
    case installed => exact (congrArg Catalogue.items hcommit).trans (setBatch_items _ _ _)
    case closed => exact (congrArg (Catalogue.batch · role) hcommit).trans (batch_setBatch _ _ _)
    case idleStopped =>
      exact (committed_timeLeft u role items (.batchIdle role) nofun).trans (readyToHand_batchIdle u role items)
    case otherBatch =>
      intro other hne
      refine (congrArg (Catalogue.batch · other) hcommit).trans ((batch_setBatch_of_ne _ hne _).trans ?_)
      cases other <;> rfl
    case pins =>
      refine (committed_photo u role items).trans ?_
      rw [hframe]
    case media =>
      rintro rfl
      refine ⟨(congrArg Catalogue.lease hcommit).trans rfl, hlease.trans ?_⟩
      rw [if_neg (by decide), hframe]; rfl
    case store =>
      rintro rfl
      refine ⟨congrArg Catalogue.lease hcommit, hlease.trans ?_⟩
      rw [if_pos rfl, hframe]; rfl
    case flags =>
      intro hrole hexpired l hl
      exact holdAnswer_flagSet _ _ (committed_pricesRestored u role items hrole (by rw [hcat, hexpired])
        (by rw [hframe]; exact hl))
    case current =>
      refine hcurrent.trans ?_
      rw [State.holdAnswer_catalogue, hgen]; rfl
    case handed =>
      have hh := committed_handed u role items
      rw [← committed_current] at hh
      rw [← hu] at hh ⊢
      exact (hh.holdAnswer _ _).of_clockIn
    case frame => rw [hframe]

/-! ## The reads (R26, R27) -/

theorem itemRead_present {s : State} {item : Nat} {r : Item} (hi : item ≤ 511)
    (hf : Table.find item s.catalogue.items = some r) : itemRead (be 2 item) s =
      (.ok (be 4 s.catalogue.generation ++ be 1 r.variants.length ++ be 1 r.dayParts.toNat ++ glyphBytes r.label ++
        [noneByte r.photo] ++ r.variants.flatMap Variant.bytes), s) := by
  have hn : natOf (be 2 item) = item := natOf_be (by omega)
  simp only [itemRead, hn, hf]
  exact if_neg (Nat.not_lt.2 hi)

theorem priceQuery_present {s : State} {item variant : Nat} {r : Item} {v : Variant} (hi : item ≤ 511)
    (hv : variant ≤ 3) (hf : Table.find item s.catalogue.items = some r) (hg : r.variants[variant]? = some v) :
    priceQuery (be 2 item ++ be 1 variant) s =
      (.ok (be 3 v.effectivePrice ++ [v.availability.byte, s.catalogue.lease.visibility.byte] ++
        be 4 s.catalogue.generation ++ [flagByte (s.offeredNow r)]), s) := by
  have hn : natOf (be 2 item) = item := natOf_be (by omega)
  have hm : natOf (be 1 variant) = variant := natOf_be (by omega)
  simp only [priceQuery, take_be_append, drop_be_append, hn, hm, hf, hg]
  exact if_neg (by omega)

theorem visibility_byte (l : Lease) : l.visibility.byte = if l = .live then 0 else 1 := by cases l <;> rfl

/-- Settles O9: the message leaves the catalogue and the store state as they were, and the owner answers of them. -/
theorem catalogueReadsGiveCommittedRecords : Obligations.CatalogueReadsGiveCommittedRecords := by
  refine ⟨fun s p tag item r h hi hf => ?_, fun s p tag item variant r v h hi hv hf hg => ?_⟩
  · refine answersOnly_of_takes (t := .itemRead) h (every_holds p) (by simp; decide) (by simp; decide) rfl
      (itemRead_present (r := r) hi (by rw [State.clockIn_catalogue]; exact hf)) ?_
    rw [State.clockIn_catalogue]; rfl
  · refine answersOnly_of_takes (t := .priceQuery) h (every_holds p) (by simp; decide) (by simp; decide) rfl
      (priceQuery_present (r := r) (v := v) hi hv (by rw [State.clockIn_catalogue]; exact hf) hg) ?_
    unfold State.offeredNow
    rw [State.clockIn_catalogue, State.clockIn_clock, visibility_byte]; rfl

/-! ## A batch's idle timer (R11) -/

/-- Settles O7: the time left passes and the timer stops, so closing the batch stops a stopped timer. -/
theorem batchIdleExpiryDiscardsBatch : Obligations.BatchIdleExpiryDiscardsBatch := by
  intro s role left h
  refine ⟨_, congrArg Host.Outcome.next (onExpiry_running h _), ?_, ?_, ?_, ?_⟩
  · simp [State.closeBatch]
  · rw [raise_timeLeft]; exact State.stopTimer_timeLeft_self _ _
  · cases role <;> exact raise_flag _ _ rfl (by decide)
  · apply State.eq_of_fields <;> simp

/-! ## The price lease (R20, R22, R64) -/

section Lease

theorem makeLive_eq (s : State) : s.makeLive = { s with
    catalogue := { s.catalogue with lease := .live }
    timers := (s.startTimer .priceLease s.leaseMs).timers } := rfl

variable (s : State)

/-- The state after the renewal of an EXPIRED lease. -/
def State.renewed : State :=
  ((s.endFreezeInForce .lease).makeLive.handVisibility .shown).raiseLanes .pricesRestored

theorem leaseRenew_of_live (h : s.catalogue.lease = .live) : leaseRenew s = (.ok [0], s.makeLive) := by
  simp only [leaseRenew, h]; rfl

theorem leaseRenew_of_expired (h : s.catalogue.lease = .expired) : leaseRenew s = (.ok [1], s.renewed) := by
  simp only [leaseRenew, h]; rfl

theorem renewed_eq : s.renewed =
    ((s.endFreezeInForce .lease).makeLive.handTarget { s.changeover.current with visibility := .shown }).raiseLanes
      .pricesRestored := by
  rw [← endFreezeInForce_current s .lease]; rfl

theorem renewed_catalogue : s.renewed.catalogue = { s.catalogue with lease := .live } := by
  simp [State.renewed, State.makeLive]

theorem renewed_current : s.renewed.changeover.current = { s.changeover.current with visibility := .shown } := by
  simp [renewed_eq]

theorem renewed_priceLease : s.renewed.timeLeft .priceLease = some s.leaseMs := by
  rw [renewed_eq, raiseLanes_timeLeft, handTarget_timeLeft _ _ (by decide),
    ← leaseMs_of_inForce (State.endFreezeInForce_inForce s .lease)]
  exact State.startTimer_timeLeft_self _ _ _

theorem renewed_freezeLimit (h : s.freeze.state.inForce = true) : s.renewed.timeLeft .freezeLimit = none := by
  rw [renewed_eq, raiseLanes_timeLeft, handTarget_timeLeft _ _ (by decide)]
  refine (startTimer_timeLeft_other _ (by decide) _).trans ?_
  rw [State.setCatalogue_timeLeft, State.endFreezeInForce, if_pos h]
  exact endFreeze_freezeLimit _ _

theorem renewed_freeze : s.renewed.freeze.state.inForce = false ∧
    (s.freeze.state.inForce = true → s.renewed.freeze.lastEnd = some .lease) := by
  rw [renewed_eq, State.raiseLanes_freeze]
  exact handTarget_freeze_ended (State.makeLive_freeze _) _

theorem renewed_handed :
    TargetHandedAfterFreeze s s.renewed { s.changeover.current with visibility := .shown } := by
  rw [renewed_eq]
  have handed := handTarget_handedAfterFreeze_of_catalogue s .lease (makeLive_eq _)
    (startTimer_timeLeft_other _ (by decide) _) { s.changeover.current with visibility := .shown }
  exact handed.of_eq (by simp) (by simp) (by simp) (by simp) (raiseLanes_timeLeft _ _ _) fun p =>
    raiseLanes_keeps_flag _ _

theorem renewed_pricesRestored {l : LaneNo} (h : s.portFitted (.lane l) = true) :
    FlagSet s.renewed (.lane l) .pricesRestored :=
  raiseLanes_flagSet _ (by decide) ((portFitted_of_inForce (by simp) _).trans h)

/-- The frame of a renewal, with the answer that its port then holds. -/
theorem renewed_holdAnswer_frame (p : PortId) (a : Answer) (t : State) (ht : t = s.renewed.holdAnswer p a) :
    t = { s with
      ports := t.ports, catalogue := t.catalogue, timers := t.timers, changeover := t.changeover
      freeze := t.freeze, links := t.links, composer := t.composer } := by
  subst ht
  apply State.eq_of_fields <;> simp [State.renewed]

/-- The lease timer is stopped when the lease expires, and nothing of the expiry starts it. -/
theorem expireLease_priceLease : s.expireLease.timeLeft .priceLease = s.timeLeft .priceLease := by
  unfold State.expireLease
  rw [raise_timeLeft, raiseLanes_timeLeft]
  refine (handTarget_timeLeft _ _ (by decide)).trans ((timeLeft_of_timers (State.cutShort_timers _) _).trans ?_)
  exact endFreezeInForce_timeLeft s .lease (by decide) (by decide)

theorem expireLease_catalogue : s.expireLease.catalogue = { s.catalogue with lease := .expired } := by
  simp [State.expireLease]

theorem expireLease_freeze : s.expireLease.freeze.state.inForce = false ∧
    (s.freeze.state.inForce = true → s.expireLease.freeze.lastEnd = some .lease) := by
  unfold State.expireLease
  rw [State.raise_freeze, State.raiseLanes_freeze]
  exact handTarget_freeze_ended (s := s) (c := .lease) (by simp) _

theorem expireLease_current :
    s.expireLease.changeover.current = { s.changeover.current with visibility := .withheld } := by
  simp [State.expireLease, State.handVisibility]

theorem expireLease_pricesWithheld {l : LaneNo} (h : s.portFitted (.lane l) = true) :
    FlagSet s.expireLease (.lane l) .pricesWithheld :=
  raise_keeps_flag _ _ _ _ _
    (raiseLanes_flagSet _ (by decide) ((portFitted_of_inForce (by simp) _).trans h))

theorem expireLease_leaseExpired : FlagSet s.expireLease .store .leaseExpired := raise_flag _ _ rfl (by decide)

/-- The hand-off of the lease timer's expiry, said of the state in which the time left on it has passed. -/
theorem priceLeaseExpiry_handed (left : Nat) : TargetHandedAfterFreeze { s.elapse left with composer := leaseCut s }
    ((s.elapse left).stopTimer .priceLease).expireLease { s.changeover.current with visibility := .withheld } :=
  (expireLease_handed ((s.elapse left).stopTimer .priceLease)).of_before rfl rfl rfl rfl
    (stopTimer_timeLeft_other _ (by decide)) rfl

end Lease

/-- LEASE_RENEW with the lease EXPIRED. -/
theorem exec_leaseRenew_of_expired {s : State} (tag : Byte) (h : s.Takes .store) (hl : s.catalogue.lease = .expired) :
    exec (.leaseRenew .store tag []) s =
      .next ((s.clockIn .store 6).renewed.holdAnswer .store (okTo .leaseRenew tag [1])) :=
  request_answers (t := .leaseRenew) (payload := []) h rfl (Nat.zero_le _) (Nat.le_refl 0)
    (leaseRenew_of_expired (s.clockIn .store 6) (by rw [State.clockIn_catalogue, hl]))

/-- Settles O6: a LIVE lease is renewed in place; the renewal of an EXPIRED one (`State.renewed`) and the expiry end a
freeze, hand the visibility and raise their notices. -/
theorem leaseRenewalAndExpiryMoveVisibility : Obligations.LeaseRenewalAndExpiryMoveVisibility := by
  refine ⟨fun s tag h => ?_, fun s left h => ?_⟩
  · cases hl : s.catalogue.lease with
    | live =>
      have hcat : s.catalogue = { s.catalogue with lease := .live } := by rw [← hl]
      obtain ⟨t, he, ha, ht⟩ := answered_with_catalogue (i := .leaseRenew .store tag [])
        (t := .leaseRenew) (payload := []) (c := s.catalogue)
        (timers := (s.startTimer .priceLease s.leaseMs).timers) h rfl (Nat.zero_le _) (Nat.le_refl 0) rfl
        ((leaseRenew_of_live _ (by rw [State.clockIn_catalogue, hl])).trans (by
          rw [clockIn_eq, makeLive_eq, hcat]; rfl))
      refine ⟨t, he, by rw [ht]; exact hcat, ?_, fun _ => ⟨ha, ht⟩, nofun⟩
      rw [ht]; exact State.startTimer_timeLeft_self s .priceLease s.leaseMs
    | expired =>
      generalize hu : s.clockIn .store 6 = u
      have hframe : u = { s with ports := u.ports } := by rw [← hu]; exact clockIn_eq _ _ _
      have hexec := exec_leaseRenew_of_expired tag h hl
      rw [hu] at hexec
      refine ⟨_, hexec, ?catalogue, ?lease, nofun, fun _ => ⟨?answer, ?ended, ?freeze, ?current, ?handed, ?flags,
        (renewed_holdAnswer_frame u _ _ _ rfl).trans ?frame⟩⟩
      case catalogue => rw [State.holdAnswer_catalogue, renewed_catalogue, hframe]
      case lease =>
        rw [State.holdAnswer_timeLeft, renewed_priceLease, leaseMs_of_inForce (s := s) (by rw [hframe])]
      case answer => simp [Holds, okTo]
      case ended => rw [State.holdAnswer_freeze]; exact (renewed_freeze u).1
      case freeze =>
        intro hfrozen
        have hf : u.freeze.state.inForce = true := by rw [hframe]; exact hfrozen
        rw [State.holdAnswer_freeze, State.holdAnswer_timeLeft]
        exact ⟨(renewed_freeze u).2 hf, renewed_freezeLimit u hf⟩
      case current => rw [State.holdAnswer_changeover, renewed_current, hframe]
      case handed =>
        have hh := renewed_handed u
        rw [show u.changeover = s.changeover by rw [hframe]] at hh
        rw [← hu] at hh ⊢
        exact (hh.holdAnswer _ _).of_clockIn
      case flags =>
        intro l hf
        exact holdAnswer_flagSet _ _ (renewed_pricesRestored u ((portFitted_of_inForce (by rw [hframe]) _).trans hf))
      case frame => rw [hframe]
  · obtain ⟨hended, hcause⟩ := expireLease_freeze ((s.elapse left).stopTimer .priceLease)
    refine ⟨((s.elapse left).stopTimer .priceLease).expireLease, congrArg Host.Outcome.next (onExpiry_running h _),
      expireLease_catalogue _, ?lease, hended, hcause, ?current, priceLeaseExpiry_handed s left,
      fun l hf => expireLease_pricesWithheld _ hf, expireLease_leaseExpired _, ?frame⟩
    case current => rw [expireLease_current, State.stopTimer_changeover, State.elapse_changeover]
    case lease => rw [expireLease_priceLease]; exact State.stopTimer_timeLeft_self _ _
    case frame => apply State.eq_of_fields <;> simp

/-! ## Promotions (R24, R25) -/

section Promotions

variable (s : State)

/-- The state in which a promotion-end commit hands its generation. -/
def State.promotionsEnded : State :=
  (s.endFreezeInForce .promo).setCatalogue { s.catalogue with
    items := mapPromotions endPromotion s.catalogue.items
    generation := nextGeneration s.catalogue.generation }

theorem endPromotions_of_none (h : ¬ CountdownDue s.catalogue.items 0) : s.endPromotions = s :=
  if_neg fun hb => h ((anyPromotionOver_iff _).1 hb)

theorem endPromotions_of_due (h : CountdownDue s.catalogue.items 0) : s.endPromotions =
    (s.promotionsEnded.handTarget
      { s.changeover.current with generation := nextGeneration s.catalogue.generation }).raise .promoEnded .store := by
  rw [State.endPromotions, if_pos ((anyPromotionOver_iff _).2 h), State.promotionsEnded,
    ← endFreezeInForce_current s .promo]
  simp [State.handGeneration]

section Due

variable {s} (h : CountdownDue s.catalogue.items 0)
include h

theorem endPromotions_catalogue : s.endPromotions.catalogue = { s.catalogue with
    items := mapPromotions endPromotion s.catalogue.items
    generation := nextGeneration s.catalogue.generation } := by
  rw [endPromotions_of_due s h, State.raise_catalogue, State.handTarget_catalogue]; rfl

theorem endPromotions_current : s.endPromotions.changeover.current =
    { s.changeover.current with generation := nextGeneration s.catalogue.generation } := by
  rw [endPromotions_of_due s h, State.raise_changeover, handTarget_current]

theorem endPromotions_freeze : s.endPromotions.freeze.state.inForce = false ∧
    (s.freeze.state.inForce = true → s.endPromotions.freeze.lastEnd = some .promo) := by
  rw [endPromotions_of_due s h, State.raise_freeze]
  exact handTarget_freeze_ended (State.setCatalogue_freeze _ _) _

theorem endPromotions_handed : TargetHandedAfterFreeze s s.endPromotions
    { s.changeover.current with generation := nextGeneration s.catalogue.generation } := by
  rw [endPromotions_of_due s h]
  exact (handTarget_handedAfterFreeze_of_catalogue s .promo (w := s.promotionsEnded) rfl rfl _).of_eq (by simp)
    (by simp) (by simp) (by simp) (raise_timeLeft _ _ _ _) fun p => raise_keeps_flag _ _ _ _ _

theorem endPromotions_promoEnded : FlagSet s.endPromotions .store .promoEnded := by
  rw [endPromotions_of_due s h]; exact raise_flag _ _ rfl (by decide)

end Due

theorem endPromotions_minute : s.endPromotions.timeLeft .minute = s.timeLeft .minute := by
  by_cases h : CountdownDue s.catalogue.items 0
  · rw [endPromotions_of_due s h, raise_timeLeft, handTarget_timeLeft _ _ (by decide)]
    exact endFreezeInForce_timeLeft s .promo (by decide) (by decide)
  · rw [endPromotions_of_none s h]

/-- The frame of a promotion-end commit. -/
theorem endPromotions_frame : s.endPromotions = { s with
    ports := s.endPromotions.ports, catalogue := s.endPromotions.catalogue, timers := s.endPromotions.timers
    changeover := s.endPromotions.changeover, freeze := s.endPromotions.freeze, links := s.endPromotions.links
    composer := s.endPromotions.composer } := by
  apply State.eq_of_fields <;> simp

/-- Promotions at 0 end, and the others stay (R25). -/
theorem endPromotion_changed (t : Table Item) : PromotionsChanged t (mapPromotions endPromotion t)
    (fun x => if x.minutes = 0 then none else some x) := by
  refine mapPromotions_changed t _ _ fun e _ v _ => ?_
  cases v.promotion <;> rfl

/-- The state after a minute, before the promotions that it brought to 0 end. -/
def State.minuteLowered (left : Nat) : State :=
  (((s.elapse left).stopTimer .minute).startTimer .minute 60000).setCatalogue
    { s.catalogue with items := mapPromotions lowerPromotion s.catalogue.items }

theorem exec_minuteTimerExpiry {left : Nat} (h : s.timeLeft .minute = some left) :
    exec .minuteTimerExpiry s = .next (s.minuteLowered left).endPromotions :=
  congrArg Host.Outcome.next (onExpiry_running h _)

theorem minuteLowered_due (left : Nat) :
    CountdownDue (s.minuteLowered left).catalogue.items 0 ↔ CountdownDue s.catalogue.items 1 :=
  (anyPromotionOver_iff _).symm.trans (anyPromotionOver_lowered _)

theorem minuteLowered_changeoverLimit (left : Nat) :
    (s.minuteLowered left).timeLeft .changeoverLimit = (s.elapse left).timeLeft .changeoverLimit :=
  (startTimer_timeLeft_other _ (by decide) _).trans (stopTimer_timeLeft_other _ (by decide))

/-- Whether or not a countdown ends, a minute lowers those above 1 and removes the others (R24, R25). -/
theorem minute_promotionsChanged (left : Nat) :
    PromotionsChanged s.catalogue.items (s.minuteLowered left).endPromotions.catalogue.items
      (fun x => if x.minutes ≤ 1 then none else some { x with minutes := x.minutes - 1 }) := by
  by_cases h : CountdownDue s.catalogue.items 1
  · rw [endPromotions_catalogue ((minuteLowered_due s left).2 h)]
    exact ended_changed s.catalogue.items
  · rw [endPromotions_of_none _ (mt (minuteLowered_due s left).1 h)]
    exact lowered_changed s.catalogue.items h

/-- The hand-off of a minute at which a countdown ends, said of the state in which the time left has passed. -/
theorem minute_handed {left : Nat} (h : CountdownDue s.catalogue.items 1) :
    TargetHandedAfterFreeze (s.elapse left) (s.minuteLowered left).endPromotions
      { s.changeover.current with generation := nextGeneration s.catalogue.generation } :=
  (endPromotions_handed ((minuteLowered_due s left).2 h)).of_before rfl rfl rfl rfl
    (minuteLowered_changeoverLimit s left) rfl

end Promotions

/-- Settles O8: a minute is the lowering of the countdowns and the promotion-end commit after it, and the row
PROMOTION_END_COMMIT is that commit alone. -/
theorem minutesLowerAndEndPromotions : Obligations.MinutesLowerAndEndPromotions := by
  refine ⟨fun s left h => ?minute, fun s => ⟨fun hn => ?noneDue, fun hd => ?due⟩⟩
  case minute =>
    refine ⟨_, exec_minuteTimerExpiry s h, ?restarted, minute_promotionsChanged s left, fun hn => ?none,
      fun hd => ?ended, ?frame⟩
    case restarted => exact (endPromotions_minute _).trans (State.startTimer_timeLeft_self _ _ _)
    case none => rw [endPromotions_of_none _ (mt (minuteLowered_due s left).1 hn)]; rfl
    case ended =>
      have hdue := (minuteLowered_due s left).2 hd
      have hcat := endPromotions_catalogue hdue
      have hgen := congrArg Catalogue.generation hcat
      obtain ⟨hended, hcause⟩ := endPromotions_freeze hdue
      refine ⟨by rw [hcat]; rfl, ?_, hended, hcause, ?_, endPromotions_promoEnded hdue⟩
      · rw [hgen]; exact minute_handed s hd
      · rw [hgen]; exact endPromotions_current hdue
    case frame => exact endPromotions_frame (s.minuteLowered left)
  case noneDue => exact congrArg Host.Outcome.next (endPromotions_of_none s hn)
  case due =>
    have hcat := endPromotions_catalogue hd
    have hgen := congrArg Catalogue.generation hcat
    obtain ⟨hended, hcause⟩ := endPromotions_freeze hd
    refine ⟨s.endPromotions, rfl, ?_, by rw [hcat]; rfl, hended, hcause, ?_, ?_, endPromotions_promoEnded hd,
      endPromotions_frame s⟩
    · rw [hcat]; exact endPromotion_changed s.catalogue.items
    · rw [hgen]; exact endPromotions_current hd
    · rw [hgen]; exact endPromotions_handed hd

end Sys2Proof.Machine
end

section
/-! PROOFS. What a step runs, when a placement fits, and the plan requests (chapter 2): the statements O1, O11 and O10. -/
namespace Sys2Proof.Machine

open Sys2Proof.Payload

/-! ## The queue -/

theorem step_of_front (c : Instr) (s : State) : step { s with pending := c :: s.pending } = exec c s := rfl

theorem step_of_empty {s : State} (h : s.pending = []) : step s = idle s := by
  unfold step; rw [h]

theorem idle_of_event {s : State} {c : Instr} (h : s.ownEvent = some c) : idle s = exec c s := by
  unfold idle; rw [h]

theorem idle_of_none {s : State} (h : s.ownEvent = none) : idle s = .next (s.elapse 1).paintNext := by
  unfold idle; rw [h]

theorem paintNext_of_idle {s : State} (h : s.composer.engine = none) : s.paintNext = s := by
  unfold State.paintNext; rw [h]

theorem paintNext_of_done {s : State} {c : Composition} (h : s.composer.engine = some c) (ht : c.todo = []) :
    s.paintNext = s := by
  simp only [State.paintNext, h, ht]

/-- Settles O1: by the queue, on an empty queue by the event that is due, and in the engine by the placements left. -/
theorem stepRunsFrontCommandOrOwnEvent : Obligations.StepRunsFrontCommandOrOwnEvent := by
  refine ⟨step_of_front, fun s h => ⟨fun c hc => ?event, fun hn => ?passes⟩,
    fun s => ⟨paintNext_of_idle, fun c hc => ?engine⟩⟩
  case event => exact (step_of_empty h).trans (idle_of_event hc)
  case passes => exact (step_of_empty h).trans (idle_of_none hn)
  case engine => exact ⟨paintNext_of_done hc, fun pl rest ht => paintNext_painted hc ht⟩

/-! ## When a placement fits (R31) -/

theorem insideGrid_iff (r : Rect) (g : Grid) :
    r.insideGrid g = true ↔ r.column + r.width ≤ g.columns ∧ r.row + r.height ≤ g.rows := by
  simp [Rect.insideGrid]

theorem allowed_iff (k : PlacementKind) (role : PanelRole) :
    k.allowed role = true ↔ (role = .menu → ∀ c, k ≠ .order c ∧ k ≠ .total c) := by
  cases role with
  | menu => cases k <;> simp [PlacementKind.allowed]
  | lane l => cases k <;> simp [PlacementKind.allowed]

/-- Settles O11: the grid and the role are the two checks that the model makes. -/
theorem placementFitsInsideGridAndRole : Obligations.PlacementFitsInsideGridAndRole := by
  intro s p pl
  rw [State.placementFits, Bool.and_eq_true, insideGrid_iff, allowed_iff, and_assoc]

/-! ## A plan that is replaced (R36, R38, R40, R42) -/

section Plans

variable (s : State)

theorem clockIn_linkFitted (p : PortId) (n : Nat) (q : PanelNo) : (s.clockIn p n).linkFitted q = s.linkFitted q := by
  rw [clockIn_eq]; rfl

theorem clockIn_live (p : PortId) (n : Nat) (q : PanelNo) : (s.clockIn p n).live q = s.live q := by
  rw [clockIn_eq]; rfl

theorem placementPasses_clockIn (p : PortId) (n : Nat) (q : PanelNo) (pl : Placement) :
    PlacementPasses (s.clockIn p n) q pl ↔ PlacementPasses s q pl := by
  rw [clockIn_eq]; exact Iff.rfl

theorem placementRefused_clockIn (p : PortId) (n : Nat) (q : PanelNo) (bytes : List Byte) (status : Status) :
    PlacementRefused (s.clockIn p n) q bytes status ↔ PlacementRefused s q bytes status := by
  rw [clockIn_eq]; exact Iff.rfl

/-- The Composer after a plan of the panel has changed: a live plan's panel is asked for (R36, R40). -/
def composerForPlan (s : State) (p : PanelNo) (d : DayPart) : Composer :=
  (if (s.composeTarget p).dayPart = d then s.composeRequest p (Reason.set .plan) else s).composer

theorem composerForPlan_clockIn (port : PortId) (n : Nat) (p : PanelNo) (d : DayPart) :
    composerForPlan (s.clockIn port n) p d = composerForPlan s p d := by
  have ht : (s.clockIn port n).composeTarget p = s.composeTarget p := by rw [clockIn_eq]; rfl
  unfold composerForPlan
  rw [ht]
  split
  · exact composeRequest_composer_congr (State.clockIn_composer s port n) p _ (clockIn_live s port n p)
  · exact State.clockIn_composer s port n

theorem replacePlan_eq (p : PanelNo) (d : DayPart) (pls : List Placement) : s.replacePlan p d pls = { s with
    plans := s.plans.set p ((s.plans.get p).set d ⟨pls, (s.plan p d).revision + 1⟩)
    photo := s.photo.movePins (s.plan p d).pins (Plan.pins ⟨pls, (s.plan p d).revision + 1⟩)
    composer := composerForPlan s p d } := by
  apply State.eq_of_fields
  case plans => unfold State.replacePlan; dsimp only; split <;> simp
  case photo => unfold State.replacePlan; dsimp only; split <;> simp
  case composer =>
    unfold State.replacePlan composerForPlan
    have live : ∀ r : State, r.changeover = s.changeover → r.planLive p d = decide ((s.composeTarget p).dayPart = d) :=
      fun r hr => by unfold State.planLive State.composeTarget; rw [hr]
    dsimp only
    rw [live _ (by simp)]
    by_cases h : (s.composeTarget p).dayPart = d
    · rw [if_pos h, if_pos (decide_eq_true h)]
      refine composeRequest_composer_congr ?_ p _ ?_ <;> rfl
    · rw [if_neg h, if_neg (by simpa using h)]; rfl
  all_goals simp

/-- A replaced plan reads back as the new list with the next revision. -/
theorem replacePlan_plan_self (p : PanelNo) (d : DayPart) (pls : List Placement) :
    (s.replacePlan p d pls).plan p d = ⟨pls, (s.plan p d).revision + 1⟩ := by
  rw [replacePlan_eq]; simp [State.plan]

theorem replacePlan_plan_other (p : PanelNo) (d : DayPart) (pls : List Placement) {q : PanelNo} {e : DayPart}
    (h : q ≠ p ∨ e ≠ d) : (s.replacePlan p d pls).plan q e = s.plan q e := by
  rw [replacePlan_eq]
  unfold State.plan
  by_cases hq : q = p
  · subst hq
    rw [PerPanel.get_set_self, PerDayPart.get_set_of_ne _ (h.resolve_left (· rfl))]
  · rw [PerPanel.get_set_of_ne _ hq]

end Plans

/-- A request on the media port whose owner replaces a plan and answers its revision. -/
theorem answered_with_plan {s : State} (h : s.Takes .media) {t : RequestType} {tag : Byte} {payload : List Byte}
    (hr : t.permission.holds .media = true) (hlo : t.lengths.1 ≤ payload.length) (hhi : payload.length ≤ t.lengths.2)
    {owner : State → Reply × State} {i : Instr} (hi : exec i s = .next (s.request t .media tag payload owner))
    {p : PanelNo} {d : DayPart} {pls : List Placement} (ho : ∀ n, owner (s.clockIn .media n) =
      (.ok (be 2 (((s.clockIn .media n).replacePlan p d pls).plan p d).revision.toNat),
        (s.clockIn .media n).replacePlan p d pls)) :
    ∃ u, exec i s = .next u ∧ AnsweredOn s u .media (okTo t tag (be 2 ((s.plan p d).revision + 1).toNat)) ∧
      u.plan p d = ⟨pls, (s.plan p d).revision + 1⟩ ∧ (∀ q e, (q ≠ p ∨ e ≠ d) → u.plan q e = s.plan q e) ∧
      u.photo = s.photo.movePins (s.plan p d).pins (Plan.pins ⟨pls, (s.plan p d).revision + 1⟩) ∧
      u.composer = composerForPlan s p d ∧
      u = { s with ports := u.ports, plans := u.plans, photo := u.photo, composer := u.composer } := by
  generalize hn : 6 + payload.length = n
  have hplan : ∀ q e, (s.clockIn .media n).plan q e = s.plan q e := fun q e => by
    unfold State.plan; rw [State.clockIn_plans]
  refine ⟨_, hi.trans (request_answers h hr hlo hhi (ho _)), ?answer, ?self, ?others, ?pins, ?composer, ?frame⟩ <;>
    rw [hn]
  case answer =>
    rw [replacePlan_plan_self, hplan]
    exact answeredOn_of_ports (State.replacePlan_ports _ p d pls) _
  case self => rw [State.holdAnswer_plan, replacePlan_plan_self, hplan]
  case others =>
    intro q e hqe
    rw [State.holdAnswer_plan, replacePlan_plan_other _ p d pls hqe, hplan]
  case pins => rw [State.holdAnswer_photo, replacePlan_eq, hplan, State.clockIn_photo]
  case composer => rw [State.holdAnswer_composer, replacePlan_eq, composerForPlan_clockIn]
  case frame => apply State.eq_of_fields <;> simp

theorem exec_planLoad (s : State) (tag : Byte) (payload : List Byte) : exec (.planLoad .media tag payload) s =
    .next (s.request .planLoad .media tag payload (planLoad payload)) := rfl

theorem exec_planClear (s : State) (tag : Byte) (payload : List Byte) : exec (.planClear .media tag payload) s =
    .next (s.request .planClear .media tag payload (planClear payload)) := rfl

theorem panel?_be (p : PanelNo) : panel? (BitVec.ofNat 8 p.val) = some p :=
  panel?_eq_some (by rw [BitVec.toNat_ofNat]; omega)

theorem dayPart?_be (d : DayPart) : dayPart? (BitVec.ofNat 8 d.val) = some d := by
  have hd : (BitVec.ofNat 8 d.val).toNat = d.val := by rw [BitVec.toNat_ofNat]; omega
  unfold dayPart? index?
  rw [dif_pos (by omega)]
  exact congrArg some (Fin.ext hd)

theorem planClear_takes {s : State} {p : PanelNo} (d : DayPart) (hf : s.linkFitted p = true) :
    planClear (be 1 p.val ++ be 1 d.val) s =
      (.ok (be 2 ((s.replacePlan p d []).plan p d).revision.toNat), s.replacePlan p d []) := by
  simp only [be_one, List.cons_append, List.nil_append, planClear, panel?_be, dayPart?_be, hf]
  rfl

theorem planClear_refuses {s : State} {panel dayPart : Byte}
    (h : 5 < panel.toNat ∨ 3 < dayPart.toNat ∨ ∃ p : PanelNo, panel.toNat = p.val ∧ s.linkFitted p = false) :
    planClear [panel, dayPart] s = (.refuse .badField, s) := by
  unfold planClear
  dsimp only
  obtain h | h | ⟨p, hp, hf⟩ := h
  · rw [panel?_eq_none h]
  · rw [dayPart?_eq_none h]; cases panel? panel <;> rfl
  · rw [panel?_eq_some hp]
    cases dayPart? dayPart with
    | none => rfl
    | some d => exact if_pos hf

theorem flatMap_placement_length {pls : List Placement} (h : ∀ pl ∈ pls, PlacementInRange pl) :
    (pls.flatMap placement).length ≤ 31 * pls.length := by
  induction pls with
  | nil => exact Nat.le_refl 0
  | cons pl pls ih =>
    obtain ⟨hpl, hpls⟩ := List.forall_mem_cons.1 h
    have := placement_length hpl
    have := ih hpls
    rw [List.flatMap_cons, List.length_append, List.length_cons]
    omega

/-- Settles O10: both requests replace one plan through `State.replacePlan`, and the refusals are those of the owners. -/
theorem planRequestsReplacePlan : Obligations.PlanRequestsReplacePlan := by
  refine ⟨fun s tag p d pls h hlen hf hpass => ?load, fun s tag panel dayPart count bytes h hlen => ?loadRefused,
    fun s tag p d h hf => ?clear, fun s tag panel dayPart h hbad => ?clearRefused⟩
  case load =>
    have hsize := flatMap_placement_length fun pl hpl => (hpass pl hpl).1
    have hbytes : (be 1 p.val ++ be 1 d.val ++ be 1 pls.length ++ pls.flatMap placement).length =
        3 + (pls.flatMap placement).length := by simp only [List.length_append, be_length]
    refine answered_with_plan (t := .planLoad) h rfl (Nat.le_trans (Nat.le_add_right 3 _) (Nat.le_of_eq hbytes.symm))
      (Nat.le_trans (Nat.le_of_eq hbytes) (Nat.le_trans ?_ (by decide : 1491 ≤ 4104))) (exec_planLoad s tag _) fun n =>
      planLoad_takes _ p d pls hlen ((clockIn_linkFitted s _ n p).trans hf) fun pl hpl =>
        (placementPasses_clockIn s _ n p pl).2 (hpass pl hpl)
    omega
  case loadRefused =>
    have answered : ∀ status index, planLoad (panel :: dayPart :: count :: bytes)
          (s.clockIn .media (6 + (panel :: dayPart :: count :: bytes).length)) =
          (⟨status, be 1 index⟩, s.clockIn .media (6 + (panel :: dayPart :: count :: bytes).length)) →
        AnswersOnly s (.planLoad .media tag (panel :: dayPart :: count :: bytes)) .media
          (refusalOf .planLoad tag status (be 1 index)) := fun status index ho =>
      answersOnly_of_takes (t := .planLoad) (payload := panel :: dayPart :: count :: bytes) h rfl (Nat.le_add_left 3 _)
        (Nat.add_le_add_right hlen 3) (exec_planLoad s tag _) ho rfl
    obtain ⟨field, fault, checks⟩ := planLoad_refuses
      (s.clockIn .media (6 + (panel :: dayPart :: count :: bytes).length)) panel dayPart count bytes
    refine ⟨fun hbad => answered _ _ (field hbad), fun hp hd hc index hx => answered _ _ (fault hp hd hc index hx),
      fun p pls hp hd hc hw => ⟨fun hf => ?unfitted, fun hf good w later status hpls hgood hbad => ?placement⟩⟩
    case unfitted => exact answered _ _ ((checks p pls hp hd hc hw).1 ((clockIn_linkFitted s _ _ p).trans hf))
    case placement =>
      exact answered _ _ ((checks p pls hp hd hc hw).2 ((clockIn_linkFitted s _ _ p).trans hf) good w later status hpls
        (fun pl hpl => (placementPasses_clockIn s _ _ p pl).2 (hgood pl hpl))
        ((placementRefused_clockIn s _ _ p w status).2 hbad))
  case clear =>
    exact answered_with_plan (t := .planClear) (payload := be 1 p.val ++ be 1 d.val) h rfl (Nat.le_refl 2)
      (Nat.le_refl 2) (exec_planClear s tag _) fun n => planClear_takes d ((clockIn_linkFitted s _ n p).trans hf)
  case clearRefused =>
    refine answersOnly_of_takes (t := .planClear) (payload := [panel, dayPart]) h rfl (Nat.le_refl 2) (Nat.le_refl 2)
      (exec_planClear s tag _) (planClear_refuses (hbad.imp_right (Or.imp_right ?_))) rfl
    exact fun ⟨p, hp, hf⟩ => ⟨p, hp, (clockIn_linkFitted s _ _ p).trans hf⟩

end Sys2Proof.Machine
end

section
/-! PROOFS. A composition's completion (chapter 3): the statement O15. -/
namespace Sys2Proof.Machine

/-! ## The judgement (R60) -/

theorem judge_eq_staged_iff (s : State) (c : Composition) : s.judge c = .staged ↔
    c.lost = false ∧ s.composeTarget c.panel = c.target ∧ s.catalogue.generation = c.target.generation := by
  unfold State.judge
  by_cases hl : c.lost = true
  · simp [hl]
  by_cases ht : s.composeTarget c.panel = c.target
  · by_cases hg : s.catalogue.generation = c.target.generation <;> simp [hl, ht, hg]
  · simp [hl, ht]

/-! ## A staging (R74, R75, R105) -/

theorem advance_membersChecked (s : State) (p : PanelNo) (v : Progress) {u : Target}
    (h : s.changeover.controller.inFlight = some u) :
    MembersChecked { s.changeover with members := s.changeover.members.set p (some v) } (s.advance p v).changeover u :=
  checkMembers_checked
    (s := s.setChangeover { s.changeover with members := s.changeover.members.set p (some v) }) h

section Staging

variable (s : State) (p : PanelNo) (k : FrameKind) (pic : Picture)

theorem stage_link_self : (s.stage p k pic).link p = { s.link p with
    sequence := (s.link p).sequence + 1
    staged := some ⟨⟨k, pictureChecksum pic, (s.link p).sequence + 1⟩, pic⟩ } := by
  simp [State.stage, State.link]

theorem stage_link_other {q : PanelNo} (h : q ≠ p) : (s.stage p k pic).link q = s.link q := by
  simp [State.stage, State.link, PerPanel.get_set_of_ne _ h]

theorem stage_live (q : PanelNo) : (s.stage p k pic).live q = s.live q := by
  unfold State.live
  by_cases h : q = p
  · subst h; rw [stage_link_self]
  · rw [stage_link_other s p k pic h]

/-- A staging for a panel that is no QUEUED member of a changeover leaves the controller as it was. -/
theorem stage_changeover_stands (h : s.changeover.controller = .idle ∨ s.changeover.members.get p ≠ some .queued) :
    (s.stage p k pic).changeover = s.changeover := by
  unfold State.stage State.advanceFrom
  dsimp only
  rw [State.setLink_changeover]
  split
  · rfl
  · next u hu =>
    refine (congrArg State.changeover (if_neg fun hq => ?_)).trans rfl
    obtain hi | hm := h
    · rw [hi] at hu; cases hu
    · exact hm hq.1

/-- A staging that carries the in-flight target advances a QUEUED member, and the checks follow (R74, R75). -/
theorem stage_membersChecked {u : Target} (hu : s.changeover.controller.inFlight = some u)
    (hm : s.changeover.members.get p = some .queued) (hk : k.carries u = true) :
    MembersChecked { s.changeover with members := s.changeover.members.set p (some .staged) }
      (s.stage p k pic).changeover u := by
  unfold State.stage State.advanceFrom
  dsimp only
  rw [State.setLink_changeover, hu]
  dsimp only
  rw [if_pos ⟨hm, hk⟩]
  exact advance_membersChecked (State.setLink p _ s) p .staged hu

end Staging

/-! ## The start that follows (R50, R51) -/

section NextStart

variable {s : State}

theorem nextEntry_of_inForce (h : s.freeze.state.inForce = true) : s.nextEntry = none := by
  have hf : s.freeze.state ≠ .off := fun e => by rw [e] at h; cases h
  unfold State.nextEntry
  split
  · rfl
  · exact if_neg hf

theorem nextEntry_of_off (h : s.freeze.state.inForce = false) (he : s.composer.engine = none) :
    s.nextEntry = s.composer.queue.find? fun e => s.startCheck e.panel := by
  have hf : s.freeze.state = .off := by cases hs : s.freeze.state <;> rw [hs] at h <;> first | rfl | cases h
  simp only [State.nextEntry, he, hf, if_true]

theorem startNext_of_none (h : s.nextEntry = none) : s.startNext = s := by
  unfold State.startNext; rw [h]

theorem startNext_composer_of_entry {e : QueueEntry} (h : s.nextEntry = some e) : s.startNext.composer =
    { s.composer with
      queue := s.composer.queue.filter (fun x => x.panel ≠ e.panel), engine := some (s.newComposition e) } := by
  unfold State.startNext; rw [h]; rfl

theorem startNext_composeTarget (p : PanelNo) : s.startNext.composeTarget p = s.composeTarget p := by
  unfold State.composeTarget; rw [State.startNext_changeover]

theorem startNext_startCheck (p : PanelNo) : s.startNext.startCheck p = s.startCheck p := by
  unfold State.startCheck; rw [startNext_composeTarget, State.startNext_catalogue]

end NextStart

/-! ## The completion (R60, R61) -/

section Completion

variable (s : State) (c : Composition)

/-- The state after the first part of a completion: what is left is painted and, when the judgement is STAGED, the frame is
staged (R60). -/
def State.judgedFrame : State :=
  if s.judge c = .staged then s.stage c.panel c.frameKind (s.paintAll c c.todo c.picture) else s

/-- The Composer as steps 1 to 3 of R61 leave it. -/
def closedComposer : Composer :=
  { queue := if c.again = true ∧ s.live c.panel = true then s.composer.queue ++ [⟨c.panel, c.againReasons⟩]
      else s.composer.queue
    engine := none
    last := s.composer.last.set c.panel
      (some ⟨s.judge c, c.reasons, c.target, c.planRevision, c.holdCopy.map HoldCopy.revision⟩) }

/-- The state from which a completion goes on to the next start (step 5 of R61). -/
def State.reported : State := ((s.judgedFrame c).closeComposition c (s.judge c)).reportEnded

theorem complete_eq : s.complete c = (s.reported c).startNext := rfl

theorem exec_compositionComplete {s : State} {c : Composition} (h : s.composer.engine = some c) :
    exec .compositionComplete s = .next (s.reported c).startNext := by
  simp only [exec, execCompositionComplete, h, complete_eq]

theorem judgedFrame_of_staged {s : State} {c : Composition} (h : s.judge c = .staged) :
    s.judgedFrame c = s.stage c.panel c.frameKind (s.paintAll c c.todo c.picture) := if_pos h

theorem judgedFrame_of_discarded {s : State} {c : Composition} (h : s.judge c ≠ .staged) : s.judgedFrame c = s :=
  if_neg h

theorem judgedFrame_composer : (s.judgedFrame c).composer = s.composer := by
  unfold State.judgedFrame; split <;> simp

theorem judgedFrame_freeze : (s.judgedFrame c).freeze = s.freeze := by
  unfold State.judgedFrame; split <;> simp

theorem judgedFrame_live (q : PanelNo) : (s.judgedFrame c).live q = s.live q := by
  unfold State.judgedFrame
  split
  · exact stage_live s _ _ _ q
  · rfl

theorem reported_links : (s.reported c).links = (s.judgedFrame c).links := by simp [State.reported]

theorem reported_changeover : (s.reported c).changeover = (s.judgedFrame c).changeover := by simp [State.reported]

theorem reported_composer : (s.reported c).composer = closedComposer s c := by
  unfold State.reported
  rw [State.reportEnded_composer]
  unfold State.closeComposition closedComposer
  simp only [State.setComposer_composer, judgedFrame_composer, judgedFrame_live, Bool.and_eq_true]

theorem reportEnded_freeze_of_freezing {s : State} {m : FreezeMode} {r : WritingRole}
    (h : s.freeze.state = .freezing m r) : s.reportEnded.freeze = { s.freeze with state := .frozen m r } := by
  unfold State.reportEnded; rw [h]; rfl

theorem reportEnded_inForce_freeze (s : State) : s.reportEnded.freeze.state.inForce = s.freeze.state.inForce := by
  unfold State.reportEnded
  split
  · next m r h => rw [h]; rfl
  · rfl

theorem reported_inForce : (s.reported c).freeze.state.inForce = s.freeze.state.inForce := by
  unfold State.reported
  rw [reportEnded_inForce_freeze, State.closeComposition_freeze, judgedFrame_freeze]

theorem reported_freeze_of_freezing {m : FreezeMode} {r : WritingRole} (h : s.freeze.state = .freezing m r) :
    (s.reported c).freeze = { s.freeze with state := .frozen m r } := by
  have hf : ((s.judgedFrame c).closeComposition c (s.judge c)).freeze = s.freeze := by
    rw [State.closeComposition_freeze, judgedFrame_freeze]
  unfold State.reported
  rw [reportEnded_freeze_of_freezing (by rw [hf]; exact h), hf]

/-- A composition that is judged STAGED in a changeover of its panel carries the in-flight target (R49, R60). -/
theorem frameKind_carries {s : State} {c : Composition} (h : s.judge c = .staged) {u : Target} {v : Progress}
    (hu : s.changeover.controller.inFlight = some u) (hm : s.changeover.members.get c.panel = some v) :
    c.frameKind.carries u = true := by
  have ht := ((judge_eq_staged_iff s c).1 h).2.1
  simp only [State.composeTarget, hu, hm] at ht
  exact decide_eq_true ht.symm

end Completion

/-- Settles O15: the completion is a staging or nothing (`State.judgedFrame`), then the closed Composer and the freeze
report (`State.reported`), then the next start, which reads the state it leaves. -/
theorem compositionCompleteStagesOrDiscards : Obligations.CompositionCompleteStagesOrDiscards := by
  intro s c hc
  have hcomposer := reported_composer s c
  have hidle : (s.reported c).composer.engine = none := by rw [hcomposer]; rfl
  have hlink : ∀ q, (s.reported c).startNext.link q = (s.judgedFrame c).link q := fun q => by
    unfold State.link; rw [State.startNext_links, reported_links]
  have hchangeover : (s.reported c).startNext.changeover = (s.judgedFrame c).changeover := by
    rw [State.startNext_changeover, reported_changeover]
  have hcheck : ∀ q, (s.reported c).startNext.startCheck q = (s.reported c).startCheck q := fun q =>
    startNext_startCheck q
  refine ⟨(s.reported c).startNext, closedComposer s c, exec_compositionComplete hc, ?record, judge_eq_staged_iff s c,
    fun hj => ?staged, fun hj => ?discarded, fun u hj hu hm => ?member, fun h => ?noMember, fun q hq => ?others,
    fun m r hf => ?freeze, rfl, fun hf => ?frozen, fun hf hnone => ?noStart,
    fun before e after hf hq hbefore he => ?start, ?frame⟩
  case record =>
    have hlast : (s.reported c).startNext.composer.last = (closedComposer s c).last := by
      rw [← hcomposer]; unfold State.startNext; split <;> rfl
    rw [hlast]
    simp [closedComposer]
  case staged =>
    rw [hlink, judgedFrame_of_staged hj, stage_link_self]
    exact ⟨_, rfl, rfl, rfl, rfl, rfl, allPainted s c c.todo c.picture⟩
  case discarded =>
    rw [State.startNext_links, reported_links, hchangeover, judgedFrame_of_discarded hj]
    exact ⟨rfl, rfl⟩
  case member =>
    rw [hchangeover, judgedFrame_of_staged hj]
    exact stage_membersChecked s c.panel _ _ hu hm (frameKind_carries hj hu hm)
  case noMember =>
    rw [hchangeover]
    by_cases hj : s.judge c = .staged
    · rw [judgedFrame_of_staged hj]; exact stage_changeover_stands s _ _ _ h
    · rw [judgedFrame_of_discarded hj]
  case others =>
    rw [hlink]
    by_cases hj : s.judge c = .staged
    · rw [judgedFrame_of_staged hj]; exact stage_link_other s _ _ _ hq
    · rw [judgedFrame_of_discarded hj]
  case freeze => rw [State.startNext_freeze]; exact reported_freeze_of_freezing s c hf
  case frozen =>
    rw [startNext_of_none (nextEntry_of_inForce ((reported_inForce s c).trans hf)), hcomposer]
  case noStart =>
    have hnext : (s.reported c).nextEntry = none := by
      rw [nextEntry_of_off ((reported_inForce s c).trans hf) hidle, hcomposer, List.find?_eq_none]
      intro x hx
      rw [← hcheck, hnone x hx]
      decide
    rw [startNext_of_none hnext, hcomposer]
  case start =>
    have hnext : (s.reported c).nextEntry = some e := by
      rw [nextEntry_of_off ((reported_inForce s c).trans hf) hidle, hcomposer, hq, List.find?_append,
        List.find?_eq_none.2 fun x hx => by rw [← hcheck, hbefore x hx]; decide]
      exact (Option.none_or).trans
        (List.find?_cons_of_pos (p := fun x : QueueEntry => (s.reported c).startCheck x.panel)
          ((hcheck e.panel).symm.trans he))
    refine ⟨(s.reported c).newComposition e, ?_, rfl, rfl, (startNext_composeTarget e.panel).symm⟩
    rw [startNext_composer_of_entry hnext, hcomposer]
  case frame =>
    rw [← complete_eq]
    apply State.eq_of_fields <;> simp

end Sys2Proof.Machine
end

section
/-! PROOFS. The status reads and the layouts of their records (R204): the statement O52. -/
namespace Sys2Proof.Machine

/-! ## A read's answer -/

/-- A request whose owner answers bytes of the state, in which the ports have no part, and changes nothing. -/
theorem read_answersOnly {s : State} {p : PortId} (h : s.Takes p) {t : RequestType} {tag : Byte} {payload : List Byte}
    (hr : t.permission.holds p = true) (hlo : t.lengths.1 ≤ payload.length) (hhi : payload.length ≤ t.lengths.2)
    {owner : State → Reply × State} {c : Instr} (hc : exec c s = .next (s.request t p tag payload owner))
    (bytes : State → List Byte) (ho : ∀ u, owner u = (.ok (bytes u), u))
    (hports : ∀ x, bytes { s with ports := x } = bytes s) : AnswersOnly s c p (okTo t tag (bytes s)) := by
  have hbytes : bytes (s.clockIn p (6 + payload.length)) = bytes s := by rw [clockIn_eq]; exact hports _
  exact answersOnly_of_takes h hr hlo hhi hc ((ho _).trans (by rw [hbytes])) rfl

/-- A request that its owner refuses for its payload alone. -/
theorem refusal_answersOnly {s : State} {p : PortId} (h : s.Takes p) {t : RequestType} {tag : Byte} {payload : List Byte}
    (hr : t.permission.holds p = true) (hlo : t.lengths.1 ≤ payload.length) (hhi : payload.length ≤ t.lengths.2)
    {owner : State → Reply × State} {c : Instr} (hc : exec c s = .next (s.request t p tag payload owner))
    {status : Status} (ho : ∀ u, owner u = (.refuse status, u)) :
    AnswersOnly s c p (refusalOf t tag status []) :=
  answersOnly_of_takes h hr hlo hhi hc (ho _) rfl

/-! ## Values of listed sets (R201) -/

theorem visibility_place (v : Visibility) : v.byte = Layout.place [Visibility.shown, .withheld] v := by cases v <;> rfl

theorem linkState_place (v : LinkState) : v.byte =
    Layout.place [LinkState.off, .detached, .training, .locked, .streaming, .rejected, .dark, .test] v := by
  cases v <;> rfl

theorem panelRole_place (v : PanelRole) : v.byte = Layout.place [PanelRole.menu, .lane 0, .lane 1] v := by
  cases v with
  | menu => rfl
  | lane l => match l with
    | 0 => rfl
    | 1 => rfl

theorem compositionOutcome_place (v : CompositionOutcome) : v.byte =
    Layout.place [CompositionOutcome.staged, .discardedLink, .discardedTarget, .discardedGeneration, .abandoned] v := by
  cases v <;> rfl

theorem testMode_place (v : TestMode) : v.byte = Layout.place [TestMode.latched, .live] v := by cases v <;> rfl

theorem testResult_place (v : TestResult) :
    v.byte = Layout.place [TestResult.running, .completed, .stopped, .aborted] v := by cases v <;> rfl

theorem settleResult_place (v : SettleResult) : v.byte = Layout.place [SettleResult.done, .partly] v := by
  cases v <;> rfl

theorem freezeMode_place (v : FreezeMode) : v.byte = Layout.place [FreezeMode.stopNow, .stopAfter] v := by
  cases v <;> rfl

theorem requester_place (v : WritingRole) : requesterByte v = Layout.place [WritingRole.store, .media] v := by
  cases v <;> rfl

theorem freezeCause_place (v : FreezeCause) :
    v.byte = Layout.place [FreezeCause.unfreeze, .limit, .lease, .promo, .daypart] v := by cases v <;> rfl

theorem progressByte_eq (v : Option Progress) : progressByte v = Layout.progress v := by
  cases v with
  | none => rfl
  | some v => cases v <;> rfl

theorem storeState_byte (v : StoreState) : v.byte = Layout.storeState v := by cases v <;> rfl

theorem panelSetByte_eq (f : PanelNo → Bool) : panelSetByte f = Layout.panelSet f := by
  have bit : ∀ (b : Bool) (n k : Nat), (if b = true then n + k else n) = n + if b = true then k else 0 := fun b n k => by
    cases b <;> rfl
  simp only [panelSetByte, Layout.panelSet, List.foldl_cons, List.foldl_nil, bit, Nat.zero_add]
  rfl

theorem reasons_byte (r : ReasonSet) : r.zeroExtend 8 = BitVec.ofNat 8 r.toNat := (BitVec.ofNat_toNat 8 r).symm

/-! ## The records of PANEL_STATUS (R117) -/

theorem target_bytes : Target.bytes = Layout.target := by
  funext u
  simp only [Target.bytes, Layout.target, visibility_place]

theorem frameRecord_bytes : FrameRecord.bytes = Layout.frameRecord := by
  funext r
  unfold FrameRecord.bytes Layout.frameRecord
  cases r.kind with
  | slate => rfl
  | composed u plan lane => simp [target_bytes]

theorem lastComposition_bytes : LastComposition.bytes = Layout.lastComposition := by
  funext c
  unfold LastComposition.bytes Layout.lastComposition
  rw [compositionOutcome_place, reasons_byte, target_bytes]
  cases c.laneRevision <;> rfl

theorem testRecord_bytes : TestRecord.bytes = Layout.testRecord := by
  funext t
  simp only [TestRecord.bytes, Layout.testRecord, testMode_place, testResult_place]

theorem descriptor_bytes : Descriptor.bytes =
    fun d => be 1 d.grid.columns ++ be 1 d.grid.rows ++ be 1 d.period ++ be 2 d.model.toNat := rfl

theorem darkSet_byte (d : DarkSet) :
    d.byte = BitVec.ofNat 8 ((if d.request then 1 else 0) + (if d.closed then 2 else 0)) := by
  obtain ⟨request, closed⟩ := d
  cases request <;> cases closed <;> rfl

/-- The place of a panel's entry, counted from position `i` (R65). -/
theorem queueEntry_from (p : PanelNo) : ∀ (queue : List QueueEntry) (i : Nat), queueEntry p i queue =
    (queue.find? fun e => e.panel = p).map fun e => (e.reasons, i + queue.findIdx fun e => e.panel = p)
  | [], _ => rfl
  | e :: rest, i => by
    unfold queueEntry
    by_cases h : e.panel = p
    · simp [h, List.findIdx_cons]
    · simp only [h, if_false, queueEntry_from p rest (i + 1), List.find?_cons, List.findIdx_cons, decide_false, cond_false]
      congr 1
      funext x
      rw [Nat.add_right_comm]; rfl

theorem queueEntry_bytes (p : PanelNo) (queue : List QueueEntry) :
    ((queueEntry p 0 queue).map fun e => [e.1.zeroExtend 8, BitVec.ofNat 8 e.2]) = Layout.queueEntry queue p := by
  rw [queueEntry_from, Option.map_map]
  simp only [Layout.queueEntry, Function.comp_def, Nat.zero_add, reasons_byte]

/-- The payload of PANEL_STATUS as the model makes it. -/
def State.statusBytes (s : State) (p : PanelNo) : List Byte :=
  [(s.link p).state.byte, (s.role p).byte] ++ be 1 (s.grid p).columns ++ be 1 (s.grid p).rows ++
    if (s.link p).state = .off then statusItems (Link.reset false) ⟨none, false, none, none, false⟩
    else statusItems (s.link p) (s.panelPart p)

theorem panelStatus_of_panel {panel : Byte} {n : PanelNo} (h : panel? panel = some n) (s : State) :
    panelStatus [panel] s = (.ok (s.statusBytes n), s) := by
  simp only [panelStatus, List.getD_cons_zero, h, State.statusBytes]

theorem panelStatus_of_outside {panel : Byte} (h : 5 < panel.toNat) (s : State) :
    panelStatus [panel] s = (.refuse .badField, s) := by
  simp only [panelStatus, List.getD_cons_zero, panel?_eq_none h]

theorem statusItems_off :
    statusItems (Link.reset false) ⟨none, false, none, none, false⟩ = List.replicate 106 0 := rfl

theorem statusBytes_off {s : State} {p : PanelNo} (h : (s.link p).state = .off) : s.statusBytes p =
    [0, Layout.place [PanelRole.menu, .lane 0, .lane 1] (s.role p)] ++ be 1 (s.grid p).columns ++ be 1 (s.grid p).rows ++
      List.replicate 106 0 := by
  simp only [State.statusBytes, h, if_true, statusItems_off, panelRole_place, LinkState.byte]

theorem statusBytes_fitted {s : State} {p : PanelNo} (h : (s.link p).state ≠ .off) :
    s.statusBytes p = Layout.panelStatus s p := by
  unfold State.statusBytes Layout.panelStatus
  rw [if_neg h]
  simp only [statusItems, State.panelPart, linkState_place, panelRole_place, descriptor_bytes, frameRecord_bytes,
    lastComposition_bytes, testRecord_bytes, progressByte_eq, queueEntry_bytes, darkSet_byte, List.append_assoc]
  rfl

/-! ## CHANGEOVER_STATUS (R88, R186) -/

theorem changeoverStatus_bytes (s : State) : s.controllerBytes ++ s.freezeBytes = Layout.changeoverStatus s := by
  have idle : (decide (s.changeover.controller = .idle) && decide (s.changeover.current ≠ s.changeover.settled)) =
      decide (s.changeover.controller = .idle ∧ s.changeover.current ≠ s.changeover.settled) :=
    (Bool.decide_and _ _).symm
  unfold State.controllerBytes State.freezeBytes Layout.changeoverStatus
  simp only [target_bytes, panelSetByte_eq, progressByte_eq, settleResult_place, freezeMode_place, requester_place,
    freezeCause_place, idle, List.map_cons, List.map_nil, List.append_assoc, List.cons_append, List.nil_append]
  cases s.changeover.controller <;> cases s.freeze.state <;> rfl

/-! ## SPACE_READ (R138) -/

theorem freeTotal_eq (free : List BlockRange) : freeTotal free = (free.map BlockRange.count).sum := by
  rw [freeTotal, ← List.foldl_map (f := BlockRange.count) (g := (· + ·)), List.sum_eq_foldl]

theorem largestFree_mem : ∀ {free : List BlockRange} {e : BlockRange}, largestFree free = some e → e ∈ free
  | x :: xs, e, h => by
    unfold largestFree at h
    split at h
    · cases h; exact List.mem_cons_self
    · next b hb =>
      split at h <;> cases h
      · exact List.mem_cons_self
      · exact List.mem_cons_of_mem _ (largestFree_mem hb)

/-- The largest free entry is the first of the greatest count (R123). -/
theorem largestFree_eq {e : BlockRange} {after : List BlockRange} (ha : ∀ x ∈ after, x.count ≤ e.count) :
    ∀ before : List BlockRange, (∀ x ∈ before, x.count < e.count) → largestFree (before ++ e :: after) = some e
  | [], _ => by
    rw [List.nil_append, largestFree]
    cases h : largestFree after with
    | none => rfl
    | some b => exact if_pos (ha b (largestFree_mem h))
  | x :: xs, hb => by
    obtain ⟨hx, hxs⟩ := List.forall_mem_cons.1 hb
    rw [List.cons_append, largestFree, largestFree_eq ha xs hxs]
    exact if_neg (Nat.not_le.2 hx)

theorem slotState_byte (v : SlotState) : v.byte.toNat = Layout.slotState v := by cases v <;> rfl

theorem countOf_state (m : PhotoMemory) {code : Byte} {n : Nat} (hc : code.toNat = n) (hn : n ≠ 0) :
    m.countOf code = m.slots.countP fun e => Layout.slotState e.2.state = n := by
  have h0 : code ≠ 0 := fun e => hn (by rw [← hc, e]; rfl)
  unfold PhotoMemory.countOf
  rw [if_neg h0]
  refine List.countP_congr fun e _ => ?_
  simp only [decide_eq_true_eq, ← slotState_byte, ← hc, BitVec.toNat_inj]

theorem countOf_zero (m : PhotoMemory) : m.countOf 0 = 192 - m.slots.length := rfl

theorem loadOutcome_bytes (r : LastLoad) :
    be 1 r.slot ++ (be 2 r.received ++ r.outcome.bytes) = Layout.lastLoad r := by
  unfold Layout.lastLoad
  cases r.outcome <;> rfl

/-- The payload of SPACE_READ as the model makes it. -/
def State.spaceBytes (s : State) : List Byte := (spaceRead s).1.payload

theorem spaceRead_eq (s : State) : spaceRead s = (.ok s.spaceBytes, s) := rfl

theorem spaceBytes_eq {s : State} {largest : Option BlockRange} (h : largestFree s.photo.free = largest) :
    s.spaceBytes = Layout.spaceRead s largest := by
  unfold State.spaceBytes spaceRead Layout.spaceRead
  simp only [Reply.ok, freeTotal_eq, largestBytes, h, List.flatMap_cons, List.flatMap_nil, List.append_nil,
    loadOutcome_bytes, LoadSession.bytes, countOf_zero, List.append_assoc]
  rw [countOf_state s.photo (code := 1) rfl (by decide), countOf_state s.photo (code := 2) rfl (by decide),
    countOf_state s.photo (code := 3) rfl (by decide), countOf_state s.photo (code := 4) rfl (by decide),
    countOf_state s.photo (code := 5) rfl (by decide)]
  rfl

/-! ## PLAN_READ and SCHEDULE_READ (R39, R175) -/

theorem placement_bytes : Placement.bytes = Payload.placement := by
  funext pl
  unfold Placement.bytes Payload.placement
  cases pl.kind <;> simp [PlacementKind.bytes, be_one, glyphBytes]

theorem planRead_of_plan {panel dayPart : Byte} {n : PanelNo} {d : DayPart} (hn : panel? panel = some n)
    (hd : dayPart? dayPart = some d) (s : State) : planRead [panel, dayPart] s =
      (.ok (be 2 (s.plan n d).revision.toNat ++ be 1 (s.plan n d).placements.length ++
        (s.plan n d).placements.flatMap Payload.placement), s) := by
  simp only [planRead, hn, hd, placement_bytes]

theorem planRead_of_outside {panel dayPart : Byte} (h : 5 < panel.toNat ∨ 3 < dayPart.toNat) (s : State) :
    planRead [panel, dayPart] s = (.refuse .badField, s) := by
  unfold planRead
  dsimp only
  obtain h | h := h
  · rw [panel?_eq_none h]
  · rw [dayPart?_eq_none h]; cases panel? panel <;> rfl

theorem scheduleEntry_bytes : ScheduleEntry.bytes = Layout.scheduleEntry := by
  funext e
  rw [ScheduleEntry.bytes, Layout.scheduleEntry, storeState_byte, BitVec.ofNat_toNat]

/-- The payload of SCHEDULE_READ in the order of R204, with this next firing. -/
def scheduleBytes (s : State) (next : Option (ScheduleEntry × Nat)) : List Byte :=
  be 3 s.clock.time ++ be 1 s.clock.day ++ [flagByte s.clock.valid, flagByte s.internalTick,
    Layout.storeState s.clock.storeState, Layout.storeState s.clock.scheduled] ++
    optBytes 1 (s.clock.override.map fun v => [Layout.storeState v]) ++ be 1 s.clock.lastOpen.val ++
    be 1 s.clock.schedule.length ++ s.clock.schedule.flatMap Layout.scheduleEntry ++
    optBytes 5 (next.map fun x => be 3 x.1.time ++ be 1 x.2 ++ [Layout.storeState x.1.destination])

theorem scheduleRead_eq (s : State) : scheduleRead s = (.ok (scheduleBytes s s.clock.nextFiring), s) := by
  simp only [scheduleRead, scheduleBytes, storeState_byte, scheduleEntry_bytes]

/-- Settles O52: each read answers the bytes of its record, in which the ports have no part, and each record's bytes are
those of its layout. -/
theorem recordReadsChangeNothing : Obligations.RecordReadsChangeNothing := by
  intro s p tag h
  refine ⟨?describe, ?profile, ?changeover, ⟨s.clock.nextFiring, nextFiring_spec s.clock, ?schedule⟩,
    fun panel n hn => ?status, fun panel hout => ?statusRefused, ?space, ?plan, ?planRefused⟩
  case describe =>
    exact read_answersOnly (t := .describe) (payload := []) h (every_holds p) (Nat.le_refl 0) (Nat.le_refl 0) rfl
      (fun u => (describe u).1.payload) (fun _ => rfl) fun _ => rfl
  case profile =>
    exact read_answersOnly (t := .profileRead) (payload := []) h (every_holds p) (Nat.le_refl 0) (Nat.le_refl 0) rfl
      (fun u => fieldNumbers.flatMap u.profileBytes) (fun _ => rfl) fun _ => rfl
  case changeover =>
    rw [← changeoverStatus_bytes]
    exact read_answersOnly (t := .changeoverStatus) (payload := []) h (every_holds p) (Nat.le_refl 0)
      (Nat.le_refl 0) rfl (fun u => u.controllerBytes ++ u.freezeBytes) (fun _ => rfl) fun _ => rfl
  case schedule =>
    exact read_answersOnly (t := .scheduleRead) (payload := []) h (every_holds p) (Nat.le_refl 0) (Nat.le_refl 0) rfl
      (fun u => scheduleBytes u u.clock.nextFiring) scheduleRead_eq fun _ => rfl
  case status =>
    have answers : AnswersOnly s (.panelStatus p tag [panel]) p (okTo .panelStatus tag (s.statusBytes n)) :=
      read_answersOnly (t := .panelStatus) (payload := [panel]) h (every_holds p) (Nat.le_refl 1) (Nat.le_refl 1) rfl
        (fun u => u.statusBytes n) (panelStatus_of_panel hn) fun _ => rfl
    by_cases hoff : (s.link n).state = .off
    · rw [if_pos hoff, ← statusBytes_off hoff]; exact answers
    · rw [if_neg hoff, ← statusBytes_fitted hoff]; exact answers
  case statusRefused =>
    exact refusal_answersOnly (t := .panelStatus) (payload := [panel]) h (every_holds p) (Nat.le_refl 1)
      (Nat.le_refl 1) rfl (panelStatus_of_outside hout)
  case space =>
    rintro rfl
    have answers : ∀ {largest}, largestFree s.photo.free = largest →
        AnswersOnly s (.spaceRead .media tag []) .media (okTo .spaceRead tag (Layout.spaceRead s largest)) := fun hl => by
      rw [← spaceBytes_eq hl]
      exact read_answersOnly (t := .spaceRead) (payload := []) h rfl (Nat.le_refl 0) (Nat.le_refl 0) rfl State.spaceBytes
        spaceRead_eq fun _ => rfl
    exact ⟨fun hnone => answers (by rw [hnone]; rfl), fun before e after hfree hb ha =>
      answers (by rw [hfree]; exact largestFree_eq ha before hb)⟩
  case plan =>
    rintro rfl panel dayPart n d hn hd
    exact read_answersOnly (t := .planRead) (payload := [panel, dayPart]) h rfl (Nat.le_refl 2) (Nat.le_refl 2) rfl
      (fun u => be 2 (u.plan n d).revision.toNat ++ be 1 (u.plan n d).placements.length ++
        (u.plan n d).placements.flatMap Payload.placement) (planRead_of_plan hn hd) fun _ => rfl
  case planRefused =>
    rintro rfl panel dayPart hout
    exact refusal_answersOnly (t := .planRead) (payload := [panel, dayPart]) h rfl (Nat.le_refl 2) (Nat.le_refl 2) rfl
      (planRead_of_outside hout)

end Sys2Proof.Machine
end

section
/-! PROOFS. What an event of a member's link makes of the changeover, and the frame boundary of a live link (chapters 4 and
5): the statement O18. -/
namespace Sys2Proof.Machine

/-! ## A member's progress (R74, R75, R76) -/

section Progress

variable {s : State} {p : PanelNo} {before after : Progress} {k : FrameKind}

/-- A frame that does not carry the in-flight target, or a member at another progress, advances nothing (R74). -/
theorem advanceFrom_stands (h : ∀ u, s.changeover.controller.inFlight = some u →
    s.changeover.members.get p = some before → k.carries u = false) : s.advanceFrom p before after k = s := by
  unfold State.advanceFrom
  split
  · rfl
  · next u hu =>
    refine if_neg fun ⟨hm, hk⟩ => ?_
    rw [h u hu hm] at hk
    cases hk

/-- A frame that carries the in-flight target advances its member (R74). -/
theorem advanceFrom_of_member {u : Target} (hu : s.changeover.controller.inFlight = some u)
    (hm : s.changeover.members.get p = some before) (hk : k.carries u = true) :
    s.advanceFrom p before after k = s.advance p after := by
  unfold State.advanceFrom
  rw [hu]
  exact if_pos ⟨hm, hk⟩

theorem checkMembers_timeLeft (s : State) {t : TimerId} (ht : t ≠ .changeoverLimit) :
    s.checkMembers.timeLeft t = s.timeLeft t := by
  unfold State.checkMembers
  split
  · rfl
  · dsimp only
    split
    · exact settleDone_timeLeft s _ ht
    · split <;> rfl

theorem advanceFrom_timeLeft {t : TimerId} (ht : t ≠ .changeoverLimit) :
    (s.advanceFrom p before after k).timeLeft t = s.timeLeft t := by
  unfold State.advanceFrom
  split
  · rfl
  · split
    · exact (checkMembers_timeLeft _ ht).trans (State.setChangeover_timeLeft _ _ _)
    · rfl

/-- An advance that leaves the controller idle has settled the changeover DONE (R76). -/
theorem advance_settledDone {u : Target} {v : Progress} (hu : s.changeover.controller.inFlight = some u)
    (hi : (s.advance p v).changeover.controller = .idle) :
    SettledDone { s.changeover with members := s.changeover.members.set p (some v) } (s.advance p v) u :=
  checkMembers_idle (s := s.setChangeover { s.changeover with members := s.changeover.members.set p (some v) }) hu hi

end Progress

/-! ## The flip gate and the flip (R77, R103) -/

section Flip

variable {s : State} {p : PanelNo} {f : Frame}

theorem gatePasses_iff (s : State) (k : FrameKind) : s.gatePasses k = true ↔
    k = .slate ∨ ∃ u r l, k = .composed u r l ∧ (u = s.changeover.settled ∨ s.changeover.controller = .armed u) := by
  cases k with
  | slate => exact ⟨fun _ => .inl rfl, fun _ => rfl⟩
  | composed u r l =>
    simp only [State.gatePasses, Bool.or_eq_true, decide_eq_true_eq]
    refine ⟨fun h => .inr ⟨u, r, l, rfl, h⟩, fun h => ?_⟩
    obtain h | ⟨_, _, _, h, hgate⟩ := h
    · cases h
    · cases h
      exact hgate

/-- The link record that a flip of the frame `f` leaves (R103). -/
def Link.flipped (l : Link) (f : Frame) : Link :=
  { l with showing := some f, staged := none, mismatchMark := false, state := f.record.kind.liveState }

theorem liveState_eq (k : FrameKind) : k.liveState = if k = .slate then .locked else .streaming := by
  cases k <;> rfl

theorem liveState_live (k : FrameKind) : k.liveState.live = true := by cases k <;> rfl

theorem flip_of_passing (hf : (s.link p).staged = some f) (hg : s.gatePasses f.record.kind = true) :
    s.flip p = (s.setLink p ((s.link p).flipped f)).advanceFrom p .staged .flipped f.record.kind := by
  simp only [State.flip, hf, hg, if_true, Link.flipped]

theorem flip_of_none (hf : (s.link p).staged = none) : s.flip p = s := by
  simp only [State.flip, hf]

theorem flip_of_held (hf : (s.link p).staged = some f) (hg : s.gatePasses f.record.kind = false) : s.flip p = s := by
  simp [State.flip, hf, hg]

/-- A flip is that of a staged frame that the gate passes, or nothing. -/
theorem flip_cases (s : State) (p : PanelNo) :
    (∃ f, (s.link p).staged = some f ∧ s.gatePasses f.record.kind = true ∧
      s.flip p = (s.setLink p ((s.link p).flipped f)).advanceFrom p .staged .flipped f.record.kind) ∨ s.flip p = s := by
  cases hf : (s.link p).staged with
  | none => exact .inr (flip_of_none hf)
  | some f =>
    cases hg : s.gatePasses f.record.kind with
    | false => exact .inr (flip_of_held hf hg)
    | true => exact .inl ⟨f, rfl, hg, flip_of_passing hf hg⟩

theorem flip_link_of_passing (hf : (s.link p).staged = some f) (hg : s.gatePasses f.record.kind = true) :
    (s.flip p).link p = (s.link p).flipped f := by
  rw [flip_of_passing hf hg, link_of_links (State.advanceFrom_links _ _ _ _ _)]
  exact State.setLink_link_self _ _ _

theorem flip_link_other {q : PanelNo} (h : q ≠ p) : (s.flip p).link q = s.link q := by
  obtain ⟨f, -, -, he⟩ | he := flip_cases s p
  · rw [he, link_of_links (State.advanceFrom_links _ _ _ _ _)]
    exact State.setLink_link_of_ne _ h _
  · rw [he]

theorem flip_timeLeft {t : TimerId} (ht : t ≠ .changeoverLimit) : (s.flip p).timeLeft t = s.timeLeft t := by
  obtain ⟨f, -, -, he⟩ | he := flip_cases s p
  · rw [he, advanceFrom_timeLeft ht, State.setLink_timeLeft]
  · rw [he]

theorem flip_live (h : s.live p = true) : (s.flip p).live p = true := by
  obtain ⟨f, hf, hg, -⟩ | he := flip_cases s p
  · unfold State.live
    rw [flip_link_of_passing hf hg]
    exact liveState_live _
  · rw [he, h]

/-- A flip moves a STAGED member of the frame's target on, with the checks that follow (R74, R75). -/
theorem flip_membersChecked (hf : (s.link p).staged = some f) (hg : s.gatePasses f.record.kind = true) {u : Target}
    (hu : s.changeover.controller.inFlight = some u) (hm : s.changeover.members.get p = some .staged)
    (hk : f.record.kind.carries u = true) :
    MembersChecked { s.changeover with members := s.changeover.members.set p (some .flipped) } (s.flip p).changeover u := by
  rw [flip_of_passing hf hg, advanceFrom_of_member (s := s.setLink p ((s.link p).flipped f)) hu hm hk]
  exact advance_membersChecked (s.setLink p ((s.link p).flipped f)) p .flipped hu

/-- Any other frame's boundary leaves the controller as it was. -/
theorem flip_changeover_stands (hf : (s.link p).staged = some f)
    (h : ∀ u, s.changeover.controller.inFlight = some u → s.changeover.members.get p = some .staged →
      f.record.kind.carries u = false) : (s.flip p).changeover = s.changeover := by
  cases hg : s.gatePasses f.record.kind with
  | false => rw [flip_of_held hf hg]
  | true =>
    rw [flip_of_passing hf hg]
    exact (congrArg State.changeover (advanceFrom_stands (s := s.setLink p ((s.link p).flipped f)) h)).trans rfl

end Flip

/-! ## The forward path (R91, R104, R205) -/

section ForwardPath

variable {s : State} {p : PanelNo}

theorem frame_transmission : Frame.transmission = Layout.transmitted := by
  funext f
  unfold Frame.transmission FrameRecord.transmitted Layout.transmitted
  rw [target_bytes]
  cases f.record.kind <;> simp [Target.bytesOrZero]

theorem transmit_link_self (s : State) (p : PanelNo) : (s.transmit p).link p =
    { s.link p with transmitting := (s.link p).showing.map Layout.transmitted } := by
  rw [← frame_transmission]
  exact State.setLink_link_self _ _ _

theorem transmit_link_other {q : PanelNo} (h : q ≠ p) : (s.transmit p).link q = s.link q :=
  State.setLink_link_of_ne _ h _

theorem linkState_live_iff (v : LinkState) : v.live = true ↔ v = .locked ∨ v = .streaming := by
  cases v <;> decide

theorem forwardPath_of_live (h : s.live p = true) : s.forwardPath p = .frames ((s.link p).transmitting.getD []) := by
  obtain h | h := (linkState_live_iff _).1 h <;> simp only [State.forwardPath, h]

/-- A transmission puts the showing frame on the forward path of a live link (R104). -/
theorem transmit_forwardPath {f : Frame} (h : s.live p = true) (hf : (s.link p).showing = some f) :
    (s.transmit p).forwardPath p = .frames (Layout.transmitted f) := by
  have hlive : (s.transmit p).live p = true := by
    unfold State.live at h ⊢
    rw [transmit_link_self]
    exact h
  rw [forwardPath_of_live hlive, transmit_link_self, hf]
  rfl

/-- What the forward path carries in each state (R91, R104). -/
theorem forwardPath_of_state (s : State) (p : PanelNo) :
    ((s.link p).state = .off ∨ (s.link p).state = .dark → s.forwardPath p = .poweredDown) ∧
    ((s.link p).state = .detached ∨ (s.link p).state = .rejected → s.forwardPath p = .silent) ∧
    (∀ left, (s.link p).state = .training → s.timeLeft (.trainingLimit p) = some left →
      s.forwardPath p = .trainingPattern (250 - left)) ∧
    ((s.link p).state = .test → s.forwardPath p = .testPattern) ∧
    (∀ bytes, s.live p = true → (s.link p).transmitting = some bytes → s.forwardPath p = .frames bytes) := by
  refine ⟨?_, ?_, fun left h ht => ?_, fun h => ?_, fun bytes h hb => ?_⟩
  · rintro (h | h) <;> simp only [State.forwardPath, h]
  · rintro (h | h) <;> simp only [State.forwardPath, h]
  · simp only [State.forwardPath, h, ht, Option.getD_some]
  · simp only [State.forwardPath, h]
  · rw [forwardPath_of_live h, hb]
    rfl

end ForwardPath

/-! ## The boundary (R102) -/

section Boundary

variable {s : State} {p : PanelNo} {left : Nat} {d : Descriptor}

/-- The state in which a boundary deals with the staged frame: the time left on the frame period timer has passed and the
timer runs again. -/
def State.periodStarted (s : State) (p : PanelNo) (left period : Nat) : State :=
  ((s.elapse left).stopTimer (.framePeriod p)).startTimer (.framePeriod p) period

theorem exec_frameBoundary (ht : s.timeLeft (.framePeriod p) = some left) (hl : s.live p = true)
    (hd : (s.link p).descriptor = some d) :
    exec (.frameBoundary p) s = .next (((s.periodStarted p left d.period).flip p).transmit p) := by
  have hlive : ((s.elapse left).stopTimer (.framePeriod p)).live p = true := hl
  have hperiod : (((s.elapse left).stopTimer (.framePeriod p)).link p).framePeriodMs = d.period := by
    simp only [State.stopTimer_link, State.elapse_link, Link.framePeriodMs, hd]
  refine congrArg Host.Outcome.next ((onExpiry_running ht _).trans ?_)
  unfold State.boundary
  rw [if_pos hlive, hperiod]
  rfl

end Boundary

/-- Settles O18: a boundary is a flip (`State.flip`) and a transmission on a state that differs from `s` in its timers
alone. -/
theorem frameBoundaryFlipsThroughGate : Obligations.FrameBoundaryFlipsThroughGate := by
  refine ⟨gatePasses_iff, fun s p left d ht hl hd => ?_, forwardPath_of_state⟩
  generalize hr : s.periodStarted p left d.period = r
  have hlink : ∀ q, r.link q = s.link q := fun q => by rw [← hr]; rfl
  have hchangeover : r.changeover = s.changeover := by rw [← hr]; rfl
  have hlive : r.live p = true := by rw [← hr]; exact hl
  have hgate : ∀ k, r.gatePasses k = s.gatePasses k := fun k => by rw [← hr]; rfl
  have hexec := exec_frameBoundary ht hl hd
  rw [hr] at hexec
  refine ⟨(r.flip p).transmit p, hexec, ?period, fun f hf hg => ?flipped, fun hheld => ?held, fun f hf => ?path,
    fun f u hf hg hu hm hk => ?member, fun f hf hno => ?noMember, fun q hq => ?others, ?frame⟩
  case period =>
    rw [timeLeft_of_timers (State.transmit_timers _ _), flip_timeLeft (t := .framePeriod p) nofun, ← hr]
    exact State.startTimer_timeLeft_self _ _ _
  case flipped =>
    rw [transmit_link_self, flip_link_of_passing (by rw [hlink, hf]) (by rw [hgate, hg]), hlink]
    simp [Link.flipped, liveState_eq]
  case held =>
    have hstands : r.flip p = r := by
      obtain hnone | ⟨f, hf, hg⟩ := hheld
      · exact flip_of_none (by rw [hlink, hnone])
      · exact flip_of_held (by rw [hlink, hf]) (by rw [hgate, hg])
    rw [hstands, transmit_link_self, hlink, State.transmit_changeover, hchangeover]
    exact ⟨rfl, rfl⟩
  case path =>
    rw [transmit_link_self] at hf
    exact transmit_forwardPath (flip_live hlive) hf
  case member =>
    rw [State.transmit_changeover, ← hchangeover]
    rw [← hchangeover] at hu hm
    exact flip_membersChecked (by rw [hlink, hf]) (by rw [hgate, hg]) hu hm hk
  case noMember =>
    rw [State.transmit_changeover, ← hchangeover]
    rw [← hchangeover] at hno
    exact flip_changeover_stands (by rw [hlink, hf]) hno
  case others => rw [transmit_link_other hq, flip_link_other hq, hlink]
  case frame =>
    rw [← hr]
    apply State.eq_of_fields <;> simp [State.periodStarted]

end Sys2Proof.Machine
end

section
/-! PROOFS. A SHOWN report on a live link (chapters 4 and 5): the statement O24. -/
namespace Sys2Proof.Machine

/-! ## What a report is matched to (R106, R107) -/

section Shown

variable {s : State} {p : PanelNo} {q : BitVec 16} {sum : BitVec 32} {f : Frame}

theorem takeShown_of_other (hl : s.live p = true) (hf : (s.link p).showing = some f) (hq : f.record.sequence ≠ q) :
    s.takeShown p q sum = s := by
  simp only [State.takeShown, hl, hf, hq, if_true, ne_eq, not_false_eq_true]

theorem takeShown_of_intact (hl : s.live p = true) (hf : (s.link p).showing = some f) (hq : f.record.sequence = q)
    (hc : f.record.checksum = sum) : s.takeShown p q sum = s.confirm p f.record := by
  simp only [State.takeShown, hl, hf, hq, hc, if_true, ne_eq, not_true_eq_false, if_false]

theorem takeShown_of_mismatch (hl : s.live p = true) (hf : (s.link p).showing = some f) (hq : f.record.sequence = q)
    (hc : f.record.checksum ≠ sum) : s.takeShown p q sum = s.mismatch p := by
  simp only [State.takeShown, hl, hf, hq, hc, if_true, ne_eq, not_true_eq_false, if_false]

/-- The state in which a first confirmation of `record` has moved a FLIPPED member on (R74), before the lagging set is
looked at. -/
def State.confirmedFrame (s : State) (p : PanelNo) (record : FrameRecord) : State :=
  (s.setLink p { s.link p with confirmed := some record }).advanceFrom p .flipped .confirmed record.kind

theorem confirm_of_confirmed {r : FrameRecord} (h : (s.link p).confirmed = some r) : s.confirm p r = s := by
  simp only [State.confirm, h, if_true]

theorem confirm_of_new {r : FrameRecord} (h : (s.link p).confirmed ≠ some r) :
    s.confirm p r = (s.confirmedFrame p r).clearLagging p r.kind := by
  simp only [State.confirm, h, if_false, State.confirmedFrame]

theorem mismatch_of_marked (h : (s.link p).mismatchMark = true) : s.mismatch p = s := by
  simp only [State.mismatch, h, if_true]

theorem mismatch_of_unmarked (h : (s.link p).mismatchMark = false) : s.mismatch p =
    (s.setLink p { s.link p with
      mismatchMark := true, mismatches := countUp (s.link p).mismatches }).raise .checksumMismatch .media := by
  simp [State.mismatch, h]

/-! ## The link record -/

/-- The link record that a report of the sequence `q` and the checksum `sum` leaves while a frame of the record `r` shows
(R106, R107). -/
def Link.matched (l : Link) (r : FrameRecord) (q : BitVec 16) (sum : BitVec 32) : Link :=
  { l with
    confirmed := if r.sequence = q ∧ r.checksum = sum then some r else l.confirmed
    mismatchMark := l.mismatchMark || decide (r.sequence = q ∧ r.checksum ≠ sum)
    mismatches := if r.sequence = q ∧ r.checksum ≠ sum ∧ l.mismatchMark = false then countUp l.mismatches
      else l.mismatches }

theorem confirm_links (s : State) (p : PanelNo) (r : FrameRecord) :
    (s.confirm p r).links = (s.setLink p { s.link p with confirmed := some r }).links := by
  by_cases h : (s.link p).confirmed = some r
  · rw [confirm_of_confirmed h, ← h]
    exact (PerPanel.set_get _ _).symm
  · rw [confirm_of_new h, State.clearLagging_links]
    exact State.advanceFrom_links _ _ _ _ _

theorem mismatch_links (s : State) (p : PanelNo) : (s.mismatch p).links = (s.setLink p { s.link p with
    mismatchMark := true
    mismatches := if (s.link p).mismatchMark = false then countUp (s.link p).mismatches
      else (s.link p).mismatches }).links := by
  cases h : (s.link p).mismatchMark with
  | false =>
    rw [mismatch_of_unmarked h, State.raise_links]
    rfl
  | true =>
    rw [mismatch_of_marked h, if_neg (by decide), ← h]
    exact (PerPanel.set_get _ _).symm

theorem takeShown_links (hl : s.live p = true) (hf : (s.link p).showing = some f) :
    (s.takeShown p q sum).links = (s.setLink p ((s.link p).matched f.record q sum)).links := by
  by_cases hq : f.record.sequence = q
  · by_cases hc : f.record.checksum = sum
    · rw [takeShown_of_intact hl hf hq hc, confirm_links]
      simp [Link.matched, hq, hc]
    · rw [takeShown_of_mismatch hl hf hq hc, mismatch_links]
      simp [Link.matched, hq, hc]
  · rw [takeShown_of_other hl hf hq]
    simp only [Link.matched, hq, false_and, if_false, decide_false, Bool.or_false]
    exact (PerPanel.set_get _ _).symm

/-! ## The changeover (R74 to R76, R86) -/

theorem clearLagging_changeover (s : State) (p : PanelNo) (k : FrameKind) : (s.clearLagging p k).changeover =
    if k.carries s.changeover.settled = true then { s.changeover with lagging := s.changeover.lagging.set p false }
    else s.changeover := by
  unfold State.clearLagging
  split <;> rfl

theorem clearLagging_flagSet (s : State) (p : PanelNo) (k : FrameKind) {o : PortId} {n : NoticeFlag}
    (h : FlagSet s o n) : FlagSet (s.clearLagging p k) o n := by
  unfold FlagSet State.port at h ⊢
  rwa [State.clearLagging_ports]

/-- A report that confirms nothing new leaves the controller as it was. -/
theorem takeShown_changeover_stands (hl : s.live p = true) (hf : (s.link p).showing = some f)
    (h : f.record.sequence ≠ q ∨ f.record.checksum ≠ sum ∨ (s.link p).confirmed = some f.record) :
    (s.takeShown p q sum).changeover = s.changeover := by
  by_cases hq : f.record.sequence = q
  · by_cases hc : f.record.checksum = sum
    · obtain h | h | h := h
      · exact absurd hq h
      · exact absurd hc h
      · rw [takeShown_of_intact hl hf hq hc, confirm_of_confirmed h]
    · rw [takeShown_of_mismatch hl hf hq hc, State.mismatch_changeover]
  · rw [takeShown_of_other hl hf hq]

theorem confirmedFrame_of_member {r : FrameRecord} {u : Target} (hu : s.changeover.controller.inFlight = some u)
    (hm : s.changeover.members.get p = some .flipped) (hk : r.kind.carries u = true) :
    s.confirmedFrame p r = (s.setLink p { s.link p with confirmed := some r }).advance p .confirmed :=
  advanceFrom_of_member (s := s.setLink p { s.link p with confirmed := some r }) hu hm hk

theorem confirmedFrame_changeover_stands {r : FrameRecord} (h : ∀ u, s.changeover.controller.inFlight = some u →
    s.changeover.members.get p = some .flipped → r.kind.carries u = false) :
    (s.confirmedFrame p r).changeover = s.changeover :=
  (congrArg State.changeover
    (advanceFrom_stands (s := s.setLink p { s.link p with confirmed := some r }) h)).trans rfl

/-! ## The report -/

theorem countGood_link_self (s : State) (p : PanelNo) :
    (s.countGood p).link p = { s.link p with good := countUp (s.link p).good } := by
  unfold State.countGood
  rw [link_of_links (State.restartIfRunning_links _ _ _), link_of_links (State.restartIfRunning_links _ _ _)]
  exact State.setLink_link_self _ _ _

theorem countGood_link_other {o : PanelNo} (h : o ≠ p) : (s.countGood p).link o = s.link o := by
  unfold State.countGood
  rw [link_of_links (State.restartIfRunning_links _ _ _), link_of_links (State.restartIfRunning_links _ _ _)]
  exact State.setLink_link_of_ne _ h _

theorem countGood_live (h : s.live p = true) : (s.countGood p).live p = true := by
  unfold State.live at h ⊢
  rw [countGood_link_self]
  exact h

theorem listens_of_live (hr : s.phase = .running) (hl : s.live p = true) : s.listens p = true := by
  have hoff : (s.link p).state ≠ .off := fun h => by
    unfold State.live at hl
    rw [h] at hl
    cases hl
  simp [State.listens, hr, hoff]

theorem exec_shown (hr : s.phase = .running) (hl : s.live p = true) :
    exec (.shown p q sum) s = .next ((s.countGood p).takeShown p q sum) :=
  congrArg Host.Outcome.next (if_pos (listens_of_live hr hl))

end Shown

/-- Settles O24: the report is counted (`State.countGood`) and matched (`Link.matched`); of the matches only a new
confirmation reaches the controller (`State.confirmedFrame`). -/
theorem shownReportConfirmsOrMarks : Obligations.ShownReportConfirmsOrMarks := by
  intro s p q sum f hr hl hf
  generalize hv : s.countGood p = v
  have hvlink : v.link p = { s.link p with good := countUp (s.link p).good } := by rw [← hv, countGood_link_self]
  have hvlive : v.live p = true := by rw [← hv]; exact countGood_live hl
  have hvshowing : (v.link p).showing = some f := by rw [hvlink]; exact hf
  have hvchangeover : v.changeover = s.changeover := by rw [← hv, State.countGood_changeover]
  have hlinks := takeShown_links (q := q) (sum := sum) hvlive hvshowing
  have hlink : (v.takeShown p q sum).link p = (v.link p).matched f.record q sum := by
    rw [link_of_links hlinks]
    exact State.setLink_link_self _ _ _
  rw [hvlink] at hlink
  have hexec := exec_shown (q := q) (sum := sum) hr hl
  rw [hv] at hexec
  refine ⟨v.takeShown p q sum, hexec, by rw [hlink]; rfl, by rw [hlink]; rfl, by rw [hlink]; rfl, by rw [hlink]; rfl,
    fun hq hc hmark => ?flag, by rw [hlink]; rfl, by rw [hlink]; rfl, by rw [hlink]; rfl, fun hnone => ?stands,
    fun hq hc hnew => ⟨(v.confirmedFrame p f.record).changeover, ?changeover, fun u hu hm hk => ⟨?checked, fun hi => ?done⟩,
      fun hno => ?noMember⟩, fun o ho => ?others, ?frame⟩
  case flag =>
    rw [takeShown_of_mismatch hvlive hvshowing hq hc, mismatch_of_unmarked (by rw [hvlink]; exact hmark)]
    exact raise_flag _ _ rfl (by decide)
  case stands =>
    rw [← hvchangeover]
    exact takeShown_changeover_stands hvlive hvshowing (by rw [hvlink]; exact hnone)
  case changeover =>
    rw [takeShown_of_intact hvlive hvshowing hq hc, confirm_of_new (by rw [hvlink]; exact hnew)]
    exact clearLagging_changeover _ _ _
  case checked =>
    rw [← hvchangeover] at hu hm ⊢
    rw [confirmedFrame_of_member hu hm hk]
    exact advance_membersChecked (State.setLink p _ v) p .confirmed hu
  case done =>
    rw [← hvchangeover] at hu hm
    rw [confirmedFrame_of_member hu hm hk] at hi
    obtain ⟨-, hlimit, hstore, hmedia⟩ := advance_settledDone (s := State.setLink p _ v) hu hi
    rw [takeShown_of_intact hvlive hvshowing hq hc, confirm_of_new (by rw [hvlink]; exact hnew),
      confirmedFrame_of_member hu hm hk, timeLeft_of_timers (State.clearLagging_timers _ _ _)]
    exact ⟨hlimit, clearLagging_flagSet _ _ _ hstore, clearLagging_flagSet _ _ _ hmedia⟩
  case noMember =>
    rw [← hvchangeover] at hno ⊢
    exact confirmedFrame_changeover_stands hno
  case others =>
    rw [link_of_links hlinks, State.setLink_link_of_ne _ ho, ← hv, countGood_link_other ho]
  case frame =>
    rw [← hv]
    apply State.eq_of_fields <;> simp

end Sys2Proof.Machine
end

section
/-! PROOFS. The end of the freeze (chapters 4 and 9): the statement O20. -/
namespace Sys2Proof.Machine

/-! ## The freeze's holder -/

section Holder

variable {s : State}

theorem holder_isSome (v : FreezeState) : v.holder.isSome = v.inForce := by cases v <;> rfl

theorem holder_of_off (h : s.freeze.state.inForce = false) : s.freeze.state.holder = none := by
  rw [← Option.isNone_iff_eq_none, ← Option.not_isSome, holder_isSome, h]
  rfl

theorem inForce_of_holder {x : FreezeMode × WritingRole} (h : s.freeze.state.holder = some x) :
    s.freeze.state.inForce = true := by
  rw [← holder_isSome, h]
  rfl

/-! ## UNFREEZE, outcome by outcome (R183) -/

theorem unfreeze_of_off (role : WritingRole) (h : s.freeze.state.inForce = false) :
    unfreeze role s = (.ok [0], s) := by
  simp only [unfreeze, holder_of_off h]
  rfl

theorem unfreeze_of_owner {role owner : WritingRole} {m : FreezeMode} (h : s.freeze.state.holder = some (m, owner))
    (hrole : role = .store ∨ owner = .media) : unfreeze role s = (.ok [1], s.endFreeze .unfreeze) := by
  have hmay : ¬ (role = .media ∧ owner = .store) := by
    rintro ⟨rfl, rfl⟩
    obtain h | h := hrole <;> cases h
  simp only [unfreeze, h, hmay, if_false]
  rfl

theorem unfreeze_of_other {m : FreezeMode} (h : s.freeze.state.holder = some (m, .store)) :
    unfreeze .media s = (.refuse .notOwner, s) := by
  simp only [unfreeze, h, and_self, if_true]

end Holder

/-! ## What an end leaves (R185) -/

section FreezeEnd

variable {s : State}

theorem settleDone_keeps_flag (u : Target) {q : PortId} {f : NoticeFlag} (h : FlagSet s q f) :
    FlagSet (s.settleDone u) q f :=
  raise_keeps_flag _ _ _ _ _ (raise_keeps_flag _ _ _ _ _ h)

theorem startChangeover_keeps_flag {q : PortId} {f : NoticeFlag} (h : FlagSet s q f) :
    FlagSet s.startChangeover q f := by
  unfold State.startChangeover
  split
  · unfold FlagSet State.port at h ⊢
    rw [State.stageMembers_ports]
    exact h
  · exact settleDone_keeps_flag _ h

theorem endFreeze_keeps_raised (c : FreezeCause) {q : PortId} {f : NoticeFlag}
    (h : FlagSet (((s.setFreeze { s.freeze with state := .off, lastEnd := some c }).stopTimer .freezeLimit).raiseBoth
      .freezeEnded) q f) : FlagSet (s.endFreeze c) q f := by
  unfold State.endFreeze
  dsimp only
  split
  · exact h
  · exact startChangeover_keeps_flag h

theorem endFreeze_freezeEnded_store (s : State) (c : FreezeCause) : FlagSet (s.endFreeze c) .store .freezeEnded :=
  endFreeze_keeps_raised c (raise_keeps_flag _ _ _ _ _ (raise_flag _ _ rfl (by decide)))

theorem endFreeze_freezeEnded_media (s : State) (c : FreezeCause) : FlagSet (s.endFreeze c) .media .freezeEnded :=
  endFreeze_keeps_raised c (raise_flag _ _ rfl (by decide))

/-- An end of a freeze in force is a hand-off of the target that stands, which by itself changes nothing (R185). -/
theorem endFreeze_handed (c : FreezeCause) (h : s.freeze.state.inForce = true) :
    TargetHandedAfterFreeze s (s.endFreeze c) s.changeover.current := by
  have hend : s.endFreezeInForce c = s.endFreeze c := if_pos h
  have hhand : (s.endFreeze c).handTarget s.changeover.current = s.endFreeze c :=
    if_pos (endFreeze_current s c).symm
  have handed := handTarget_handedAfterFreeze (s := s) c (s.endFreezeInForce c) s.changeover.current rfl rfl rfl
    (endFreezeInForce_composer c) rfl
    (congrArg natOf (congrArg (fieldValue · 22) (State.endFreezeInForce_inForce s c))) fun _ hf => hf
  rwa [hend, hhand] at handed

/-- With a freeze in force, the time left on the changeover limit before the command has no part in what is said. -/
theorem TargetHandedAfterFreeze.of_before_inForce {r t : State} {u : Target} (h : TargetHandedAfterFreeze r t u)
    (hf : s.freeze.state.inForce = true) (hc : r.changeover = s.changeover) (hz : r.freeze = s.freeze)
    (hl : r.links = s.links) (hq : r.composer = s.composer) (hm : r.changeoverLimitMs = s.changeoverLimitMs) :
    TargetHandedAfterFreeze s t u := by
  have hv : ∀ p, r.live p = s.live p := live_of_links hl
  have hk : ∀ p, r.link p = s.link p := link_of_links hl
  have ha : changeoverAsked r = changeoverAsked s := changeoverAsked_congr hq hv
  refine ⟨fun hoff => ?_, ?_⟩
  · rw [hf] at hoff
    cases hoff
  · simpa only [StagedAnew, SettledDone, NothingStarted, hc, hz, hl, hq, hm, hv, hk, ha] using h.2

theorem endFreeze_frame (s : State) (c : FreezeCause) : s.endFreeze c = { s with
    ports := (s.endFreeze c).ports, freeze := (s.endFreeze c).freeze, timers := (s.endFreeze c).timers
    changeover := (s.endFreeze c).changeover, links := (s.endFreeze c).links
    composer := (s.endFreeze c).composer } := by
  apply State.eq_of_fields <;> simp

end FreezeEnd

/-! ## UNFREEZE from the freeze's owner or the store port -/

theorem exec_unfreeze_of_owner {s : State} {role owner : WritingRole} {m : FreezeMode} (tag : Byte)
    (h : s.Takes (portOfRole role)) (ho : s.freeze.state.holder = some (m, owner))
    (hrole : role = .store ∨ owner = .media) : exec (.unfreeze (portOfRole role) tag []) s =
      .next (((s.clockIn (portOfRole role) 6).endFreeze .unfreeze).holdAnswer (portOfRole role)
        (okTo .unfreeze tag [1])) := by
  have howner : unfreeze (roleOfPort (portOfRole role)) (s.clockIn (portOfRole role) 6) =
      (.ok [1], (s.clockIn (portOfRole role) 6).endFreeze .unfreeze) := by
    rw [roleOfPort_portOfRole]
    exact unfreeze_of_owner (by rw [State.clockIn_freeze, ho]) hrole
  exact request_answers (t := .unfreeze) (payload := []) h (writers_hold role) (Nat.le_refl 0) (Nat.le_refl 0) howner

/-- Settles O20: UNFREEZE by its outcomes and the limit's expiry; each end of the freeze is `State.endFreeze`, on a state
that differs from `s` in its ports or its timers. -/
theorem unfreezeOrLimitEndsFreeze : Obligations.UnfreezeOrLimitEndsFreeze := by
  refine ⟨fun s role tag h => ⟨fun hoff => ?off, fun m owner ho hrole => ?owner, fun m ho hmedia => ?other⟩,
    fun s left ht hf => ?limit⟩
  case off =>
    refine answersOnly_of_takes (t := .unfreeze) (payload := []) (r := .ok [0]) h (writers_hold role) (Nat.le_refl 0)
      (Nat.le_refl 0) rfl ?_ rfl
    exact unfreeze_of_off _ (by rw [State.clockIn_freeze, hoff])
  case owner =>
    generalize hu : s.clockIn (portOfRole role) 6 = u
    have hframe : u = { s with ports := u.ports } := by rw [← hu]; exact clockIn_eq _ _ _
    have hcurrent : u.changeover.current = s.changeover.current := by rw [hframe]
    have hf : u.freeze.state.inForce = true := by rw [hframe]; exact inForce_of_holder ho
    have hexec := exec_unfreeze_of_owner tag h ho hrole
    rw [hu] at hexec
    refine ⟨_, hexec, by simp [Holds], endFreeze_freeze u .unfreeze, endFreeze_freezeLimit u .unfreeze,
      holdAnswer_flagSet _ _ (endFreeze_freezeEnded_store u .unfreeze),
      holdAnswer_flagSet _ _ (endFreeze_freezeEnded_media u .unfreeze),
      (endFreeze_current u .unfreeze).trans hcurrent, ?handed, ?frame⟩
    case handed =>
      rw [← hcurrent]
      rw [← hu] at hf ⊢
      exact ((endFreeze_handed .unfreeze hf).holdAnswer _ _).of_clockIn
    case frame =>
      rw [endFreeze_frame u .unfreeze, hframe]
      rfl
  case other =>
    subst hmedia
    refine answersOnly_of_takes (p := .media) (t := .unfreeze) (payload := []) (r := .refuse .notOwner) h rfl
      (Nat.le_refl 0) (Nat.le_refl 0) rfl ?_ rfl
    exact unfreeze_of_other (by rw [State.clockIn_freeze, ho])
  case limit =>
    generalize hr : (s.elapse left).stopTimer .freezeLimit = r
    have hrf : r.freeze.state.inForce = true := by rw [← hr]; exact hf
    have hcurrent : r.changeover.current = s.changeover.current := by rw [← hr]; rfl
    have hexec : exec .freezeLimitExpiry s = .next (r.endFreeze .limit) := by
      rw [← hr] at hrf ⊢
      exact congrArg Host.Outcome.next ((onExpiry_running ht _).trans (if_pos hrf))
    refine ⟨_, hexec, endFreeze_freeze r .limit, endFreeze_freezeLimit r .limit, endFreeze_freezeEnded_store r .limit,
      endFreeze_freezeEnded_media r .limit, (endFreeze_current r .limit).trans hcurrent, ?handed, ?frame⟩
    case handed =>
      rw [← hcurrent]
      refine (endFreeze_handed .limit hrf).of_before_inForce hf ?_ ?_ ?_ ?_ ?_ <;> rw [← hr] <;> rfl
    case frame =>
      rw [endFreeze_frame r .limit, ← hr]
      rfl

end Sys2Proof.Machine
end

section
/-! PROOFS. A report on any fitted link, and how bytes make reports (chapters 5 and 10): the statement O26. -/
namespace Sys2Proof

/-! ## The bytes up to an idle gap (R203) -/

theorem Report.stream_of_unknown {kind : Byte} (h : Report.length kind = none) (rest : List Byte) :
    Report.stream (kind :: rest) = [none] := by
  simp only [Report.stream, List.length_cons, Report.upTo, h]

theorem Report.stream_of_cutShort {kind : Byte} {rest : List Byte} {n : Nat} (h : Report.length kind = some n)
    (hlen : rest.length + 1 < n) : Report.stream (kind :: rest) = [none] := by
  simp only [Report.stream, List.length_cons, Report.upTo, h, hlen, if_true]

/-- Bytes that hold the first report whole: it is read, and the byte after it begins the next. -/
theorem Report.stream_of_whole {kind : Byte} {fields : List Byte} {n : Nat} (h : Report.length kind = some n)
    (hlen : n ≤ fields.length + 1) : Report.stream (kind :: fields) =
      Report.read ((kind :: fields).take n) :: Report.stream ((kind :: fields).drop n) := by
  have hn : 1 ≤ n := by rw [Report.length_eq_some_iff] at h; omega
  simp only [Report.stream, List.length_cons, Report.upTo, h, if_neg (Nat.not_lt.2 hlen)]
  rw [Report.upTo_eq fields.length _ _ (by simp; omega) (Nat.le_refl _)]

/-- A good report begins with its kind and has the length of that kind. -/
theorem Report.length_of_read {bytes : List Byte} {r : Report} (h : Report.read bytes = some r) :
    ∃ kind fields, bytes = kind :: fields ∧ Report.length kind = some bytes.length := by
  unfold Report.read at h
  dsimp only at h
  split at h
  · have hlength := Report.length_of_ofFields h
    match bytes with
    | [] => cases h
    | [_] => cases h
    | kind :: b :: rest => exact ⟨kind, b :: rest, rfl, by simpa using hlength⟩
  · cases h

theorem Report.stream_of_good {bytes : List Byte} {r : Report} (h : Report.read bytes = some r) (rest : List Byte) :
    Report.stream (bytes ++ rest) = some r :: Report.stream rest := by
  obtain ⟨kind, fields, rfl, hlength⟩ := Report.length_of_read h
  rw [List.cons_append, Report.stream_of_whole hlength (by simp), ← List.cons_append, List.take_left, List.drop_left, h]

end Sys2Proof

namespace Sys2Proof.Machine

/-! ## Reports on a fitted link (R93) -/

section Reports

variable {s : State} {p : PanelNo}

theorem listens_of_fitted (hr : s.phase = .running) (hf : (s.link p).state ≠ .off) : s.listens p = true := by
  simp [State.listens, hr, hf]

theorem takeReport_of_fitted (hr : s.phase = .running) (hf : (s.link p).state ≠ .off) (r : Report) :
    s.takeReport p r = (s.countGood p).takeKind p r := if_pos (listens_of_fitted hr hf)

theorem takeBad_of_fitted (hr : s.phase = .running) (hf : (s.link p).state ≠ .off) :
    s.takeBad p = s.setLink p { s.link p with bad := countUp (s.link p).bad } := if_pos (listens_of_fitted hr hf)

theorem restartIfRunning_timeLeft_other {t u : TimerId} (h : u ≠ t) (ms : Nat) :
    (s.restartIfRunning t ms).timeLeft u = s.timeLeft u := by
  unfold State.restartIfRunning
  split
  · rfl
  · exact startTimer_timeLeft_other _ h _

theorem countGood_timeLeft_other {u : TimerId} (hsilence : u ≠ .lockSilence p) (hdetach : u ≠ .detach p) :
    (s.countGood p).timeLeft u = s.timeLeft u := by
  unfold State.countGood
  rw [restartIfRunning_timeLeft_other hdetach, restartIfRunning_timeLeft_other hsilence, State.setLink_timeLeft]

/-! ## PANEL_FAULT (R112) -/

theorem raiseBoth_flagSet_store (f : NoticeFlag) (hs : f.mask &&& flagSetOf .store = f.mask) :
    FlagSet (s.raiseBoth f) .store f := raise_keeps_flag _ _ _ _ _ (raise_flag _ _ rfl hs)

theorem raiseBoth_flagSet_media (f : NoticeFlag) (hs : f.mask &&& flagSetOf .media = f.mask) :
    FlagSet (s.raiseBoth f) .media f := raise_flag _ _ rfl hs

theorem takeFault_link (code : Byte) : (s.takeFault p code).link p =
    { s.link p with lastFault := some code, faults := countUp (s.link p).faults } := by
  unfold State.takeFault
  rw [raiseBoth_link, State.setLink_link_self]

theorem takeFault_link_other {q : PanelNo} (h : q ≠ p) (code : Byte) : (s.takeFault p code).link q = s.link q := by
  unfold State.takeFault
  rw [raiseBoth_link, State.setLink_link_of_ne _ h]

theorem takeFault_timeLeft (code : Byte) (u : TimerId) : (s.takeFault p code).timeLeft u = s.timeLeft u := by
  unfold State.takeFault
  rw [raiseBoth_timeLeft, State.setLink_timeLeft]

theorem exec_panelFault (hr : s.phase = .running) (hf : (s.link p).state ≠ .off) (code : Byte) :
    exec (.panelFault p code) s = .next ((s.countGood p).takeFault p code) :=
  congrArg Host.Outcome.next (takeReport_of_fitted hr hf (.panelFault code))

/-! ## A bad report (R93) -/

theorem exec_badReport (hr : s.phase = .running) (hf : (s.link p).state ≠ .off) {bytes : List Byte}
    (hb : Report.stream bytes = [none]) : exec (.badReport p bytes) s =
      .next (s.setLink p { s.link p with bad := countUp (s.link p).bad }) := by
  rw [← takeBad_of_fitted hr hf]
  exact congrArg (fun rs => Host.Outcome.next (List.foldl (State.takeEither p) s rs)) hb

end Reports

/-- Settles O26: a fault is counted (`State.countGood`) and recorded (`State.takeFault`), a bad report counted alone;
the bytes up to a gap make reports by the laws of `Report.stream`. -/
theorem faultAndBadReportsAreCounted : Obligations.FaultAndBadReportsAreCounted := by
  refine ⟨fun s p code hr hf => ?fault, fun s p bytes hr hf hb => ?bad,
    fun bytes rest r h => Report.stream_of_good h rest, fun kind rest h => Report.stream_of_unknown h rest,
    fun kind rest n h hlen => Report.stream_of_cutShort h hlen,
    fun kind => rfl⟩
  case fault =>
    refine ⟨_, exec_panelFault hr hf code, by rw [takeFault_link, countGood_link_self],
      fun q hq => by rw [takeFault_link_other hq, countGood_link_other hq],
      raiseBoth_flagSet_store _ (by decide), raiseBoth_flagSet_media _ (by decide),
      fun u hsilence hdetach => by rw [takeFault_timeLeft, countGood_timeLeft_other hsilence hdetach], ?frame⟩
    case frame => apply State.eq_of_fields <;> simp
  case bad =>
    exact ⟨_, exec_badReport hr hf hb, State.setLink_link_self _ _ _, fun q hq => State.setLink_link_of_ne _ hq _, rfl⟩

end Sys2Proof.Machine
end

section
/-! PROOFS. The link test (chapter 5): what it counts, and its ends by a stop, by its last second and by its expiry row:
the statements O25 and O30. -/
namespace Sys2Proof.Machine

/-! ## Counting (R114) -/

section Counting

variable {s : State} {p : PanelNo} {r : TestRecord}

theorem testRecord_add (r : TestRecord) (errors : BitVec 16) : r.add errors.toNat = { r with
    reports := r.reports + 1
    errors := min 65535 (r.errors + errors.toNat)
    flag := if r.mode = .latched then r.flag || decide (errors ≠ 0) else decide (errors ≠ 0) } := by
  have hzero : errors.toNat = 0 ↔ errors = 0 := BitVec.toNat_inj (y := 0#16)
  obtain ⟨mode⟩ := r
  cases mode <;> simp [TestRecord.add, hzero]

theorem takeTestReport_of_test (ht : (s.link p).state = .test) (hr : (s.link p).test = some r) (errors : Nat) :
    s.takeTestReport p errors = s.setLink p { s.link p with test := some (r.add errors) } := by
  unfold State.takeTestReport
  rw [if_pos ht, hr]
  rfl

theorem setSecondsRun_link (hr : (s.link p).test = some r) (n : Nat) :
    (s.setSecondsRun p n).link p = { s.link p with test := some { r with seconds := n } } := by
  unfold State.setSecondsRun
  rw [State.setLink_link_self, hr]
  rfl

theorem setSecondsRun_link_other {q : PanelNo} (h : q ≠ p) (n : Nat) : (s.setSecondsRun p n).link q = s.link q :=
  State.setLink_link_of_ne _ h _

theorem runningTest_of_test (ht : (s.link p).state = .test) (hr : (s.link p).test = some r) :
    s.runningTest p = some r := (if_pos ht).trans hr

theorem exec_testReport (hrun : s.phase = .running) (ht : (s.link p).state = .test) (hr : (s.link p).test = some r)
    (errors : BitVec 16) : exec (.testReport p errors) s = .next ((s.countGood p).setLink p
      { s.link p with good := countUp (s.link p).good, test := some (r.add errors.toNat) }) := by
  have hlink := countGood_link_self s p
  have hcounted := takeTestReport_of_test (s := s.countGood p) (p := p) (r := r) (by rw [hlink]; exact ht)
    (by rw [hlink]; exact hr) errors.toNat
  rw [hlink] at hcounted
  exact congrArg Host.Outcome.next
    ((takeReport_of_fitted hrun (by rw [ht]; decide) (.testReport errors)).trans hcounted)

/-- A second passes: its expiry is the event of `State.testSecond` on the state with the timer run out. -/
theorem exec_testSecondExpiry (ht : (s.link p).state = .test) (hr : (s.link p).test = some r) {left : Nat}
    (hleft : s.timeLeft (.testSecond p) = some left) : exec (.testSecondExpiry p) s =
      .next (((s.elapse left).stopTimer (.testSecond p)).testSecond p r) := by
  change execTestSecondExpiry p s = _
  rw [execTestSecondExpiry, runningTest_of_test ht hr]
  exact congrArg Host.Outcome.next (onExpiry_running hleft _)

theorem testSecond_before_last (h : r.seconds + 1 < r.duration) : s.testSecond p r =
    (s.setSecondsRun p (r.seconds + 1)).startTimer (.testSecond p) Config.secondMs := if_neg (Nat.not_le.2 h)

theorem testSecond_last (h : r.duration = r.seconds + 1) : s.testSecond p r =
    (s.setSecondsRun p r.duration).leaveTest p .completed := by
  rw [h]
  exact if_pos (Nat.le_of_eq h)

end Counting

/-- Settles O25: a report is counted and added to the record (`TestRecord.add`); a second before the last raises the
seconds run. -/
theorem testReportsAndSecondsAreCounted : Obligations.TestReportsAndSecondsAreCounted := by
  refine ⟨fun s p errors r hrun ht hr => ?report, fun s p r left ht hr hleft hbefore => ?second⟩
  case report =>
    refine ⟨_, exec_testReport hrun ht hr errors, ?record, ?good, ?state, fun q hq => ?others, ?frame⟩
    case record => rw [State.setLink_link_self, testRecord_add]
    case good => rw [State.setLink_link_self]
    case state => rw [State.setLink_link_self]; exact ht
    case others => rw [State.setLink_link_of_ne _ hq, countGood_link_other hq]
    case frame => apply State.eq_of_fields <;> simp
  case second =>
    generalize hw : (s.elapse left).stopTimer (.testSecond p) = w
    have hlink : ∀ q, w.link q = s.link q := fun q => by rw [← hw]; rfl
    have hexec := exec_testSecondExpiry ht hr hleft
    rw [hw, testSecond_before_last hbefore] at hexec
    refine ⟨_, hexec, ?record, State.startTimer_timeLeft_self _ _ _, fun q hq => ?others, ?frame⟩
    case record => rw [State.startTimer_link, setSecondsRun_link (by rw [hlink]; exact hr), hlink]
    case others => rw [State.startTimer_link, setSecondsRun_link_other hq, hlink]
    case frame => rw [← hw]; rfl

/-! ## Leaving TEST (R115) -/

section Leaving

variable {s t w : State} {p : PanelNo} {r : TestRecord}

theorem endTest_link (hr : (s.link p).test = some r) (result : TestResult) :
    (s.endTest p result).link p = { s.link p with test := some { r with result := result } } := by
  unfold State.endTest
  dsimp only
  rw [raise_link, State.stopTimer_link, State.setLink_link_self, hr]
  rfl

theorem endTest_link_other {q : PanelNo} (h : q ≠ p) (result : TestResult) :
    (s.endTest p result).link q = s.link q := by
  unfold State.endTest
  dsimp only
  rw [raise_link, State.stopTimer_link, State.setLink_link_of_ne _ h]

theorem endTest_testSecond (result : TestResult) : (s.endTest p result).timeLeft (.testSecond p) = none :=
  (raise_timeLeft _ _ _ _).trans (State.stopTimer_timeLeft_self _ _)

theorem endTest_testEnded (result : TestResult) : FlagSet (s.endTest p result) .media .testEnded :=
  raise_flag _ _ rfl (by decide)

/-- Whether the grids match is read from the descriptor and the profile. -/
theorem gridMatches_of_descriptor (hd : (t.link p).descriptor = (s.link p).descriptor) (hi : t.inForce = s.inForce) :
    t.gridMatches p = s.gridMatches p := by
  unfold State.gridMatches State.grid
  rw [hd, hi]

theorem trainOrReject_test (s : State) (p : PanelNo) : ((s.trainOrReject p).link p).test = (s.link p).test := by
  unfold State.trainOrReject State.enterTraining State.enterRejected
  dsimp only
  split
  · rw [State.startTimer_link, State.setLink_link_self]
  · rw [raiseBoth_link, State.setLinkState_link_self]

theorem trainOrReject_testSecond (s : State) (p : PanelNo) :
    (s.trainOrReject p).timeLeft (.testSecond p) = s.timeLeft (.testSecond p) := by
  have hother : TimerId.testSecond p ≠ .trainingLimit p := nofun
  unfold State.trainOrReject State.enterTraining State.enterRejected
  dsimp only
  split
  · rw [startTimer_timeLeft_other _ hother, State.setLink_timeLeft]
  · rw [raiseBoth_timeLeft, State.setLinkState_timeLeft]

/-- A link that is rejected raises PANEL_EVENT on both SPI ports. -/
theorem trainOrReject_panelEvent (h : ((s.trainOrReject p).link p).state = .rejected) :
    FlagSet (s.trainOrReject p) .store .panelEvent ∧ FlagSet (s.trainOrReject p) .media .panelEvent := by
  rw [(trainOrReject_link s p).2] at h
  by_cases hgrid : s.gridMatches p = true
  · rw [if_pos hgrid] at h
    cases h
  · rw [State.trainOrReject, if_neg hgrid]
    exact ⟨raiseBoth_flagSet_store _ (by decide), raiseBoth_flagSet_media _ (by decide)⟩

/-- A test has ended on a link with the record `r`, and the link trains or is rejected (R115). -/
def TestLeft (s t : State) (p : PanelNo) (r : TestRecord) : Prop :=
  (t.link p).test = some r ∧ (t.link p).state = (if s.gridMatches p then .training else .rejected) ∧
    t.timeLeft (.testSecond p) = none ∧
    ((t.link p).state = .rejected → FlagSet t .store .panelEvent ∧ FlagSet t .media .panelEvent) ∧
    FlagSet t .media .testEnded ∧ (∀ q, q ≠ p → t.link q = s.link q) ∧
    t = { s with ports := t.ports, links := t.links, timers := t.timers }

theorem leaveTest_testLeft (hr : (s.link p).test = some r) (result : TestResult) :
    TestLeft s (s.leaveTest p result) p { r with result := result } := by
  have hlink := endTest_link hr result
  have hgrid : (s.endTest p result).gridMatches p = s.gridMatches p :=
    gridMatches_of_descriptor (by rw [hlink]) (State.endTest_inForce _ _ _)
  refine ⟨?record, ?state, ?timer, trainOrReject_panelEvent, trainOrReject_flag _ _ _ _ (endTest_testEnded result),
    fun q hq => (trainOrReject_link_of_ne hq).trans (endTest_link_other hq result), ?frame⟩
  case record => exact (trainOrReject_test _ p).trans (by rw [hlink])
  case state => exact hgrid ▸ (trainOrReject_link _ p).2
  case timer => exact (trainOrReject_testSecond _ p).trans (endTest_testSecond result)
  case frame => apply State.eq_of_fields <;> simp

/-- An answer held on a port leaves what is said of a test's end as it is. -/
theorem TestLeft.holdAnswer (h : TestLeft s t p r) (port : PortId) (a : Answer) :
    TestLeft s (t.holdAnswer port a) p r := by
  obtain ⟨hrecord, hstate, htimer, hrejected, hended, hothers, hframe⟩ := h
  refine ⟨hrecord, hstate, htimer, fun hv => ?_, holdAnswer_flagSet t a hended, hothers, ?_⟩
  · obtain ⟨hstore, hmedia⟩ := hrejected hv
    exact ⟨holdAnswer_flagSet t a hstore, holdAnswer_flagSet t a hmedia⟩
  · rw [hframe]
    rfl

/-- The test's end may be told from an earlier state, which differs in its ports, its timers and this link's record. -/
theorem TestLeft.of_before (h : TestLeft w t p r) (hdescriptor : (w.link p).descriptor = (s.link p).descriptor)
    (hlinks : ∀ q, q ≠ p → w.link q = s.link q)
    (hw : w = { s with ports := w.ports, links := w.links, timers := w.timers }) : TestLeft s t p r := by
  obtain ⟨hrecord, hstate, htimer, hrejected, hended, hothers, hframe⟩ := h
  have hgrid : w.gridMatches p = s.gridMatches p := gridMatches_of_descriptor hdescriptor (by rw [hw])
  refine ⟨hrecord, hgrid ▸ hstate, htimer, hrejected, hended, fun q hq => (hothers q hq).trans (hlinks q hq), ?_⟩
  rw [hframe, hw]

/-- An end by expiry: seconds run stands at the duration, and only timers have moved before (R114, R115). -/
theorem leaveTest_completed_testLeft (hr : (s.link p).test = some r) (hw : w = { s with timers := w.timers }) :
    TestLeft s ((w.setSecondsRun p r.duration).leaveTest p .completed) p
      { r with result := .completed, seconds := r.duration } := by
  have hlink : ∀ q, w.link q = s.link q := fun q => by rw [hw]; rfl
  have hrun := setSecondsRun_link (s := w) (by rw [hlink]; exact hr) r.duration
  refine (leaveTest_testLeft (by rw [hrun]) .completed).of_before (by rw [hrun, hlink])
    (fun q hq => (setSecondsRun_link_other hq _).trans (hlink q)) ?_
  rw [hw]
  rfl

end Leaving

/-! ## The three ends, and the refusals of LINK_TEST_STOP (R114, R115) -/

section Ends

variable {s : State} {p : PanelNo} {r : TestRecord}

theorem exec_linkTestStop (s : State) (tag : Byte) (payload : List Byte) : exec (.linkTestStop .media tag payload) s =
    .next (s.request .linkTestStop .media tag payload (linkTestStop payload)) := rfl

theorem linkTestStop_of_noPanel {panel : Byte} (h : panel? panel = none) (s : State) :
    linkTestStop [panel] s = (.refuse .badField, s) := by
  simp only [linkTestStop, List.getD_cons_zero, h]

theorem linkTestStop_of_noTest {panel : Byte} (hp : panel? panel = some p) (ht : (s.link p).state ≠ .test) :
    linkTestStop [panel] s = (.refuse .noTest, s) := by
  simp only [linkTestStop, List.getD_cons_zero, hp, ht, if_false]

theorem linkTestStop_of_test {panel : Byte} (hp : panel? panel = some p) (ht : (s.link p).state = .test) :
    linkTestStop [panel] s = (.ok [], s.leaveTest p .stopped) := by
  simp only [linkTestStop, List.getD_cons_zero, hp, ht, if_true]

theorem linkTestStop_refused (h : s.Takes .media) {tag panel : Byte} {status : Status}
    (ho : ∀ u : State, u.links = s.links → linkTestStop [panel] u = (.refuse status, u)) :
    AnswersOnly s (.linkTestStop .media tag [panel]) .media (refusalOf .linkTestStop tag status []) :=
  answersOnly_of_takes (t := .linkTestStop) (payload := [panel]) h rfl (Nat.le_refl _) (Nat.le_refl _) (exec_linkTestStop s tag [panel])
    (ho _ (by simp)) rfl

theorem exec_linkTestStop_of_test (h : s.Takes .media) {panel : Byte} (hp : panel? panel = some p)
    (ht : (s.link p).state = .test) (tag : Byte) : exec (.linkTestStop .media tag [panel]) s =
      .next (((s.clockIn .media 7).leaveTest p .stopped).holdAnswer .media (okTo .linkTestStop tag [])) :=
  request_answers (t := .linkTestStop) (payload := [panel]) h rfl (Nat.le_refl _) (Nat.le_refl _)
    (linkTestStop_of_test hp (by rw [link_of_links (State.clockIn_links _ _ _)]; exact ht))

/-- The expiry row: the whole seconds before the last pass, then the last one (log 2, log 6). -/
theorem exec_linkTestExpiry (ht : (s.link p).state = .test) (hr : (s.link p).test = some r) {left : Nat}
    (hleft : s.timeLeft (.testSecond p) = some left) : exec (.linkTestExpiry p) s =
      .next (((((s.elapse left).stopTimer (.testSecond p)).elapse (1000 * (r.duration - r.seconds - 1))).setSecondsRun p
        r.duration).leaveTest p .completed) := by
  change execLinkTestExpiry p s = _
  rw [execLinkTestExpiry, runningTest_of_test ht hr]
  exact congrArg Host.Outcome.next (onExpiry_running hleft _)

/-- A stop ends the test with its record's counts (R115). -/
theorem linkTestStop_testLeft (hr : (s.link p).test = some r) (n : Nat) (a : Answer) :
    TestLeft s (((s.clockIn .media n).leaveTest p .stopped).holdAnswer .media a) p { r with result := .stopped } := by
  have hlink : ∀ q, (s.clockIn .media n).link q = s.link q := link_of_links (State.clockIn_links _ _ _)
  refine ((leaveTest_testLeft (by rw [hlink]; exact hr) .stopped).of_before (by rw [hlink]) (fun q _ => hlink q)
    ?_).holdAnswer .media a
  rw [clockIn_eq]

end Ends

/-- Settles O30: each of the three ends is `State.leaveTest` on a state that differs from `s` in its ports, its timers
and the seconds run (`TestLeft`). -/
theorem linkTestEndsAndLinkTrains : Obligations.LinkTestEndsAndLinkTrains := by
  refine ⟨fun s tag panel h => ⟨fun hpanel => ?badField, fun p hp ht => ?noTest⟩,
    fun s p r left c result seconds ht hr hleft hend => ?ends⟩
  case badField => exact linkTestStop_refused h fun u _ => linkTestStop_of_noPanel (panel?_eq_none hpanel) u
  case noTest => exact linkTestStop_refused h fun u hu => linkTestStop_of_noTest hp (by rw [link_of_links hu]; exact ht)
  case ends =>
    rcases hend with ⟨tag, panel, rfl, h, hp, rfl, rfl⟩ | ⟨rfl, hlast, rfl, rfl⟩ | ⟨rfl, rfl, rfl⟩
    case inl =>
      refine ⟨_, exec_linkTestStop_of_test h hp ht tag, fun tag' panel' hc => ?_, linkTestStop_testLeft hr _ _⟩
      cases hc
      simp [Holds]
    case inr.inl =>
      have hexec := exec_testSecondExpiry ht hr hleft
      rw [testSecond_last hlast] at hexec
      exact ⟨_, hexec, nofun, leaveTest_completed_testLeft hr rfl⟩
    case inr.inr => exact ⟨_, exec_linkTestExpiry ht hr hleft, nofun, leaveTest_completed_testLeft hr rfl⟩

end Sys2Proof.Machine
end
section
/-! PROOFS. What a step makes of Photo Memory: a chain of single changes, each of which keeps it sound and keeps every block
accounted for (chapter 6): the statement O59. -/
namespace Sys2Proof.Machine

/-! ## The changes of Photo Memory -/

/-- One change that a command makes of Photo Memory, with the guard under which it is made. -/
inductive PhotoMemory.Change (m : PhotoMemory) : PhotoMemory → Prop
  /-- Handed pin differences (R131). -/
  | movePins (before after : Nat → Nat) : Change m (m.movePins before after)
  /-- A load begins (R121, R123). -/
  | beginLoad {k n : Nat} {range : BlockRange} {free : List BlockRange} (width height : Nat) (sum register : BitVec 32) :
    m.session = none → Table.find k m.slots = none → 1 ≤ n → allocate n m.free = some (range, free) →
    Change m { m with
      slots := Table.insert k ⟨.loading, range, width, height, sum, 0⟩ m.slots
      free := free
      session := some ⟨k, 0, 0, register⟩ }
  /-- A block before the last is stored (R125). -/
  | store {ls : LoadSession} {r : Slot} (address : Nat) (data : List Byte) (register : BitVec 32) :
    m.openLoad = .ok (some (ls, r)) → ls.expected + 1 < r.range.count →
    Change m { m with
      memory := Memory.write address data m.memory
      session := some ⟨ls.slot, ls.expected + 1, ls.received + 1, register⟩ }
  /-- The bytes of the last block are stored (R126). -/
  | write (address : Nat) (data : List Byte) : Change m { m with memory := Memory.write address data m.memory }
  /-- The load session ends with its slot in a new state (R125, R126). -/
  | close {ls ls' : LoadSession} (v : SlotState) (o : LoadOutcome) : m.session = some ls → ls'.slot = ls.slot →
    Change m ((m.setState ls'.slot v).endSession ls' o)
  /-- The load session ends with its slot EMPTY (R127, R128). -/
  | drop {ls : LoadSession} (o : LoadOutcome) : m.session = some ls → Change m ((m.empty ls.slot).endSession ls o)
  /-- A slot is erased (R130). -/
  | erase {k : Nat} {r : Slot} : Table.find k m.slots = some r → r.state ≠ .loading → r.state ≠ .verifying →
    Change m (m.empty k)
  /-- A slot joins the verify queue (R134). -/
  | join (k : Nat) : Change m { m with verifyQueue := joinVerify k m.verifyQueue }
  /-- Every UNVERIFIED slot joins it (R135). -/
  | joinAll : Change m m.joinAll
  /-- The verify engine takes a slot (R133). -/
  | takeNext : Change m m.takeNext
  /-- A verification ends with its verdict (R136). -/
  | judge {k : Nat} : m.verifying = some k → Change m (m.judged k)
  /-- A power-on reset (R139). -/
  | reset : Change m PhotoMemory.reset
  /-- A pin reset (R140). -/
  | hold : Change m m.held
  /-- Start-up after a pin reset (R140, R210). -/
  | retain (pins : Nat → Nat) (full : Bool) : Change m (m.retained pins full)

/-- Photo Memory after any number of changes. -/
inductive PhotoMemory.Reaches (m : PhotoMemory) : PhotoMemory → Prop
  | refl : Reaches m m
  | tail {v w : PhotoMemory} : Reaches m v → v.Change w → Reaches m w

variable {m m' : PhotoMemory} {s t : State}

theorem PhotoMemory.Sound.change (h : m.Sound) (c : m.Change m') : m'.Sound := by
  cases c with
  | movePins before after => exact h.movePins before after
  | beginLoad width height sum register hs hk hn ha => exact h.beginLoad hs hk ha hn width height sum register
  | store address data register ho hx => exact h.store ho address data register hx
  | write address data =>
    obtain ⟨hmemory, hrest⟩ := h
    exact ⟨Memory.write_wf hmemory address data, hrest⟩
  | close v o hs hl => exact h.close hs hl v o
  | drop o hs => exact h.drop hs o
  | @erase k r hk hl hv =>
    obtain ⟨-, -, -, hsession, -, hverifying⟩ := id h
    refine h.empty k (fun hver => ?_) fun ls hls he => ?_
    · obtain ⟨q, hq, hqv⟩ := hverifying k hver
      rw [hk] at hq; cases hq; exact hv hqv
    · obtain ⟨q, hq, hql, _⟩ := (openLoad_ok_iff m).1 hsession ls hls
      rw [he, hk] at hq; cases hq; exact hl hql
  | join k =>
    obtain ⟨-, -, -, -, hqueue, -⟩ := id h
    exact h.queue _ (joinVerify_rising k hqueue)
  | joinAll => exact h.joinAll
  | takeNext => exact h.takeNext
  | judge hk => exact h.judged hk
  | reset => exact PhotoMemory.Sound.reset
  | hold => exact h.held
  | retain pins full => exact h.retained pins full

/-- Only an allocation, a release and a reset move blocks; they keep the account by `Accounted.beginLoad`,
`Accounted.empty`, `Accounted.reset` and `Accounted.retained`. -/
theorem PhotoMemory.Accounted.change (h : m.Accounted) (hs : m.Sound) (c : m.Change m') : m'.Accounted := by
  have count : ∀ k r, Table.find k m.slots = some r → 1 ≤ r.range.count := fun _ _ => hs.count
  have stands {v : PhotoMemory} (hf : v.free = m.free) (hv : v.slots = m.slots) : v.Accounted :=
    h.of_ranges hf fun _ => by rw [hv]
  cases c with
  | movePins before after => exact h.movePins before after
  | beginLoad width height sum register _ hk hn ha => exact h.beginLoad hk ha hn _ rfl _
  | store | write | join | joinAll | hold => exact stands rfl rfl
  | close v o => exact (h.setState _ v).of_ranges rfl fun _ => rfl
  | drop o => exact (h.empty count _).of_ranges rfl fun _ => rfl
  | erase => exact h.empty count _
  | takeNext => exact h.takeNext
  | judge => exact h.judged _
  | reset => exact PhotoMemory.Accounted.reset
  | retain pins full => exact h.retained hs pins full

theorem PhotoMemory.Sound.reaches (h : m.Sound) (r : m.Reaches m') : m'.Sound := by
  induction r with
  | refl => exact h
  | tail _ c ih => exact ih.change c

theorem PhotoMemory.Accounted.reaches (h : m.Accounted) (hs : m.Sound) (r : m.Reaches m') : m'.Accounted := by
  induction r with
  | refl => exact h
  | tail r c ih => exact ih.change (hs.reaches r) c

theorem PhotoMemory.Reaches.of_eq (h : m' = m) : m.Reaches m' := h ▸ .refl

theorem PhotoMemory.Change.reaches (c : m.Change m') : m.Reaches m' := .tail .refl c

theorem PhotoMemory.Reaches.trans {v : PhotoMemory} (h : m.Reaches v) (g : v.Reaches m') : m.Reaches m' := by
  induction g with
  | refl => exact h
  | tail _ c ih => exact ih.tail c


/-! ## What each request makes of Photo Memory -/

section Owners

variable (u : State) (payload : List Byte)

theorem batchOpen_photo (role : WritingRole) : (batchOpen role u).2.photo = u.photo := by
  unfold batchOpen; split <;> simp

theorem batchAdd_photo (role : WritingRole) : (batchAdd role payload u).2.photo = u.photo := by
  unfold batchAdd; (repeat' split) <;> simp

theorem batchDiscard_photo (role : WritingRole) : (batchDiscard role u).2.photo = u.photo := by
  unfold batchDiscard; split <;> simp

theorem leaseRenew_photo : (leaseRenew u).2.photo = u.photo := by
  unfold leaseRenew; split <;> simp

theorem itemRead_photo : (itemRead payload u).2.photo = u.photo := by
  unfold itemRead; dsimp only; (repeat' split) <;> rfl

theorem priceQuery_photo : (priceQuery payload u).2.photo = u.photo := by
  unfold priceQuery; dsimp only; (repeat' split) <;> rfl

theorem planRead_photo : (planRead payload u).2.photo = u.photo := by
  unfold planRead; (repeat' split) <;> rfl

theorem slotRead_photo : (slotRead payload u).2.photo = u.photo := by
  unfold slotRead; (repeat' split) <;> rfl

theorem onFittedPanel_photo {effect : PanelNo → Reply × State} (h : ∀ p, (effect p).2.photo = u.photo) :
    (onFittedPanel payload u effect).2.photo = u.photo := by
  unfold onFittedPanel; (repeat' split)
  · rfl
  · rfl
  · exact h _

theorem panelDark_photo : (panelDark payload u).2.photo = u.photo :=
  onFittedPanel_photo u payload fun p => State.addCause_photo u .request p

theorem panelLight_photo : (panelLight payload u).2.photo = u.photo :=
  onFittedPanel_photo u payload fun p => State.removeCause_photo u .request p

theorem linkTest_photo : (linkTest payload u).2.photo = u.photo := by
  unfold linkTest; dsimp only; (repeat' split) <;> simp

theorem linkTestStop_photo : (linkTestStop payload u).2.photo = u.photo := by
  unfold linkTestStop; (repeat' split) <;> simp

theorem panelStatus_photo : (panelStatus payload u).2.photo = u.photo := by
  unfold panelStatus; split <;> rfl

theorem withHold_photo (l : LaneNo) (h : HoldId) {effect : Hold → Reply × State}
    (he : ∀ x, (effect x).2.photo = u.photo) : (withHold l h u effect).2.photo = u.photo := by
  unfold withHold; (repeat' split)
  · exact he _
  · rfl
  · rfl

theorem holdOpen_photo (l : LaneNo) : (holdOpen l payload u).2.photo = u.photo := by
  unfold holdOpen; dsimp only; (repeat' split) <;> simp

theorem holdAdd_photo (l : LaneNo) : (holdAdd l payload u).2.photo = u.photo := by
  unfold holdAdd; split
  · rfl
  · refine withHold_photo u l _ fun x => ?_
    dsimp only; (repeat' split) <;> simp

theorem holdRemove_photo (l : LaneNo) : (holdRemove l payload u).2.photo = u.photo := by
  unfold holdRemove; split
  · rfl
  · refine withHold_photo u l _ fun x => ?_
    dsimp only; (repeat' split) <;> simp

theorem holdFocus_photo (l : LaneNo) : (holdFocus l payload u).2.photo = u.photo := by
  unfold holdFocus; split
  · rfl
  · simp
  · exact withHold_photo u l _ fun x => by simp

theorem holdRefresh_photo (l : LaneNo) : (holdRefresh l payload u).2.photo = u.photo := by
  unfold holdRefresh; split
  · rfl
  · exact withHold_photo u l _ fun x => by simp

theorem holdClose_photo (l : LaneNo) : (holdClose l payload u).2.photo = u.photo := by
  unfold holdClose; split
  · rfl
  · exact withHold_photo u l _ fun x => by simp

theorem holdRead_photo (l : LaneNo) : (holdRead l payload u).2.photo = u.photo := by
  unfold holdRead; split
  · rfl
  · rfl
  · exact withHold_photo u l _ fun x => by simp

theorem clockSet_photo : (clockSet payload u).2.photo = u.photo := by
  unfold clockSet storeStateReply; dsimp only; (repeat' split) <;> simp

theorem scheduleLoad_photo : (scheduleLoad payload u).2.photo = u.photo := by
  unfold scheduleLoad storeStateReply; dsimp only; (repeat' split) <;> simp

theorem daypartForce_photo : (daypartForce payload u).2.photo = u.photo := by
  unfold daypartForce storeStateReply; split <;> simp

theorem daypartAuto_photo : (daypartAuto u).2.photo = u.photo := State.changeClock_photo u _

theorem freeze_photo (role : WritingRole) : (freeze role payload u).2.photo = u.photo := by
  unfold freeze; dsimp only; (repeat' split) <;> simp

theorem unfreeze_photo (role : WritingRole) : (unfreeze role u).2.photo = u.photo := by
  unfold unfreeze; (repeat' split) <;> simp

theorem profileBurn_photo : (profileBurn payload u).2.photo = u.photo := by
  unfold profileBurn; dsimp only; (repeat' split) <;> rfl

theorem noticeClear_photo (p : PortId) : (noticeClear p payload u).2.photo = u.photo := by
  unfold noticeClear; split <;> rfl

theorem noticeMask_photo (p : PortId) : (noticeMask p payload u).2.photo = u.photo := by
  unfold noticeMask; split <;> rfl

end Owners

theorem openLoad_eq_some_iff {ls : LoadSession} {r : Slot} : m.openLoad = .ok (some (ls, r)) ↔
    m.session = some ls ∧ Table.find ls.slot m.slots = some r ∧ r.state = .loading ∧ ls.expected < r.range.count := by
  unfold PhotoMemory.openLoad
  cases hs : m.session with
  | none => simp
  | some x =>
    dsimp only
    cases hf : Table.find x.slot m.slots with
    | none => simp; rintro rfl; simp [hf]
    | some q =>
      dsimp only
      split
      · next hc =>
        simp only [Except.ok.injEq, Option.some.injEq, Prod.mk.injEq]
        constructor
        · rintro ⟨rfl, rfl⟩; exact ⟨rfl, hf, hc⟩
        · rintro ⟨rfl, hr, -⟩; exact ⟨rfl, Option.some.inj (hf.symm.trans hr)⟩
      · next hc =>
        simp only [reduceCtorEq, Option.some.injEq, false_iff]
        rintro ⟨rfl, hr, hl⟩
        rw [hf] at hr; cases hr; exact hc hl

theorem closeSession_photo (ls : LoadSession) (v : SlotState) (o : LoadOutcome) :
    (s.closeSession ls v o).photo = (s.photo.setState ls.slot v).endSession ls o := by simp [State.closeSession]

theorem dropSession_photo (ls : LoadSession) (o : LoadOutcome) :
    (s.dropSession ls o).photo = (s.photo.empty ls.slot).endSession ls o := by simp [State.dropSession]

/-- The end of a session forgets what the session was. -/
theorem setState_endSession_of_session (m : PhotoMemory) (x : Option LoadSession) (k : Nat) (v : SlotState)
    (ls : LoadSession) (o : LoadOutcome) : (PhotoMemory.setState { m with session := x } k v).endSession ls o =
      (m.setState k v).endSession ls o := by
  unfold PhotoMemory.setState; dsimp only; split <;> rfl

theorem erase_photo (k : Nat) : (s.erase k).photo = s.photo.empty k := by
  unfold State.erase; dsimp only; split <;> simp

theorem verified_photo (k : Nat) : (s.verified k).photo =
    if (s.photo.judged k).verifyQueue = [] then s.photo.judged k else (s.photo.judged k).takeNext := by
  have hasked : ∀ u : State, u.photo = s.photo.judged k →
      (if u.photo.verifyQueue = [] then u.raise .verifyDone .media else u.setPhoto u.photo.takeNext).photo =
        if (s.photo.judged k).verifyQueue = [] then s.photo.judged k else (s.photo.judged k).takeNext := by
    rintro u hu
    rw [hu]; split <;> simp [hu]
  unfold State.verified
  refine hasked _ ?_
  split <;> simp

theorem batchCommit_reaches (role : WritingRole) : s.photo.Reaches (batchCommit role s).2.photo := by
  unfold batchCommit
  split
  · exact .refl
  · split
    · exact .of_eq (State.keepBatch_photo s _ _)
    · split
      · exact .of_eq (State.keepBatch_photo s _ _)
      · dsimp only; exact committed_photo s role _ ▸ (PhotoMemory.Change.movePins _ _).reaches

theorem replacePlan_reaches (p : PanelNo) (d : DayPart) (pls : List Placement) :
    s.photo.Reaches (s.replacePlan p d pls).photo := by
  rw [replacePlan_eq]; exact (PhotoMemory.Change.movePins _ _).reaches

theorem planLoad_reaches (payload : List Byte) : s.photo.Reaches (planLoad payload s).2.photo := by
  unfold planLoad
  split
  · split
    · split
      · exact .refl
      · split
        · exact .refl
        · split
          · exact .refl
          · split
            · exact .refl
            · exact replacePlan_reaches _ _ _
    · exact .refl
  · exact .refl

theorem planClear_reaches (payload : List Byte) : s.photo.Reaches (planClear payload s).2.photo := by
  unfold planClear
  split
  · split
    · split
      · exact .refl
      · exact replacePlan_reaches _ _ _
    · exact .refl
  · exact .refl

theorem loadBegin_reaches (payload : List Byte) : s.photo.Reaches (loadBegin payload s).2.photo := by
  unfold loadBegin
  dsimp only
  split
  · exact .refl
  · next hrange =>
    split
    · exact .refl
    · next hsession =>
      split
      · exact .refl
      · next hslot =>
        split
        · exact .refl
        · next ha =>
          exact (PhotoMemory.Change.beginLoad _ _ _ _ (by simpa using hsession) (by simpa using hslot) (by omega) ha).reaches

/-- The load session after a block that passed its check (R125). -/
def LoadSession.advanced (ls : LoadSession) (data : List Byte) : LoadSession :=
  ⟨ls.slot, ls.expected + 1, ls.received + 1, crc32Take ls.register data⟩

/-- The state with a block of the session's slot stored. -/
def State.blockWritten (ls : LoadSession) (r : Slot) (data : List Byte) (s : State) : State :=
  s.setPhoto { s.photo with
    memory := Memory.write (blockAddress (r.range.start + ls.expected)) data s.photo.memory
    session := some (ls.advanced data) }

section Blocks

variable {ls : LoadSession} {r : Slot} {data : List Byte}

theorem storeBlock_of_more (hx : ls.expected + 1 < r.range.count) : s.storeBlock ls r data =
    (.ok (be 2 (ls.expected + 1) ++ [1]), s.blockWritten ls r data) := if_pos hx

theorem storeBlock_of_ready (hx : ¬ ls.expected + 1 < r.range.count)
    (hsum : ~~~ (crc32Take ls.register data) = r.checksum) : s.storeBlock ls r data =
      (.ok (be 2 (ls.expected + 1) ++ [2]), (s.blockWritten ls r data).closeSession (ls.advanced data) .ready .ready) :=
  (if_neg hx).trans (if_pos hsum)

theorem storeBlock_of_damaged (hx : ¬ ls.expected + 1 < r.range.count)
    (hsum : ~~~ (crc32Take ls.register data) ≠ r.checksum) : s.storeBlock ls r data =
      (.ok (be 2 (ls.expected + 1) ++ [5]),
        (s.blockWritten ls r data).closeSession (ls.advanced data) (.damaged .loadChecksum) .loadChecksum) :=
  (if_neg hx).trans (if_neg hsum)

theorem lastBlock_photo (v : SlotState) (o : LoadOutcome) :
    ((s.blockWritten ls r data).closeSession (ls.advanced data) v o).photo =
      (PhotoMemory.setState { s.photo with
        memory := Memory.write (blockAddress (r.range.start + ls.expected)) data s.photo.memory } ls.slot v).endSession
          (ls.advanced data) o :=
  (closeSession_photo _ v o).trans (setState_endSession_of_session
    { s.photo with memory := Memory.write (blockAddress (r.range.start + ls.expected)) data s.photo.memory } _ _ v _ o)

theorem lastBlock_reaches (h : s.photo.session = some ls) (v : SlotState) (o : LoadOutcome) :
    s.photo.Reaches ((s.blockWritten ls r data).closeSession (ls.advanced data) v o).photo := by
  rw [lastBlock_photo]
  exact (PhotoMemory.Change.write _ data).reaches.tail (.close (ls' := ls.advanced data) v o h rfl)

theorem storeBlock_reaches (h : s.photo.openLoad = .ok (some (ls, r))) (data : List Byte) :
    s.photo.Reaches (s.storeBlock ls r data).2.photo := by
  have hs := (openLoad_eq_some_iff.1 h).1
  by_cases hx : ls.expected + 1 < r.range.count
  · rw [storeBlock_of_more hx]; exact (PhotoMemory.Change.store _ data _ h hx).reaches
  · by_cases hsum : ~~~ (crc32Take ls.register data) = r.checksum
    · rw [storeBlock_of_ready hx hsum]; exact lastBlock_reaches hs _ _
    · rw [storeBlock_of_damaged hx hsum]; exact lastBlock_reaches hs _ _

end Blocks

theorem takeBlock_reaches {ls : LoadSession} {r : Slot} (h : s.photo.openLoad = .ok (some (ls, r))) (payload : List Byte) :
    s.photo.Reaches (s.takeBlock ls r payload).2.photo := by
  unfold State.takeBlock
  dsimp only
  split
  · exact .refl
  · split
    · exact .refl
    · split
      · rw [closeSession_photo]
        exact (PhotoMemory.Change.close _ _ (openLoad_eq_some_iff.1 h).1 rfl).reaches
      · exact storeBlock_reaches h _

theorem loadBlock_reaches {found : Option (LoadSession × Slot)} (h : s.photo.openLoad = .ok found) (payload : List Byte) :
    s.photo.Reaches (loadBlock payload found s).2.photo := by
  unfold loadBlock
  split
  · exact .refl
  · exact takeBlock_reaches (s := s.startTimer .loadIdle Config.loadIdleMs) h payload

theorem dropSession_reaches {ls : LoadSession} (h : s.photo.session = some ls) (o : LoadOutcome) :
    s.photo.Reaches (s.dropSession ls o).photo := by
  rw [dropSession_photo]; exact (PhotoMemory.Change.drop o h).reaches

theorem loadAbort_reaches : s.photo.Reaches (loadAbort s).2.photo := by
  unfold loadAbort
  split
  · exact .refl
  · next hs => exact dropSession_reaches hs .aborted

theorem loadTimeout_reaches : s.photo.Reaches s.loadTimeout.photo := by
  unfold State.loadTimeout
  split
  · exact .refl
  · next hs => rw [State.raise_photo]; exact dropSession_reaches hs .timeout

theorem slotErase_reaches (payload : List Byte) : s.photo.Reaches (slotErase payload s).2.photo := by
  unfold slotErase
  split
  · exact .refl
  · split
    · exact .refl
    · next hr =>
      split
      · exact .refl
      · next hl =>
        split
        · exact .refl
        · next hv =>
          split
          · exact .refl
          · rw [erase_photo]; exact (PhotoMemory.Change.erase hr hl hv).reaches

theorem slotVerify_reaches (payload : List Byte) : s.photo.Reaches (slotVerify payload s).2.photo := by
  unfold slotVerify
  split
  · exact .refl
  · split
    · exact .refl
    · split
      · exact (PhotoMemory.Change.join _).reaches
      · split <;> exact .refl

theorem verifyAll_photo : (verifyAll s).2.photo = s.photo.joinAll := by
  unfold verifyAll; dsimp only; split <;> simp

theorem takeReset_reaches (kind : ResetKind) (phase : Phase) : s.photo.Reaches (s.takeReset kind phase).photo := by
  cases kind with
  | pin => exact PhotoMemory.Change.hold.reaches
  | power => exact PhotoMemory.Change.reset.reaches

theorem startUp_reaches (kind : ResetKind) : s.photo.Reaches (s.startUp kind).photo := by
  cases kind with
  | pin => rw [startUp_photo]; exact (PhotoMemory.Change.retain _ _).reaches
  | power => rw [startUp_eq]; exact PhotoMemory.Change.reset.reaches

theorem verified_reaches {k : Nat} (h : s.photo.verifying = some k) : s.photo.Reaches (s.verified k).photo := by
  rw [verified_photo]
  split
  · exact (PhotoMemory.Change.judge h).reaches
  · exact (PhotoMemory.Change.judge h).reaches.tail .takeNext

/-! ## What each command makes of it -/

/-- A request leaves Photo Memory as it stands, or as its owner leaves it, whose turn finds it as it stood. -/
theorem accept_photo (ty : RequestType) (p : PortId) (tag : Byte) (payload : List Byte) (owner : State → State) :
    (s.accept ty p tag payload owner).photo = s.photo ∨
      ∃ u : State, u.photo = s.photo ∧ s.accept ty p tag payload owner = owner u := by
  unfold State.accept State.arrive
  split
  · exact .inl rfl
  · split
    · dsimp only
      split
      · exact .inl (by simp)
      · split
        · exact .inl (by simp)
        · exact .inr ⟨_, State.clockIn_photo s p _, rfl⟩
    · exact .inl (by simp)

theorem accept_reaches {ty : RequestType} {p : PortId} {tag : Byte} {payload : List Byte} {owner : State → State}
    (howner : ∀ u : State, u.photo = s.photo → u.photo.Reaches (owner u).photo)
    (h : (.next (s.accept ty p tag payload owner) : Host.Outcome State Fault Refusal) = .next t) :
    s.photo.Reaches t.photo := by
  cases h
  obtain hstands | ⟨u, hu, ht⟩ := accept_photo ty p tag payload owner
  · exact .of_eq hstands
  · rw [ht]; exact hu ▸ howner u hu

theorem request_reaches {ty : RequestType} {p : PortId} {tag : Byte} {payload : List Byte} {owner : State → Reply × State}
    (howner : ∀ u : State, u.photo = s.photo → u.photo.Reaches (owner u).2.photo)
    (h : (.next (s.request ty p tag payload owner) : Host.Outcome State Fault Refusal) = .next t) :
    s.photo.Reaches t.photo :=
  accept_reaches
    (owner := fun u => (owner u).2.holdAnswer p ⟨ty.code, tag, (owner u).1.status, (owner u).1.payload⟩) howner h

theorem request_leaves {ty : RequestType} {p : PortId} {tag : Byte} {payload : List Byte} {owner : State → Reply × State}
    (howner : ∀ u : State, (owner u).2.photo = u.photo)
    (h : (.next (s.request ty p tag payload owner) : Host.Outcome State Fault Refusal) = .next t) :
    s.photo.Reaches t.photo := request_reaches (fun u _ => .of_eq (howner u)) h

theorem expiry_reaches {x : TimerId} {effect : State → State} (he : ∀ u : State, u.photo.Reaches (effect u).photo)
    (h : (.next (s.onExpiry x effect) : Host.Outcome State Fault Refusal) = .next t) : s.photo.Reaches t.photo := by
  cases h
  exact onExpiry_keeps (P := fun u => s.photo.Reaches u.photo) (fun _ _ hu => hu) (fun u hu => hu.trans (he u)) .refl

theorem expiry_leaves {x : TimerId} {effect : State → State} (he : ∀ u : State, (effect u).photo = u.photo)
    (h : (.next (s.onExpiry x effect) : Host.Outcome State Fault Refusal) = .next t) : s.photo.Reaches t.photo :=
  expiry_reaches (fun u => .of_eq (he u)) h

theorem event_reaches {u : State} (hu : s.photo.Reaches u.photo)
    (h : (.next u : Host.Outcome State Fault Refusal) = .next t) : s.photo.Reaches t.photo := by
  cases h; exact hu

theorem event_leaves {u : State} (hu : u.photo = s.photo)
    (h : (.next u : Host.Outcome State Fault Refusal) = .next t) : s.photo.Reaches t.photo :=
  event_reaches (.of_eq hu) h

/-- Whether a command carries the bytes of messages. -/
def Instr.spellsMessages : Instr → Bool
  | .frameError _ _ => true
  | .uartIdleGap _ _ => true
  | _ => false

theorem toInstr_spellsMessages (ty : RequestType) (p : PortId) (tag : Byte) (payload : List Byte) :
    Instr.spellsMessages (ty.toInstr p tag payload) = false := by cases ty <;> rfl

theorem exec_testSecondExpiry_reaches {p : PanelNo} (h : exec (.testSecondExpiry p) s = .next t) :
    s.photo.Reaches t.photo := by
  change execTestSecondExpiry p s = .next t at h
  unfold execTestSecondExpiry at h
  split at h
  · exact event_leaves rfl h
  · exact expiry_leaves (State.testSecond_photo · p _) h

theorem exec_linkTestExpiry_reaches {p : PanelNo} (h : exec (.linkTestExpiry p) s = .next t) :
    s.photo.Reaches t.photo := by
  change execLinkTestExpiry p s = .next t at h
  unfold execLinkTestExpiry at h
  split at h
  · exact event_leaves rfl h
  · exact expiry_leaves (fun u => by simp) h

theorem takeEither_photo (p : PanelNo) (r : Option Report) (u : State) : (u.takeEither p r).photo = u.photo := by
  cases r <;> simp [State.takeEither]

theorem foldl_takeEither_photo (p : PanelNo) : ∀ (rs : List (Option Report)) (u : State),
    (rs.foldl (State.takeEither p) u).photo = u.photo
  | [], _ => rfl
  | r :: rs, u => (foldl_takeEither_photo p rs _).trans (takeEither_photo p r u)

theorem exec_restart_reaches {p : PortId} {tag : Byte} {payload : List Byte}
    (h : exec (.restart p tag payload) s = .next t) : s.photo.Reaches t.photo := by
  refine accept_reaches (fun u _ => ?_) h
  split
  · exact .refl
  · exact takeReset_reaches _ _

theorem exec_loadBlock_reaches {p : PortId} {tag : Byte} {payload : List Byte}
    (h : exec (.loadBlock p tag payload) s = .next t) : s.photo.Reaches t.photo := by
  change execLoadBlock p tag payload s = .next t at h
  unfold execLoadBlock at h
  split at h
  · cases h
  · next hfound => exact request_reaches (fun u hu => loadBlock_reaches (hu ▸ hfound) payload) h

theorem beginLost_photo (p : PortId) : (s.beginLost p).photo = s.photo := by
  unfold State.beginLost; split <;> simp

theorem exec_requestDiscarded_reaches {lost : Discarded} (h : exec (.requestDiscarded lost) s = .next t) :
    s.photo.Reaches t.photo := by
  change execRequestDiscarded lost s = .next t at h
  unfold execRequestDiscarded at h
  split at h
  · exact event_leaves (by simp) h
  · exact event_leaves (beginLost_photo lost.port) h

theorem exec_compositionComplete_reaches (h : exec .compositionComplete s = .next t) : s.photo.Reaches t.photo := by
  change execCompositionComplete s = .next t at h
  unfold execCompositionComplete at h
  split at h
  · exact event_leaves rfl h
  · exact event_leaves (State.complete_photo s _) h

theorem exec_verificationComplete_reaches (h : exec .verificationComplete s = .next t) : s.photo.Reaches t.photo := by
  change execVerificationComplete s = .next t at h
  unfold execVerificationComplete at h
  split at h
  · exact event_leaves rfl h
  · next hk => exact event_reaches (verified_reaches hk) h

theorem exec_startUp_reaches (h : exec .startUp s = .next t) : s.photo.Reaches t.photo := by
  change execStartUp s = .next t at h
  unfold execStartUp at h
  split at h
  · exact event_leaves rfl h
  · exact event_reaches (startUp_reaches _) h
  · exact event_reaches (startUp_reaches _) h

theorem exec_reaches_of_no_messages {c : Instr} (hc : Instr.spellsMessages c = false) (h : exec c s = .next t) :
    s.photo.Reaches t.photo := by
  cases c with
  | frameError => cases hc
  | uartIdleGap => cases hc
  | batchOpen p => exact request_leaves (batchOpen_photo · (roleOfPort p)) h
  | batchAdd p _ payload => exact request_leaves (batchAdd_photo · payload (roleOfPort p)) h
  | batchCommit p => exact request_reaches (fun _ _ => batchCommit_reaches (roleOfPort p)) h
  | batchDiscard p => exact request_leaves (batchDiscard_photo · (roleOfPort p)) h
  | leaseRenew => exact request_leaves leaseRenew_photo h
  | itemRead _ _ payload => exact request_leaves (itemRead_photo · payload) h
  | priceQuery _ _ payload => exact request_leaves (priceQuery_photo · payload) h
  | planLoad _ _ payload => exact request_reaches (fun _ _ => planLoad_reaches payload) h
  | planClear _ _ payload => exact request_reaches (fun _ _ => planClear_reaches payload) h
  | planRead _ _ payload => exact request_leaves (planRead_photo · payload) h
  | loadBegin _ _ payload => exact request_reaches (fun _ _ => loadBegin_reaches payload) h
  | loadBlock => exact exec_loadBlock_reaches h
  | loadAbort => exact request_reaches (fun _ _ => loadAbort_reaches) h
  | slotErase _ _ payload => exact request_reaches (fun _ _ => slotErase_reaches payload) h
  | slotVerify _ _ payload => exact request_reaches (fun _ _ => slotVerify_reaches payload) h
  | verifyAll => exact request_reaches (fun u _ => verifyAll_photo (s := u) ▸ PhotoMemory.Change.joinAll.reaches) h
  | spaceRead => exact request_leaves (fun _ => rfl) h
  | slotRead _ _ payload => exact request_leaves (slotRead_photo · payload) h
  | panelDark _ _ payload => exact request_leaves (panelDark_photo · payload) h
  | panelLight _ _ payload => exact request_leaves (panelLight_photo · payload) h
  | linkTest _ _ payload => exact request_leaves (linkTest_photo · payload) h
  | linkTestStop _ _ payload => exact request_leaves (linkTestStop_photo · payload) h
  | panelStatus _ _ payload => exact request_leaves (panelStatus_photo · payload) h
  | changeoverStatus => exact request_leaves (fun _ => rfl) h
  | holdOpen p _ payload => exact request_leaves (holdOpen_photo · payload (laneOfPort p)) h
  | holdAdd p _ payload => exact request_leaves (holdAdd_photo · payload (laneOfPort p)) h
  | holdRemove p _ payload => exact request_leaves (holdRemove_photo · payload (laneOfPort p)) h
  | holdFocus p _ payload => exact request_leaves (holdFocus_photo · payload (laneOfPort p)) h
  | holdRefresh p _ payload => exact request_leaves (holdRefresh_photo · payload (laneOfPort p)) h
  | holdClose p _ payload => exact request_leaves (holdClose_photo · payload (laneOfPort p)) h
  | holdRead p _ payload => exact request_leaves (holdRead_photo · payload (laneOfPort p)) h
  | clockSet _ _ payload => exact request_leaves (clockSet_photo · payload) h
  | scheduleLoad _ _ payload => exact request_leaves (scheduleLoad_photo · payload) h
  | daypartForce _ _ payload => exact request_leaves (daypartForce_photo · payload) h
  | daypartAuto => exact request_leaves daypartAuto_photo h
  | scheduleRead => exact request_leaves (fun _ => rfl) h
  | freeze p _ payload => exact request_leaves (freeze_photo · payload (roleOfPort p)) h
  | unfreeze p => exact request_leaves (unfreeze_photo · (roleOfPort p)) h
  | profileBurn _ _ payload => exact request_leaves (profileBurn_photo · payload) h
  | profileRead => exact request_leaves (fun _ => rfl) h
  | describe => exact request_leaves (fun _ => rfl) h
  | restart => exact exec_restart_reaches h
  | noticeRead => exact request_leaves (fun _ => rfl) h
  | noticeClear p _ payload => exact request_leaves (noticeClear_photo · payload p) h
  | noticeMask p _ payload => exact request_leaves (noticeMask_photo · payload p) h
  | requestDiscarded => exact exec_requestDiscarded_reaches h
  | answerRead p n => exact event_leaves (by split <;> simp) h
  | answerSent l => exact event_leaves (by split <;> simp) h
  | present p => exact event_leaves (by split <;> simp) h
  | locked p => exact event_leaves (State.takeReport_photo s p _) h
  | unlocked p => exact event_leaves (State.takeReport_photo s p _) h
  | shown p => exact event_leaves (State.takeReport_photo s p _) h
  | testReport p => exact event_leaves (State.takeReport_photo s p _) h
  | panelFault p => exact event_leaves (State.takeReport_photo s p _) h
  | badReport p => exact event_leaves (foldl_takeEither_photo p _ s) h
  | batchIdleExpiry => exact expiry_leaves (fun u => by simp) h
  | priceLeaseExpiry => exact expiry_leaves State.expireLease_photo h
  | minuteTimerExpiry => exact expiry_leaves State.minutePasses_photo h
  | promotionEndCommit => exact event_leaves (State.endPromotions_photo s) h
  | lockSilenceExpiry p => exact expiry_leaves (State.loseLock_photo · p) h
  | detachTimerExpiry p => exact expiry_leaves (fun u => by split <;> simp) h
  | trainingLimitExpiry p => exact expiry_leaves (State.restartTraining_photo · p) h
  | frameBoundary p => exact expiry_leaves (State.boundary_photo · p) h
  | testSecondExpiry => exact exec_testSecondExpiry_reaches h
  | linkTestExpiry => exact exec_linkTestExpiry_reaches h
  | loadIdleExpiry => exact expiry_reaches (fun _ => loadTimeout_reaches) h
  | changeoverLimitExpiry => exact expiry_leaves (fun u => by (repeat' split) <;> simp) h
  | holdLeaseExpiry l x => exact expiry_leaves (State.expireHold_photo · l x) h
  | freezeLimitExpiry => exact expiry_leaves (State.endFreezeInForce_photo · .limit) h
  | secondTimerTick => exact expiry_leaves (fun u => by simp) h
  | tickEdge => exact event_leaves (by split <;> simp) h
  | scheduleEntryFire => exact event_leaves (State.fire_photo s) h
  | compositionStart => exact event_leaves (State.startNext_photo s) h
  | compositionComplete => exact exec_compositionComplete_reaches h
  | verifyStart => exact event_reaches PhotoMemory.Change.takeNext.reaches h
  | verificationComplete => exact exec_verificationComplete_reaches h
  | powerOn => exact event_reaches (takeReset_reaches .power _) h
  | resetLineAsserted => exact event_reaches (takeReset_reaches .pin _) h
  | startUp => exact exec_startUp_reaches h

theorem takeMessage_reaches {p : PortId} {message : List Byte} (h : takeMessage p message s = .next t) :
    s.photo.Reaches t.photo := by
  cases hm : Message.read message with
  | good ty tag payload =>
    rw [takeMessage_good hm] at h
    exact exec_reaches_of_no_messages (toInstr_spellsMessages ty p tag payload) h
  | bad status typeByte tag =>
    rw [takeMessage_bad hm] at h
    refine event_leaves ?_ h
    unfold State.arrive
    (repeat' split) <;> simp

theorem takeMessages_reaches {p : PortId} {n : Nat} {bytes : List Byte} (h : takeMessages p n bytes s = .next t) :
    s.photo.Reaches t.photo :=
  takeMessages_keeps (P := fun u => s.photo.Reaches u.photo) (fun _ _ _ hu hm => hu.trans (takeMessage_reaches hm)) n bytes
    s t .refl h

/-- Whatever a command makes of Photo Memory, it makes by the changes of `PhotoMemory.Change`. -/
theorem exec_reaches {c : Instr} (h : exec c s = .next t) : s.photo.Reaches t.photo := by
  cases c with
  | frameError p message =>
    change execFrameError p message s = .next t at h
    unfold execFrameError at h
    split at h
    · exact takeMessage_reaches h
    · exact takeMessages_reaches h
  | uartIdleGap => exact takeMessages_reaches h
  | _ => exact exec_reaches_of_no_messages rfl h

theorem step_reaches (h : step s = .next t) : s.photo.Reaches t.photo := by
  cases hq : s.pending with
  | cons c rest =>
    unfold step at h; rw [hq] at h
    exact exec_reaches (s := { s with pending := rest }) h
  | nil =>
    rw [step_of_empty hq] at h
    cases hown : s.ownEvent with
    | some c => exact exec_reaches ((idle_of_event hown).symm.trans h)
    | none =>
      rw [idle_of_none hown] at h
      exact event_leaves (by simp) h

/-- Settles O59: a step's changes of Photo Memory keep soundness one by one, and in a sound memory the account of its
blocks. -/
theorem photoMemoryStaysSound : Obligations.PhotoMemoryStaysSound :=
  ⟨fun _ _ hs h => PhotoMemory.Sound.reaches hs (step_reaches h),
    fun _ _ hs ha h => PhotoMemory.Accounted.reaches ha hs (step_reaches h)⟩

end Sys2Proof.Machine
end
section
/-! PROOFS. Photo Memory's slots (chapter 6): what emptying a slot leaves, SLOT_ERASE, the requests for verification and the
engine's next slot, and SLOT_READ: the statements O35, O36 and O38. -/
namespace Sys2Proof.Machine

/-! ## A slot's record -/

section Record

variable {m : PhotoMemory} {k : Nat} {r : Slot}

theorem setState_of_find (h : Table.find k m.slots = some r) (v : SlotState) :
    m.setState k v = { m with slots := Table.insert k { r with state := v } m.slots } := by
  unfold PhotoMemory.setState; rw [h]

theorem empty_of_find (h : Table.find k m.slots = some r) : m.empty k = { m with
    slots := Table.erase k m.slots
    free := release r.range m.free
    verifyQueue := m.verifyQueue.filter (fun j => j ≠ k) } := by
  unfold PhotoMemory.empty; rw [h]

end Record

/-! ## Requests of which Photo Memory answers -/

/-- A request that its port takes and whose owner changes Photo Memory and the timers alone. -/
theorem answered_with_photo {s : State} {p : PortId} (h : s.Takes p) {ty : RequestType} {tag : Byte} {payload : List Byte}
    (hr : ty.permission.holds p = true) (hlo : ty.lengths.1 ≤ payload.length) (hhi : payload.length ≤ ty.lengths.2)
    {owner : State → Reply × State} {r : Reply} {c : Instr} {m : PhotoMemory} {timers : Table Nat}
    (hc : exec c s = .next (s.request ty p tag payload owner))
    (ho : owner (s.clockIn p (6 + payload.length)) =
      (r, { s.clockIn p (6 + payload.length) with photo := m, timers := timers })) :
    ∃ t, exec c s = .next t ∧ AnsweredOn s t p ⟨ty.code, tag, r.status, r.payload⟩ ∧ t.photo = m ∧
      t = { s with ports := t.ports, photo := m, timers := timers } := by
  refine ⟨_, hc.trans (request_answers h hr hlo hhi ho), answeredOn_of_ports (n := _) rfl _, rfl, ?_⟩
  conv => lhs; rw [clockIn_eq]
  rfl

/-! ## SLOT_READ (R137) -/

theorem optBytes_some (n : Nat) (bytes : List Byte) : optBytes n (some bytes) = 1 :: bytes := rfl

theorem slotRead_of_empty {s : State} {k : Nat} (hk : k ≤ 191) (h : Table.find k s.photo.slots = none) :
    slotRead (be 1 k) s = (.ok (List.replicate 24 0), s) := by
  simp only [slotRead, slot?_be hk, h]; rfl

theorem slotRead_of_slot {s : State} {k : Nat} {r : Slot} (hk : k ≤ 191) (h : Table.find k s.photo.slots = some r) :
    slotRead (be 1 k) s = (.ok ([r.state.byte] ++ optBytes 10 (some r.rangeBytes) ++ be 2 r.pins ++
      [flagByte (s.photo.verifyQueue.contains k)] ++ r.causeBytes ++ s.photo.progressBytes k), s) := by
  simp only [slotRead, slot?_be hk, h]

theorem progressBytes_eq (m : PhotoMemory) (k : Nat) : m.progressBytes k = optBytes 4 (match m.session with
    | some ls => if ls.slot = k then some (be 2 ls.expected ++ be 2 ls.received) else none
    | none => none) := by
  unfold PhotoMemory.progressBytes; cases m.session <;> rfl

/-- Settles O38: a read of either kind answers and changes nothing. -/
theorem slotReadGivesRecord : Obligations.SlotReadGivesRecord := by
  refine fun s p tag k hp hk => ⟨fun h => ?empty, fun r h => ?slot⟩
  case empty =>
    exact answersOnly_of_takes (t := .slotRead) (payload := be 1 k) hp (every_holds p) (Nat.le_refl 1) (Nat.le_refl 1) rfl
      (slotRead_of_empty hk (by simpa using h)) rfl
  case slot =>
    refine answersOnly_of_takes (t := .slotRead) (payload := be 1 k) hp (every_holds p) (Nat.le_refl 1) (Nat.le_refl 1) rfl
      (slotRead_of_slot hk (by simpa using h)) ?_
    rw [State.clockIn_photo, progressBytes_eq]
    simp only [okTo, Reply.ok, optBytes_some, Slot.rangeBytes, Slot.causeBytes, List.append_assoc, List.cons_append,
      List.nil_append] <;> rfl

/-! ## SLOT_ERASE (R130) -/

section Erase

variable {s : State} {k : Nat} {r : Slot}

theorem slotErase_of_empty (hk : k ≤ 191) (h : Table.find k s.photo.slots = none) :
    slotErase (be 1 k) s = (.refuse .slotState, s) := by
  simp only [slotErase, slot?_be hk, h]

theorem slotErase_of_loading (hk : k ≤ 191) (h : Table.find k s.photo.slots = some r) (hr : r.state = .loading) :
    slotErase (be 1 k) s = (.refuse .slotState, s) := by
  simp only [slotErase, slot?_be hk, h, hr, if_true]

theorem slotErase_of_verifying (hk : k ≤ 191) (h : Table.find k s.photo.slots = some r) (hr : r.state = .verifying) :
    slotErase (be 1 k) s = (.refuse .busy, s) := by
  simp only [slotErase, slot?_be hk, h, hr, reduceCtorEq, if_false, if_true]

theorem slotErase_of_pinned (hk : k ≤ 191) (h : Table.find k s.photo.slots = some r) (hl : r.state ≠ .loading)
    (hv : r.state ≠ .verifying) (hp : r.pins ≠ 0) : slotErase (be 1 k) s = (⟨.inUse, be 2 r.pins⟩, s) := by
  simp only [slotErase, slot?_be hk, h, hl, hv, if_false]
  exact if_pos hp

theorem slotErase_of_erasable (hk : k ≤ 191) (h : Table.find k s.photo.slots = some r) (hl : r.state ≠ .loading)
    (hv : r.state ≠ .verifying) (hp : r.pins = 0) : slotErase (be 1 k) s = (.ok [], s.erase k) := by
  simp only [slotErase, slot?_be hk, h, hl, hv, if_false]
  exact if_neg (Decidable.not_not.2 hp)

theorem exec_slotErase_of_erasable (ht : s.Takes .media) (tag : Byte) (hk : k ≤ 191)
    (h : Table.find k s.photo.slots = some r) (hl : r.state ≠ .loading) (hv : r.state ≠ .verifying) (hp : r.pins = 0) :
    exec (.slotErase .media tag (be 1 k)) s =
      .next (((s.clockIn .media 7).erase k).holdAnswer .media (okTo .slotErase tag [])) :=
  request_answers (t := .slotErase) (payload := be 1 k) ht rfl (Nat.le_refl 1) (Nat.le_refl 1)
    (slotErase_of_erasable hk (by rw [State.clockIn_photo]; exact h) hl hv hp)

/-- The erase of the last slot that waits, with no verification in progress, raises VERIFY_DONE (R130). -/
theorem erase_verifyDone (h : Table.find k s.photo.slots = some r) (hq : s.photo.verifyQueue = [k])
    (hv : s.photo.verifying = none) : FlagSet (s.erase k) .media .verifyDone := by
  have he : (s.setPhoto (s.photo.empty k)).photo.verifyQueue = [] ∧
      (s.setPhoto (s.photo.empty k)).photo.verifying = none := by
    rw [State.setPhoto_photo, empty_of_find h, hq]; simp [hv]
  have hraised : s.erase k = (s.setPhoto (s.photo.empty k)).raise .verifyDone .media := by
    simp only [State.erase, hq, List.contains_cons, BEq.rfl, Bool.true_or, if_true, State.verifyDoneIfEmpty]
    exact if_pos he
  rw [hraised]
  exact raise_flag _ _ rfl (by decide)

/-- A request that SLOT_ERASE turns away changes nothing. -/
theorem slotErase_refused (ht : s.Takes .media) {tag : Byte} {reply : Reply}
    (ho : slotErase (be 1 k) (s.clockIn .media 7) = (reply, s.clockIn .media 7)) :
    AnswersOnly s (.slotErase .media tag (be 1 k)) .media (refusalOf .slotErase tag reply.status reply.payload) :=
  answersOnly_of_takes (t := .slotErase) (payload := be 1 k) ht rfl (Nat.le_refl 1) (Nat.le_refl 1) rfl ho rfl

end Erase

/-- Settles O35: the erase is `PhotoMemory.empty`, whose release is said block by block in `has_release` and
`Accounted.release`. -/
theorem slotEraseChecksInOrder : Obligations.SlotEraseChecksInOrder := by
  refine fun s tag k ht hk => ⟨fun r hr hl hv hp => ?erased, fun status payload hrefused => ?refused⟩
  case erased =>
    have hr' : Table.find k (s.clockIn .media 7).photo.slots = some r := by rw [State.clockIn_photo]; exact hr
    refine ⟨_, exec_slotErase_of_erasable ht tag hk hr hl hv hp, by simp [Holds], ?_⟩
    have hphoto : (((s.clockIn .media 7).erase k).holdAnswer .media (okTo .slotErase tag [])).photo =
        s.photo.empty k := by rw [State.holdAnswer_photo, erase_photo, State.clockIn_photo]
    rw [hphoto, empty_of_find hr]
    refine ⟨Table.find_erase_self _ _, fun j hj => Table.find_erase_of_ne (Ne.symm hj) _, rfl,
      fun b => has_release r.range b _, fun ha hc => PhotoMemory.Accounted.release ha hr hc, rfl, fun hq hv => ?flag, rfl,
      by rw [← empty_of_find hr, ← hphoto]; apply State.eq_of_fields <;> simp⟩
    case flag =>
      exact holdAnswer_flagSet _ _ (erase_verifyDone hr' (by rw [State.clockIn_photo]; exact hq)
        (by rw [State.clockIn_photo]; exact hv))
  case refused =>
    obtain ⟨h, rfl, rfl⟩ | ⟨r, h, hl, rfl, rfl⟩ | ⟨r, h, hv, rfl, rfl⟩ | ⟨r, h, hl, hv, hp, rfl, rfl⟩ :=
        hrefused <;>
      rw [← State.clockIn_photo s .media 7] at h
    · exact slotErase_refused ht (slotErase_of_empty hk h)
    · exact slotErase_refused ht (slotErase_of_loading hk h hl)
    · exact slotErase_refused ht (slotErase_of_verifying hk h hv)
    · exact slotErase_refused ht (slotErase_of_pinned hk h hl hv hp)

/-! ## SLOT_VERIFY and VERIFY_ALL (R134, R135) -/

section Verify

variable {s : State} {k : Nat} {r : Slot}

theorem slotVerify_of_unverified (hk : k ≤ 191) (h : Table.find k s.photo.slots = some r) (hr : r.state = .unverified) :
    slotVerify (be 1 k) s =
      (.ok [], s.setPhoto { s.photo with verifyQueue := joinVerify k s.photo.verifyQueue }) := by
  simp only [slotVerify, slot?_be hk, h, hr, if_true]

theorem slotVerify_of_verifying (hk : k ≤ 191) (h : Table.find k s.photo.slots = some r) (hr : r.state = .verifying) :
    slotVerify (be 1 k) s = (.ok [], s) := by
  simp only [slotVerify, slot?_be hk, h, hr, reduceCtorEq, if_false, if_true]

theorem slotVerify_of_other (hk : k ≤ 191) (h : ∀ r, Table.find k s.photo.slots = some r →
    r.state ≠ .unverified ∧ r.state ≠ .verifying) : slotVerify (be 1 k) s = (.refuse .slotState, s) := by
  simp only [slotVerify, slot?_be hk]
  cases hf : Table.find k s.photo.slots with
  | none => rfl
  | some r => obtain ⟨hu, hv⟩ := h r hf; simp only [hu, hv, if_false]

theorem slotVerify_of_outside (hk : 191 < k) (hk' : k < 256) : slotVerify (be 1 k) s = (.refuse .badField, s) := by
  simp only [slotVerify, slot?_be_eq_none hk hk']

/-- A SLOT_VERIFY that queues nothing is answered and changes nothing. -/
theorem slotVerify_answersOnly (ht : s.Takes .media) {tag : Byte} {reply : Reply}
    (ho : slotVerify (be 1 k) (s.clockIn .media 7) = (reply, s.clockIn .media 7)) :
    AnswersOnly s (.slotVerify .media tag (be 1 k)) .media
      ⟨RequestType.slotVerify.code, tag, reply.status, reply.payload⟩ :=
  answersOnly_of_takes (t := .slotVerify) (payload := be 1 k) ht rfl (Nat.le_refl 1) (Nat.le_refl 1) rfl ho rfl

theorem exec_verifyAll (ht : s.Takes .media) (tag : Byte) : exec (.verifyAll .media tag []) s =
    .next ((verifyAll (s.clockIn .media 6)).2.holdAnswer .media
      (okTo .verifyAll tag (be 1 s.photo.joinAll.verifyQueue.length))) := by
  refine request_answers (t := .verifyAll) (payload := []) ht rfl (Nat.le_refl 0) (Nat.le_refl 0)
    (r := .ok (be 1 s.photo.joinAll.verifyQueue.length)) (Prod.ext ?_ rfl)
  exact congrArg (fun m : PhotoMemory => Reply.ok (be 1 m.joinAll.verifyQueue.length)) (State.clockIn_photo s _ _)

theorem verifyAll_verifyDone (h : s.photo.joinAll.verifyQueue = []) : FlagSet (verifyAll s).2 .media .verifyDone := by
  have hraised : (verifyAll s).2 = (s.setPhoto s.photo.joinAll).raise .verifyDone .media := if_pos h
  rw [hraised]
  exact raise_flag _ _ rfl (by decide)

theorem verifyAll_frame (s : State) : (verifyAll s).2 =
    { s with ports := (verifyAll s).2.ports, photo := s.photo.joinAll } := by
  unfold verifyAll; dsimp only; split
  · apply State.eq_of_fields <;> simp
  · rfl

end Verify

/-! ## VERIFY_START (R133) -/

section Engine

variable {s : State} {k : Nat} {r : Slot}

/-- The idle engine's next slot is the lowest UNVERIFIED one that waits. -/
theorem nextVerify_of_lowest (hs : PhotoSound s) (hv : s.photo.verifying = none) (hk : k ∈ s.photo.verifyQueue)
    (hr : Table.find k s.photo.slots = some r) (hu : r.state = .unverified)
    (hlow : ∀ j q, j ∈ s.photo.verifyQueue → j < k → Table.find j s.photo.slots = some q → q.state ≠ .unverified) :
    s.photo.nextVerify = some k := by
  obtain ⟨-, hslots, -, -, hrising, -⟩ := hs
  unfold PhotoMemory.nextVerify
  rw [hv]
  refine find?_of_lowest hrising hk ?_ fun j hj hlt => ?_
  · simpa using (mem_unverified hslots k).2 ⟨r, hr, hu⟩
  · rw [Bool.eq_false_iff, Ne, List.contains_iff_mem, mem_unverified hslots j]
    rintro ⟨q, hq, hqu⟩
    exact hlow j q hj hlt hq hqu

theorem nextVerify_of_nothing (hs : PhotoSound s) (h : s.photo.verifying ≠ none ∨
    ∀ j q, j ∈ s.photo.verifyQueue → Table.find j s.photo.slots = some q → q.state ≠ .unverified) :
    s.photo.nextVerify = none := by
  obtain ⟨-, hslots, -, -, -, -⟩ := hs
  cases hn : s.photo.nextVerify with
  | none => rfl
  | some k =>
    obtain ⟨hidle, hk, hu⟩ := nextVerify_some hn
    obtain ⟨q, hq, hqu⟩ := (mem_unverified hslots k).1 hu
    exact (h.elim (· hidle) fun h => h k q hk hq hqu).elim

theorem takeNext_of_find (h : s.photo.nextVerify = some k) (hr : Table.find k s.photo.slots = some r) :
    s.photo.takeNext = { s.photo with
      verifying := some k, slots := Table.insert k { r with state := .verifying } s.photo.slots } := by
  simp only [PhotoMemory.takeNext, h, setState_of_find hr]

end Engine

/-- Settles O36: the queue through `mem_joinVerify`, the engine through `nextVerify`. -/
theorem verifyRequestsQueueAndEngineTakesLowest : Obligations.VerifyRequestsQueueAndEngineTakesLowest := by
  refine ⟨fun s tag ht => ⟨fun k r hk hr hu => ?queued, fun k r hk hr hv => ?verifying, fun k hk h => ?other,
    fun k hk hk' => ?outside, ?all⟩, fun s k r hs hv hk hr hu hlow => ?taken, fun s hs h => ?stands⟩
  case queued =>
    obtain ⟨t, he, ha, hphoto, hframe⟩ := answered_with_photo (ty := .slotVerify) (payload := be 1 k)
      (c := .slotVerify .media tag (be 1 k)) (timers := (s.clockIn .media 7).timers) ht rfl (Nat.le_refl 1)
      (Nat.le_refl 1) rfl (slotVerify_of_unverified hk (by rw [State.clockIn_photo]; exact hr) hu)
    rw [State.clockIn_photo] at hphoto
    refine ⟨t, he, ha, hphoto, fun j => by rw [hphoto]; exact mem_joinVerify k j _, ?_⟩
    rw [State.clockIn_photo, ← hphoto, State.clockIn_timers] at hframe
    exact hframe
  case verifying =>
    exact slotVerify_answersOnly ht (slotVerify_of_verifying hk (by rw [State.clockIn_photo]; exact hr) hv)
  case other => exact slotVerify_answersOnly ht (slotVerify_of_other hk (by rw [State.clockIn_photo]; exact h))
  case outside => exact slotVerify_answersOnly ht (slotVerify_of_outside hk hk')
  case all =>
    refine ⟨_, exec_verifyAll ht tag, ?_⟩
    have hphoto : ((verifyAll (s.clockIn .media 6)).2.holdAnswer .media
        (okTo .verifyAll tag (be 1 s.photo.joinAll.verifyQueue.length))).photo = s.photo.joinAll := by
      rw [State.holdAnswer_photo, verifyAll_photo, State.clockIn_photo]
    rw [hphoto]
    refine ⟨by simp [Holds], rfl, fun k => mem_foldl_joinVerify _ k _, fun hq => ?_, ?_⟩
    · exact holdAnswer_flagSet _ _ (verifyAll_verifyDone (by rw [State.clockIn_photo]; exact hq))
    · conv => lhs; rw [verifyAll_frame, clockIn_eq]
      rfl
  case taken =>
    refine ⟨_, rfl, takeNext_of_find (nextVerify_of_lowest hs hv hk hr hu hlow) hr, rfl⟩
  case stands =>
    show Host.Outcome.next (s.setPhoto s.photo.takeNext) = _
    rw [takeNext_of_none (nextVerify_of_nothing hs h)]
    rfl

end Sys2Proof.Machine
end
section
/-! PROOFS. The load session (chapter 6): LOAD_BEGIN with its first fit, LOAD_BLOCK, LOAD_ABORT and the load idle limit: the
statements O31 to O34. -/
namespace Sys2Proof.Machine

/-! ## The end of a session (R125 to R129) -/

section Ends

variable {s : State} {ls : LoadSession} {r : Slot}

theorem closeSession_loadIdle (v : SlotState) (o : LoadOutcome) : (s.closeSession ls v o).timeLeft .loadIdle = none :=
  (timeLeft_of_timers (State.raise_timers _ _ _) _).trans (State.stopTimer_timeLeft_self _ _)

theorem closeSession_loadEnded (v : SlotState) (o : LoadOutcome) : FlagSet (s.closeSession ls v o) .media .loadEnded :=
  raise_flag _ _ rfl (by decide)

theorem dropSession_loadIdle (o : LoadOutcome) : (s.dropSession ls o).timeLeft .loadIdle = none :=
  State.stopTimer_timeLeft_self _ _

theorem loadAbort_of_session (h : s.photo.session = some ls) : loadAbort s = (.ok [], s.dropSession ls .aborted) := by
  simp only [loadAbort, h]

theorem loadTimeout_of_session (h : s.photo.session = some ls) :
    s.loadTimeout = (s.dropSession ls .timeout).raise .loadEnded .media := by
  simp only [State.loadTimeout, h]

theorem exec_loadAbort_of_session (ht : s.Takes .media) (h : s.photo.session = some ls) (tag : Byte) :
    exec (.loadAbort .media tag []) s =
      .next (((s.clockIn .media 6).dropSession ls .aborted).holdAnswer .media (okTo .loadAbort tag [])) :=
  request_answers (t := .loadAbort) (payload := []) ht rfl (Nat.le_refl 0) (Nat.le_refl 0)
    (loadAbort_of_session (by rw [State.clockIn_photo]; exact h))

theorem exec_loadIdleExpiry_of_session {left : Nat} (ht : s.timeLeft .loadIdle = some left)
    (h : s.photo.session = some ls) : exec .loadIdleExpiry s =
      .next ((((s.elapse left).stopTimer .loadIdle).dropSession ls .timeout).raise .loadEnded .media) :=
  congrArg Host.Outcome.next ((onExpiry_running ht State.loadTimeout).trans
    (loadTimeout_of_session (s := (s.elapse left).stopTimer .loadIdle) h))

/-- What a session dropped in a state leaves, however the drop is announced. -/
def SessionDropped (s t : State) (ls : LoadSession) (r : Slot) (o : LoadOutcome) : Prop :=
  t.photo.session = none ∧ Table.find ls.slot t.photo.slots = none ∧
    (∀ k, k ≠ ls.slot → Table.find k t.photo.slots = Table.find k s.photo.slots) ∧
    t.photo.free = release r.range s.photo.free ∧
    (∀ b, (∃ e ∈ t.photo.free, e.has b) ↔ (∃ e ∈ s.photo.free, e.has b) ∨ r.range.has b) ∧
    (BlocksAccounted s → 1 ≤ r.range.count → FreeListOrdered t.photo.free) ∧ t.timeLeft .loadIdle = none ∧
    t.photo.lastLoad = some ⟨ls.slot, ls.received, o⟩ ∧ t.photo.memory = s.photo.memory

theorem sessionDropped_of_photo {t : State} {o : LoadOutcome} (hr : Table.find ls.slot s.photo.slots = some r)
    (hphoto : t.photo = (s.photo.empty ls.slot).endSession ls o) (hidle : t.timeLeft .loadIdle = none) :
    SessionDropped s t ls r o := by
  unfold SessionDropped
  rw [hphoto, empty_of_find hr]
  exact ⟨rfl, Table.find_erase_self _ _, fun k hk => Table.find_erase_of_ne (Ne.symm hk) _, rfl,
    fun b => has_release r.range b _, fun ha hc => PhotoMemory.Accounted.release ha hr hc, hidle, rfl, rfl⟩

end Ends

/-- Settles O34: both ends are `State.dropSession`, the timeout's with a notice. -/
theorem loadAbortAndTimeoutEmptySlot : Obligations.LoadAbortAndTimeoutEmptySlot := by
  intro s ls r c o hs hr hc
  suffices h : ∃ t, exec c s = .next t ∧ SessionDropped s t ls r o ∧
      (c = .loadIdleExpiry → FlagSet t .media .loadEnded) ∧
      (∀ tag, c = .loadAbort .media tag [] → AnsweredOn s t .media (okTo .loadAbort tag [])) ∧
      t = { s with ports := t.ports, photo := t.photo, timers := t.timers } by
    obtain ⟨t, he, ⟨hsession, hempty, hothers, hfree, hblocks, hordered, hidle, hlast, hmemory⟩, hrest⟩ := h
    exact ⟨t, he, hsession, hempty, hothers, hfree, hblocks, hordered, hidle, hlast, hmemory, hrest⟩
  obtain ⟨tag, rfl, ht, rfl⟩ | ⟨rfl, ⟨left, hleft⟩, rfl⟩ := hc
  case inl =>
    refine ⟨_, exec_loadAbort_of_session ht hs tag, sessionDropped_of_photo hr ?_ ?_, nofun, fun tag' he => ?_, ?_⟩
    · rw [State.holdAnswer_photo, dropSession_photo, State.clockIn_photo]
    · rw [State.holdAnswer_timeLeft, dropSession_loadIdle]
    · cases he; exact answeredOn_of_ports (n := 6) (by simp) _
    · apply State.eq_of_fields <;> simp
  case inr =>
    refine ⟨_, exec_loadIdleExpiry_of_session hleft hs, sessionDropped_of_photo hr ?_ ?_, fun _ => raise_flag _ _ rfl ?_,
      nofun, ?_⟩
    · rw [State.raise_photo, dropSession_photo]; rfl
    · rw [raise_timeLeft, dropSession_loadIdle]
    · decide
    · apply State.eq_of_fields <;> simp

/-! ## First fit (R121) -/

theorem allocate_eq_none {n : Nat} : ∀ {free : List BlockRange}, (∀ e ∈ free, e.count < n) → allocate n free = none
  | [], _ => rfl
  | e :: es, h => by
    obtain ⟨he, hes⟩ := List.forall_mem_cons.1 h
    rw [allocate, dif_neg (Nat.not_le.2 he), allocate_eq_none hes]
    rfl

/-- The first entry that holds the blocks gives them, and goes if it has no more. -/
theorem allocate_first {n : Nat} {e : BlockRange} (after : List BlockRange) (he : n ≤ e.count) :
    ∀ before : List BlockRange, (∀ x ∈ before, x.count < n) → ∃ range free,
      allocate n (before ++ e :: after) = some (range, free) ∧ range.start = e.start ∧ range.count = n ∧
      (n = e.count → free = before ++ after) ∧
      (n < e.count → ∃ x, free = before ++ x :: after ∧ x.start = e.start + n ∧ x.count = e.count - n)
  | [], _ => by
    rw [List.nil_append, allocate, dif_pos he]
    dsimp only
    split
    · next heq => exact ⟨_, _, rfl, rfl, rfl, fun _ => rfl, fun hlt => absurd heq (Nat.ne_of_lt hlt)⟩
    · next hne => exact ⟨_, _, rfl, rfl, rfl, fun heq => absurd heq hne, fun _ => ⟨_, rfl, rfl, rfl⟩⟩
  | b :: bs, hb => by
    obtain ⟨hlt, hbs⟩ := List.forall_mem_cons.1 hb
    obtain ⟨range, free, ha, hstart, hcount, hwhole, hpart⟩ := allocate_first after he bs hbs
    refine ⟨range, b :: free, ?_, hstart, hcount, fun h => by rw [hwhole h]; rfl, fun h => ?_⟩
    · rw [List.cons_append, allocate, dif_neg (Nat.not_le.2 hlt), ha]; rfl
    · obtain ⟨x, hfree, hx⟩ := hpart h
      exact ⟨x, by rw [hfree]; rfl, hx⟩

/-! ## LOAD_BEGIN (R123) -/

/-- The payload of LOAD_BEGIN. -/
def loadBeginPayload (slot count width height : Nat) (sum : BitVec 32) : List Byte :=
  be 1 slot ++ be 2 count ++ be 1 width ++ be 1 height ++ be 4 sum.toNat

/-- The ranges of LOAD_BEGIN's fields (first check of R123). -/
def LoadFieldsInRange (slot count width height : Nat) : Prop :=
  slot ≤ 191 ∧ 1 ≤ count ∧ count ≤ 320 ∧ 1 ≤ width ∧ width ≤ 16 ∧ 1 ≤ height ∧ height ≤ 9

section Begin

variable {s : State} {slot count width height : Nat} {sum : BitVec 32}

/-- LOAD_BEGIN on a payload whose fields fit their bytes. -/
theorem loadBegin_eq (hslot : slot < 256) (hcount : count < 65536) (hwidth : width < 256) (hheight : height < 256) :
    loadBegin (loadBeginPayload slot count width height sum) s =
      if 191 < slot ∨ count < 1 ∨ 320 < count ∨ width < 1 ∨ 16 < width ∨ height < 1 ∨ 9 < height then
        (.refuse .badField, s)
      else if s.photo.session.isSome then (.refuse .busy, s)
      else if (Table.find slot s.photo.slots).isSome then (.refuse .slotState, s)
      else
        match allocate count s.photo.free with
        | none => (⟨.noSpace, be 2 (freeTotal s.photo.free) ++ largestBytes s.photo.free⟩, s)
        | some (range, free) =>
          (.ok (be 2 range.start ++ be 2 range.count), s.openSession slot range free width height sum) := by
  have h1 : natOf ((loadBeginPayload slot count width height sum).take 1) = slot := natOf_be (k := 1) hslot
  have h2 : natOf (((loadBeginPayload slot count width height sum).drop 1).take 2) = count := natOf_be (k := 2) hcount
  have h3 : natOf (((loadBeginPayload slot count width height sum).drop 3).take 1) = width := natOf_be (k := 1) hwidth
  have h4 : natOf (((loadBeginPayload slot count width height sum).drop 4).take 1) = height := natOf_be (k := 1) hheight
  have h5 : natOf ((loadBeginPayload slot count width height sum).drop 5) = sum.toNat := natOf_be (k := 4) sum.isLt
  unfold loadBegin
  simp only [h1, h2, h3, h4, h5, BitVec.ofNat_toNat, BitVec.setWidth_eq] <;> rfl

theorem loadBegin_of_outside (hslot : slot < 256) (hcount : count < 65536) (hwidth : width < 256)
    (hheight : height < 256) (h : ¬ LoadFieldsInRange slot count width height) :
    loadBegin (loadBeginPayload slot count width height sum) s = (.refuse .badField, s) := by
  rw [loadBegin_eq hslot hcount hwidth hheight]
  exact if_pos (by unfold LoadFieldsInRange at h; omega)

/-- The checks after the first (R123). -/
theorem loadBegin_of_inside (h : LoadFieldsInRange slot count width height) :
    loadBegin (loadBeginPayload slot count width height sum) s =
      if s.photo.session.isSome then (.refuse .busy, s)
      else if (Table.find slot s.photo.slots).isSome then (.refuse .slotState, s)
      else
        match allocate count s.photo.free with
        | none => (⟨.noSpace, be 2 (freeTotal s.photo.free) ++ largestBytes s.photo.free⟩, s)
        | some (range, free) =>
          (.ok (be 2 range.start ++ be 2 range.count), s.openSession slot range free width height sum) := by
  unfold LoadFieldsInRange at h
  rw [loadBegin_eq (by omega) (by omega) (by omega) (by omega)]
  exact if_neg (by omega)

theorem loadBegin_of_busy (h : LoadFieldsInRange slot count width height) (hs : s.photo.session ≠ none) :
    loadBegin (loadBeginPayload slot count width height sum) s = (.refuse .busy, s) := by
  rw [loadBegin_of_inside h]; exact if_pos (Option.isSome_iff_ne_none.2 hs)

theorem loadBegin_of_used (h : LoadFieldsInRange slot count width height) (hs : s.photo.session = none)
    (hk : Table.find slot s.photo.slots ≠ none) :
    loadBegin (loadBeginPayload slot count width height sum) s = (.refuse .slotState, s) := by
  rw [loadBegin_of_inside h, hs]; exact if_pos (Option.isSome_iff_ne_none.2 hk)

theorem loadBegin_of_full (h : LoadFieldsInRange slot count width height) (hs : s.photo.session = none)
    (hk : Table.find slot s.photo.slots = none) (hfree : ∀ e ∈ s.photo.free, e.count < count) :
    loadBegin (loadBeginPayload slot count width height sum) s =
      (⟨.noSpace, be 2 (freeTotal s.photo.free) ++ largestBytes s.photo.free⟩, s) := by
  rw [loadBegin_of_inside h, hs, hk, allocate_eq_none hfree]; rfl

theorem loadBegin_of_fit (h : LoadFieldsInRange slot count width height) (hs : s.photo.session = none)
    (hk : Table.find slot s.photo.slots = none) {range : BlockRange} {free : List BlockRange}
    (ha : allocate count s.photo.free = some (range, free)) :
    loadBegin (loadBeginPayload slot count width height sum) s =
      (.ok (be 2 range.start ++ be 2 range.count), s.openSession slot range free width height sum) := by
  rw [loadBegin_of_inside h, hs, hk, ha]; rfl

theorem largestBytes_nil : be 2 (freeTotal []) ++ largestBytes [] = be 2 0 ++ optBytes 4 none := rfl

theorem largestBytes_of_largest {free before after : List BlockRange} {e : BlockRange}
    (hfree : free = before ++ e :: after) (hb : ∀ x ∈ before, x.count < e.count) (ha : ∀ x ∈ after, x.count ≤ e.count) :
    be 2 (freeTotal free) ++ largestBytes free =
      be 2 (free.map BlockRange.count).sum ++ optBytes 4 (some (be 2 e.start ++ be 2 e.count)) := by
  rw [freeTotal_eq, largestBytes, show largestFree free = some e by rw [hfree]; exact largestFree_eq ha before hb]
  rfl

/-- A LOAD_BEGIN that is turned away changes nothing. -/
theorem loadBegin_refused (ht : s.Takes .media) {tag : Byte} {reply : Reply}
    (ho : ∀ u : State, u.photo = s.photo → loadBegin (loadBeginPayload slot count width height sum) u = (reply, u)) :
    AnswersOnly s (.loadBegin .media tag (loadBeginPayload slot count width height sum)) .media
      (refusalOf .loadBegin tag reply.status reply.payload) :=
  answersOnly_of_takes (t := .loadBegin) (payload := loadBeginPayload slot count width height sum) ht rfl
    (Nat.le_refl 9) (Nat.le_refl 9) rfl
    (ho _ (State.clockIn_photo s .media _)) rfl

end Begin

/-- Settles O31: the refusals one by one, and the fit by `allocate_first`. -/
theorem loadBeginAllocatesFirstFit : Obligations.LoadBeginAllocatesFirstFit := by
  refine ⟨fun s tag slot count width height sum status payload ht hslot hcount hwidth hheight h => ?refused,
    fun s tag slot count width height sum before after e ht h1 h2 h3 h4 h5 h6 h7 hs hk hfree hb he => ?taken⟩
  case refused =>
    obtain ⟨hout, rfl, rfl⟩ | ⟨h1, h2, h3, h4, h5, h6, h7, h⟩ := h
    · exact loadBegin_refused ht fun u _ => loadBegin_of_outside hslot hcount hwidth hheight hout
    · have hin : LoadFieldsInRange slot count width height := ⟨h1, h2, h3, h4, h5, h6, h7⟩
      obtain ⟨hs, rfl, rfl⟩ | ⟨hs, hk, rfl, rfl⟩ | ⟨hs, hk, hfull, rfl, hpayload⟩ := h
      · exact loadBegin_refused ht fun u hu => loadBegin_of_busy hin (by rw [hu]; exact hs)
      · exact loadBegin_refused ht fun u hu => loadBegin_of_used hin (by rw [hu]; exact hs) (by rw [hu]; exact hk)
      · have hanswer : payload = be 2 (freeTotal s.photo.free) ++ largestBytes s.photo.free := by
          obtain ⟨hnil, rfl⟩ | ⟨before, e, after, hfree, hb, ha, rfl⟩ := hpayload
          · rw [hnil]; exact largestBytes_nil.symm
          · exact (largestBytes_of_largest hfree hb ha).symm
        rw [hanswer]
        exact loadBegin_refused (reply := ⟨.noSpace, _⟩) ht fun u hu => hu ▸ loadBegin_of_full hin
          (by rw [hu]; exact hs) (by rw [hu]; exact hk) (by rw [hu]; exact hfull)
  case taken =>
    obtain ⟨range, free, ha, hstart, hblocks, hwhole, hpart⟩ := allocate_first after he before hb
    obtain ⟨t, hexec, hanswer, hphoto, hframe⟩ := answered_with_photo (ty := .loadBegin)
      (payload := loadBeginPayload slot count width height sum)
      (c := .loadBegin .media tag (loadBeginPayload slot count width height sum)) (tag := tag)
      (timers := (s.startTimer .loadIdle 5000).timers) ht rfl (Nat.le_refl 9) (Nat.le_refl 9) rfl
      ((loadBegin_of_fit ⟨h1, h2, h3, h4, h5, h6, h7⟩ (by rw [State.clockIn_photo]; exact hs)
        (by rw [State.clockIn_photo]; exact hk) (by rw [State.clockIn_photo, hfree]; exact ha)).trans
          (by unfold State.openSession State.setPhoto State.startTimer; rw [State.clockIn_timers]))
    rw [State.clockIn_photo] at hphoto
    rw [hstart, hblocks] at hanswer
    refine ⟨t, ⟨.loading, range, width, height, sum, 0⟩, hexec, hanswer, ?slot, rfl, hstart, hblocks, rfl, rfl, rfl, rfl,
      fun k hne => ?others, ?session, fun h => ?whole, fun h => ?part, ?memory, ?idle, ?frame⟩
    case slot => rw [hphoto]; exact Table.find_insert_self _ _ _
    case others => rw [hphoto]; exact Table.find_insert_of_ne (Ne.symm hne) _ _
    case session => rw [hphoto]
    case whole => rw [hphoto]; exact hwhole h
    case part => rw [hphoto]; exact hpart h
    case memory => rw [hphoto]
    case idle => rw [hframe]; exact State.startTimer_timeLeft_self s .loadIdle 5000
    case frame =>
      conv => lhs; rw [hframe]
      rw [hframe, State.clockIn_photo]

/-! ## LOAD_BLOCK (R124, R125) -/

/-- The payload of LOAD_BLOCK. -/
def loadBlockPayload (index : Nat) (sum : BitVec 32) (data : List Byte) : List Byte :=
  be 2 index ++ be 4 sum.toNat ++ data

section Block

variable {s : State} {ls : LoadSession} {r : Slot} {index : Nat} {sum : BitVec 32} {data : List Byte}

theorem loadBlockPayload_length : (loadBlockPayload index sum data).length = 6 + data.length := by
  simp only [loadBlockPayload, List.length_append, be_length]

theorem loadBlockPayload_fits (hdata : data.length ≤ 4098) :
    RequestType.loadBlock.lengths.1 ≤ (loadBlockPayload index sum data).length ∧
      (loadBlockPayload index sum data).length ≤ RequestType.loadBlock.lengths.2 := by
  rw [loadBlockPayload_length]
  show 6 ≤ 6 + data.length ∧ 6 + data.length ≤ 4104
  omega

theorem loadBlockPayload_index (h : index < 65536) : natOf ((loadBlockPayload index sum data).take 2) = index :=
  natOf_be (k := 2) h

theorem loadBlockPayload_sum : natOf (((loadBlockPayload index sum data).drop 2).take 4) = sum.toNat :=
  natOf_be (k := 4) sum.isLt

theorem loadBlockPayload_data : (loadBlockPayload index sum data).drop 6 = data := rfl

theorem takeBlock_of_badField (hindex : index < 65536) (h : 319 < index ∨ data.length ≠ 4096) :
    s.takeBlock ls r (loadBlockPayload index sum data) = (.refuse .badField, s) := by
  simp only [State.takeBlock, loadBlockPayload_index hindex, loadBlockPayload_data]
  exact if_pos h

theorem takeBlock_of_inRange (hindex : index ≤ 319) (hdata : data.length = 4096) :
    s.takeBlock ls r (loadBlockPayload index sum data) =
      if index ≠ ls.expected then (⟨.outOfOrder, be 2 ls.expected⟩, s)
      else if (crc32 data).toNat ≠ sum.toNat then
        (⟨.blockCrc, be 2 index⟩, s.closeSession ls (.damaged (.block index)) (.blockCrc index))
      else s.storeBlock ls r data := by
  simp only [State.takeBlock, loadBlockPayload_index (Nat.lt_of_le_of_lt hindex (by decide)), loadBlockPayload_data,
    loadBlockPayload_sum]
  exact if_neg (by rw [hdata]; show ¬ (319 < index ∨ 4096 ≠ 4096); omega)

theorem takeBlock_of_outOfOrder (hindex : index ≤ 319) (hdata : data.length = 4096) (h : index ≠ ls.expected) :
    s.takeBlock ls r (loadBlockPayload index sum data) = (⟨.outOfOrder, be 2 ls.expected⟩, s) := by
  rw [takeBlock_of_inRange hindex hdata]; exact if_pos h

theorem takeBlock_of_badSum (hindex : index ≤ 319) (hdata : data.length = 4096) (h : index = ls.expected)
    (hsum : crc32 data ≠ sum) : s.takeBlock ls r (loadBlockPayload index sum data) =
      (⟨.blockCrc, be 2 index⟩, s.closeSession ls (.damaged (.block index)) (.blockCrc index)) := by
  rw [takeBlock_of_inRange hindex hdata, if_neg (Decidable.not_not.2 h)]
  exact if_pos fun he => hsum (BitVec.eq_of_toNat_eq he)

theorem takeBlock_of_good (hindex : index ≤ 319) (hdata : data.length = 4096) (h : index = ls.expected)
    (hsum : crc32 data = sum) : s.takeBlock ls r (loadBlockPayload index sum data) = s.storeBlock ls r data := by
  rw [takeBlock_of_inRange hindex hdata, if_neg (Decidable.not_not.2 h)]
  exact if_neg (by rw [hsum]; simp)

theorem exec_loadBlock_of_open {found : Option (LoadSession × Slot)} (h : s.photo.openLoad = .ok found) (tag : Byte)
    (payload : List Byte) : exec (.loadBlock .media tag payload) s =
      .next (s.request .loadBlock .media tag payload (loadBlock payload found)) := by
  show execLoadBlock _ _ _ _ = _
  unfold execLoadBlock; rw [h]

theorem exec_loadBlock_of_broken (h : ¬ SessionSound s) (tag : Byte) (payload : List Byte) :
    exec (.loadBlock .media tag payload) s = .fault .loadSessionBroken := by
  show execLoadBlock _ _ _ _ = _
  unfold execLoadBlock
  cases ho : s.photo.openLoad with
  | ok x => exact absurd ⟨x, ho⟩ h
  | error f => cases f; rfl

/-- A session's slot after its end in a state `v`, and the record of the session (R125, R126, R129). -/
theorem endSession_of_open {m : PhotoMemory} (hr : Table.find ls.slot m.slots = some r) (v : SlotState)
    (ls' : LoadSession) (o : LoadOutcome) : (m.setState ls.slot v).endSession ls' o = { m with
      slots := Table.insert ls.slot { r with state := v } m.slots
      session := none
      lastLoad := some ⟨ls'.slot, ls'.received, o⟩ } := by
  rw [setState_of_find hr]; rfl

/-- The state in which a block of an open session is taken: the idle limit has restarted (R124). -/
def State.blockArrived (s : State) (n : Nat) : State := (s.clockIn .media n).startTimer .loadIdle 5000

theorem blockArrived_photo (n : Nat) : (s.blockArrived n).photo = s.photo := State.clockIn_photo s _ n

theorem blockArrived_frame (n : Nat) : s.blockArrived n = { s with
    ports := (s.blockArrived n).ports, timers := (s.startTimer .loadIdle 5000).timers } := by
  apply State.eq_of_fields <;> simp [State.blockArrived, State.startTimer]

theorem exec_loadBlock (ht : s.Takes .media) (ho : s.photo.openLoad = .ok (some (ls, r))) (hdata : data.length ≤ 4098)
    (tag : Byte) {reply : Reply} {v : State}
    (htake : (s.blockArrived (6 + (loadBlockPayload index sum data).length)).takeBlock ls r
      (loadBlockPayload index sum data) = (reply, v)) :
    exec (.loadBlock .media tag (loadBlockPayload index sum data)) s =
      .next (v.holdAnswer .media ⟨RequestType.loadBlock.code, tag, reply.status, reply.payload⟩) := by
  obtain ⟨hlo, hhi⟩ := loadBlockPayload_fits (index := index) (sum := sum) hdata
  exact (exec_loadBlock_of_open ho tag _).trans (request_answers (t := .loadBlock) ht rfl hlo hhi htake)

/-- A block that is turned away restarts the idle limit and changes nothing else (R124). -/
theorem exec_loadBlock_turnedAway (ht : s.Takes .media) (ho : s.photo.openLoad = .ok (some (ls, r)))
    (hdata : data.length ≤ 4098) (tag : Byte) {reply : Reply}
    (htake : ∀ u : State, u.takeBlock ls r (loadBlockPayload index sum data) = (reply, u)) :
    ∃ t, exec (.loadBlock .media tag (loadBlockPayload index sum data)) s = .next t ∧
      AnsweredOn s t .media (refusalOf .loadBlock tag reply.status reply.payload) ∧
      t = { s with ports := t.ports, timers := (s.startTimer .loadIdle 5000).timers } := by
  refine ⟨_, exec_loadBlock ht ho hdata tag (htake _), answeredOn_of_ports (n := _) rfl _, ?_⟩
  conv => lhs; rw [blockArrived_frame]
  rfl

theorem badBlock_answered_photo (hr : Table.find ls.slot s.photo.slots = some r) (n : Nat) (v : SlotState) (o : LoadOutcome)
    (a : Answer) : (((s.blockArrived n).closeSession ls v o).holdAnswer .media a).photo = { s.photo with
      slots := Table.insert ls.slot { r with state := v } s.photo.slots
      session := none
      lastLoad := some ⟨ls.slot, ls.received, o⟩ } := by
  rw [State.holdAnswer_photo, closeSession_photo, blockArrived_photo, endSession_of_open hr]

end Block

/-- Settles O33: each outcome of `State.takeBlock` short of the storing. -/
theorem loadBlockRefusals : Obligations.LoadBlockRefusals := by
  refine fun s tag index sum data ht hindex hdata => ⟨fun hs => exec_loadBlock_of_broken hs tag _, fun hs => ?noLoad,
    fun ls r ho => ?opened⟩
  case noLoad =>
    have ho : s.photo.openLoad = .ok none := by unfold PhotoMemory.openLoad; rw [hs]
    obtain ⟨hlo, hhi⟩ := loadBlockPayload_fits (index := index) (sum := sum) hdata
    exact answersOnly_of_takes (t := .loadBlock) ht rfl hlo hhi (exec_loadBlock_of_open ho tag _) rfl rfl
  case opened =>
    by_cases hbad : 319 < index ∨ data.length ≠ 4096
    · obtain ⟨t, he, hanswer, hframe⟩ := exec_loadBlock_turnedAway ht ho hdata tag fun u =>
        takeBlock_of_badField (sum := sum) hindex hbad
      exact ⟨t, he, fun _ => ⟨hanswer, hframe⟩, fun _ _ => by omega, fun _ _ => by omega⟩
    · have hin : index ≤ 319 := by omega
      have hlen : data.length = 4096 := by omega
      by_cases hexpected : index = ls.expected
      case neg =>
        obtain ⟨t, he, hanswer, hframe⟩ := exec_loadBlock_turnedAway ht ho hdata tag fun u =>
          takeBlock_of_outOfOrder (sum := sum) hin hlen hexpected
        exact ⟨t, he, fun h => absurd h hbad, fun _ _ _ => ⟨hanswer, hframe⟩, fun _ _ h => absurd h hexpected⟩
      case pos =>
        by_cases hsum : crc32 data = sum
        case pos =>
          exact ⟨_, exec_loadBlock ht ho hdata tag (takeBlock_of_good hin hlen hexpected hsum), fun h => absurd h hbad,
            fun _ _ h => absurd hexpected h, fun _ _ _ h => absurd hsum h⟩
        case neg =>
          refine ⟨_, exec_loadBlock ht ho hdata tag (takeBlock_of_badSum hin hlen hexpected hsum), fun h => absurd h hbad,
            fun _ _ h => absurd hexpected h, fun _ _ _ _ => ?_⟩
          obtain ⟨-, hr, -, -⟩ := openLoad_eq_some_iff.1 ho
          rw [badBlock_answered_photo hr]
          refine ⟨by simp [Holds, refusalOf], Table.find_insert_self _ _ _, rfl, ?idle,
            holdAnswer_flagSet _ _ (closeSession_loadEnded _ _), rfl, fun k hk => Table.find_insert_of_ne (Ne.symm hk) _ _,
            rfl, ?frame⟩
          case idle => rw [State.holdAnswer_timeLeft, closeSession_loadIdle]
          case frame =>
            apply State.eq_of_fields
            case photo => exact badBlock_answered_photo hr _ _ _ _
            all_goals simp [State.blockArrived]

/-! ## A block stored (R125, R126) -/

section Stored

variable {s : State} {ls : LoadSession} {r : Slot} {data : List Byte}

/-- The bytes of a block, and every other byte, after it is stored. -/
theorem blockWrite_reads (m : Memory) (block : Nat) (hdata : data.length = 4096) :
    (∀ i, i < 4096 → (Memory.write (blockAddress block) data m).read (block * 4096 + i) = data.getD i 0) ∧
    (∀ a, (a < block * 4096 ∨ block * 4096 + 4096 ≤ a) →
      (Memory.write (blockAddress block) data m).read a = m.read a) := by
  have haddress : blockAddress block = block * 4096 := rfl
  refine ⟨fun i hi => ?_, fun a ha => ?_⟩
  · rw [Memory.read_write, haddress, if_pos (by omega), Nat.add_sub_cancel_left]; rfl
  · rw [Memory.read_write, haddress, if_neg (by omega)]

theorem blockWritten_answered_photo (n : Nat) (a : Answer) :
    (((s.blockArrived n).blockWritten ls r data).holdAnswer .media a).photo = { s.photo with
      memory := Memory.write (blockAddress (r.range.start + ls.expected)) data s.photo.memory
      session := some (ls.advanced data) } := by
  rw [State.holdAnswer_photo, State.blockWritten, State.setPhoto_photo, blockArrived_photo]

theorem lastBlock_answered_photo (hr : Table.find ls.slot s.photo.slots = some r) (n : Nat) (v : SlotState)
    (o : LoadOutcome) (a : Answer) :
    ((((s.blockArrived n).blockWritten ls r data).closeSession (ls.advanced data) v o).holdAnswer .media a).photo =
      { s.photo with
        memory := Memory.write (blockAddress (r.range.start + ls.expected)) data s.photo.memory
        slots := Table.insert ls.slot { r with state := v } s.photo.slots
        session := none
        lastLoad := some ⟨ls.slot, ls.received + 1, o⟩ } := by
  rw [State.holdAnswer_photo, lastBlock_photo, blockArrived_photo]
  exact endSession_of_open (m := { s.photo with
    memory := Memory.write (blockAddress (r.range.start + ls.expected)) data s.photo.memory }) hr v (ls.advanced data) o

end Stored

/-- The state that a completed load leaves its slot in (R126). -/
def completedState (ls : LoadSession) (r : Slot) (data : List Byte) : SlotState :=
  if ~~~ (crc32Take ls.register data) = r.checksum then .ready else .damaged .loadChecksum

/-- The outcome that the last-load record then holds (R126, R129). -/
def completedOutcome (ls : LoadSession) (r : Slot) (data : List Byte) : LoadOutcome :=
  if ~~~ (crc32Take ls.register data) = r.checksum then .ready else .loadChecksum

theorem storeBlock_of_last {s : State} {ls : LoadSession} {r : Slot} {data : List Byte}
    (hx : ¬ ls.expected + 1 < r.range.count) : s.storeBlock ls r data =
      (.ok (be 2 (ls.expected + 1) ++ [if ~~~ (crc32Take ls.register data) = r.checksum then 2 else 5]),
        (s.blockWritten ls r data).closeSession (ls.advanced data) (completedState ls r data)
          (completedOutcome ls r data)) := by
  unfold completedState completedOutcome
  split
  · next hsum => exact storeBlock_of_ready hx hsum
  · next hsum => exact storeBlock_of_damaged hx hsum

/-- Settles O32: the block before the last is `State.blockWritten`, the last one ends the session as well. -/
theorem loadBlockStoresBlock : Obligations.LoadBlockStoresBlock := by
  intro s tag ls r data ht ho hindex hdata
  obtain ⟨-, hr, -, hexpected⟩ := openLoad_eq_some_iff.1 ho
  have hgood {u : State} : u.takeBlock ls r (loadBlockPayload ls.expected (crc32 data) data) = u.storeBlock ls r data :=
    takeBlock_of_good hindex hdata rfl rfl
  obtain ⟨hblock, hother⟩ := blockWrite_reads s.photo.memory (r.range.start + ls.expected) hdata
  by_cases hx : ls.expected + 1 < r.range.count
  case pos =>
    have hexec := exec_loadBlock ht ho (by omega) tag (hgood.trans (storeBlock_of_more hx))
    refine ⟨_, hexec, ?_⟩
    rw [blockWritten_answered_photo]
    refine ⟨hblock, hother, fun _ => ⟨answeredOn_of_ports (n := _) rfl _, rfl, rfl, ?_⟩, fun h => by omega,
      fun _ _ => rfl, rfl, ?_⟩
    · exact State.startTimer_timeLeft_self _ _ _
    · apply State.eq_of_fields
      case photo => exact blockWritten_answered_photo _ _
      all_goals simp [State.blockArrived, State.blockWritten]
  case neg =>
    have hexec := exec_loadBlock ht ho (by omega) tag (hgood.trans (storeBlock_of_last hx))
    refine ⟨_, hexec, ?_⟩
    rw [lastBlock_answered_photo hr]
    refine ⟨hblock, hother, fun h => absurd h hx, fun _ => ⟨by simp [Holds, okTo, Reply.ok],
      Table.find_insert_self _ _ _, rfl, ?_, ?_, rfl⟩, fun k hk => Table.find_insert_of_ne (Ne.symm hk) _ _, rfl, ?_⟩
    · rw [State.holdAnswer_timeLeft, closeSession_loadIdle]
    · exact holdAnswer_flagSet _ _ (closeSession_loadEnded _ _)
    · apply State.eq_of_fields
      case photo => exact lastBlock_answered_photo hr _ _ _ _
      all_goals simp [State.blockArrived, State.blockWritten]

end Sys2Proof.Machine
end
section
/-! PROOFS. The lane holds (chapter 7): what a hold request leaves of its lane, its timers and the Composer, what it answers,
and the statements O39 to O44. -/
namespace Sys2Proof.Machine

/-! ## A lane record that changes (R157, R158) -/

section LaneRecord

@[simp] theorem PerLane.set_get {α : Type} (x : PerLane α) (l : LaneNo) : x.set l (x.get l) = x := by
  match l with
  | 0 => rfl
  | 1 => rfl

/-- What a hold request or an expiry makes of the state, ports aside: the lane's record is `v`, its revision raised if the
change `shows`, with the compose requests that follow, and the timers are these. -/
def State.laneChanged (l : LaneNo) (v : Lane) (shows : Prop) [Decidable shows] (timers : Table Nat) (s : State) : State :=
  { s with
    lanes := s.lanes.set l { v with revision := if shows then v.revision + 1 else v.revision }
    composer := (if shows then s.composeRequests (s.lanePanels l) (Reason.set .hold) else s).composer
    timers := timers }

variable (s : State) {l : LaneNo} (v : Lane) (shows : Prop) [Decidable shows] (timers : Table Nat)

theorem laneChanged_lane :
    (s.laneChanged l v shows timers).lane l = { v with revision := if shows then v.revision + 1 else v.revision } :=
  PerLane.get_set_self _ _ _

theorem laneChanged_lane_hidden : (s.laneChanged l v False timers).lane l = v := PerLane.get_set_self _ _ _

theorem laneChanged_lane_of_ne {m : LaneNo} (h : m ≠ l) : (s.laneChanged l v shows timers).lane m = s.lane m :=
  PerLane.get_set_of_ne _ h _

/-- What a change of the lane leaves, whatever becomes of the ports with it. -/
theorem laneChanged_frame {t : State} (ht : t = { s.laneChanged l v shows timers with ports := t.ports }) :
    t.lane l = { v with revision := if shows then v.revision + 1 else v.revision } ∧
      (∀ m, m ≠ l → t.lane m = s.lane m) ∧
      t.composer = (if shows then s.composeRequests (s.lanePanels l) (Reason.set .hold) else s).composer ∧
      t.timers = timers ∧
      t = { s with ports := t.ports, lanes := t.lanes, composer := t.composer, timers := t.timers } := by
  rw [ht]
  exact ⟨laneChanged_lane s v shows timers, fun _ hm => laneChanged_lane_of_ne s v shows timers hm, rfl, rfl, rfl⟩

variable {shows}

theorem laneChanged_shown (h : shows) : s.laneChanged l v shows timers = s.laneChanged l v True timers := by
  simp only [State.laneChanged, if_pos h, if_true]

theorem laneChanged_hidden (h : ¬ shows) : s.laneChanged l v shows timers = s.laneChanged l v False timers := by
  simp only [State.laneChanged, if_neg h, if_false]

variable (shows)

theorem laneChanged_self (before : Table Nat) :
    s.laneChanged l (s.lane l) False before = { s with timers := before } := by
  apply State.eq_of_fields
  case lanes => exact PerLane.set_get s.lanes l
  all_goals rfl

/-- A change takes nothing from what the lane's record and the timers were made before it. -/
theorem laneChanged_laneChanged (w : Lane) (before : Table Nat) :
    (s.laneChanged l w False before).laneChanged l v shows timers = s.laneChanged l v shows timers := by
  apply State.eq_of_fields
  case composer =>
    by_cases h : shows
    · simp only [State.laneChanged, if_pos h]
      exact composeRequests_composer_congr _ _ rfl fun _ => rfl
    · simp [State.laneChanged, h]
  all_goals simp [State.laneChanged]

/-- Timers that change beforehand have no part in a change that replaces them. -/
theorem laneChanged_of_timers (before : Table Nat) :
    ({ s with timers := before } : State).laneChanged l v shows timers = s.laneChanged l v shows timers := by
  rw [← laneChanged_self (l := l), laneChanged_laneChanged]

theorem raiseRevision_eq : s.raiseRevision l = s.laneChanged l (s.lane l) True s.timers := by
  unfold State.raiseRevision
  rw [composeRequests_eq]
  apply State.eq_of_fields
  case composer => exact composeRequests_composer_congr (s := s.setLane l _) (r := s) _ _ rfl fun _ => rfl
  all_goals simp [State.laneChanged, State.lane]

/-- A revision raised after a change is part of that change. -/
theorem raiseRevision_laneChanged : (s.laneChanged l v False timers).raiseRevision l = s.laneChanged l v True timers := by
  rw [raiseRevision_eq, laneChanged_lane_hidden]
  exact laneChanged_laneChanged s v True timers v timers

end LaneRecord

/-! ## What the hold operations make of the state -/

section Operations

variable (s : State) (l : LaneNo) (h : HoldId)

/-- The timers with a hold's lease started anew (R154). -/
def State.leaseStarted : Table Nat := (s.startTimer (.holdLease l h) s.holdLeaseMs).timers

/-- A lane's record with a hold under a hold id. -/
def Lane.putHold (v : Lane) (h : HoldId) (x : Hold) : Lane := { v with holds := Table.insert h.val x v.holds }

/-- A lane's record with no hold under a hold id, nor a focus on it. -/
def Lane.dropHold (v : Lane) (h : HoldId) : Lane :=
  { v with holds := Table.erase h.val v.holds, focus := if v.focus = some h then none else v.focus }

theorem refresh_eq : s.refresh l h = s.laneChanged l (s.lane l) False (s.leaseStarted l h) :=
  (laneChanged_self s _).symm

/-- A changed hold shows in the revision while it is the focus (R148, R149, R157). -/
theorem changeHold_eq (x : Hold) : s.changeHold l h x =
    s.laneChanged l ((s.lane l).putHold h x) ((s.lane l).focus = some h) (s.leaseStarted l h) := by
  have hstored : (s.setHold l h x).refresh l h =
      s.laneChanged l ((s.lane l).putHold h x) False (s.leaseStarted l h) := rfl
  have hfocus : ((s.lane l).putHold h x).focus = (s.lane l).focus := rfl
  unfold State.changeHold
  dsimp only
  rw [hstored, laneChanged_lane_hidden, hfocus]
  split
  case isTrue hf => rw [raiseRevision_laneChanged, laneChanged_shown _ _ _ hf]
  case isFalse hf => rw [laneChanged_hidden _ _ _ hf]

/-- A focus that moves shows in the revision (R150, R157). -/
theorem setFocus_eq (f : Option HoldId) : s.setFocus l f =
    s.laneChanged l { s.lane l with focus := f } ((s.lane l).focus ≠ f) s.timers := by
  unfold State.setFocus
  split
  case isTrue hf =>
    rw [laneChanged_hidden _ _ _ (fun hne => hne hf), ← hf]
    exact (laneChanged_self s s.timers).symm
  case isFalse hf =>
    rw [laneChanged_shown _ _ _ hf]
    exact raiseRevision_laneChanged s { s.lane l with focus := f } s.timers

/-- The same, of a focus that moves after another change of the lane. -/
theorem setFocus_laneChanged (v : Lane) (timers : Table Nat) (f : Option HoldId) :
    (s.laneChanged l v False timers).setFocus l f = s.laneChanged l { v with focus := f } (v.focus ≠ f) timers := by
  rw [setFocus_eq, laneChanged_lane_hidden]
  exact laneChanged_laneChanged ..

/-- A hold that leaves shows in the revision while it is the focus (R152, R157). -/
theorem dropHold_laneChanged (v : Lane) (timers : Table Nat) : (s.laneChanged l v False timers).dropHold l h =
    s.laneChanged l (v.dropHold h) (v.focus = some h) (Table.erase (TimerId.holdLease l h).key timers) := by
  have hdropped : ((s.laneChanged l v False timers).setLane l { v with holds := Table.erase h.val v.holds }).stopTimer
      (.holdLease l h) = s.laneChanged l { v with holds := Table.erase h.val v.holds } False
        (Table.erase (TimerId.holdLease l h).key timers) := by
    apply State.eq_of_fields <;> simp [State.laneChanged]
  unfold State.dropHold
  dsimp only
  rw [laneChanged_lane_hidden, hdropped, laneChanged_lane_hidden]
  dsimp only
  unfold Lane.dropHold
  split
  case isTrue hf =>
    rw [setFocus_laneChanged, laneChanged_shown _ _ _ hf, laneChanged_shown _ _ _ (by simp [hf])]
  case isFalse hf => rw [laneChanged_hidden _ _ _ hf]

theorem dropHold_eq : s.dropHold l h = s.laneChanged l ((s.lane l).dropHold h) ((s.lane l).focus = some h)
    (s.stopTimer (.holdLease l h)).timers := by
  have hdrop := dropHold_laneChanged s l h (s.lane l) s.timers
  rwa [laneChanged_self] at hdrop

end Operations

/-! ## Requests on a lane port -/

section Requests

variable {s : State} {l : LaneNo} {ty : RequestType} {tag : Byte} {payload : List Byte} {c : Instr}
  {owner : State → Reply × State}

/-- A lane port puts nothing out while a request is received. -/
theorem clockIn_lane (s : State) (l : LaneNo) (n : Nat) : s.clockIn (.lane l) n = s := rfl

/-- What a request of its one allowed length comes to, by its owner's reply and next state. -/
theorem exec_on_lane (ht : s.Takes (.lane l)) (hc : exec c s = .next (s.request ty (.lane l) tag payload owner))
    {r : Reply} {u : State} (ho : owner s = (r, u)) (hr : ty.permission.holds (.lane l) = true)
    (hlen : ty.lengths = (payload.length, payload.length)) :
    exec c s = .next (u.holdAnswer (.lane l) ⟨ty.code, tag, r.status, r.payload⟩) :=
  hc.trans (request_answers ht hr (Nat.le_of_eq (congrArg Prod.fst hlen)) (Nat.le_of_eq (congrArg Prod.snd hlen).symm)
    (by rwa [clockIn_lane]))

theorem answeredOn_lane {u : State} (hu : u.ports = s.ports) (a : Answer) :
    AnsweredOn s (u.holdAnswer (.lane l) a) (.lane l) a :=
  answeredOn_of_ports (n := 0) (by rwa [clockIn_lane]) a

/-- A request of its one allowed length whose owner answers and changes nothing. -/
theorem lane_answersOnly (ht : s.Takes (.lane l)) (hc : exec c s = .next (s.request ty (.lane l) tag payload owner))
    {r : Reply} (ho : owner s = (r, s)) (hr : ty.permission.holds (.lane l) = true)
    (hlen : ty.lengths = (payload.length, payload.length)) :
    AnswersOnly s c (.lane l) ⟨ty.code, tag, r.status, r.payload⟩ :=
  ⟨_, exec_on_lane ht hc ho hr hlen, answeredOn_lane rfl _, rfl⟩

/-- A request whose owner answers, names a hold and restarts its lease. -/
theorem exec_refreshes (ht : s.Takes (.lane l)) (hc : exec c s = .next (s.request ty (.lane l) tag payload owner))
    {h : HoldId} {bytes : List Byte} (ho : owner s = (.ok bytes, s.refresh l h))
    (hr : ty.permission.holds (.lane l) = true) (hlen : ty.lengths = (payload.length, payload.length)) :
    ∃ t, exec c s = .next t ∧ AnsweredOn s t (.lane l) (okTo ty tag bytes) ∧
      t = { s with ports := t.ports, timers := s.leaseStarted l h } :=
  ⟨_, exec_on_lane ht hc ho hr hlen, answeredOn_lane rfl _, rfl⟩

/-- A request whose owner changes the lane's record and the timers, and answers with the lane revision at the end. -/
theorem exec_changes_lane (ht : s.Takes (.lane l)) (hc : exec c s = .next (s.request ty (.lane l) tag payload owner))
    {v : Lane} {shows : Prop} [Decidable shows] {timers : Table Nat} {head : List Byte}
    (ho : owner s = (.ok (head ++ (s.laneChanged l v shows timers).revisionBytes l), s.laneChanged l v shows timers))
    (hr : ty.permission.holds (.lane l) = true) (hlen : ty.lengths = (payload.length, payload.length)) :
    ∃ t, exec c s = .next t ∧
      AnsweredOn s t (.lane l) (okTo ty tag (head ++ be 2 (t.lane l).revision.toNat)) ∧
      t.lane l = { v with revision := if shows then v.revision + 1 else v.revision } ∧
      (∀ m, m ≠ l → t.lane m = s.lane m) ∧
      t.composer = (if shows then s.composeRequests (s.lanePanels l) (Reason.set .hold) else s).composer ∧
      t.timers = timers ∧
      t = { s with ports := t.ports, lanes := t.lanes, composer := t.composer, timers := t.timers } :=
  ⟨_, exec_on_lane ht hc ho hr hlen, answeredOn_lane rfl _, laneChanged_frame s v shows timers rfl⟩

end Requests

/-! ## The fields of a request (R145) -/

theorem holdId?_ofNat (h : HoldId) : holdId? (BitVec.ofNat 8 h.val) = some h := by
  revert h; decide

theorem holdId?_be (h : HoldId) : holdId? ((be 1 h.val).getD 0 0) = some h := by
  rw [be_one]; exact holdId?_ofNat h

theorem holdOrNone?_noneByte (f : Option HoldId) : holdOrNone? (noneByte (f.map fun h => h.val)) = some f := by
  cases f with
  | none => rfl
  | some h => revert h; decide

theorem holdOrNone?_be (h : HoldId) : holdOrNone? ((be 1 h.val).getD 0 0) = some (some h) := by
  rw [be_one]; exact holdOrNone?_noneByte (some h)

theorem holdId?_above {b : Byte} (h : 7 < b.toNat) : holdId? b = none := dif_neg (by omega)

/-- The payload of HOLD_ADD and HOLD_REMOVE (R201). -/
def LineRequest.bytes (r : LineRequest) : List Byte :=
  be 1 r.hold.val ++ be 2 r.item ++ be 1 r.variant ++ be 1 r.quantity

/-- Every field is in its range. -/
def LineRequest.InRange (r : LineRequest) : Prop :=
  r.item ≤ 511 ∧ r.variant ≤ 3 ∧ 1 ≤ r.quantity ∧ r.quantity ≤ 99

/-- How the five bytes are read. -/
theorem lineRequest?_fields (hold variant quantity : Byte) {item : Nat} (hi : item < 65536) :
    lineRequest? ([hold] ++ be 2 item ++ [variant, quantity]) = (holdId? hold).bind fun h =>
      if item ≤ 511 ∧ variant.toNat ≤ 3 ∧ 1 ≤ quantity.toNat ∧ quantity.toNat ≤ 99 then
        some ⟨h, item, variant.toNat, quantity.toNat⟩
      else none := by
  have hread : natOf ((([hold] ++ be 2 item ++ [variant, quantity]).drop 1).take 2) = item := by
    simpa using natOf_be (k := 2) hi
  unfold lineRequest?
  rw [hread]
  cases hd : holdId? hold <;> simp [be_two, hd]

theorem lineRequest?_bytes {r : LineRequest} (hr : r.InRange) : lineRequest? r.bytes = some r := by
  obtain ⟨hitem, hvariant, hone, hquantity⟩ := hr
  have hbyte {n : Nat} (hn : n ≤ 99) : (BitVec.ofNat 8 n).toNat = n := by
    rw [BitVec.toNat_ofNat]; omega
  have hread := lineRequest?_fields (BitVec.ofNat 8 r.hold.val) (BitVec.ofNat 8 r.variant) (BitVec.ofNat 8 r.quantity)
    (item := r.item) (by omega)
  rw [holdId?_ofNat, hbyte (by omega), hbyte hquantity, Option.bind_some,
    if_pos ⟨hitem, hvariant, hone, hquantity⟩] at hread
  simpa only [LineRequest.bytes, be_one, List.append_assoc, List.cons_append, List.nil_append] using hread

/-- A field out of its range. -/
theorem lineRequest?_out {hold variant quantity : Byte} {item : Nat} (hi : item < 65536)
    (h : 7 < hold.toNat ∨ 511 < item ∨ 3 < variant.toNat ∨ quantity.toNat < 1 ∨ 99 < quantity.toNat) :
    lineRequest? ([hold] ++ be 2 item ++ [variant, quantity]) = none := by
  rw [lineRequest?_fields hold variant quantity hi]
  rcases h with hhold | hrest
  · rw [holdId?_above hhold]; rfl
  · have hout : ¬ (item ≤ 511 ∧ variant.toNat ≤ 3 ∧ 1 ≤ quantity.toNat ∧ quantity.toNat ≤ 99) := by omega
    cases holdId? hold with
    | none => rfl
    | some h => exact if_neg hout

/-! ## A hold id without an open hold (R145) -/

theorem withHold_of_open {s : State} {l : LaneNo} {h : HoldId} {x : Hold} (hx : (s.lane l).hold h = some x)
    (effect : Hold → Reply × State) : withHold l h s effect = effect x := by
  simp only [withHold, hx]

/-- What a request is told of a hold id that has no open hold. -/
def MissingHold (s : State) (l : LaneNo) (h : HoldId) (status : Status) (payload : List Byte) : Prop :=
  (∃ order, Table.find h.val (s.lane l).expired = some order ∧ status = .holdExpired ∧ payload = be 2 order) ∨
    (Table.find h.val (s.lane l).expired = none ∧ status = .noHold ∧ payload = [])

theorem withHold_of_missing {s : State} {l : LaneNo} {h : HoldId} {status : Status} {payload : List Byte}
    (hx : (s.lane l).hold h = none) (hm : MissingHold s l h status payload) (effect : Hold → Reply × State) :
    withHold l h s effect = (⟨status, payload⟩, s) := by
  rcases hm with ⟨order, he, rfl, rfl⟩ | ⟨he, rfl, rfl⟩ <;> simp only [withHold, hx, he, Reply.refuse]

section Missing

variable {s : State} {l : LaneNo} {h : HoldId} {r : LineRequest} {status : Status} {payload : List Byte}

theorem holdAdd_missing (hr : r.InRange) (hx : (s.lane l).hold r.hold = none)
    (hm : MissingHold s l r.hold status payload) : holdAdd l r.bytes s = (⟨status, payload⟩, s) := by
  simp only [holdAdd, lineRequest?_bytes hr, withHold_of_missing hx hm]

theorem holdRemove_missing (hr : r.InRange) (hx : (s.lane l).hold r.hold = none)
    (hm : MissingHold s l r.hold status payload) : holdRemove l r.bytes s = (⟨status, payload⟩, s) := by
  simp only [holdRemove, lineRequest?_bytes hr, withHold_of_missing hx hm]

variable (hx : (s.lane l).hold h = none) (hm : MissingHold s l h status payload)
include hx hm

theorem holdFocus_missing : holdFocus l (be 1 h.val) s = (⟨status, payload⟩, s) := by
  simp only [holdFocus, holdOrNone?_be, withHold_of_missing hx hm]

theorem holdRefresh_missing : holdRefresh l (be 1 h.val) s = (⟨status, payload⟩, s) := by
  simp only [holdRefresh, holdId?_be, withHold_of_missing hx hm]

theorem holdClose_missing : holdClose l (be 1 h.val) s = (⟨status, payload⟩, s) := by
  simp only [holdClose, holdId?_be, withHold_of_missing hx hm]

theorem holdRead_missing : holdRead l (be 1 h.val) s = (⟨status, payload⟩, s) := by
  simp only [holdRead, holdOrNone?_be, withHold_of_missing hx hm]

end Missing

/-- Settles O44, request by request: each looks its hold id up before it looks at anything else. -/
theorem missingHoldIsRefusedByItsMark : Obligations.MissingHoldIsRefusedByItsMark := by
  intro s l tag h item variant quantity c type status payload ht hitem hvariant hone hquantity hx hc hm
  have hr : (⟨h, item, variant, quantity⟩ : LineRequest).InRange := ⟨hitem, hvariant, hone, hquantity⟩
  rcases hc with ⟨rfl, rfl⟩ | ⟨rfl, rfl⟩ | ⟨rfl, rfl⟩ | ⟨rfl, rfl⟩ | ⟨rfl, rfl⟩ | ⟨rfl, rfl⟩
  · exact lane_answersOnly ht rfl (holdAdd_missing hr hx hm) rfl rfl
  · exact lane_answersOnly ht rfl (holdRemove_missing hr hx hm) rfl rfl
  · exact lane_answersOnly ht rfl (holdFocus_missing hx hm) rfl rfl
  · exact lane_answersOnly ht rfl (holdRefresh_missing hx hm) rfl rfl
  · exact lane_answersOnly ht rfl (holdClose_missing hx hm) rfl rfl
  · exact lane_answersOnly ht rfl (holdRead_missing hx hm) rfl rfl

/-! ## HOLD_OPEN (R146) -/

section Open

theorem idOfOrder_of_mem {x : Lane} {order : Nat} {e : Nat × Hold} (he : e ∈ x.holds) (ho : e.2.order = order)
    (hsame : ∀ y ∈ x.holds, y.2.order = order → y.1 = e.1) : x.idOfOrder order = some e.1 := by
  unfold Lane.idOfOrder
  cases hf : x.holds.find? fun e => e.2.order = order with
  | none => exact absurd ho (by simpa using List.find?_eq_none.1 hf e he)
  | some y => exact congrArg some (hsame y (List.mem_of_find?_eq_some hf) (by simpa using List.find?_some hf))

theorem idOfOrder_none {x : Lane} {order : Nat} (h : ∀ e ∈ x.holds, e.2.order ≠ order) : x.idOfOrder order = none := by
  unfold Lane.idOfOrder
  rw [List.find?_eq_none.2 (by simpa using h)]
  rfl

theorem freeId_none {x : Lane} (h : ∀ j, (x.hold j).isSome = true) : x.freeId = none :=
  List.find?_eq_none.2 fun j _ => by simpa [Option.isSome_iff_ne_none] using h j

/-- The hold ids stand in their own places in the list that is searched. -/
theorem allHoldIds_getElem (h : HoldId) : allHoldIds[h.val] = h := by
  revert h; decide

theorem freeId_lowest {x : Lane} {h : HoldId} (hfree : x.hold h = none) (hlow : ∀ j, j < h → (x.hold j).isSome = true) :
    x.freeId = some h := by
  refine List.find?_eq_some_iff_getElem.2 ⟨by simp [hfree], h.val, h.isLt, allHoldIds_getElem h, fun j hj => ?_⟩
  have hlt : j < 8 := Nat.lt_trans hj h.isLt
  have hbelow := hlow ⟨j, hlt⟩ hj
  rw [allHoldIds_getElem ⟨j, hlt⟩]
  simpa [Option.isSome_iff_ne_none] using hbelow

variable {s : State} {l : LaneNo} {order : Nat}

/-- The lane's record with a hold without lines under a hold id, its mark cleared (R146). -/
def Lane.opened (x : Lane) (h : HoldId) (order : Nat) : Lane :=
  { x with holds := Table.insert h.val ⟨order, [], 0⟩ x.holds, expired := Table.erase h.val x.expired }

theorem natOf_order (h : order < 65536) : natOf (be 2 order) = order := natOf_be (k := 2) h

theorem holdOpen_out (hb : order < 65536) (ho : order < 1 ∨ 9999 < order) :
    holdOpen l (be 2 order) s = (.refuse .badField, s) := by
  simp only [holdOpen, natOf_order hb, if_pos ho]

theorem order_inRange (hone : 1 ≤ order) (hmax : order ≤ 9999) : ¬ (order < 1 ∨ 9999 < order) := by omega

variable (hone : 1 ≤ order) (hmax : order ≤ 9999)
include hone hmax

theorem holdOpen_duplicate {k : Nat} (hid : (s.lane l).idOfOrder order = some k) :
    holdOpen l (be 2 order) s = (⟨.duplicateOrder, be 1 k⟩, s) := by
  simp only [holdOpen, natOf_order (Nat.lt_of_le_of_lt hmax (by decide)), if_neg (order_inRange hone hmax), hid]

theorem holdOpen_full (hid : (s.lane l).idOfOrder order = none) (hfull : (s.lane l).freeId = none) :
    holdOpen l (be 2 order) s = (.refuse .holdFull, s) := by
  simp only [holdOpen, natOf_order (Nat.lt_of_le_of_lt hmax (by decide)), if_neg (order_inRange hone hmax), hid,
    hfull]

theorem holdOpen_taken (hid : (s.lane l).idOfOrder order = none) {h : HoldId} (hfree : (s.lane l).freeId = some h) :
    holdOpen l (be 2 order) s =
      (.ok (be 1 h.val ++ (s.laneChanged l ((s.lane l).opened h order) False (s.leaseStarted l h)).revisionBytes l),
        s.laneChanged l ((s.lane l).opened h order) False (s.leaseStarted l h)) := by
  simp only [holdOpen, natOf_order (Nat.lt_of_le_of_lt hmax (by decide)), if_neg (order_inRange hone hmax), hid,
    hfree]
  rfl

end Open

/-- Settles O39, outcome by outcome of R146. -/
theorem holdOpenTakesLowestFreeId : Obligations.HoldOpenTakesLowestFreeId := by
  refine fun s l tag order ht hb => ⟨fun ho => ?range, fun e he hone hmax ho hsame => ?duplicate,
    fun hone hmax hnew hfull => ?full, fun h hone hmax hnew hfree hlow => ?taken⟩
  case range => exact lane_answersOnly ht rfl (holdOpen_out hb ho) rfl rfl
  case duplicate => exact lane_answersOnly ht rfl (holdOpen_duplicate hone hmax (idOfOrder_of_mem he ho hsame)) rfl rfl
  case full => exact lane_answersOnly ht rfl (holdOpen_full hone hmax (idOfOrder_none hnew) (freeId_none hfull)) rfl rfl
  case taken =>
    obtain ⟨t, hexec, hans, hlane, hothers, hcomposer, htimers, hframe⟩ := exec_changes_lane
      (c := .holdOpen (.lane l) tag (be 2 order)) ht rfl
      (holdOpen_taken hone hmax (idOfOrder_none hnew) (freeId_lowest hfree hlow)) rfl rfl
    rw [hlane] at hans
    rw [hcomposer, htimers] at hframe
    exact ⟨t, hexec, hans, hlane, hothers, hframe⟩

/-! ## The lines of a hold (R143, R144) -/

section Lines

variable {x : Hold} {r : LineRequest} {y : HoldLine}

theorem isFor_eq (y : HoldLine) (r : LineRequest) :
    y.isFor r = decide (y.item = r.item ∧ y.variant = r.variant) := (Bool.decide_and _ _).symm

theorem line_eq (x : Hold) (r : LineRequest) :
    x.line r = x.lines.find? fun z => z.item = r.item ∧ z.variant = r.variant := by
  simp only [Hold.line, isFor_eq]

theorem line_none (h : ∀ z ∈ x.lines, ¬ (z.item = r.item ∧ z.variant = r.variant)) : x.line r = none := by
  rw [line_eq, List.find?_eq_none]
  exact fun z hz => by simpa only [decide_eq_true_eq] using h z hz

theorem remove_eq (x : Hold) (r : LineRequest) (y : HoldLine) : x.remove r y = { x with
    lines := if y.quantity = r.quantity then x.lines.filter (fun z => ¬ (z.item = r.item ∧ z.variant = r.variant))
      else x.lines.map (fun z => if z.item = r.item ∧ z.variant = r.variant
        then { y with quantity := y.quantity - r.quantity } else z)
    total := x.total - r.quantity * y.price } := by
  simp only [Hold.remove, isFor_eq, decide_eq_true_eq, decide_not]

end Lines

/-! ## HOLD_REMOVE (R149) -/

section Remove

variable {s : State} {l : LaneNo} {r : LineRequest} {x : Hold} {y : HoldLine}

theorem holdRemove_out {payload : List Byte} (hp : lineRequest? payload = none) :
    holdRemove l payload s = (.refuse .badField, s) := by simp only [holdRemove, hp]

variable (hr : r.InRange) (hx : (s.lane l).hold r.hold = some x)
include hr hx

theorem holdRemove_noLine (hy : x.line r = none) : holdRemove l r.bytes s = (.refuse .noItem, s) := by
  simp only [holdRemove, lineRequest?_bytes hr, withHold_of_open hx, hy]

theorem holdRemove_above (hy : x.line r = some y) (hq : y.quantity < r.quantity) :
    holdRemove l r.bytes s = (⟨.badField, be 1 y.quantity⟩, s) := by
  simp only [holdRemove, lineRequest?_bytes hr, withHold_of_open hx, hy, if_pos hq]

theorem holdRemove_taken (hy : x.line r = some y) (hq : r.quantity ≤ y.quantity) : holdRemove l r.bytes s =
    (.ok (be 1 (y.quantity - r.quantity) ++ be 3 (x.remove r y).total ++
      (s.changeHold l r.hold (x.remove r y)).revisionBytes l), s.changeHold l r.hold (x.remove r y)) := by
  simp only [holdRemove, lineRequest?_bytes hr, withHold_of_open hx, hy, if_neg (Nat.not_lt.2 hq)]

end Remove

/-- Settles O41: the refusals in the order of their checks, and the line that falls or leaves. -/
theorem holdRemoveLowersOrDropsLine : Obligations.HoldRemoveLowersOrDropsLine := by
  refine ⟨fun s l tag hold variant quantity item ht hitem hout => ?range,
    fun s l tag h item variant quantity x ht hitem hvariant hone hquantity hx =>
      ⟨fun hnone => ?noLine, fun y hy hq => ?above⟩,
    fun s l tag h item variant quantity x y ht hitem hvariant hone hquantity hx hy hq => ?taken⟩
  case range => exact lane_answersOnly ht rfl (holdRemove_out (lineRequest?_out hitem hout)) rfl rfl
  all_goals
    have hr : (⟨h, item, variant, quantity⟩ : LineRequest).InRange := ⟨hitem, hvariant, hone, hquantity⟩
  case noLine => exact lane_answersOnly ht rfl (holdRemove_noLine hr hx (line_none hnone)) rfl rfl
  case above => exact lane_answersOnly ht rfl (holdRemove_above hr hx ((line_eq _ _).trans hy) hq) rfl rfl
  case taken =>
    have howner := holdRemove_taken hr hx ((line_eq _ _).trans hy) hq
    rw [changeHold_eq, remove_eq] at howner
    obtain ⟨t, hexec, hans, hlane, hothers, hcomposer, htimers, hframe⟩ := exec_changes_lane
      (c := .holdRemove (.lane l) tag (LineRequest.bytes ⟨h, item, variant, quantity⟩)) ht rfl howner rfl rfl
    rw [htimers] at hframe
    exact ⟨t, hexec, hans, hlane, hothers, hcomposer, hframe⟩

/-! ## The checks of HOLD_ADD (R147) -/

section Addable

variable {s : State} {r : LineRequest} {d : DayPart} {item : Item} {v : Variant}

theorem addable_closed (hs : s.clock.storeState = .closed) : s.addable r = .error .storeClosed := by
  simp only [State.addable, hs]

variable (hs : s.clock.storeState = .opened d)
include hs

theorem addable_noItem (hi : Table.find r.item s.catalogue.items = none) : s.addable r = .error .noItem := by
  simp only [State.addable, hs, hi]

variable (hi : Table.find r.item s.catalogue.items = some item)
include hi

theorem addable_noVariant (hv : item.variants[r.variant]? = none) : s.addable r = .error .noVariant := by
  simp only [State.addable, hs, hi, hv]

variable (hv : item.variants[r.variant]? = some v)
include hv

theorem addable_notInDaypart (hd : item.offeredIn d = false) : s.addable r = .error .notInDaypart := by
  simp [State.addable, hs, hi, hv, hd]

variable (hd : item.offeredIn d = true)
include hd

theorem addable_soldOut (ha : v.availability = .soldOut) : s.addable r = .error .soldOut := by
  simp [State.addable, hs, hi, hv, hd, ha]

variable (ha : v.availability = .available)
include ha

theorem addable_pricesWithheld (hl : s.catalogue.lease = .expired) : s.addable r = .error .pricesWithheld := by
  simp [State.addable, hs, hi, hv, hd, ha, hl]

theorem addable_ok (hl : s.catalogue.lease = .live) : s.addable r = .ok v := by
  simp [State.addable, hs, hi, hv, hd, ha, hl]

end Addable

/-! ## The line that HOLD_ADD makes or raises (R144, R148) -/

section AddedLine

variable {s : State} {r : LineRequest} {v : Variant} {x : Hold} {z y : HoldLine}

theorem lineAfterAdd_raised (hz : x.line r = some z) :
    s.lineAfterAdd x r v = { z with quantity := z.quantity + r.quantity } := by
  simp only [State.lineAfterAdd, hz]

theorem lineAfterAdd_made (hz : x.line r = none) : s.lineAfterAdd x r v =
    ⟨r.item, r.variant, r.quantity, v.effectivePrice, s.catalogue.generation, v.promotion.isSome⟩ := by
  simp only [State.lineAfterAdd, hz]

theorem add_raised (hz : x.line r = some z) : x.add r y = { x with
    lines := x.lines.map (fun w => if w.item = r.item ∧ w.variant = r.variant then y else w)
    total := x.total + r.quantity * y.price } := by
  simp only [Hold.add, hz, Option.isSome_some, if_true, isFor_eq, decide_eq_true_eq]

theorem add_made (hz : x.line r = none) :
    x.add r y = { x with lines := x.lines ++ [y], total := x.total + r.quantity * y.price } := by
  simp [Hold.add, hz]

end AddedLine

/-! ## HOLD_ADD, outcome by outcome (R147, R148) -/

section Add

variable {s : State} {l : LaneNo} {r : LineRequest} {x : Hold} {v : Variant} {y : HoldLine}

theorem holdAdd_out {payload : List Byte} (hp : lineRequest? payload = none) :
    holdAdd l payload s = (.refuse .badField, s) := by simp only [holdAdd, hp]

variable (hr : r.InRange) (hx : (s.lane l).hold r.hold = some x)
include hr hx

theorem holdAdd_notAddable {status : Status} (ha : s.addable r = .error status) :
    holdAdd l r.bytes s = (.refuse status, s) := by
  simp only [holdAdd, lineRequest?_bytes hr, withHold_of_open hx, ha]

variable (ha : s.addable r = .ok v) (hy : s.lineAfterAdd x r v = y)
include ha hy

theorem holdAdd_above (hq : 99 < y.quantity) :
    holdAdd l r.bytes s = (⟨.badField, be 1 (y.quantity - r.quantity)⟩, s) := by
  simp only [holdAdd, lineRequest?_bytes hr, withHold_of_open hx, ha, hy, if_pos hq]

variable (hq : y.quantity ≤ 99)
include hq

theorem holdAdd_linesFull (hn : 24 < (x.add r y).lines.length) : holdAdd l r.bytes s = (.refuse .linesFull, s) := by
  simp only [holdAdd, lineRequest?_bytes hr, withHold_of_open hx, ha, hy, if_neg (Nat.not_lt.2 hq), Config.holdLines,
    if_pos hn]

variable (hn : (x.add r y).lines.length ≤ 24)
include hn

theorem holdAdd_totalRange (ht : 9999999 < (x.add r y).total) :
    holdAdd l r.bytes s = (⟨.totalRange, be 3 x.total⟩, s) := by
  simp only [holdAdd, lineRequest?_bytes hr, withHold_of_open hx, ha, hy, if_neg (Nat.not_lt.2 hq), Config.holdLines,
    if_neg (Nat.not_lt.2 hn), Config.holdTotalMax, if_pos ht]

theorem holdAdd_taken (ht : (x.add r y).total ≤ 9999999) : holdAdd l r.bytes s =
    (.ok (be 1 y.quantity ++ be 3 y.price ++ [flagByte y.promotion] ++ be 3 (x.add r y).total ++
      (s.changeHold l r.hold (x.add r y)).revisionBytes l), s.changeHold l r.hold (x.add r y)) := by
  simp only [holdAdd, lineRequest?_bytes hr, withHold_of_open hx, ha, hy, if_neg (Nat.not_lt.2 hq), Config.holdLines,
    if_neg (Nat.not_lt.2 hn), Config.holdTotalMax, if_neg (Nat.not_lt.2 ht)]

end Add

/-- Settles O40: the refusals in the order of their checks, then the line made or raised. -/
theorem holdAddMakesOrRaisesLine : Obligations.HoldAddMakesOrRaisesLine := by
  refine ⟨fun s l tag hold variant quantity item ht hitem hout => ?range,
    fun s l tag h item variant quantity x status payload ht hitem hvariant hone hquantity hx hrefused => ?refused,
    fun s l tag h item variant quantity x d r v y lines ht hitem hvariant hone hquantity hx hs hi hv hd ha hlease hline hq
      hn htotal => ?taken⟩
  case range => exact lane_answersOnly ht rfl (holdAdd_out (lineRequest?_out hitem hout)) rfl rfl
  all_goals
    have hr : (⟨h, item, variant, quantity⟩ : LineRequest).InRange := ⟨hitem, hvariant, hone, hquantity⟩
  case refused =>
    suffices howner : holdAdd l (LineRequest.bytes ⟨h, item, variant, quantity⟩) s = (⟨status, payload⟩, s) from
      lane_answersOnly ht rfl howner rfl rfl
    have hnot {e : Status} := holdAdd_notAddable hr hx (status := e)
    rcases hrefused with ⟨hs, rfl, rfl⟩ | ⟨d, hs, ⟨hi, rfl, rfl⟩ | ⟨i, hi, ⟨hv, rfl, rfl⟩ | ⟨v, hv, hrefused⟩⟩⟩
    · exact hnot (addable_closed hs)
    · exact hnot (addable_noItem hs hi)
    · exact hnot (addable_noVariant hs hi hv)
    rcases hrefused with ⟨hd, rfl, rfl⟩ | ⟨hd, ⟨ha, rfl, rfl⟩ | ⟨ha, hl, rfl, rfl⟩ | ⟨ha, hl, hline⟩⟩
    · exact hnot (addable_notInDaypart hs hi hv hd)
    · exact hnot (addable_soldOut hs hi hv hd ha)
    · exact hnot (addable_pricesWithheld hs hi hv hd ha hl)
    have hok := addable_ok (r := ⟨h, item, variant, quantity⟩) hs hi hv hd ha hl
    rcases hline with ⟨z, hz, hrefused⟩ | ⟨hz, hrefused⟩ <;> rw [← line_eq x ⟨h, item, variant, quantity⟩] at hz
    · have hy := lineAfterAdd_raised (s := s) (v := v) hz
      rcases hrefused with ⟨hq, rfl, rfl⟩ | ⟨hq, hn, rfl, rfl⟩ | ⟨hq, hn, htotal, rfl, rfl⟩
      · have habove := holdAdd_above hr hx hok hy hq
        rwa [Nat.add_sub_cancel] at habove
      · exact holdAdd_linesFull hr hx hok hy hq (by simpa [add_raised hz] using hn)
      · exact holdAdd_totalRange hr hx hok hy hq (by simpa [add_raised hz] using hn)
          (by rw [add_raised hz]; exact htotal)
    · have hy := lineAfterAdd_made (s := s) (v := v) hz
      rcases hrefused with ⟨hn, rfl, rfl⟩ | ⟨hn, htotal, rfl, rfl⟩
      · exact holdAdd_linesFull hr hx hok hy hquantity (by simpa [add_made hz] using hn)
      · exact holdAdd_totalRange hr hx hok hy hquantity (by simpa [add_made hz] using hn)
          (by rw [add_made hz]; exact htotal)
  case taken =>
    have hok := addable_ok (r := ⟨h, item, variant, quantity⟩) hs hi hv hd ha hlease
    have hadded : s.lineAfterAdd x ⟨h, item, variant, quantity⟩ v = y ∧ x.add ⟨h, item, variant, quantity⟩ y =
        { x with lines := lines, total := x.total + quantity * y.price } := by
      rcases hline with ⟨z, hz, rfl, rfl⟩ | ⟨hz, rfl, rfl⟩ <;> rw [← line_eq x ⟨h, item, variant, quantity⟩] at hz
      · exact ⟨lineAfterAdd_raised hz, add_raised hz⟩
      · exact ⟨lineAfterAdd_made hz, add_made hz⟩
    obtain ⟨hy, hadd⟩ := hadded
    have howner := holdAdd_taken hr hx hok hy hq (by rwa [hadd]) (by rwa [hadd])
    rw [changeHold_eq, hadd] at howner
    obtain ⟨t, hexec, hans, hlane, hothers, hcomposer, htimers, hframe⟩ := exec_changes_lane
      (c := .holdAdd (.lane l) tag (LineRequest.bytes ⟨h, item, variant, quantity⟩)) ht rfl howner rfl rfl
    rw [htimers] at hframe
    exact ⟨t, hexec, hans, hlane, hothers, hcomposer, hframe⟩

/-! ## HOLD_FOCUS, HOLD_REFRESH and HOLD_READ (R150, R151, R153) -/

section Read

variable {s : State} {l : LaneNo} {h : HoldId} {x : Hold}

/-- A period in whole seconds is that many seconds. -/
theorem secondsLeft_seconds (n : Nat) : secondsLeft (n * 1000) = n := by
  simp [secondsLeft]

/-- With a hold or with none HOLD_FOCUS makes one change of the lane's record; a hold it names has its lease restarted. -/
theorem holdFocus_taken {f : Option HoldId} (hf : ∀ h, f = some h → ((s.lane l).hold h).isSome = true) :
    ∃ timers, (f = none → timers = s.timers) ∧ (∀ h, f = some h → timers = s.leaseStarted l h) ∧
      holdFocus l [noneByte (f.map fun h => h.val)] s =
        (.ok ((s.laneChanged l { s.lane l with focus := f } ((s.lane l).focus ≠ f) timers).revisionBytes l),
          s.laneChanged l { s.lane l with focus := f } ((s.lane l).focus ≠ f) timers) := by
  have hread := holdOrNone?_noneByte f
  cases f with
  | none =>
    refine ⟨s.timers, fun _ => rfl, nofun, ?_⟩
    simp only [holdFocus, List.getD_cons_zero, hread, setFocus_eq]
  | some h =>
    obtain ⟨x, hx⟩ := Option.isSome_iff_exists.1 (hf h rfl)
    refine ⟨s.leaseStarted l h, nofun, fun _ he => by rw [Option.some.inj he], ?_⟩
    simp only [holdFocus, List.getD_cons_zero, hread, withHold_of_open hx, refresh_eq, setFocus_laneChanged]

theorem holdRefresh_open (hx : (s.lane l).hold h = some x) : holdRefresh l (be 1 h.val) s =
    (.ok (be 2 (s.profileNat 21) ++ be 2 (s.lane l).revision.toNat), s.refresh l h) := by
  simp only [holdRefresh, holdId?_be, withHold_of_open hx, State.holdLeaseMs, secondsLeft_seconds, State.revisionBytes]

theorem holdRead_open (hx : (s.lane l).hold h = some x) : holdRead l (be 1 h.val) s =
    (.ok (be 2 x.order ++ [flagByte (decide ((s.lane l).focus = some h))] ++ be 3 x.total ++ be 2 (s.profileNat 21) ++
      be 1 x.lines.length ++ x.lines.flatMap Layout.holdLine ++ be 2 (s.lane l).revision.toNat), s.refresh l h) := by
  simp only [holdRead, holdOrNone?_be, withHold_of_open hx, State.holdLeaseMs, secondsLeft_seconds, State.revisionBytes]
  rfl

/-- The summary of a hold id in the layout of R204. -/
theorem summaryOf_eq (s : State) (l : LaneNo) : s.summaryOf l = Layout.holdSummary s l := by
  funext h
  unfold State.summaryOf Layout.holdSummary
  cases (s.lane l).hold h <;> rfl

theorem holdRead_none : holdRead l [255] s =
    (.ok ([noneByte ((s.lane l).focus.map fun h => h.val)] ++ be 2 (s.lane l).revision.toNat ++ be 2 (s.profileNat 21) ++
      allHoldIds.flatMap (Layout.holdSummary s l)), s) := by
  have hread : holdOrNone? (([255] : List Byte).getD 0 0) = some none := rfl
  simp only [holdRead, hread, summaryOf_eq, State.revisionBytes, State.holdLeaseMs,
    Nat.mul_div_cancel _ (show 0 < 1000 by decide)]

end Read

/-- Settles O42, request by request. -/
theorem holdFocusRefreshReadKeepLines : Obligations.HoldFocusRefreshReadKeepLines := by
  refine fun s l tag ht => ⟨fun f hf => ?focus, fun h x hx => ⟨?refresh, ?read⟩, ?summary⟩
  case focus =>
    obtain ⟨timers, hnone, hsome, howner⟩ := holdFocus_taken hf
    obtain ⟨t, hexec, hans, hlane, hothers, hcomposer, htimers, hframe⟩ := exec_changes_lane (head := [])
      (v := { s.lane l with focus := f })
      (c := .holdFocus (.lane l) tag [noneByte (f.map fun h : HoldId => h.val)]) ht rfl howner rfl rfl
    rw [ite_not] at hlane hcomposer
    exact ⟨t, hexec, hans, hlane, hothers, hcomposer, fun he => htimers.trans (hnone he),
      fun h he => htimers.trans (hsome h he), hframe⟩
  case refresh => exact exec_refreshes ht rfl (holdRefresh_open hx) rfl rfl
  case read => exact exec_refreshes ht rfl (holdRead_open hx) rfl rfl
  case summary => exact lane_answersOnly ht rfl holdRead_none rfl rfl

/-! ## HOLD_CLOSE and the hold lease (R152, R155) -/

section Drop

variable {s : State} {l : LaneNo} {h : HoldId} {x : Hold}

theorem holdClose_open (hx : (s.lane l).hold h = some x) : holdClose l (be 1 h.val) s =
    (.ok (be 2 x.order ++ be 3 x.total ++ (s.dropHold l h).revisionBytes l), s.dropHold l h) := by
  simp only [holdClose, holdId?_be, withHold_of_open hx]

/-- A lane's record with the mark of a hold lost to its lease (R155). -/
def Lane.marked (v : Lane) (h : HoldId) (order : Nat) : Lane :=
  { v with expired := Table.insert h.val order v.expired }

/-- An expired lease: the mark is set, the hold leaves as a closed one does, and the notice is raised. -/
theorem expireHold_open (hx : (s.lane l).hold h = some x) : s.expireHold l h =
    (s.laneChanged l (((s.lane l).marked h x.order).dropHold h) ((s.lane l).focus = some h)
      (s.stopTimer (.holdLease l h)).timers).raise .holdExpired (.lane l) := by
  simp only [State.expireHold, hx]
  exact congrArg (State.raise .holdExpired (.lane l)) (dropHold_laneChanged s l h ((s.lane l).marked h x.order) s.timers)

/-- The change that the expiry of a hold's lease makes, and the notice that follows it. -/
theorem exec_holdLeaseExpiry {left : Nat} (hleft : s.timeLeft (.holdLease l h) = some left)
    (hx : (s.lane l).hold h = some x) : ∃ timers, Table.find (TimerId.holdLease l h).key timers = none ∧
      exec (.holdLeaseExpiry l h) s = .next ((s.laneChanged l (((s.lane l).marked h x.order).dropHold h)
        ((s.lane l).focus = some h) timers).raise .holdExpired (.lane l)) := by
  refine ⟨(((s.elapse left).stopTimer (.holdLease l h)).stopTimer (.holdLease l h)).timers, Table.find_erase_self _ _, ?_⟩
  have hrun : exec (.holdLeaseExpiry l h) s = .next (((s.elapse left).stopTimer (.holdLease l h)).expireHold l h) :=
    congrArg Host.Outcome.next (onExpiry_running hleft _)
  rw [hrun, expireHold_open (s := (s.elapse left).stopTimer (.holdLease l h)) hx]
  exact congrArg (fun u : State => Host.Outcome.next (u.raise .holdExpired (.lane l)))
    (laneChanged_of_timers s _ _ _ ((s.elapse left).stopTimer (.holdLease l h)).timers)

/-- A notice raised changes the ports alone. -/
theorem raise_frame (s : State) (f : NoticeFlag) (p : PortId) :
    s.raise f p = { s with ports := (s.raise f p).ports } := by
  apply State.eq_of_fields <;> simp

end Drop

/-- Settles O43: a closed hold, and one whose lease runs out. -/
theorem holdCloseAndExpiryDropHold : Obligations.HoldCloseAndExpiryDropHold := by
  rintro s l h x c hx (⟨tag, rfl, ht⟩ | ⟨rfl, ⟨left, hleft⟩, hfitted⟩)
  case inl =>
    have howner := holdClose_open hx
    rw [dropHold_eq] at howner
    obtain ⟨t, hexec, hans, hlane, hothers, hcomposer, htimers, hframe⟩ := exec_changes_lane
      (c := .holdClose (.lane l) tag (be 1 h.val)) ht rfl howner rfl rfl
    refine ⟨t, hexec, hlane, hothers, hcomposer, ?_, fun tag' hc => ?_, nofun, hframe⟩
    · exact (timeLeft_of_timers htimers _).trans (State.stopTimer_timeLeft_self s _)
    · cases hc
      exact ⟨hans, htimers⟩
  case inr =>
    obtain ⟨timers, hstopped, hexec⟩ := exec_holdLeaseExpiry hleft hx
    obtain ⟨hlane, hothers, hcomposer, htimers, hframe⟩ :=
      laneChanged_frame s _ ((s.lane l).focus = some h) timers (raise_frame _ .holdExpired (.lane l))
    refine ⟨_, hexec, ?_, hothers, hcomposer, ?_, nofun, fun _ => ?_, hframe⟩
    · rw [hlane, if_pos rfl]
      rfl
    · rw [State.timeLeft, htimers]
      exact hstopped
    · have hset : NoticeFlag.mask .holdExpired &&& laneFlagSet = NoticeFlag.mask .holdExpired := by decide
      exact raise_flag _ _ hfitted hset
end Sys2Proof.Machine
end
section
/-! PROOFS. The controller under a freeze: every operation either leaves the freeze's state and an idle controller as they
stand, or ends the freeze, or takes it of an idle controller (R178, R179, R181): the statement O60. -/
namespace Sys2Proof.Machine

variable {s t : State}

/-! ## What the demand reads -/

/-- The controller and its freeze record, which are all that `FreezeHoldsController` reads. -/
def State.control (s : State) : Changeover × FreezeRecord := (s.changeover, s.freeze)

@[simp] theorem control_eq_iff : t.control = s.control ↔ t.changeover = s.changeover ∧ t.freeze = s.freeze :=
  Iff.of_eq (Prod.mk.injEq ..)

theorem FreezeHoldsController.of_control (h : FreezeHoldsController s) (e : t.control = s.control) :
    FreezeHoldsController t := by
  obtain ⟨hc, hf⟩ := control_eq_iff.1 e
  exact freezeHolds_of_keeps (by rw [hf]) (fun hi => hi.of_changeover hc) h

/-- The demand survives what leaves the freeze record alone and an idle controller idle. -/
theorem FreezeHoldsController.of_freeze (h : FreezeHoldsController s) (hf : t.freeze = s.freeze)
    (hi : s.Idle → t.Idle) : FreezeHoldsController t := freezeHolds_of_keeps (by rw [hf]) hi h

/-! ## The links: an idle controller stays idle -/

theorem State.Idle.takePresent (h : s.Idle) (p : PanelNo) (d : Descriptor) : (s.takePresent p d).Idle := by
  have left : ∀ u : State, u.Idle → (((u.leaveLive p).raiseBoth .panelEvent).trainOrReject p).Idle :=
    fun u hu => (hu.leaveLive p).of_changeover (by simp)
  unfold State.takePresent
  dsimp only
  cases (s.link p).state with
  | off => exact h
  | detached | training | rejected => dsimp only; split <;> exact h.of_changeover (by simp)
  | locked | streaming => exact left _ h
  | dark | test => exact h

theorem State.Idle.takeLocked (h : s.Idle) (p : PanelNo) : (s.takeLocked p).Idle := by
  have joined : ∀ u : State, u.Idle →
      (((u.memberJoins p).composeRequest p (Reason.set .lock)).raiseBoth .panelEvent).Idle :=
    fun u hu => (hu.memberJoins p).of_changeover (by simp)
  unfold State.takeLocked
  split
  · exact joined _ (h.of_changeover (by simp))
  · exact h

theorem State.Idle.loseLock (h : s.Idle) (p : PanelNo) : (s.loseLock p).Idle := by
  unfold State.loseLock
  split
  · exact (h.leaveLive p).of_changeover (by simp)
  · exact h

theorem State.Idle.confirm (h : s.Idle) (p : PanelNo) (r : FrameRecord) : (s.confirm p r).Idle := by
  unfold State.confirm
  split
  · exact h
  · exact State.Idle.clearLagging (State.Idle.advanceFrom (h.of_changeover (by simp)) p _ _ _) p _

theorem State.Idle.takeShown (h : s.Idle) (p : PanelNo) (q : BitVec 16) (c : BitVec 32) : (s.takeShown p q c).Idle := by
  unfold State.takeShown
  split
  · split
    · exact h
    · split
      · exact h
      · split
        · exact h.confirm p _
        · exact h.of_changeover (by simp)
  · exact h

theorem State.Idle.takeReport (h : s.Idle) (p : PanelNo) (r : Report) : (s.takeReport p r).Idle := by
  have hcount : (s.countGood p).Idle := h.of_changeover (by simp)
  unfold State.takeReport
  split
  · cases r with
    | present => exact hcount.takePresent p _
    | locked => exact hcount.takeLocked p
    | unlocked => exact hcount.loseLock p
    | shown => exact hcount.takeShown p _ _
    | testReport e => exact hcount.of_changeover (State.takeTestReport_changeover _ p e.toNat)
    | panelFault c => exact hcount.of_changeover (State.takeFault_changeover _ p c)
  · exact h

theorem State.Idle.detach (h : s.Idle) (p : PanelNo) : (s.detach p).Idle := by
  have hleft := h.leaveLive p
  unfold State.detach
  cases (s.link p).state with
  | locked | streaming => exact hleft.of_changeover (by simp)
  | _ => exact h.of_changeover (by simp)

theorem State.Idle.flip (h : s.Idle) (p : PanelNo) : (s.flip p).Idle := by
  unfold State.flip
  dsimp only
  split
  · exact h
  · split
    · exact State.Idle.advanceFrom (h.of_changeover (by simp)) p _ _ _
    · exact h

theorem State.Idle.boundary (h : s.Idle) (p : PanelNo) : (s.boundary p).Idle := by
  have flipped : ((s.startTimer (.framePeriod p) (s.link p).framePeriodMs).flip p).Idle :=
    State.Idle.flip (h.of_changeover (by simp)) p
  unfold State.boundary
  split
  · exact flipped.of_changeover (by simp)
  · exact h

theorem State.Idle.startTest (h : s.Idle) (p : PanelNo) (m : TestMode) (d : Nat) : (s.startTest p m d).Idle := by
  unfold State.startTest
  exact (h.leaveLive p).of_changeover (by simp)

/-- The limit leaves the controller IDLE, whatever it was (R85). -/
theorem settlePartial_idle (u : Target) : (s.settlePartial u).Idle := by
  change (s.settlePartial u).changeover.controller = .idle
  simp [State.settlePartial]

/-! ## The operations that move the controller or the freeze -/

section Operations

variable (h : FreezeHoldsController s)
include h

theorem FreezeHoldsController.takeReport (p : PanelNo) (r : Report) : FreezeHoldsController (s.takeReport p r) :=
  h.of_freeze (by simp) fun hi => hi.takeReport p r

theorem FreezeHoldsController.takeEither (p : PanelNo) (r : Option Report) :
    FreezeHoldsController (s.takeEither p r) := by
  cases r with
  | none => exact h.of_control (by simp [State.takeEither])
  | some r => exact h.takeReport p r

theorem FreezeHoldsController.addCause (c : DarkCause) (p : PanelNo) : FreezeHoldsController (s.addCause c p) :=
  h.of_freeze (by simp) fun hi => hi.addCause c p

theorem FreezeHoldsController.removeCause (c : DarkCause) (p : PanelNo) : FreezeHoldsController (s.removeCause c p) :=
  h.of_control (by simp)

/-- A move to another open day-part hands its target after the freeze, if it ends it; a closing and the causes of an
opening move only links (R172 to R174). -/
theorem FreezeHoldsController.transition (before : StoreState) : FreezeHoldsController (s.transition before) := by
  have handed : ∀ {u : State} (d : DayPart), FreezeHoldsController u →
      FreezeHoldsController ((u.setClock { u.clock with lastOpen := d }).handDayPart d) :=
    fun d hu => freezeHolds_handTarget (hu.of_control (by simp)) _
  have raised : ∀ {u : State}, FreezeHoldsController u → FreezeHoldsController (u.raise .daypartChanged .store) :=
    fun hu => hu.of_control (by simp)
  unfold State.transition
  split
  · exact h
  · split
    · exact raised (handed _ (freezeHolds_endFreezeInForce h _))
    · refine raised (List.foldlRecOn _ _ (handed _ ?_) fun _ hu p _ => hu.removeCause _ p)
      split
      · exact h
      · exact freezeHolds_endFreezeInForce h _
    · exact raised (List.foldlRecOn _ _ h fun _ hu p _ => hu.addCause _ p)

theorem FreezeHoldsController.changeClock (f : StoreClock → StoreClock) : FreezeHoldsController (s.changeClock f) :=
  FreezeHoldsController.transition (h.of_control (by simp)) _

theorem FreezeHoldsController.fire : FreezeHoldsController s.fire := by
  unfold State.fire
  split
  · split
    · exact h
    · exact h.changeClock _
  · exact h

theorem FreezeHoldsController.tick : FreezeHoldsController s.tick := by
  unfold State.tick
  split
  · exact FreezeHoldsController.fire (h.of_control (by simp))
  · exact h

/-- A commit hands its generation, and a store commit that finds the lease EXPIRED its visibility with it (R16, R21). -/
theorem FreezeHoldsController.finishCommit (role : WritingRole) (expired : Bool) :
    FreezeHoldsController (s.finishCommit role expired) := by
  have handed : ∀ v, FreezeHoldsController (s.makeLive.handTarget v) :=
    freezeHolds_handTarget (h.of_control (by simp))
  have raised : ∀ v, FreezeHoldsController ((s.makeLive.handTarget v).raiseLanes .pricesRestored) :=
    fun v => (handed v).of_control (by simp)
  unfold State.finishCommit
  split
  · exact freezeHolds_handTarget h _
  · split
    · exact raised _
    · exact handed _

theorem FreezeHoldsController.endPromotions : FreezeHoldsController s.endPromotions := by
  by_cases hd : CountdownDue s.catalogue.items 0
  · exact freezeHolds_of_off (endPromotions_freeze hd).1
  · rwa [endPromotions_of_none s hd]

theorem FreezeHoldsController.minutePasses : FreezeHoldsController s.minutePasses := by
  unfold State.minutePasses
  exact FreezeHoldsController.endPromotions (h.of_control (by simp))

/-- A completion stages by an operation that leaves an idle controller idle, and its report moves a freeze in force from
FREEZING to FROZEN (R61, R180). -/
theorem FreezeHoldsController.complete (c : Composition) : FreezeHoldsController (s.complete c) := by
  have hjudged : s.Idle → (s.judgedFrame c).Idle := fun hi => by
    unfold State.judgedFrame
    split
    · exact hi.stage _ _ _
    · exact hi
  have hreported : FreezeHoldsController (s.reported c) := fun hin =>
    (hjudged (h ((reported_inForce s c).symm.trans hin))).of_changeover (reported_changeover s c)
  exact hreported.of_control (t := (s.reported c).startNext) (by simp)

end Operations

theorem freezeHolds_takeReset (kind : ResetKind) (phase : Phase) : FreezeHoldsController (s.takeReset kind phase) :=
  freezeHolds_of_idle rfl

theorem freezeHolds_startUp (kind : ResetKind) : FreezeHoldsController (s.startUp kind) := by
  obtain ⟨-, -, -, -, hidle, -⟩ := startUp_blocksAtReset s kind
  exact freezeHolds_of_idle hidle

/-! ## The requests that leave the controller and the freeze alone -/

section Owners

variable (u : State) (payload : List Byte)

theorem batchOpen_control (role : WritingRole) : (batchOpen role u).2.control = u.control := by
  unfold batchOpen; split <;> simp

theorem batchAdd_control (role : WritingRole) : (batchAdd role payload u).2.control = u.control := by
  unfold batchAdd; (repeat' split) <;> simp

theorem batchDiscard_control (role : WritingRole) : (batchDiscard role u).2.control = u.control := by
  unfold batchDiscard; split <;> simp

theorem itemRead_control : (itemRead payload u).2.control = u.control := by
  unfold itemRead; dsimp only; (repeat' split) <;> rfl

theorem priceQuery_control : (priceQuery payload u).2.control = u.control := by
  unfold priceQuery; dsimp only; (repeat' split) <;> rfl

theorem planLoad_control : (planLoad payload u).2.control = u.control := by
  unfold planLoad; (repeat' split) <;> simp

theorem planClear_control : (planClear payload u).2.control = u.control := by
  unfold planClear; (repeat' split) <;> simp

theorem planRead_control : (planRead payload u).2.control = u.control := by
  unfold planRead; (repeat' split) <;> rfl

theorem loadBegin_control : (loadBegin payload u).2.control = u.control := by
  unfold loadBegin; dsimp only; (repeat' split) <;> simp

theorem storeBlock_control (ls : LoadSession) (r : Slot) (data : List Byte) :
    (u.storeBlock ls r data).2.control = u.control := by
  unfold State.storeBlock; dsimp only; (repeat' split) <;> simp

theorem takeBlock_control (ls : LoadSession) (r : Slot) : (u.takeBlock ls r payload).2.control = u.control := by
  unfold State.takeBlock; dsimp only; (repeat' split)
  · rfl
  · rfl
  · simp
  · exact storeBlock_control u ls r _

theorem loadBlock_control (found : Option (LoadSession × Slot)) : (loadBlock payload found u).2.control = u.control := by
  unfold loadBlock; split
  · rfl
  · exact takeBlock_control (u.startTimer .loadIdle Config.loadIdleMs) payload _ _

theorem loadAbort_control : (loadAbort u).2.control = u.control := by
  unfold loadAbort; split <;> simp

theorem slotErase_control : (slotErase payload u).2.control = u.control := by
  unfold slotErase; (repeat' split) <;> simp

theorem slotVerify_control : (slotVerify payload u).2.control = u.control := by
  unfold slotVerify; (repeat' split) <;> simp

theorem verifyAll_control : (verifyAll u).2.control = u.control := by
  unfold verifyAll; dsimp only; split <;> simp

theorem slotRead_control : (slotRead payload u).2.control = u.control := by
  unfold slotRead; (repeat' split) <;> rfl

theorem linkTestStop_control : (linkTestStop payload u).2.control = u.control := by
  unfold linkTestStop; (repeat' split) <;> simp

theorem panelStatus_control : (panelStatus payload u).2.control = u.control := by
  unfold panelStatus; split <;> rfl

theorem withHold_control (l : LaneNo) (x : HoldId) {effect : Hold → Reply × State}
    (he : ∀ v, (effect v).2.control = u.control) : (withHold l x u effect).2.control = u.control := by
  unfold withHold; (repeat' split)
  · exact he _
  · rfl
  · rfl

theorem holdOpen_control (l : LaneNo) : (holdOpen l payload u).2.control = u.control := by
  unfold holdOpen; dsimp only; (repeat' split) <;> simp

theorem holdAdd_control (l : LaneNo) : (holdAdd l payload u).2.control = u.control := by
  unfold holdAdd; split
  · rfl
  · refine withHold_control u l _ fun v => ?_
    dsimp only; (repeat' split) <;> simp

theorem holdRemove_control (l : LaneNo) : (holdRemove l payload u).2.control = u.control := by
  unfold holdRemove; split
  · rfl
  · refine withHold_control u l _ fun v => ?_
    dsimp only; (repeat' split) <;> simp

theorem holdFocus_control (l : LaneNo) : (holdFocus l payload u).2.control = u.control := by
  unfold holdFocus; split
  · rfl
  · simp
  · exact withHold_control u l _ fun v => by simp

theorem holdRefresh_control (l : LaneNo) : (holdRefresh l payload u).2.control = u.control := by
  unfold holdRefresh; split
  · rfl
  · exact withHold_control u l _ fun v => by simp

theorem holdClose_control (l : LaneNo) : (holdClose l payload u).2.control = u.control := by
  unfold holdClose; split
  · rfl
  · exact withHold_control u l _ fun v => by simp

theorem holdRead_control (l : LaneNo) : (holdRead l payload u).2.control = u.control := by
  unfold holdRead; split
  · rfl
  · rfl
  · exact withHold_control u l _ fun v => by simp

theorem profileBurn_control : (profileBurn payload u).2.control = u.control := by
  unfold profileBurn; dsimp only; (repeat' split) <;> rfl

theorem noticeClear_control (p : PortId) : (noticeClear p payload u).2.control = u.control := by
  unfold noticeClear; split <;> rfl

theorem noticeMask_control (p : PortId) : (noticeMask p payload u).2.control = u.control := by
  unfold noticeMask; split <;> rfl

end Owners

/-! ## The requests that move the controller or the freeze -/

section Moving

variable (h : FreezeHoldsController s) (payload : List Byte)
include h

theorem freezeHolds_batchCommit (role : WritingRole) : FreezeHoldsController (batchCommit role s).2 := by
  unfold batchCommit
  split
  · exact h
  · split
    · exact h.of_control (by simp)
    · split
      · exact h.of_control (by simp)
      · exact FreezeHoldsController.finishCommit (h.of_control (by simp)) _ _

theorem freezeHolds_leaseRenew : FreezeHoldsController (leaseRenew s).2 := by
  cases hl : s.catalogue.lease with
  | live => rw [leaseRenew_of_live s hl]; exact h.of_control (by simp)
  | expired => rw [leaseRenew_of_expired s hl]; exact freezeHolds_of_off (renewed_freeze s).1

theorem freezeHolds_onFittedPanel {effect : PanelNo → Reply × State}
    (he : ∀ p, FreezeHoldsController (effect p).2) : FreezeHoldsController (onFittedPanel payload s effect).2 := by
  unfold onFittedPanel
  split
  · exact h
  · split
    · exact h
    · exact he _

theorem freezeHolds_panelDark : FreezeHoldsController (panelDark payload s).2 :=
  freezeHolds_onFittedPanel h payload fun p => h.addCause .request p

theorem freezeHolds_panelLight : FreezeHoldsController (panelLight payload s).2 :=
  freezeHolds_onFittedPanel h payload fun p => h.removeCause .request p

theorem freezeHolds_linkTest : FreezeHoldsController (linkTest payload s).2 := by
  unfold linkTest
  dsimp only
  split
  · split
    · exact h
    · split
      · exact h.of_freeze (State.startTest_freeze s _ _ _) fun hi => hi.startTest _ _ _
      · exact h
  · exact h

theorem freezeHolds_clockSet : FreezeHoldsController (clockSet payload s).2 := by
  unfold clockSet storeStateReply
  dsimp only
  split
  · exact h
  · refine FreezeHoldsController.changeClock ?_ _
    split
    · exact h.of_control (by simp)
    · exact h

theorem freezeHolds_scheduleLoad : FreezeHoldsController (scheduleLoad payload s).2 := by
  unfold scheduleLoad storeStateReply
  dsimp only
  split
  · exact h
  · split
    · exact h
    · split
      · exact h
      · exact h.changeClock _

theorem freezeHolds_daypartForce : FreezeHoldsController (daypartForce payload s).2 := by
  unfold daypartForce storeStateReply
  split
  · exact h
  · exact h.changeClock _

/-- A freeze is taken of an IDLE controller alone (R179). -/
theorem freezeHolds_freeze (role : WritingRole) : FreezeHoldsController (freeze role payload s).2 := by
  unfold freeze
  split
  · exact h
  · split
    · exact h
    · split
      · exact h
      · next hidle => exact freezeHolds_of_idle ((Decidable.not_not.1 hidle : s.Idle).of_changeover (by simp))

theorem freezeHolds_unfreeze (role : WritingRole) : FreezeHoldsController (unfreeze role s).2 := by
  unfold unfreeze
  split
  · exact h
  · split
    · exact h
    · exact freezeHolds_endFreeze .unfreeze

end Moving

/-! ## What each kind of command makes of the demand -/

theorem request_freezeHolds {ty : RequestType} {p : PortId} {tag : Byte} {payload : List Byte}
    {owner : State → Reply × State} (howner : ∀ u, FreezeHoldsController u → FreezeHoldsController (owner u).2)
    (hs : FreezeHoldsController s)
    (h : (.next (s.request ty p tag payload owner) : Host.Outcome State Fault Refusal) = .next t) :
    FreezeHoldsController t := by
  cases h; exact request_keeps (fun _ _ hu => hu) howner hs

theorem request_freezeHolds_of_control {ty : RequestType} {p : PortId} {tag : Byte} {payload : List Byte}
    {owner : State → Reply × State} (howner : ∀ u, (owner u).2.control = u.control) (hs : FreezeHoldsController s)
    (h : (.next (s.request ty p tag payload owner) : Host.Outcome State Fault Refusal) = .next t) :
    FreezeHoldsController t := request_freezeHolds (fun u hu => hu.of_control (howner u)) hs h

theorem expiry_freezeHolds {x : TimerId} {effect : State → State}
    (he : ∀ u, FreezeHoldsController u → FreezeHoldsController (effect u)) (hs : FreezeHoldsController s)
    (h : (.next (s.onExpiry x effect) : Host.Outcome State Fault Refusal) = .next t) : FreezeHoldsController t := by
  cases h; exact onExpiry_keeps (fun _ _ hu => hu) he hs

theorem expiry_freezeHolds_of_control {x : TimerId} {effect : State → State}
    (he : ∀ u : State, (effect u).control = u.control) (hs : FreezeHoldsController s)
    (h : (.next (s.onExpiry x effect) : Host.Outcome State Fault Refusal) = .next t) : FreezeHoldsController t :=
  expiry_freezeHolds (fun u hu => hu.of_control (he u)) hs h

theorem expiry_freezeHolds_of_freeze {x : TimerId} {effect : State → State}
    (hf : ∀ u : State, (effect u).freeze = u.freeze) (hi : ∀ u : State, u.Idle → (effect u).Idle)
    (hs : FreezeHoldsController s)
    (h : (.next (s.onExpiry x effect) : Host.Outcome State Fault Refusal) = .next t) : FreezeHoldsController t :=
  expiry_freezeHolds (fun u hu => hu.of_freeze (hf u) (hi u)) hs h

theorem event_freezeHolds {u : State} (hu : FreezeHoldsController u)
    (h : (.next u : Host.Outcome State Fault Refusal) = .next t) : FreezeHoldsController t := by
  cases h; exact hu

theorem exec_loadBlock_freezeHolds {p : PortId} {tag : Byte} {payload : List Byte} (hs : FreezeHoldsController s)
    (h : exec (.loadBlock p tag payload) s = .next t) : FreezeHoldsController t := by
  change execLoadBlock p tag payload s = .next t at h
  unfold execLoadBlock at h
  split at h
  · cases h
  · exact request_freezeHolds_of_control (loadBlock_control · payload _) hs h

theorem exec_restart_freezeHolds {p : PortId} {tag : Byte} {payload : List Byte} (hs : FreezeHoldsController s)
    (h : exec (.restart p tag payload) s = .next t) : FreezeHoldsController t := by
  change Host.Outcome.next (s.accept .restart p tag payload _) = .next t at h
  cases h
  refine accept_keeps (fun _ _ hu => hu) (fun u hu => ?_) hs
  split
  · exact hu
  · exact freezeHolds_takeReset _ _

theorem exec_requestDiscarded_freezeHolds {lost : Discarded} (hs : FreezeHoldsController s)
    (h : exec (.requestDiscarded lost) s = .next t) : FreezeHoldsController t := by
  change execRequestDiscarded lost s = .next t at h
  unfold execRequestDiscarded State.beginLost at h
  refine event_freezeHolds (hs.of_control ?_) h
  (repeat' split) <;> simp

theorem exec_testSecondExpiry_freezeHolds {p : PanelNo} (hs : FreezeHoldsController s)
    (h : exec (.testSecondExpiry p) s = .next t) : FreezeHoldsController t := by
  change execTestSecondExpiry p s = .next t at h
  unfold execTestSecondExpiry at h
  split at h
  · exact event_freezeHolds hs h
  · exact expiry_freezeHolds_of_control (fun u => by simp) hs h

theorem exec_linkTestExpiry_freezeHolds {p : PanelNo} (hs : FreezeHoldsController s)
    (h : exec (.linkTestExpiry p) s = .next t) : FreezeHoldsController t := by
  change execLinkTestExpiry p s = .next t at h
  unfold execLinkTestExpiry at h
  split at h
  · exact event_freezeHolds hs h
  · exact expiry_freezeHolds_of_control (fun u => by simp) hs h

theorem exec_compositionComplete_freezeHolds (hs : FreezeHoldsController s)
    (h : exec .compositionComplete s = .next t) : FreezeHoldsController t := by
  change execCompositionComplete s = .next t at h
  unfold execCompositionComplete at h
  split at h
  · exact event_freezeHolds hs h
  · exact event_freezeHolds (hs.complete _) h

theorem exec_verificationComplete_freezeHolds (hs : FreezeHoldsController s)
    (h : exec .verificationComplete s = .next t) : FreezeHoldsController t := by
  change execVerificationComplete s = .next t at h
  unfold execVerificationComplete at h
  split at h
  · exact event_freezeHolds hs h
  · exact event_freezeHolds (hs.of_control (by simp)) h

theorem exec_startUp_freezeHolds (hs : FreezeHoldsController s) (h : exec .startUp s = .next t) :
    FreezeHoldsController t := by
  change execStartUp s = .next t at h
  unfold execStartUp at h
  split at h
  · exact event_freezeHolds hs h
  · exact event_freezeHolds (freezeHolds_startUp _) h
  · exact event_freezeHolds (freezeHolds_startUp _) h

/-- Every command but those that carry messages, which are such commands in turn. -/
theorem exec_freezeHolds_of_no_messages {c : Instr} (hc : Instr.spellsMessages c = false) (hs : FreezeHoldsController s)
    (h : exec c s = .next t) : FreezeHoldsController t := by
  cases c with
  | frameError => cases hc
  | uartIdleGap => cases hc
  | batchOpen p => exact request_freezeHolds_of_control (batchOpen_control · (roleOfPort p)) hs h
  | batchAdd p _ payload => exact request_freezeHolds_of_control (batchAdd_control · payload (roleOfPort p)) hs h
  | batchCommit p => exact request_freezeHolds (fun _ hu => freezeHolds_batchCommit hu (roleOfPort p)) hs h
  | batchDiscard p => exact request_freezeHolds_of_control (batchDiscard_control · (roleOfPort p)) hs h
  | leaseRenew => exact request_freezeHolds (fun _ => freezeHolds_leaseRenew) hs h
  | itemRead _ _ payload => exact request_freezeHolds_of_control (itemRead_control · payload) hs h
  | priceQuery _ _ payload => exact request_freezeHolds_of_control (priceQuery_control · payload) hs h
  | planLoad _ _ payload => exact request_freezeHolds_of_control (planLoad_control · payload) hs h
  | planClear _ _ payload => exact request_freezeHolds_of_control (planClear_control · payload) hs h
  | planRead _ _ payload => exact request_freezeHolds_of_control (planRead_control · payload) hs h
  | loadBegin _ _ payload => exact request_freezeHolds_of_control (loadBegin_control · payload) hs h
  | loadBlock => exact exec_loadBlock_freezeHolds hs h
  | loadAbort => exact request_freezeHolds_of_control loadAbort_control hs h
  | slotErase _ _ payload => exact request_freezeHolds_of_control (slotErase_control · payload) hs h
  | slotVerify _ _ payload => exact request_freezeHolds_of_control (slotVerify_control · payload) hs h
  | verifyAll => exact request_freezeHolds_of_control verifyAll_control hs h
  | spaceRead => exact request_freezeHolds_of_control (fun _ => rfl) hs h
  | slotRead _ _ payload => exact request_freezeHolds_of_control (slotRead_control · payload) hs h
  | panelDark _ _ payload => exact request_freezeHolds (fun _ hu => freezeHolds_panelDark hu payload) hs h
  | panelLight _ _ payload => exact request_freezeHolds (fun _ hu => freezeHolds_panelLight hu payload) hs h
  | linkTest _ _ payload => exact request_freezeHolds (fun _ hu => freezeHolds_linkTest hu payload) hs h
  | linkTestStop _ _ payload => exact request_freezeHolds_of_control (linkTestStop_control · payload) hs h
  | panelStatus _ _ payload => exact request_freezeHolds_of_control (panelStatus_control · payload) hs h
  | changeoverStatus => exact request_freezeHolds_of_control (fun _ => rfl) hs h
  | holdOpen p _ payload => exact request_freezeHolds_of_control (holdOpen_control · payload (laneOfPort p)) hs h
  | holdAdd p _ payload => exact request_freezeHolds_of_control (holdAdd_control · payload (laneOfPort p)) hs h
  | holdRemove p _ payload => exact request_freezeHolds_of_control (holdRemove_control · payload (laneOfPort p)) hs h
  | holdFocus p _ payload => exact request_freezeHolds_of_control (holdFocus_control · payload (laneOfPort p)) hs h
  | holdRefresh p _ payload => exact request_freezeHolds_of_control (holdRefresh_control · payload (laneOfPort p)) hs h
  | holdClose p _ payload => exact request_freezeHolds_of_control (holdClose_control · payload (laneOfPort p)) hs h
  | holdRead p _ payload => exact request_freezeHolds_of_control (holdRead_control · payload (laneOfPort p)) hs h
  | clockSet _ _ payload => exact request_freezeHolds (fun _ hu => freezeHolds_clockSet hu payload) hs h
  | scheduleLoad _ _ payload => exact request_freezeHolds (fun _ hu => freezeHolds_scheduleLoad hu payload) hs h
  | daypartForce _ _ payload => exact request_freezeHolds (fun _ hu => freezeHolds_daypartForce hu payload) hs h
  | daypartAuto => exact request_freezeHolds (fun _ hu => hu.changeClock _) hs h
  | scheduleRead => exact request_freezeHolds_of_control (fun _ => rfl) hs h
  | freeze p _ payload => exact request_freezeHolds (fun _ hu => freezeHolds_freeze hu payload (roleOfPort p)) hs h
  | unfreeze p => exact request_freezeHolds (fun _ hu => freezeHolds_unfreeze hu (roleOfPort p)) hs h
  | profileBurn _ _ payload => exact request_freezeHolds_of_control (profileBurn_control · payload) hs h
  | profileRead => exact request_freezeHolds_of_control (fun _ => rfl) hs h
  | describe => exact request_freezeHolds_of_control (fun _ => rfl) hs h
  | restart => exact exec_restart_freezeHolds hs h
  | noticeRead => exact request_freezeHolds_of_control (fun _ => rfl) hs h
  | noticeClear p _ payload => exact request_freezeHolds_of_control (noticeClear_control · payload p) hs h
  | noticeMask p _ payload => exact request_freezeHolds_of_control (noticeMask_control · payload p) hs h
  | requestDiscarded => exact exec_requestDiscarded_freezeHolds hs h
  | answerRead p n => exact event_freezeHolds (hs.of_control (by split <;> simp)) h
  | answerSent l => exact event_freezeHolds (hs.of_control (by split <;> simp)) h
  | present p =>
    refine event_freezeHolds ?_ h
    split
    · exact hs.takeReport p _
    · exact hs.of_control (by simp)
  | locked p => exact event_freezeHolds (hs.takeReport p _) h
  | unlocked p => exact event_freezeHolds (hs.takeReport p _) h
  | shown p => exact event_freezeHolds (hs.takeReport p _) h
  | testReport p => exact event_freezeHolds (hs.takeReport p _) h
  | panelFault p => exact event_freezeHolds (hs.takeReport p _) h
  | badReport p => exact event_freezeHolds (List.foldlRecOn _ _ hs fun _ hu r _ => hu.takeEither p r) h
  | batchIdleExpiry => exact expiry_freezeHolds_of_control (fun u => by simp) hs h
  | priceLeaseExpiry => exact expiry_freezeHolds (fun u _ => freezeHolds_of_off (expireLease_freeze u).1) hs h
  | minuteTimerExpiry => exact expiry_freezeHolds (fun _ hu => hu.minutePasses) hs h
  | promotionEndCommit => exact event_freezeHolds hs.endPromotions h
  | lockSilenceExpiry p =>
    exact expiry_freezeHolds_of_freeze (State.loseLock_freeze · p) (fun _ hi => hi.loseLock p) hs h
  | detachTimerExpiry p =>
    refine expiry_freezeHolds (fun u hu => ?_) hs h
    split
    · exact hu
    · exact hu.of_freeze (State.detach_freeze u p) fun hi => hi.detach p
  | trainingLimitExpiry p => exact expiry_freezeHolds_of_control (fun u => by simp) hs h
  | frameBoundary p =>
    exact expiry_freezeHolds_of_freeze (State.boundary_freeze · p) (fun _ hi => hi.boundary p) hs h
  | testSecondExpiry => exact exec_testSecondExpiry_freezeHolds hs h
  | linkTestExpiry => exact exec_linkTestExpiry_freezeHolds hs h
  | loadIdleExpiry => exact expiry_freezeHolds_of_control (fun u => by simp) hs h
  | changeoverLimitExpiry =>
    refine expiry_freezeHolds (fun u hu => ?_) hs h
    split
    · exact hu
    · exact freezeHolds_of_idle (settlePartial_idle _)
  | holdLeaseExpiry => exact expiry_freezeHolds_of_control (fun u => by simp) hs h
  | freezeLimitExpiry => exact expiry_freezeHolds (fun _ hu => freezeHolds_endFreezeInForce hu .limit) hs h
  | secondTimerTick => exact expiry_freezeHolds (fun _ hu => FreezeHoldsController.tick (hu.of_control (by simp))) hs h
  | tickEdge =>
    refine event_freezeHolds ?_ h
    split
    · exact hs.tick
    · exact hs
  | scheduleEntryFire => exact event_freezeHolds hs.fire h
  | compositionStart => exact event_freezeHolds (hs.of_control (by simp)) h
  | compositionComplete => exact exec_compositionComplete_freezeHolds hs h
  | verifyStart => exact event_freezeHolds (hs.of_control (by simp)) h
  | verificationComplete => exact exec_verificationComplete_freezeHolds hs h
  | powerOn => exact event_freezeHolds (freezeHolds_takeReset .power _) h
  | resetLineAsserted => exact event_freezeHolds (freezeHolds_takeReset .pin _) h
  | startUp => exact exec_startUp_freezeHolds hs h

theorem takeMessage_freezeHolds {p : PortId} {message : List Byte} (hs : FreezeHoldsController s)
    (h : takeMessage p message s = .next t) : FreezeHoldsController t := by
  cases hm : Message.read message with
  | good ty tag payload =>
    rw [takeMessage_good hm] at h
    exact exec_freezeHolds_of_no_messages (toInstr_spellsMessages ty p tag payload) hs h
  | bad status typeByte tag =>
    rw [takeMessage_bad hm] at h
    refine event_freezeHolds (hs.of_control ?_) h
    unfold State.arrive
    (repeat' split) <;> simp

theorem takeMessages_freezeHolds {p : PortId} {n : Nat} {bytes : List Byte} (hs : FreezeHoldsController s)
    (h : takeMessages p n bytes s = .next t) : FreezeHoldsController t :=
  takeMessages_keeps (fun _ _ _ hu hm => takeMessage_freezeHolds hu hm) n bytes s t hs h

/-- Every command keeps the controller IDLE while the freeze is in force. -/
theorem exec_freezeHolds {c : Instr} (hs : FreezeHoldsController s) (h : exec c s = .next t) :
    FreezeHoldsController t := by
  cases c with
  | frameError p message =>
    change execFrameError p message s = .next t at h
    unfold execFrameError at h
    split at h
    · exact takeMessage_freezeHolds hs h
    · exact takeMessages_freezeHolds hs h
  | uartIdleGap => exact takeMessages_freezeHolds hs h
  | _ => exact exec_freezeHolds_of_no_messages rfl hs h

/-- Settles O60, command by command: the command at the queue's front, or the event that an empty queue takes. -/
theorem freezeKeepsControllerIdle : Obligations.FreezeKeepsControllerIdle := by
  intro s t hs h
  cases hq : s.pending with
  | cons c rest =>
    unfold step at h; rw [hq] at h
    exact exec_freezeHolds (s := { s with pending := rest }) hs h
  | nil =>
    rw [step_of_empty hq] at h
    cases hown : s.ownEvent with
    | some c => exact exec_freezeHolds hs ((idle_of_event hown).symm.trans h)
    | none =>
      rw [idle_of_none hown] at h
      exact event_freezeHolds (hs.of_control (by simp)) h

end Sys2Proof.Machine
end

section
/-! PROOFS. A request message reads back as it was sent, and what a refused request leaves (chapter 10): the statements O57
and O49. -/
namespace Sys2Proof.Machine

/-! ## A request message reads back as it was sent (R191, R200) -/

section Messages

variable (type : RequestType) (tag : Byte) (payload : List Byte)

/-- The part of a request message that its CRC-16 is computed over: header and payload (R200). -/
def messageBody : List Byte := type.code :: tag :: (be 2 payload.length ++ payload)

theorem encode_eq : Message.encode type tag payload =
    messageBody type tag payload ++ be 2 (crc16 (messageBody type tag payload)).toNat := rfl

theorem body_length : (messageBody type tag payload).length = 4 + payload.length := by
  simp [messageBody]; omega

theorem encode_length : (Message.encode type tag payload).length = 6 + payload.length := by
  rw [encode_eq, List.length_append, body_length, be_length]; omega

theorem encode_take : (Message.encode type tag payload).take ((Message.encode type tag payload).length - 2) =
    messageBody type tag payload := by
  rw [encode_length, encode_eq]
  exact List.take_left' (by rw [body_length]; omega)

theorem encode_drop : (Message.encode type tag payload).drop ((Message.encode type tag payload).length - 2) =
    be 2 (crc16 (messageBody type tag payload)).toNat := by
  rw [encode_length, encode_eq]
  exact List.drop_left' (by rw [body_length]; omega)

variable {payload}

theorem encode_lengthField (h : payload.length < 65536) :
    Message.lengthField (Message.encode type tag payload) = payload.length := by
  have hfield : ((Message.encode type tag payload).drop 2).take 2 = be 2 payload.length := by
    simp [Message.encode, List.append_assoc]
  rw [Message.lengthField, hfield, natOf_be (by omega)]

theorem encode_complete (h : payload.length ≤ 4104) : Message.complete (Message.encode type tag payload) = true := by
  have hfield := encode_lengthField type tag (payload := payload) (by omega)
  have hlength := encode_length type tag payload
  have hheader : 4 ≤ 6 + payload.length := by omega
  simp [Message.complete, hfield, hlength, Config.payloadLimit, h, hheader]

theorem read_encode (h : payload.length ≤ 4104) :
    Message.read (Message.encode type tag payload) = .good type tag payload := by
  have htype : (Message.encode type tag payload)[0]? = some type.code := rfl
  have htag : (Message.encode type tag payload)[1]? = some tag := rfl
  have hpayload : (messageBody type tag payload).drop 4 = payload :=
    drop_be_append 2 payload.length payload
  simp [Message.read, encode_complete type tag h, encode_take, encode_drop, htype, htag, RequestType.ofCode_code,
    hpayload]

end Messages

theorem command_of_good {p : PortId} {message : List Byte} {type : RequestType} {tag : Byte} {payload : List Byte}
    (h : Message.read message = .good type tag payload) : Message.command p message = type.toInstr p tag payload := by
  unfold Message.command; rw [h]

theorem command_of_bad {p : PortId} {message : List Byte} {status : Status} {typeByte tag : Byte}
    (h : Message.read message = .bad status typeByte tag) : Message.command p message = .frameError p message := by
  unfold Message.command; rw [h]

theorem command_of_poll {code : Byte} (h1 : code ≠ 0x01) (h2 : code ≠ 0x02) (p : PortId) (bytes : List Byte) :
    Transaction.command p (code :: bytes) = none := by
  simp [Transaction.command, Transaction.ofCode_eq_poll h1 h2]

/-- Settles O57: the header's length field and the CRC-16 are read from the places where the layout puts them. -/
theorem messageReadsBackAsSent : Obligations.MessageReadsBackAsSent :=
  ⟨fun type tag _ _ h => ⟨read_encode type tag h, command_of_good (read_encode type tag h)⟩,
    fun p bytes => ⟨rfl, rfl, fun _ h1 h2 => command_of_poll h1 h2 p bytes, rfl⟩⟩

/-! ## Refused requests (R195) -/

/-- What an owning block answers, with the state it leaves: OK, or a refusal that leaves the state as it was. -/
def OkOrStands (u : State) (x : Reply × State) : Prop := x.1.status = .ok ∨ x.2 = u

@[simp] theorem okOrStands_ok (u v : State) (payload : List Byte) : OkOrStands u (.ok payload, v) := .inl rfl

@[simp] theorem okOrStands_same (u : State) (r : Reply) : OkOrStands u (r, u) := .inr rfl

section Owners

variable (u : State) (payload : List Byte)

theorem batchOpen_okOrStands (role : WritingRole) : OkOrStands u (batchOpen role u) := by
  unfold batchOpen; split <;> simp

theorem batchDiscard_okOrStands (role : WritingRole) : OkOrStands u (batchDiscard role u) := by
  unfold batchDiscard; split <;> simp

theorem leaseRenew_okOrStands : OkOrStands u (leaseRenew u) := by
  unfold leaseRenew; split <;> simp

theorem itemRead_okOrStands : OkOrStands u (itemRead payload u) := by
  unfold itemRead; dsimp only; (repeat' split) <;> simp

theorem priceQuery_okOrStands : OkOrStands u (priceQuery payload u) := by
  unfold priceQuery; dsimp only; (repeat' split) <;> simp

theorem planLoad_okOrStands : OkOrStands u (planLoad payload u) := by
  unfold planLoad; (repeat' split) <;> simp

theorem planClear_okOrStands : OkOrStands u (planClear payload u) := by
  unfold planClear; (repeat' split) <;> simp

theorem planRead_okOrStands : OkOrStands u (planRead payload u) := by
  unfold planRead; (repeat' split) <;> simp

theorem loadBegin_okOrStands : OkOrStands u (loadBegin payload u) := by
  unfold loadBegin; dsimp only; (repeat' split) <;> simp

theorem loadAbort_okOrStands : OkOrStands u (loadAbort u) := by
  unfold loadAbort; split <;> simp

theorem slotErase_okOrStands : OkOrStands u (slotErase payload u) := by
  unfold slotErase; (repeat' split) <;> simp

theorem slotVerify_okOrStands : OkOrStands u (slotVerify payload u) := by
  unfold slotVerify; (repeat' split) <;> simp

theorem slotRead_okOrStands : OkOrStands u (slotRead payload u) := by
  unfold slotRead; (repeat' split) <;> simp

theorem onFittedPanel_okOrStands {effect : PanelNo → Reply × State} (he : ∀ q, OkOrStands u (effect q)) :
    OkOrStands u (onFittedPanel payload u effect) := by
  unfold onFittedPanel; split
  · simp
  · split
    · simp
    · exact he _

theorem panelDark_okOrStands : OkOrStands u (panelDark payload u) := onFittedPanel_okOrStands u payload fun _ => .inl rfl

theorem panelLight_okOrStands : OkOrStands u (panelLight payload u) :=
  onFittedPanel_okOrStands u payload fun _ => .inl rfl

theorem linkTest_okOrStands : OkOrStands u (linkTest payload u) := by
  unfold linkTest; dsimp only; (repeat' split) <;> simp

theorem linkTestStop_okOrStands : OkOrStands u (linkTestStop payload u) := by
  unfold linkTestStop; (repeat' split) <;> simp

theorem panelStatus_okOrStands : OkOrStands u (panelStatus payload u) := by
  unfold panelStatus; split <;> simp

theorem withHold_okOrStands (l : LaneNo) (h : HoldId) {effect : Hold → Reply × State}
    (he : ∀ x, OkOrStands u (effect x)) : OkOrStands u (withHold l h u effect) := by
  unfold withHold; split
  · exact he _
  · split <;> simp

theorem holdOpen_okOrStands (l : LaneNo) : OkOrStands u (holdOpen l payload u) := by
  unfold holdOpen; dsimp only; (repeat' split) <;> simp

theorem holdAdd_okOrStands (l : LaneNo) : OkOrStands u (holdAdd l payload u) := by
  unfold holdAdd; split
  · simp
  · refine withHold_okOrStands u l _ fun x => ?_
    dsimp only; (repeat' split) <;> simp

theorem holdRemove_okOrStands (l : LaneNo) : OkOrStands u (holdRemove l payload u) := by
  unfold holdRemove; split
  · simp
  · refine withHold_okOrStands u l _ fun x => ?_
    dsimp only; (repeat' split) <;> simp

theorem holdFocus_okOrStands (l : LaneNo) : OkOrStands u (holdFocus l payload u) := by
  unfold holdFocus; split
  · simp
  · simp
  · exact withHold_okOrStands u l _ fun x => by simp

theorem holdRefresh_okOrStands (l : LaneNo) : OkOrStands u (holdRefresh l payload u) := by
  unfold holdRefresh; split
  · simp
  · exact withHold_okOrStands u l _ fun x => by simp

theorem holdClose_okOrStands (l : LaneNo) : OkOrStands u (holdClose l payload u) := by
  unfold holdClose; split
  · simp
  · exact withHold_okOrStands u l _ fun x => by simp

theorem holdRead_okOrStands (l : LaneNo) : OkOrStands u (holdRead l payload u) := by
  unfold holdRead; split
  · simp
  · simp
  · exact withHold_okOrStands u l _ fun x => by simp

theorem clockSet_okOrStands : OkOrStands u (clockSet payload u) := by
  unfold clockSet storeStateReply; dsimp only; split <;> simp

theorem scheduleLoad_okOrStands : OkOrStands u (scheduleLoad payload u) := by
  unfold scheduleLoad storeStateReply; dsimp only; (repeat' split) <;> simp

theorem daypartForce_okOrStands : OkOrStands u (daypartForce payload u) := by
  unfold daypartForce storeStateReply; split <;> simp

theorem freeze_okOrStands (role : WritingRole) : OkOrStands u (freeze role payload u) := by
  unfold freeze; (repeat' split) <;> simp

theorem unfreeze_okOrStands (role : WritingRole) : OkOrStands u (unfreeze role u) := by
  unfold unfreeze; (repeat' split) <;> simp

theorem profileBurn_okOrStands : OkOrStands u (profileBurn payload u) := by
  unfold profileBurn; dsimp only; (repeat' split) <;> simp

theorem noticeClear_okOrStands (p : PortId) : OkOrStands u (noticeClear p payload u) := by
  unfold noticeClear; split <;> simp

theorem noticeMask_okOrStands (p : PortId) : OkOrStands u (noticeMask p payload u) := by
  unfold noticeMask; split <;> simp

end Owners

section Refusals

variable {s t : State} {p : PortId} {type : RequestType} {tag : Byte} {payload : List Byte}

/-- Every request type but the three with a rule of their own, and RESTART, is answered by an owner whose refusals leave the
state as it was. -/
theorem exec_toInstr_okOrStands (s : State) (p : PortId) (tag : Byte) (payload : List Byte) (h1 : type ≠ .batchAdd)
    (h2 : type ≠ .batchCommit) (h3 : type ≠ .loadBlock) (h4 : type ≠ .restart) :
    ∃ owner, (∀ u, OkOrStands u (owner u)) ∧
      exec (type.toInstr p tag payload) s = .next (s.request type p tag payload owner) := by
  cases type with
  | batchAdd => exact absurd rfl h1
  | batchCommit => exact absurd rfl h2
  | loadBlock => exact absurd rfl h3
  | restart => exact absurd rfl h4
  | batchOpen => exact ⟨_, fun u => batchOpen_okOrStands u _, rfl⟩
  | batchDiscard => exact ⟨_, fun u => batchDiscard_okOrStands u _, rfl⟩
  | leaseRenew => exact ⟨_, leaseRenew_okOrStands, rfl⟩
  | itemRead => exact ⟨_, fun u => itemRead_okOrStands u _, rfl⟩
  | priceQuery => exact ⟨_, fun u => priceQuery_okOrStands u _, rfl⟩
  | planLoad => exact ⟨_, fun u => planLoad_okOrStands u _, rfl⟩
  | planClear => exact ⟨_, fun u => planClear_okOrStands u _, rfl⟩
  | planRead => exact ⟨_, fun u => planRead_okOrStands u _, rfl⟩
  | loadBegin => exact ⟨_, fun u => loadBegin_okOrStands u _, rfl⟩
  | loadAbort => exact ⟨_, loadAbort_okOrStands, rfl⟩
  | slotErase => exact ⟨_, fun u => slotErase_okOrStands u _, rfl⟩
  | slotVerify => exact ⟨_, fun u => slotVerify_okOrStands u _, rfl⟩
  | verifyAll => exact ⟨_, fun _ => .inl rfl, rfl⟩
  | spaceRead => exact ⟨_, fun _ => .inl rfl, rfl⟩
  | slotRead => exact ⟨_, fun u => slotRead_okOrStands u _, rfl⟩
  | panelDark => exact ⟨_, fun u => panelDark_okOrStands u _, rfl⟩
  | panelLight => exact ⟨_, fun u => panelLight_okOrStands u _, rfl⟩
  | linkTest => exact ⟨_, fun u => linkTest_okOrStands u _, rfl⟩
  | linkTestStop => exact ⟨_, fun u => linkTestStop_okOrStands u _, rfl⟩
  | panelStatus => exact ⟨_, fun u => panelStatus_okOrStands u _, rfl⟩
  | changeoverStatus => exact ⟨_, fun _ => .inl rfl, rfl⟩
  | holdOpen => exact ⟨_, fun u => holdOpen_okOrStands u _ _, rfl⟩
  | holdAdd => exact ⟨_, fun u => holdAdd_okOrStands u _ _, rfl⟩
  | holdRemove => exact ⟨_, fun u => holdRemove_okOrStands u _ _, rfl⟩
  | holdFocus => exact ⟨_, fun u => holdFocus_okOrStands u _ _, rfl⟩
  | holdRefresh => exact ⟨_, fun u => holdRefresh_okOrStands u _ _, rfl⟩
  | holdClose => exact ⟨_, fun u => holdClose_okOrStands u _ _, rfl⟩
  | holdRead => exact ⟨_, fun u => holdRead_okOrStands u _ _, rfl⟩
  | clockSet => exact ⟨_, fun u => clockSet_okOrStands u _, rfl⟩
  | scheduleLoad => exact ⟨_, fun u => scheduleLoad_okOrStands u _, rfl⟩
  | daypartForce => exact ⟨_, fun u => daypartForce_okOrStands u _, rfl⟩
  | daypartAuto => exact ⟨_, fun _ => .inl rfl, rfl⟩
  | scheduleRead => exact ⟨_, fun _ => .inl rfl, rfl⟩
  | freeze => exact ⟨_, fun u => freeze_okOrStands u _ _, rfl⟩
  | unfreeze => exact ⟨_, fun u => unfreeze_okOrStands u _, rfl⟩
  | profileBurn => exact ⟨_, fun u => profileBurn_okOrStands u _, rfl⟩
  | profileRead => exact ⟨_, fun _ => .inl rfl, rfl⟩
  | describe => exact ⟨_, fun _ => .inl rfl, rfl⟩
  | noticeRead => exact ⟨_, fun _ => .inl rfl, rfl⟩
  | noticeClear => exact ⟨_, fun u => noticeClear_okOrStands u _ _, rfl⟩
  | noticeMask => exact ⟨_, fun u => noticeMask_okOrStands u _ _, rfl⟩

/-- The port's check of the role (R191). -/
theorem accept_of_notPermitted (h : s.Takes p) (hr : type.permission.holds p = false) (owner : State → State) :
    s.accept type p tag payload owner =
      (s.clockIn p (6 + payload.length)).holdAnswer p (refusalOf type tag .notPermitted []) := by
  obtain ⟨_, hf, hs, hn⟩ := h
  unfold State.accept
  rw [arrive_of_ready hf hs hn, if_pos hr]
  rfl

/-- The port's check of the payload length (R191). -/
theorem accept_of_badLength (h : s.Takes p) (hr : type.permission.holds p = true)
    (hl : payload.length < type.lengths.1 ∨ type.lengths.2 < payload.length) (owner : State → State) :
    s.accept type p tag payload owner =
      (s.clockIn p (6 + payload.length)).holdAnswer p (refusalOf type tag .badField []) := by
  obtain ⟨_, hf, hs, hn⟩ := h
  unfold State.accept
  rw [arrive_of_ready hf hs hn, if_neg (by simp [hr]), if_pos hl]
  rfl

/-- A taken message either is refused by its port or goes to its owner. -/
theorem accept_cases (h : s.Takes p) (type : RequestType) (tag : Byte) (payload : List Byte) (owner : State → State) :
    (∃ a, s.accept type p tag payload owner = (s.clockIn p (6 + payload.length)).holdAnswer p a) ∨
      s.accept type p tag payload owner = owner (s.clockIn p (6 + payload.length)) := by
  by_cases hr : type.permission.holds p = true
  · by_cases hl : payload.length < type.lengths.1 ∨ type.lengths.2 < payload.length
    · exact .inl ⟨_, accept_of_badLength h hr hl owner⟩
    · exact .inr (accept_of_takes h hr (by omega) (by omega) owner)
  · exact .inl ⟨_, accept_of_notPermitted h (by simpa using hr) owner⟩

/-- An answer that a port holds after its message has been clocked in, with nothing else done. -/
theorem clockIn_holdAnswer_stands (s : State) (p : PortId) (n : Nat) (a : Answer) :
    AnsweredOn s ((s.clockIn p n).holdAnswer p a) p a ∧
      (s.clockIn p n).holdAnswer p a = { s with ports := ((s.clockIn p n).holdAnswer p a).ports } := by
  refine ⟨answeredOn_of_ports rfl a, ?_⟩
  conv => lhs; rw [clockIn_eq]
  rfl

theorem answer_eq_of_held {u : State} {a b : Answer} (h : ((u.holdAnswer p b).port p).state = .answer a) : b = a := by
  simpa using h

/-- A request that its port or its owner refuses, the owner's refusals leaving the state as it was. -/
theorem request_refused {a : Answer} {owner : State → Reply × State} (hs : s.Takes p)
    (ho : ∀ u, OkOrStands u (owner u)) (ht : t = s.request type p tag payload owner)
    (ha : (t.port p).state = .answer a) (hst : a.status ≠ .ok) : AnsweredOn s t p a ∧ t = { s with ports := t.ports } := by
  unfold State.request at ht
  obtain ⟨b, hb⟩ | hb := accept_cases hs type tag payload _ <;> rw [hb] at ht <;> subst ht
  · obtain rfl := answer_eq_of_held ha
    exact clockIn_holdAnswer_stands ..
  · obtain rfl := answer_eq_of_held ha
    obtain hok | hstands := ho (s.clockIn p (6 + payload.length))
    · exact absurd hok hst
    · dsimp only; rw [hstands]; exact clockIn_holdAnswer_stands ..

theorem takeReset_port (s : State) (kind : ResetKind) (phase : Phase) :
    ∀ p, (s.takeReset kind phase).port p = Port.inReset p
  | .store => rfl
  | .media => rfl
  | .lane 0 => rfl
  | .lane 1 => rfl

/-- A reset leaves no answer, so a RESTART that is answered has been refused (R199, R209). -/
theorem restart_refused {a : Answer} (hs : s.Takes p) (h : exec (.restart p tag payload) s = .next t)
    (ha : (t.port p).state = .answer a) : AnsweredOn s t p a ∧ t = { s with ports := t.ports } := by
  simp only [exec, execRestart, Host.Outcome.next.injEq] at h
  obtain ⟨b, hb⟩ | hb := accept_cases hs .restart tag payload _ <;> rw [hb] at h <;> subst h
  · obtain rfl := answer_eq_of_held ha
    exact clockIn_holdAnswer_stands ..
  · split at ha
    next =>
      obtain rfl := answer_eq_of_held ha
      exact clockIn_holdAnswer_stands ..
    next kind _ =>
      rw [takeReset_port] at ha; cases ha

end Refusals

/-- Settles O49: every owner answers OK or leaves the state as it was, and a reset answers nothing. -/
theorem refusedRequestsChangeNothing : Obligations.RefusedRequestsChangeNothing := by
  intro s p type tag payload t a hs h1 h2 h3 h ha hst
  by_cases h4 : type = .restart
  · subst h4; exact restart_refused hs h ha
  · obtain ⟨owner, ho, he⟩ := exec_toInstr_okOrStands s p tag payload h1 h2 h3 h4
    obtain rfl := Host.Outcome.next.inj (he.symm.trans h)
    exact request_refused hs ho rfl ha hst

end Sys2Proof.Machine
end

section
/-! PROOFS. What becomes of a message at its port, reading and sending the answer, and the notice requests (chapter 10): the
statements O47, O48, O50 and O51. -/
namespace Sys2Proof.Machine

variable {s : State} {p : PortId}

/-! ## Lost messages (R190, R192, R193) -/

/-- Every port's set names REQUEST_LOST (R196). -/
theorem requestLost_in_flagSetOf :
    ∀ p, NoticeFlag.requestLost.mask &&& flagSetOf p = NoticeFlag.requestLost.mask
  | .store => by decide
  | .media => by decide
  | .lane _ => (by decide : NoticeFlag.requestLost.mask &&& laneFlagSet = NoticeFlag.requestLost.mask)

theorem setFlag_requestLost (p : PortId) (v : Port) :
    v.setFlag p .requestLost = { v with flags := v.flags ||| NoticeFlag.requestLost.mask } := by
  rw [Port.setFlag, requestLost_in_flagSetOf]

/-- An SPI port puts out the port-state byte and zeros while a request is clocked in (R192). -/
theorem clockIn_port_spi (h : isSpi p = true) (n : Nat) : (s.clockIn p n).port p =
    { s.port p with dataOut := (s.port p).beginByte :: List.replicate n 0 } := by
  rw [State.clockIn, if_pos h, State.putOut_port_self]; rfl

/-- What a lost message leaves of a port: the port as it put bytes out, with REQUEST_LOST set. -/
theorem lost_port (hf : s.portFitted p = true) (n : Nat) : ((s.clockIn p n).loseRequest p).port p =
    { (s.clockIn p n).port p with
      flags := (s.port p).flags ||| NoticeFlag.requestLost.mask, receiving := none } := by
  rw [loseRequest_port (by simpa using hf), setFlag_requestLost, clockIn_port_flags]

theorem lost_port_of_ne {q : PortId} (h : q ≠ p) (n : Nat) : ((s.clockIn p n).loseRequest p).port q = s.port q := by
  rw [loseRequest_port_of_ne h, clockIn_port_of_ne h]

theorem lost_frame (s : State) (p : PortId) (n : Nat) :
    (s.clockIn p n).loseRequest p = { s with ports := ((s.clockIn p n).loseRequest p).ports } := by
  apply State.eq_of_fields <;> simp

theorem clockIn_of_unfitted (h : s.portFitted p = false) (n : Nat) : s.clockIn p n = s := by
  cases p with
  | lane l => rfl
  | store => cases h
  | media => cases h

theorem lost_of_unfitted (h : s.portFitted p = false) (n : Nat) : (s.clockIn p n).loseRequest p = s := by
  rw [clockIn_of_unfitted h, State.loseRequest, if_pos h]

/-- A good request message that does not begin and end in READY is lost. -/
theorem exec_toInstr_of_busy {type : RequestType} (hl : type = .loadBlock → SessionSound s)
    (hb : (s.port p).state ≠ .ready ∨ (s.port p).receiving ≠ none) (tag : Byte) (payload : List Byte) :
    exec (type.toInstr p tag payload) s = .next ((s.clockIn p (6 + payload.length)).loseRequest p) := by
  obtain ⟨owner, he⟩ := exec_toInstr_arrives s p type tag payload hl
  rw [he, State.accept]
  by_cases hf : s.portFitted p = true
  · rw [arrive_of_busy hf hb]
  · rw [arrive_of_unfitted (by simpa using hf), lost_of_unfitted (by simpa using hf)]

theorem exec_requestDiscarded_ended (s : State) (p : PortId) (size : Nat) :
    exec (.requestDiscarded ⟨p, size, true⟩) s = .next ((s.clockIn p size).loseRequest p) := rfl

theorem exec_requestDiscarded_begun (s : State) (p : PortId) (size : Nat) :
    exec (.requestDiscarded ⟨p, size, false⟩) s = .next (s.beginLost p) := rfl

theorem beginLost_of_fitted (hf : s.portFitted p = true) : s.beginLost p =
    s.setPort p { s.port p with receiving := some ((s.port p).receiving.getD (s.port p).stateByte) } := by
  rw [State.beginLost, if_neg (by simp [hf])]; rfl

theorem beginLost_of_unfitted (hf : s.portFitted p = false) : s.beginLost p = s := if_pos hf

/-- Settles O47: the two commands that lose a message come to the same state. -/
theorem busyPortLosesRequest : Obligations.BusyPortLosesRequest := by
  refine ⟨fun s p c size hc => ?_, fun s p size => ⟨fun hf => ?_, fun hf => ?_⟩⟩
  · have he : exec c s = .next ((s.clockIn p size).loseRequest p) := by
      obtain rfl | ⟨type, tag, payload, rfl, hl, hb, rfl⟩ := hc
      · rfl
      · exact exec_toInstr_of_busy hl hb tag payload
    refine ⟨fun hf => ⟨_, he, ?_⟩, fun hf => by rw [he, lost_of_unfitted hf]⟩
    rw [lost_port hf]
    refine ⟨rfl, clockIn_port_state .., clockIn_port_mask .., rfl, fun hspi => ?_, fun l hlane => ?_,
      fun q hq => lost_port_of_ne hq size, lost_frame s p size⟩
    · rw [clockIn_port_spi (by obtain rfl | rfl := hspi <;> rfl)]; rfl
    · subst hlane; rfl
  · refine ⟨_, exec_requestDiscarded_begun s p size, ?_⟩
    rw [beginLost_of_fitted hf]
    exact ⟨by simp, fun q hq => State.setPort_port_of_ne s hq _, rfl⟩
  · rw [exec_requestDiscarded_begun, beginLost_of_unfitted hf]

/-! ## Messages that fail the port's checks (R191, R193) -/

section BadMessages

variable {message : List Byte}

theorem read_frameError (h : Message.complete message = false ∨
    be 2 (crc16 (message.take (message.length - 2))).toNat ≠ message.drop (message.length - 2)) :
    Message.read message = .bad .frameError (message.getD 0 0) (message.getD 1 0) := by
  unfold Message.read
  dsimp only
  by_cases hc : Message.complete message = false
  · rw [if_pos hc]
  · rw [if_neg hc, if_pos (h.resolve_left hc)]

theorem read_unknownRequest (hc : Message.complete message = true)
    (hcrc : be 2 (crc16 (message.take (message.length - 2))).toNat = message.drop (message.length - 2))
    (ht : RequestType.ofCode (message.getD 0 0) = none) :
    Message.read message = .bad .unknownRequest (message.getD 0 0) (message.getD 1 0) := by
  unfold Message.read
  dsimp only
  rw [if_neg (by simp [hc]), if_neg (not_not_intro hcrc), ht]

theorem complete_length (h : Message.complete message = true) : message.length = 6 + Message.lengthField message := by
  simp only [Message.complete, Bool.and_eq_true, decide_eq_true_eq] at h
  exact h.2

theorem complete_of_short (h : message.length < 6 + Message.lengthField message) : Message.complete message = false := by
  cases hc : Message.complete message with
  | false => rfl
  | true => have hlen := complete_length hc; omega

/-- On a lane port, bytes that are no more than one message. -/
def OneMessage (p : PortId) (bytes : List Byte) : Prop :=
  ∀ l, p = .lane l → bytes ≠ [] ∧ bytes.length ≤ 6 + Message.lengthField bytes

theorem takeMessages_length {bytes : List Byte} (hb : bytes ≠ []) (h : bytes.length ≤ 6 + Message.lengthField bytes) :
    takeMessages p bytes.length bytes s = takeMessage p bytes s := by
  have hpos : 0 < bytes.length := List.length_pos_iff.mpr hb
  obtain ⟨n, hn⟩ : ∃ n, bytes.length = n + 1 := ⟨bytes.length - 1, by omega⟩
  rw [hn]
  exact takeMessages_one hb h

theorem exec_frameError_one (s : State) (h : OneMessage p message) :
    exec (.frameError p message) s = takeMessage p message s := by
  cases p with
  | store => rfl
  | media => rfl
  | lane l =>
    obtain ⟨hne, hle⟩ := h l rfl
    exact takeMessages_length hne hle

theorem exec_uartIdleGap_one (s : State) {l : LaneNo} (hne : message ≠ [])
    (hle : message.length ≤ 6 + Message.lengthField message) :
    exec (.uartIdleGap l message) s = takeMessage (.lane l) message s := takeMessages_length hne hle

theorem exec_command_one (s : State) (h : OneMessage p message) :
    exec (Message.command p message) s = takeMessage p message s := by
  cases hm : Message.read message with
  | good type tag payload => rw [command_of_good hm, takeMessage_good hm]
  | bad status typeByte tag => rw [command_of_bad hm, exec_frameError_one s h]

/-- A bad message is answered by the port that takes it. -/
theorem answersOnly_of_bad {status : Status} {typeByte tag : Byte} {c : Instr} (h : s.Takes p)
    (hc : exec c s = takeMessage p message s) (hm : Message.read message = .bad status typeByte tag) :
    AnswersOnly s c p ⟨typeByte, tag, status, []⟩ := by
  obtain ⟨_, hf, hs, hn⟩ := h
  rw [takeMessage_bad hm, arrive_of_ready hf hs hn] at hc
  exact ⟨_, hc, clockIn_holdAnswer_stands ..⟩

/-- A request that the port's last two checks refuse. -/
theorem answersOnly_of_portCheck {type : RequestType} {tag : Byte} {payload : List Byte} {a : Answer}
    (hl : type = .loadBlock → SessionSound s)
    (ha : ∀ owner, s.accept type p tag payload owner = (s.clockIn p (6 + payload.length)).holdAnswer p a) :
    AnswersOnly s (type.toInstr p tag payload) p a := by
  obtain ⟨owner, he⟩ := exec_toInstr_arrives s p type tag payload hl
  rw [ha] at he
  exact ⟨_, he, clockIn_holdAnswer_stands ..⟩

theorem lengthField_append {first : List Byte} (h : 4 ≤ first.length) (rest : List Byte) :
    Message.lengthField (first ++ rest) = Message.lengthField first := by
  unfold Message.lengthField
  rw [List.drop_append_of_le_length (by omega), List.take_append_of_le_length (by simp; omega)]

/-- Bytes on a UART whose first message is complete: that message, and then the bytes behind it. -/
theorem takeMessages_append {first : List Byte} (h4 : 4 ≤ first.length)
    (hlen : first.length = 6 + Message.lengthField first) (rest : List Byte) (n : Nat) {u : State}
    (hu : takeMessage p first s = .next u) : takeMessages p (n + 1) (first ++ rest) s = takeMessages p n rest u := by
  have hne : first ++ rest ≠ [] := by
    rintro h
    simp [(List.append_eq_nil_iff.mp h).1] at h4
  have hfirst : Message.first (first ++ rest) = first := by
    rw [Message.first, lengthField_append h4]; exact List.take_left' hlen
  have hrest : Message.rest (first ++ rest) = rest := by
    rw [Message.rest, lengthField_append h4]; exact List.drop_left' hlen
  rw [takeMessages, if_neg hne, hfirst, hrest, hu]

/-- Bytes that follow a whole message and are short of one themselves, at a port that is not READY by then: they are lost. -/
theorem takeMessages_trailing_lost {first rest : List Byte} {u : State} (h4 : 4 ≤ first.length)
    (hlen : first.length = 6 + Message.lengthField first) (hne : rest ≠ [])
    (hshort : rest.length < 6 + Message.lengthField rest) (hu : takeMessage p first s = .next u)
    (hb : (u.port p).state ≠ .ready) (hf : u.portFitted p = true) :
    takeMessages p (first ++ rest).length (first ++ rest) s = .next ((u.clockIn p rest.length).loseRequest p) := by
  have hpos := List.length_pos_iff.mpr hne
  obtain ⟨n, hn⟩ : ∃ n, (first ++ rest).length = n + 1 + 1 :=
    ⟨first.length + rest.length - 2, by rw [List.length_append]; omega⟩
  have hbad := read_frameError (.inl (complete_of_short hshort))
  rw [hn, takeMessages_append h4 hlen rest _ hu, takeMessages_one hne (by omega), takeMessage_bad hbad,
    arrive_of_busy hf (.inl hb)]

end BadMessages

/-- Settles O48: by which check of R191 the message fails, and by the length at which a lane port takes it as complete. -/
theorem badMessagesAreAnswered : Obligations.BadMessagesAreAnswered := by
  intro s p hs
  refine ⟨fun message hbad hone => ?_, fun message hc hcrc ht => ?_, fun l received hp hne hshort => ?_,
    fun l first rest c u hp h4 hlen hne hshort hc hu hb hf => ?_, fun type tag payload hl hr => ?_,
    fun type tag payload hl hr hlen => ?_⟩
  · exact answersOnly_of_bad hs (exec_frameError_one s hone) (read_frameError hbad)
  · have hlen := complete_length hc
    have hone : OneMessage p message := fun _ _ => ⟨by rintro rfl; simp at hlen; omega, Nat.le_of_eq hlen⟩
    exact answersOnly_of_bad hs (exec_frameError_one s hone) (read_unknownRequest hc hcrc ht)
  · subst hp
    exact answersOnly_of_bad hs (exec_uartIdleGap_one s hne (Nat.le_of_lt hshort))
      (read_frameError (.inl (complete_of_short hshort)))
  · subst hp
    have hone : OneMessage (.lane l) first := fun _ _ => ⟨by rintro rfl; simp at h4, Nat.le_of_eq hlen⟩
    have he : exec c s = takeMessages (.lane l) (first ++ rest).length (first ++ rest) s := by
      obtain rfl | rfl := hc <;> rfl
    rw [exec_command_one s hone] at hu
    rw [takeMessages_trailing_lost h4 hlen hne hshort hu hb hf] at he
    refine ⟨_, he, ?_⟩
    rw [lost_port hf]
    exact ⟨rfl, rfl, fun q hq => lost_port_of_ne hq _, lost_frame u _ _⟩
  · exact answersOnly_of_portCheck hl (accept_of_notPermitted hs hr)
  · exact answersOnly_of_portCheck hl (accept_of_badLength hs hr hlen)

/-! ## Reading and sending the answer (R192, R193) -/

section Answers

variable {a : Answer}

theorem exec_answerRead_of_answer (hspi : isSpi p = true) (h : (s.port p).state = .answer a) (clocked : Nat) :
    exec (.answerRead p clocked) s = .next (s.setPort p { s.port p with
      state := if a.bytes.length ≤ clocked then .ready else .answer a
      dataOut := (s.port p).stateByte :: (a.bytes.take clocked ++ List.replicate (clocked - a.bytes.length) 0) }) := by
  simp only [exec, execAnswerRead, hspi, if_true, State.readAnswer, PortState.afterRead, Port.clocksOut, Port.held, h]

theorem exec_answerSent_of_answer {l : LaneNo} (h : (s.port (.lane l)).state = .answer a) :
    exec (.answerSent l) s =
      .next (s.setPort (.lane l) { s.port (.lane l) with state := .ready, dataOut := a.bytes }) := by
  simp only [exec, execAnswerSent, h]

end Answers

/-- A change of one port's record, and of nothing else. -/
theorem setPort_changes (s : State) (p : PortId) (v : Port) : (s.setPort p v).port p = v ∧
    (∀ q, q ≠ p → (s.setPort p v).port q = s.port q) ∧ s.setPort p v = { s with ports := (s.setPort p v).ports } :=
  ⟨State.setPort_port_self s p v, fun _ hq => State.setPort_port_of_ne s hq v, rfl⟩

/-- Settles O50, on an SPI port and on a lane port. -/
theorem answerReadEmptiesPort : Obligations.AnswerReadEmptiesPort := by
  intro s p a ha
  refine ⟨fun clocked hspi => ?_, fun l hp => ?_⟩
  · have hspi' : isSpi p = true := by obtain rfl | rfl := hspi <;> rfl
    exact ⟨_, exec_answerRead_of_answer hspi' ha clocked, setPort_changes ..⟩
  · subst hp
    exact ⟨_, exec_answerSent_of_answer ha, setPort_changes ..⟩

/-! ## Notice requests (R198) -/

section Notices

variable {set : BitVec 24}

/-- A flag set reads back from its three bytes (R200). -/
@[simp] theorem flagsOf_be (set : BitVec 24) : flagsOf (be 3 set.toNat) = set := by
  rw [flagsOf, natOf_be set.isLt, BitVec.ofNat_toNat, BitVec.setWidth_eq]

theorem outsideSet_flagsOf_be (h : set &&& ~~~ (flagSetOf p) ≠ 0) : outsideSet p (flagsOf (be 3 set.toNat)) = true := by
  rw [flagsOf_be]; exact decide_eq_true h

theorem noticeClear_outside (h : set &&& ~~~ (flagSetOf p) ≠ 0) :
    noticeClear p (be 3 set.toNat) s = (.refuse .badField, s) := if_pos (outsideSet_flagsOf_be h)

theorem noticeMask_outside (h : set &&& ~~~ (flagSetOf p) ≠ 0) :
    noticeMask p (be 3 set.toNat) s = (.refuse .badField, s) :=
  if_pos (outsideSet_flagsOf_be h)

theorem noticeClear_inside (h : set &&& ~~~ (flagSetOf p) = 0) : noticeClear p (be 3 set.toNat) s =
    (.ok (be 3 ((s.port p).flags &&& ~~~ set).toNat),
      s.setPort p { s.port p with flags := (s.port p).flags &&& ~~~ set }) := by
  simp [noticeClear, outsideSet, h]

theorem noticeMask_inside (h : set &&& ~~~ (flagSetOf p) = 0) : noticeMask p (be 3 set.toNat) s =
    (.ok (be 3 set.toNat), s.setPort p { s.port p with mask := set }) := by
  simp [noticeMask, outsideSet, h]

/-- A request whose owner changes its own port's record alone. -/
theorem answered_with_port (h : s.Takes p) {type : RequestType} {tag : Byte} {payload : List Byte}
    (hr : type.permission.holds p = true) (hlo : type.lengths.1 ≤ payload.length)
    (hhi : payload.length ≤ type.lengths.2) {owner : State → Reply × State} {r : Reply} {v : Port} {c : Instr}
    (hc : exec c s = .next (s.request type p tag payload owner))
    (ho : owner (s.clockIn p (6 + payload.length)) = (r, (s.clockIn p (6 + payload.length)).setPort p v)) :
    ∃ t, exec c s = .next t ∧ t.port p = { v with state := .answer ⟨type.code, tag, r.status, r.payload⟩ } ∧
      (∀ q, q ≠ p → t.port q = s.port q) ∧ t = { s with ports := t.ports } := by
  refine ⟨_, hc.trans (request_answers h hr hlo hhi ho), by simp, fun q hq => ?_, ?_⟩
  · rw [State.holdAnswer_port_of_ne _ hq, State.setPort_port_of_ne _ hq, clockIn_port_of_ne hq]
  · conv => lhs; rw [clockIn_eq]
    rfl

end Notices

/-- Settles O51, by the request and by whether the set names a flag outside the port's own. -/
theorem noticeRequestsReadClearAndMask : Obligations.NoticeRequestsReadClearAndMask := by
  intro s p tag set hs
  have hlo : 3 ≤ (be 3 set.toNat).length := Nat.le_of_eq (be_length 3 _).symm
  have hhi : (be 3 set.toNat).length ≤ 3 := Nat.le_of_eq (be_length 3 _)
  refine ⟨?_, fun hout => ⟨?_, ?_⟩, fun hin => ⟨?_, ?_⟩⟩
  · exact answersOnly_of_takes (t := .noticeRead) (payload := []) hs (every_holds p) (Nat.le_refl _) (Nat.le_refl _) rfl
      rfl (by simp [okTo, Reply.ok])
  · exact answersOnly_of_takes (t := .noticeClear) hs (every_holds p) hlo hhi rfl (noticeClear_outside hout) rfl
  · exact answersOnly_of_takes (t := .noticeMask) hs (every_holds p) hlo hhi rfl (noticeMask_outside hout) rfl
  · obtain ⟨t, he, hport, hother, hframe⟩ := answered_with_port (type := .noticeClear)
      (c := .noticeClear p tag (be 3 set.toNat)) hs (every_holds p) hlo hhi rfl
      (noticeClear_inside hin)
    refine ⟨t, he, ?_⟩
    unfold Holds
    rw [hport]
    exact ⟨rfl, by simp, by simp, hother, hframe⟩
  · obtain ⟨t, he, hport, hother, hframe⟩ := answered_with_port (type := .noticeMask)
      (c := .noticeMask p tag (be 3 set.toNat)) hs (every_holds p) hlo hhi rfl
      (noticeMask_inside hin)
    refine ⟨t, he, ?_⟩
    unfold Holds
    rw [hport]
    exact ⟨rfl, rfl, by simp, hother, hframe⟩

end Sys2Proof.Machine
end
section
/-! PROOFS. Profile Memory's burned fields: PROFILE_BURN adds to them, and nothing else changes them, the resets and
start-up among it (R206, R207, R209): the statements O58 and O53. -/
namespace Sys2Proof.Machine

variable {s t : State} {n : Nat} {value : List Byte}

/-! ## A burned field -/

/-- A profile field is burned with a value. -/
def State.BurnedAs (s : State) (n : Nat) (value : List Byte) : Prop := Table.find n s.burned = some value

theorem State.BurnedAs.of_burned (h : s.BurnedAs n value) (e : t.burned = s.burned) : t.BurnedAs n value := by
  unfold State.BurnedAs; rw [e]; exact h

/-! ## The requests that leave the burned fields alone -/

section Owners

variable (u : State) (payload : List Byte)

@[simp] theorem batchOpen_burned (role : WritingRole) : (batchOpen role u).2.burned = u.burned := by
  unfold batchOpen; split <;> simp

@[simp] theorem batchAdd_burned (role : WritingRole) : (batchAdd role payload u).2.burned = u.burned := by
  unfold batchAdd; (repeat' split) <;> simp

@[simp] theorem batchCommit_burned (role : WritingRole) : (batchCommit role u).2.burned = u.burned := by
  unfold batchCommit; (repeat' split) <;> simp

@[simp] theorem batchDiscard_burned (role : WritingRole) : (batchDiscard role u).2.burned = u.burned := by
  unfold batchDiscard; split <;> simp

@[simp] theorem leaseRenew_burned : (leaseRenew u).2.burned = u.burned := by
  unfold leaseRenew; split <;> simp

@[simp] theorem itemRead_burned : (itemRead payload u).2.burned = u.burned := by
  unfold itemRead; dsimp only; (repeat' split) <;> rfl

@[simp] theorem priceQuery_burned : (priceQuery payload u).2.burned = u.burned := by
  unfold priceQuery; dsimp only; (repeat' split) <;> rfl

@[simp] theorem planLoad_burned : (planLoad payload u).2.burned = u.burned := by
  unfold planLoad; (repeat' split) <;> simp

@[simp] theorem planClear_burned : (planClear payload u).2.burned = u.burned := by
  unfold planClear; (repeat' split) <;> simp

@[simp] theorem planRead_burned : (planRead payload u).2.burned = u.burned := by
  unfold planRead; (repeat' split) <;> rfl

@[simp] theorem loadBegin_burned : (loadBegin payload u).2.burned = u.burned := by
  unfold loadBegin; dsimp only; (repeat' split) <;> simp

@[simp] theorem storeBlock_burned (ls : LoadSession) (r : Slot) (data : List Byte) :
    (u.storeBlock ls r data).2.burned = u.burned := by
  unfold State.storeBlock; dsimp only; (repeat' split) <;> simp

@[simp] theorem takeBlock_burned (ls : LoadSession) (r : Slot) : (u.takeBlock ls r payload).2.burned = u.burned := by
  unfold State.takeBlock; dsimp only; (repeat' split) <;> simp

@[simp] theorem loadBlock_burned (found : Option (LoadSession × Slot)) :
    (loadBlock payload found u).2.burned = u.burned := by
  unfold loadBlock; split <;> simp

@[simp] theorem loadAbort_burned : (loadAbort u).2.burned = u.burned := by
  unfold loadAbort; split <;> simp

@[simp] theorem slotErase_burned : (slotErase payload u).2.burned = u.burned := by
  unfold slotErase; (repeat' split) <;> simp

@[simp] theorem slotVerify_burned : (slotVerify payload u).2.burned = u.burned := by
  unfold slotVerify; (repeat' split) <;> simp

@[simp] theorem verifyAll_burned : (verifyAll u).2.burned = u.burned := by
  unfold verifyAll; dsimp only; split <;> simp

@[simp] theorem slotRead_burned : (slotRead payload u).2.burned = u.burned := by
  unfold slotRead; (repeat' split) <;> rfl

theorem onFittedPanel_burned {effect : PanelNo → Reply × State} (h : ∀ p, (effect p).2.burned = u.burned) :
    (onFittedPanel payload u effect).2.burned = u.burned := by
  unfold onFittedPanel; (repeat' split)
  · rfl
  · rfl
  · exact h _

@[simp] theorem panelDark_burned : (panelDark payload u).2.burned = u.burned :=
  onFittedPanel_burned u payload fun p => State.addCause_burned u .request p

@[simp] theorem panelLight_burned : (panelLight payload u).2.burned = u.burned :=
  onFittedPanel_burned u payload fun p => State.removeCause_burned u .request p

@[simp] theorem linkTest_burned : (linkTest payload u).2.burned = u.burned := by
  unfold linkTest; dsimp only; (repeat' split) <;> simp

@[simp] theorem linkTestStop_burned : (linkTestStop payload u).2.burned = u.burned := by
  unfold linkTestStop; (repeat' split) <;> simp

@[simp] theorem panelStatus_burned : (panelStatus payload u).2.burned = u.burned := by
  unfold panelStatus; split <;> rfl

theorem withHold_burned (l : LaneNo) (x : HoldId) {effect : Hold → Reply × State}
    (h : ∀ v, (effect v).2.burned = u.burned) : (withHold l x u effect).2.burned = u.burned := by
  unfold withHold; (repeat' split)
  · exact h _
  · rfl
  · rfl

@[simp] theorem holdOpen_burned (l : LaneNo) : (holdOpen l payload u).2.burned = u.burned := by
  unfold holdOpen; dsimp only; (repeat' split) <;> simp

@[simp] theorem holdAdd_burned (l : LaneNo) : (holdAdd l payload u).2.burned = u.burned := by
  unfold holdAdd; split
  · rfl
  · refine withHold_burned u l _ fun v => ?_
    dsimp only; (repeat' split) <;> simp

@[simp] theorem holdRemove_burned (l : LaneNo) : (holdRemove l payload u).2.burned = u.burned := by
  unfold holdRemove; split
  · rfl
  · refine withHold_burned u l _ fun v => ?_
    dsimp only; (repeat' split) <;> simp

@[simp] theorem holdFocus_burned (l : LaneNo) : (holdFocus l payload u).2.burned = u.burned := by
  unfold holdFocus; split
  · rfl
  · simp
  · exact withHold_burned u l _ fun v => by simp

@[simp] theorem holdRefresh_burned (l : LaneNo) : (holdRefresh l payload u).2.burned = u.burned := by
  unfold holdRefresh; split
  · rfl
  · exact withHold_burned u l _ fun v => by simp

@[simp] theorem holdClose_burned (l : LaneNo) : (holdClose l payload u).2.burned = u.burned := by
  unfold holdClose; split
  · rfl
  · exact withHold_burned u l _ fun v => by simp

@[simp] theorem holdRead_burned (l : LaneNo) : (holdRead l payload u).2.burned = u.burned := by
  unfold holdRead; split
  · rfl
  · rfl
  · exact withHold_burned u l _ fun v => by simp

@[simp] theorem clockSet_burned : (clockSet payload u).2.burned = u.burned := by
  unfold clockSet storeStateReply; dsimp only; (repeat' split) <;> simp

@[simp] theorem scheduleLoad_burned : (scheduleLoad payload u).2.burned = u.burned := by
  unfold scheduleLoad storeStateReply; dsimp only; (repeat' split) <;> simp

@[simp] theorem daypartForce_burned : (daypartForce payload u).2.burned = u.burned := by
  unfold daypartForce storeStateReply; split <;> simp

@[simp] theorem daypartAuto_burned : (daypartAuto u).2.burned = u.burned := State.changeClock_burned u _

@[simp] theorem freeze_burned (role : WritingRole) : (freeze role payload u).2.burned = u.burned := by
  unfold freeze; dsimp only; (repeat' split) <;> simp

@[simp] theorem unfreeze_burned (role : WritingRole) : (unfreeze role u).2.burned = u.burned := by
  unfold unfreeze; (repeat' split) <;> simp

@[simp] theorem noticeClear_burned (p : PortId) : (noticeClear p payload u).2.burned = u.burned := by
  unfold noticeClear; split <;> rfl

@[simp] theorem noticeMask_burned (p : PortId) : (noticeMask p payload u).2.burned = u.burned := by
  unfold noticeMask; split <;> rfl

end Owners

/-! ## Links, resets and start-up -/

@[simp] theorem takeEither_burned (p : PanelNo) (r : Option Report) : (s.takeEither p r).burned = s.burned := by
  cases r <;> simp [State.takeEither]

@[simp] theorem beginLost_burned (p : PortId) : (s.beginLost p).burned = s.burned := by
  unfold State.beginLost; split <;> simp

@[simp] theorem takeReset_burned (kind : ResetKind) (phase : Phase) : (s.takeReset kind phase).burned = s.burned := rfl

@[simp] theorem startUp_burned (kind : ResetKind) : (s.startUp kind).burned = s.burned := by
  rw [startUp_eq]; cases kind <;> rfl

/-! ## PROFILE_BURN (R207) -/

section Burn

variable {u : State} {payload : List Byte}

theorem profileBurn_of_bad (hn : (payload.getD 0 0).toNat = n) (hv : payload.drop 1 = value)
    (h : n < 1 ∨ 25 < n ∨ ¬ Payload.ProfileValue n value) : profileBurn payload u = (.refuse .badField, u) := by
  unfold profileBurn
  dsimp only
  rw [hn, hv]
  split
  · rfl
  · next hin =>
    have hval : ¬ Payload.ProfileValue n value :=
      h.elim (fun h => absurd (.inl h) hin) fun h => h.elim (fun h => absurd (.inr h) hin) id
    rw [← profileValue_iff, Bool.not_eq_true] at hval
    exact if_pos hval

/-- A value in range leaves the burned fields to decide. -/
theorem profileBurn_of_good (hn : (payload.getD 0 0).toNat = n) (hv : payload.drop 1 = value) (h1 : 1 ≤ n)
    (h25 : n ≤ 25) (h : Payload.ProfileValue n value) :
    (∀ old, Table.find n u.burned = some old → profileBurn payload u = (⟨.profileBurned, old⟩, u)) ∧
    (Table.find n u.burned = none → profileBurn payload u =
      (.ok (be 1 n ++ value), { u with burned := Table.insert n value u.burned })) := by
  have hin : ¬ (n < 1 ∨ 25 < n) := by omega
  have hval : ¬ fieldInRange n value = false := by rw [(profileValue_iff n value).2 h]; decide
  unfold profileBurn
  dsimp only
  rw [hn, hv, if_neg hin, if_neg hval]
  exact ⟨fun old ho => by rw [ho], fun ho => by rw [ho]⟩

/-- PROFILE_BURN keeps a burned field: of an unburned number it burns another. -/
theorem State.BurnedAs.profileBurn (h : u.BurnedAs n value) (payload : List Byte) :
    (profileBurn payload u).2.BurnedAs n value := by
  obtain ⟨m, hnumber⟩ : ∃ m, (payload.getD 0 0).toNat = m := ⟨_, rfl⟩
  by_cases hbad : m < 1 ∨ 25 < m ∨ ¬ Payload.ProfileValue m (payload.drop 1)
  · rw [profileBurn_of_bad hnumber rfl hbad]; exact h
  · obtain ⟨h1, h25, hval⟩ : 1 ≤ m ∧ m ≤ 25 ∧ Payload.ProfileValue m (payload.drop 1) := by
      simpa only [not_or, Nat.not_lt, Classical.not_not] using hbad
    obtain ⟨hburned, hunburned⟩ := profileBurn_of_good (u := u) hnumber rfl h1 h25 hval
    cases hm : Table.find m u.burned with
    | some old => rw [hburned old hm]; exact h
    | none =>
      rw [hunburned hm]
      have hne : m ≠ n := by
        rintro rfl
        exact Option.some_ne_none value (h.symm.trans hm)
      exact (Table.find_insert_of_ne hne _ _).trans h

end Burn

/-! ## What each kind of command makes of a burned field -/

theorem request_burnedAs {ty : RequestType} {p : PortId} {tag : Byte} {payload : List Byte}
    {owner : State → Reply × State} (howner : ∀ u : State, u.BurnedAs n value → (owner u).2.BurnedAs n value)
    (hs : s.BurnedAs n value)
    (h : (.next (s.request ty p tag payload owner) : Host.Outcome State Fault Refusal) = .next t) :
    t.BurnedAs n value := by
  cases h; exact request_keeps (fun _ _ hu => hu) howner hs

theorem request_leaves_burned {ty : RequestType} {p : PortId} {tag : Byte} {payload : List Byte}
    {owner : State → Reply × State} (howner : ∀ u : State, (owner u).2.burned = u.burned) (hs : s.BurnedAs n value)
    (h : (.next (s.request ty p tag payload owner) : Host.Outcome State Fault Refusal) = .next t) :
    t.BurnedAs n value := request_burnedAs (fun u hu => hu.of_burned (howner u)) hs h

theorem expiry_leaves_burned {x : TimerId} {effect : State → State} (he : ∀ u : State, (effect u).burned = u.burned)
    (hs : s.BurnedAs n value) (h : (.next (s.onExpiry x effect) : Host.Outcome State Fault Refusal) = .next t) :
    t.BurnedAs n value := by
  cases h
  exact onExpiry_keeps (P := fun u => u.BurnedAs n value) (fun _ _ hu => hu) (fun u hu => hu.of_burned (he u)) hs

theorem event_leaves_burned {u : State} (hu : u.burned = s.burned) (hs : s.BurnedAs n value)
    (h : (.next u : Host.Outcome State Fault Refusal) = .next t) : t.BurnedAs n value := by
  cases h; exact hs.of_burned hu

theorem exec_loadBlock_burnedAs {p : PortId} {tag : Byte} {payload : List Byte} (hs : s.BurnedAs n value)
    (h : exec (.loadBlock p tag payload) s = .next t) : t.BurnedAs n value := by
  change execLoadBlock p tag payload s = .next t at h
  unfold execLoadBlock at h
  split at h
  · cases h
  · exact request_leaves_burned (loadBlock_burned · payload _) hs h

theorem exec_restart_burnedAs {p : PortId} {tag : Byte} {payload : List Byte} (hs : s.BurnedAs n value)
    (h : exec (.restart p tag payload) s = .next t) : t.BurnedAs n value := by
  change Host.Outcome.next (s.accept .restart p tag payload _) = .next t at h
  cases h
  refine accept_keeps (P := fun u => u.BurnedAs n value) (fun _ _ hu => hu) (fun u hu => hu.of_burned ?_) hs
  split <;> simp

theorem exec_requestDiscarded_burnedAs {lost : Discarded} (hs : s.BurnedAs n value)
    (h : exec (.requestDiscarded lost) s = .next t) : t.BurnedAs n value := by
  change execRequestDiscarded lost s = .next t at h
  unfold execRequestDiscarded at h
  exact event_leaves_burned (by split <;> simp) hs h

theorem exec_testSecondExpiry_burnedAs {p : PanelNo} (hs : s.BurnedAs n value)
    (h : exec (.testSecondExpiry p) s = .next t) : t.BurnedAs n value := by
  change execTestSecondExpiry p s = .next t at h
  unfold execTestSecondExpiry at h
  split at h
  · exact event_leaves_burned rfl hs h
  · exact expiry_leaves_burned (State.testSecond_burned · p _) hs h

theorem exec_linkTestExpiry_burnedAs {p : PanelNo} (hs : s.BurnedAs n value)
    (h : exec (.linkTestExpiry p) s = .next t) : t.BurnedAs n value := by
  change execLinkTestExpiry p s = .next t at h
  unfold execLinkTestExpiry at h
  split at h
  · exact event_leaves_burned rfl hs h
  · exact expiry_leaves_burned (fun u => by simp) hs h

theorem exec_compositionComplete_burnedAs (hs : s.BurnedAs n value) (h : exec .compositionComplete s = .next t) :
    t.BurnedAs n value := by
  change execCompositionComplete s = .next t at h
  unfold execCompositionComplete at h
  split at h
  · exact event_leaves_burned rfl hs h
  · exact event_leaves_burned (State.complete_burned s _) hs h

theorem exec_verificationComplete_burnedAs (hs : s.BurnedAs n value) (h : exec .verificationComplete s = .next t) :
    t.BurnedAs n value := by
  change execVerificationComplete s = .next t at h
  unfold execVerificationComplete at h
  split at h
  · exact event_leaves_burned rfl hs h
  · exact event_leaves_burned (State.verified_burned s _) hs h

theorem exec_startUp_burnedAs (hs : s.BurnedAs n value) (h : exec .startUp s = .next t) : t.BurnedAs n value :=
  event_leaves_burned (by split <;> simp) hs h

/-- Every command but those that carry messages, which are such commands in turn: the requests, the panels' reports and
other events, the expiries, the resets. -/
theorem exec_burnedAs_of_no_messages {c : Instr} (hc : Instr.spellsMessages c = false) (hs : s.BurnedAs n value)
    (h : exec c s = .next t) : t.BurnedAs n value := by
  cases c with
  | frameError | uartIdleGap => cases hc
  | profileBurn _ _ payload => exact request_burnedAs (fun _ hu => hu.profileBurn payload) hs h
  | batchOpen | batchAdd | batchCommit | batchDiscard | leaseRenew | itemRead | priceQuery | planLoad
  | planClear | planRead | loadBegin | loadAbort | slotErase | slotVerify | verifyAll | slotRead | panelDark
  | panelLight | linkTest | linkTestStop | panelStatus | holdOpen | holdAdd | holdRemove | holdFocus | holdRefresh
  | holdClose | holdRead | clockSet | scheduleLoad | daypartForce | daypartAuto | freeze | unfreeze
  | noticeClear | noticeMask =>
    exact request_leaves_burned (fun u => by simp) hs h
  | spaceRead | changeoverStatus | scheduleRead | profileRead | describe | noticeRead =>
    exact request_leaves_burned (fun _ => rfl) hs h
  | loadBlock => exact exec_loadBlock_burnedAs hs h
  | restart => exact exec_restart_burnedAs hs h
  | requestDiscarded => exact exec_requestDiscarded_burnedAs hs h
  | answerRead | answerSent | present => exact event_leaves_burned (by split <;> simp) hs h
  | locked p | unlocked p | shown p | testReport p | panelFault p =>
    exact event_leaves_burned (State.takeReport_burned s p _) hs h
  | badReport p =>
    exact event_leaves_burned (List.foldlRecOn (motive := fun u : State => u.burned = s.burned) _ _ rfl
      fun u hu r _ => (takeEither_burned (s := u) p r).trans hu) hs h
  | batchIdleExpiry | priceLeaseExpiry | minuteTimerExpiry | lockSilenceExpiry | trainingLimitExpiry | frameBoundary
  | loadIdleExpiry | holdLeaseExpiry | freezeLimitExpiry | secondTimerTick =>
    exact expiry_leaves_burned (fun u => by simp) hs h
  | detachTimerExpiry | changeoverLimitExpiry => exact expiry_leaves_burned (fun u => by split <;> simp) hs h
  | testSecondExpiry => exact exec_testSecondExpiry_burnedAs hs h
  | linkTestExpiry => exact exec_linkTestExpiry_burnedAs hs h
  | promotionEndCommit => exact event_leaves_burned (State.endPromotions_burned s) hs h
  | tickEdge => exact event_leaves_burned (by split <;> simp) hs h
  | scheduleEntryFire => exact event_leaves_burned (State.fire_burned s) hs h
  | compositionStart => exact event_leaves_burned (State.startNext_burned s) hs h
  | compositionComplete => exact exec_compositionComplete_burnedAs hs h
  | verifyStart => exact event_leaves_burned (State.setPhoto_burned s _) hs h
  | verificationComplete => exact exec_verificationComplete_burnedAs hs h
  | powerOn | resetLineAsserted => exact event_leaves_burned (takeReset_burned _ _) hs h
  | startUp => exact exec_startUp_burnedAs hs h

theorem takeMessage_burnedAs {p : PortId} {message : List Byte} (hs : s.BurnedAs n value)
    (h : takeMessage p message s = .next t) : t.BurnedAs n value := by
  cases hm : Message.read message with
  | good ty tag payload =>
    rw [takeMessage_good hm] at h
    exact exec_burnedAs_of_no_messages (toInstr_spellsMessages ty p tag payload) hs h
  | bad status typeByte tag =>
    rw [takeMessage_bad hm] at h
    refine event_leaves_burned ?_ hs h
    unfold State.arrive
    (repeat' split) <;> simp

theorem takeMessages_burnedAs {p : PortId} {k : Nat} {bytes : List Byte} (hs : s.BurnedAs n value)
    (h : takeMessages p k bytes s = .next t) : t.BurnedAs n value :=
  takeMessages_keeps (P := fun u => u.BurnedAs n value) (fun _ _ _ hu hm => takeMessage_burnedAs hu hm) k bytes s t hs h

/-- Every command keeps a burned field. -/
theorem exec_burnedAs {c : Instr} (hs : s.BurnedAs n value) (h : exec c s = .next t) : t.BurnedAs n value := by
  cases c with
  | frameError p message =>
    change execFrameError p message s = .next t at h
    unfold execFrameError at h
    split at h
    · exact takeMessage_burnedAs hs h
    · exact takeMessages_burnedAs hs h
  | uartIdleGap => exact takeMessages_burnedAs hs h
  | _ => exact exec_burnedAs_of_no_messages rfl hs h

/-- Settles O58, command by command: the command at the queue's front, or the event that an empty queue takes. -/
theorem burnedFieldsPersist : Obligations.BurnedFieldsPersist := by
  intro s t n value h hs
  cases hq : s.pending with
  | cons c rest =>
    unfold step at h; rw [hq] at h
    exact exec_burnedAs (s := { s with pending := rest }) hs h
  | nil =>
    rw [step_of_empty hq] at h
    cases hown : s.ownEvent with
    | some c => exact exec_burnedAs hs ((idle_of_event hown).symm.trans h)
    | none =>
      rw [idle_of_none hown] at h
      exact event_leaves_burned (by simp) hs h

/-! ## PROFILE_BURN as its port answers it -/

/-- Settles O53, by the range of the number and the value, and by whether the field is burned. -/
theorem profileBurnBurnsFieldOnce : Obligations.ProfileBurnBurnsFieldOnce := by
  intro s tag n value hs hn hlo hhi
  have hnumber : ((be 1 n ++ value).getD 0 0).toNat = n := by simp [be]; omega
  have hvalue : (be 1 n ++ value).drop 1 = value := by simp [be]
  have hmin : 2 ≤ (be 1 n ++ value).length := by simp; omega
  have hmax : (be 1 n ++ value).length ≤ 4104 := by simp; omega
  have hburned : (s.clockIn .media (6 + (be 1 n ++ value).length)).burned = s.burned := by simp
  refine ⟨fun hbad => ?_, fun h1 h25 hval => ?_⟩
  · exact answersOnly_of_takes (t := .profileBurn) hs rfl hmin hmax rfl (profileBurn_of_bad hnumber hvalue hbad) rfl
  · obtain ⟨hold, hnew⟩ :=
      profileBurn_of_good (u := s.clockIn .media (6 + (be 1 n ++ value).length)) hnumber hvalue h1 h25 hval
    refine ⟨fun old ho => ?_, fun ho => ?_⟩
    · exact answersOnly_of_takes (t := .profileBurn) hs rfl hmin hmax rfl (hold old (hburned ▸ ho)) rfl
    · refine ⟨_, request_answers (t := .profileBurn) hs rfl hmin hmax (hnew (hburned ▸ ho)),
        answeredOn_of_ports rfl _, ?_, fun m hm => ?_, ?_⟩
      · exact Table.find_insert_self n value _
      · exact (Table.find_insert_of_ne hm.symm value _).trans (by rw [hburned])
      · conv => lhs; rw [clockIn_eq]
        rfl

end Sys2Proof.Machine
end

section
/-! PROOFS. What a reset leaves of each block, and that State.reset is the machine after a power-on start-up with no
field burned (R209, R210): the statements O54 and O56. -/
namespace Sys2Proof.Machine

variable {s : State}

/-! ## Which commands take a reset (R209) -/

/-- A reset forgets what a port clocked in. -/
theorem clockIn_takeReset (p : PortId) (n : Nat) (kind : ResetKind) (phase : Phase) :
    (s.clockIn p n).takeReset kind phase = s.takeReset kind phase := by
  rw [clockIn_eq]; rfl

theorem poweredOn_of_lineUp {phase : Phase} (h : ∀ held, phase ≠ .resetLow held) :
    phase.poweredOn = .starting .power := by
  cases phase with
  | running => rfl
  | starting => rfl
  | resetLow held => exact absurd rfl (h held)

theorem exec_restart_of_valid (h : s.Takes .store) {tag option : Byte} {kind : ResetKind}
    (ho : restartOption? option = some kind) :
    exec (.restart .store tag [option]) s = .next (s.takeReset kind (.starting kind)) := by
  refine congrArg Host.Outcome.next ((accept_of_takes (t := .restart) (payload := [option]) h rfl (Nat.le_refl 1)
    (Nat.le_refl 1) _).trans ?_)
  rw [List.getD_cons_zero, ho]
  exact clockIn_takeReset _ _ _ _

theorem restartOption?_of_out {option : Byte} (h : 1 < option.toNat) : restartOption? option = none := by
  unfold restartOption?
  split
  · omega
  · omega
  · rfl

/-- A RESTART with another option is a request that is refused (R209). -/
theorem exec_restart_of_invalid {p : PortId} {tag option : Byte} (h : restartOption? option = none) :
    exec (.restart p tag [option]) s =
      .next (s.request .restart p tag [option] fun u => (.refuse .badField, u)) := by
  show execRestart p tag [option] s = _
  unfold execRestart
  rw [List.getD_cons_zero, h]
  rfl

/-! ## What a reset leaves -/

theorem resetPlans_get (p : PanelNo) (d : DayPart) : (resetPlans.get p).get d = ⟨[], 0⟩ := by
  simp [resetPlans, Plan.empty]

theorem takeReset_plan (phase : Phase) (p : PanelNo) (d : DayPart) : (s.takeReset .power phase).plan p d = ⟨[], 0⟩ :=
  resetPlans_get p d

theorem ownEvent_of_resetLow {held : ResetKind} (h : s.phase = .resetLow held) : s.ownEvent = none := by
  unfold State.ownEvent; rw [h]

theorem exec_powerOn_of_lineUp (h : ∀ held, s.phase ≠ .resetLow held) :
    exec .powerOn s = .next (s.takeReset .power (.starting .power)) :=
  congrArg (fun phase => Host.Outcome.next (s.takeReset .power phase)) (poweredOn_of_lineUp h)

theorem exec_powerOn_of_lineLow {held : ResetKind} (h : s.phase = .resetLow held) :
    exec .powerOn s = .next (s.takeReset .power (.resetLow .power)) :=
  congrArg (fun phase : Phase => Host.Outcome.next (s.takeReset .power phase.poweredOn)) h

/-- Settles O54: each cause of a reset is one `takeReset`, which leaves what is said field by field. -/
theorem resetsLeaveResetState : Obligations.ResetsLeaveResetState := by
  refine ⟨fun s tag option hs ho => ?_, fun s c kind phase hc => ?_⟩
  · exact answersOnly_of_takes (t := .restart) (payload := [option]) hs rfl (Nat.le_refl 1) (Nat.le_refl 1)
      (exec_restart_of_invalid (restartOption?_of_out ho)) rfl rfl
  · have hexec : exec c s = .next (s.takeReset kind phase) := by
      rcases hc with ⟨rfl, rfl, hup, rfl⟩ | ⟨rfl, rfl, ⟨held, hlow⟩, rfl⟩ | ⟨rfl, rfl, rfl⟩ | ⟨tag, rfl, hs, rfl, rfl⟩ |
        ⟨tag, rfl, hs, rfl, rfl⟩
      · exact exec_powerOn_of_lineUp hup
      · exact exec_powerOn_of_lineLow hlow
      · rfl
      · exact exec_restart_of_valid hs rfl
      · exact exec_restart_of_valid hs rfl
    refine ⟨_, hexec, rfl, takeReset_port s kind phase, rfl, rfl, rfl, takeReset_blocksAtReset s kind phase, ?session,
      ?lastLoad, ?queue, ?engine, ?pin, ?power, ?held, rfl⟩
    case session | lastLoad | queue | engine => cases kind <;> rfl
    case pin => rintro rfl; exact ⟨rfl, rfl, rfl, rfl, rfl⟩
    case power => rintro rfl; exact ⟨takeReset_plan phase, rfl, photoReset_atPowerOn⟩
    case held => rintro held rfl; exact ownEvent_of_resetLow rfl

/-! ## State.reset -/

theorem reset_timeLeft_of_ne {u : TimerId} (hm : u ≠ .minute) (hs : u ≠ .second) : State.reset.timeLeft u = none := by
  have hminute : TimerId.minute.key ≠ u.key := fun e => hm (TimerId.key_injective e).symm
  have hsecond : TimerId.second.key ≠ u.key := fun e => hs (TimerId.key_injective e).symm
  exact (if_neg hminute).trans (if_neg hsecond)

theorem reset_blocksAtReset : BlocksAtReset State.reset fun _ => true := by
  refine ⟨rfl, rfl, rfl, PerPanel.get_ofFn _, rfl, rfl, rfl, PerPanel.get_ofFn _, rfl, PerPanel.get_ofFn _, rfl,
    fun p => ?_, fun l => ?_, rfl, rfl, rfl, rfl, rfl, rfl, rfl⟩
  · have hlink : State.reset.link p = Link.reset true := PerPanel.get_ofFn _ p
    rw [hlink]; exact linkReset_atReset true
  · match l with
    | 0 => rfl
    | 1 => rfl

theorem reset_port (p : PortId) : State.reset.port p = ⟨.ready, NoticeFlag.restarted.mask, flagSetOf p, [], none⟩ := by
  cases p with
  | store => rfl
  | media => rfl
  | lane l => match l with | 0 => rfl | 1 => rfl

/-- Settles O56, block by block; the invariants hold of the empty Photo Memory and of a freeze that is off. -/
theorem resetStateIsPowerOnStartUp : Obligations.ResetStateIsPowerOnStartUp := by
  refine ⟨rfl, rfl, rfl, reset_port, rfl, rfl, fun u => reset_timeLeft_of_ne, reset_blocksAtReset, resetPlans_get,
    photoReset_atPowerOn, rfl, rfl, ?defaults, ?role, ?grid, ?links, ?lanes, ?lease, ?holdLease, ?limit, ?freeze,
    PhotoMemory.Sound.reset, PhotoMemory.Accounted.reset, fun h => nomatch h⟩
  case defaults | role | grid | links | lanes | lease | holdLease | limit | freeze => decide

end Sys2Proof.Machine
end

section
/-! PROOFS. Start-up: the ports, the timers and the retained plans by the values then in force, and Photo Memory after a
pin reset with its verify queue and engine (R44, R140, R199, R210): the statement O55. -/
namespace Sys2Proof.Machine

/-! ## The verify engine takes a slot (R133) -/

section Engine

variable {m : PhotoMemory} {j k : Nat}

theorem takeNext_eq (m : PhotoMemory) :
    m.takeNext = { m with verifying := m.takeNext.verifying, slots := m.takeNext.slots } := by
  cases h : m.nextVerify with
  | none => rw [takeNext_of_none h]
  | some k => rw [(takeNext_of_some h).1]

theorem takeNext_verifyQueue (m : PhotoMemory) : m.takeNext.verifyQueue = m.verifyQueue := by rw [takeNext_eq]

theorem takeNext_verifying (h : m.verifying = none) : m.takeNext.verifying = m.nextVerify := by
  cases hn : m.nextVerify with
  | none => rw [takeNext_of_none hn, h]
  | some k => rw [(takeNext_of_some hn).1]

theorem find_takeNext (h : m.verifying = none) (j : Nat) : Table.find j m.takeNext.slots =
    (Table.find j m.slots).map fun r =>
      if m.takeNext.verifying = some j then { r with state := .verifying } else r := by
  rw [takeNext_verifying h]
  cases hn : m.nextVerify with
  | none => simp [takeNext_of_none hn]
  | some k =>
    rw [(takeNext_of_some hn).2 j]
    by_cases hj : j = k
    · subst hj; simp
    · simp [hj, Ne.symm hj]

theorem takeNext_unverified (h : m.nextVerify = some k) :
    m.takeNext.unverified = (m.setState k .verifying).unverified := by
  unfold PhotoMemory.takeNext; rw [h]; rfl

theorem mem_insert_of_ne {α : Type} {v : α} {t : Table α} {e : Nat × α} (hne : e.1 ≠ k) :
    e ∈ Table.insert k v t ↔ e ∈ t := by
  have hv : e ≠ (k, v) := fun h => hne (congrArg Prod.fst h)
  induction t with
  | nil => simp [Table.insert, hv]
  | cons x t ih =>
    obtain ⟨i, w⟩ := x
    unfold Table.insert
    split
    · simp [hv]
    · split
      · next hik => subst hik; have hw : e ≠ (k, w) := fun h => hne (congrArg Prod.fst h); simp [hv, hw]
      · simp [ih]

/-- A slot's new state leaves the other slots as they were. -/
theorem mem_unverified_setState (v : SlotState) (hj : j ≠ k) :
    j ∈ (m.setState k v).unverified ↔ j ∈ m.unverified := by
  unfold PhotoMemory.setState
  split
  · rfl
  · unfold PhotoMemory.unverified
    simp only [List.mem_map, List.mem_filter]
    refine exists_congr fun e => and_congr_left fun he => and_congr_left fun _ => ?_
    exact mem_insert_of_ne fun hk => hj (he.symm.trans hk)

end Engine

/-! ## Photo Memory after a pin reset (R140) -/

/-- The retained slots and the rebuilt free list, before the verify engine does anything. -/
def PhotoMemory.rebuilt (m : PhotoMemory) (pins : Nat → Nat) : PhotoMemory :=
  { m.held with slots := retainedSlots pins m.slots, free := freeOfSlots (retainedSlots pins m.slots) }

section Retained

variable {m : PhotoMemory} {pins : Nat → Nat} {full : Bool} {j k : Nat} {r : Slot}

theorem retained_fast (m : PhotoMemory) (pins : Nat → Nat) : m.retained pins false = m.rebuilt pins := rfl

theorem retained_full (m : PhotoMemory) (pins : Nat → Nat) :
    m.retained pins true = (m.rebuilt pins).joinAll.takeNext := rfl

/-- Apart from queue and engine, start-up keeps what it rebuilt. -/
theorem retained_frame (m : PhotoMemory) (pins : Nat → Nat) (full : Bool) : m.retained pins full = { m.rebuilt pins with
    verifyQueue := (m.retained pins full).verifyQueue
    verifying := (m.retained pins full).verifying
    slots := (m.retained pins full).slots } := by
  cases full with
  | false => rfl
  | true =>
    rw [retained_full]
    conv => lhs; rw [takeNext_eq]
    rw [takeNext_verifyQueue]
    rfl

theorem retained_verifying : (m.retained pins true).verifying = (m.rebuilt pins).joinAll.nextVerify :=
  takeNext_verifying rfl

/-- Under FULL start-up the queue holds the retained UNVERIFIED slots, in slot number order (R210 step 4). -/
theorem mem_queue_rebuilt : k ∈ (m.rebuilt pins).joinAll.verifyQueue ↔ k ∈ (m.rebuilt pins).unverified :=
  (mem_foldl_joinVerify (m.rebuilt pins).unverified k []).trans (by simp)

theorem queue_rebuilt_rising : (m.rebuilt pins).joinAll.verifyQueue.Pairwise (· < ·) :=
  foldl_joinVerify_rising (m.rebuilt pins).unverified [] List.Pairwise.nil

/-- So the engine takes the head of the queue. -/
theorem nextVerify_rebuilt : (m.rebuilt pins).joinAll.nextVerify = (m.rebuilt pins).joinAll.verifyQueue.head? := by
  have hqueue : (m.rebuilt pins).joinAll.nextVerify =
      (m.rebuilt pins).joinAll.verifyQueue.find? fun k => (m.rebuilt pins).unverified.contains k := rfl
  rw [hqueue]
  cases hq : (m.rebuilt pins).joinAll.verifyQueue with
  | nil => rfl
  | cons k ks =>
    have hk : k ∈ (m.rebuilt pins).unverified := mem_queue_rebuilt.1 (hq ▸ List.mem_cons_self)
    exact List.find?_cons_of_pos (by simpa using hk)

theorem queue_retained : (m.retained pins true).verifyQueue = (m.rebuilt pins).joinAll.verifyQueue :=
  takeNext_verifyQueue _

theorem mem_queue_retained : k ∈ (m.retained pins true).verifyQueue ↔
    k ∈ (m.retained pins true).unverified ∨ (m.retained pins true).verifying = some k := by
  rw [queue_retained, retained_verifying, mem_queue_rebuilt, retained_full]
  cases hn : (m.rebuilt pins).joinAll.nextVerify with
  | none =>
    rw [takeNext_of_none hn]
    exact ⟨.inl, fun h => h.elim id nofun⟩
  | some i =>
    by_cases hk : k = i
    · subst hk
      exact iff_of_true (nextVerify_some hn).2.2 (.inr rfl)
    · rw [takeNext_unverified hn, mem_unverified_setState _ hk]
      exact ⟨.inl, fun h => h.elim id fun he => absurd (Option.some.inj he).symm hk⟩

theorem retained_takes_lowest (h : (m.retained pins full).verifying = some k)
    (hj : j ∈ (m.retained pins full).verifyQueue) : k ≤ j := by
  cases full with
  | false => cases h
  | true =>
    rw [retained_verifying, nextVerify_rebuilt] at h
    rw [queue_retained] at hj
    obtain ⟨rest, hq⟩ := List.head?_eq_some_iff.1 h
    have hrising := queue_rebuilt_rising (m := m) (pins := pins)
    rw [hq, List.pairwise_cons] at hrising
    rw [hq] at hj
    rcases List.mem_cons.1 hj with rfl | hj
    · exact Nat.le_refl _
    · exact Nat.le_of_lt (hrising.1 j hj)

theorem queue_of_idle_engine (h : (m.retained pins true).verifying = none) :
    (m.retained pins true).verifyQueue = [] := by
  rw [retained_verifying, nextVerify_rebuilt] at h
  rw [queue_retained]
  exact List.head?_eq_none_iff.1 h

/-- A retained slot: its record as the reset leaves it, with its pins, and VERIFYING if the engine took it. -/
theorem find_retained (hw : Table.Wf m.slots) (k : Nat) : Table.find k (m.retained pins full).slots =
    (Table.find k m.slots).bind fun r => r.retained.map fun q =>
      { q with
        pins := pins k
        state := if (m.retained pins full).verifying = some k then .verifying else q.state } := by
  have hrebuilt : Table.find k (m.rebuilt pins).slots =
      (Table.find k m.slots).bind fun r => r.retained.map fun q => { q with pins := pins k } :=
    find_retainedSlots pins hw k
  cases full with
  | false => exact hrebuilt
  | true =>
    have htaken := find_takeNext (m := (m.rebuilt pins).joinAll) rfl k
    rw [retained_full, htaken, show (m.rebuilt pins).joinAll.slots = (m.rebuilt pins).slots from rfl, hrebuilt,
      Option.map_bind]
    congr 1
    funext r
    simp only [Function.comp_apply, Option.map_map]
    congr 1
    funext q
    simp only [Function.comp_apply]
    split <;> rfl

theorem not_verifying_of_damaged (hw : Table.Wf m.slots) (hr : Table.find k m.slots = some r) {cause : DamageCause}
    (hd : r.state = .damaged cause) : (m.retained pins full).verifying ≠ some k := by
  intro hv
  cases full with
  | false => cases hv
  | true =>
    rw [retained_verifying] at hv
    have hk : k ∈ (m.rebuilt pins).unverified := (nextVerify_some hv).2.2
    obtain ⟨q, hq, hqu⟩ := (mem_unverified (retainedSlots_wf pins hw) k).1 hk
    have hfound : Table.find k (m.rebuilt pins).slots = some { r with pins := pins k } :=
      (find_retainedSlots pins hw k).trans (by simp [hr, Slot.retained, hd])
    cases hfound.symm.trans hq
    cases hd.symm.trans hqu

theorem find_retained_of_none (hw : Table.Wf m.slots) (h : Table.find k m.slots = none) :
    Table.find k (m.retained pins full).slots = none := by simp [find_retained hw, h]

theorem find_retained_of_loading (hw : Table.Wf m.slots) (hr : Table.find k m.slots = some r)
    (hl : r.state = .loading) : Table.find k (m.retained pins full).slots = none := by
  simp [find_retained hw, hr, Slot.retained, hl]

theorem find_retained_of_damaged (hw : Table.Wf m.slots) (hr : Table.find k m.slots = some r) {cause : DamageCause}
    (hd : r.state = .damaged cause) :
    Table.find k (m.retained pins full).slots = some { r with pins := pins k } := by
  simp [find_retained hw, hr, Slot.retained, hd, not_verifying_of_damaged hw hr hd]

theorem slot_retained_of_loaded (h : r.state = .ready ∨ r.state = .unverified ∨ r.state = .verifying) :
    r.retained = some { r with state := .unverified } := by
  cases r
  rcases h with h | h | h <;> cases h <;> rfl

/-- A slot with a photo to verify is UNVERIFIED after the reset, or VERIFYING if the engine took it. -/
theorem find_retained_of_loaded (hw : Table.Wf m.slots) (hr : Table.find k m.slots = some r)
    (h : r.state = .ready ∨ r.state = .unverified ∨ r.state = .verifying) :
    Table.find k (m.retained pins full).slots = some { r with
      pins := pins k
      state := if (m.retained pins full).verifying = some k then .verifying else .unverified } := by
  simp [find_retained hw, hr, slot_retained_of_loaded h]

/-- What the engine does moves no blocks. -/
theorem range_retained (hw : Table.Wf m.slots) (k : Nat) :
    (Table.find k (m.retained pins full).slots).map Slot.range =
      (Table.find k (retainedSlots pins m.slots)).map Slot.range := by
  rw [find_retained hw, find_retainedSlots pins hw]
  simp only [Option.map_bind, Function.comp_def, Option.map_map]

theorem free_retained (m : PhotoMemory) (pins : Nat → Nat) (full : Bool) :
    (m.retained pins full).free = freeOfSlots (retainedSlots pins m.slots) := by rw [retained_frame]; rfl

theorem forall_range_iff {slots : Table Slot} {P : BlockRange → Prop} :
    (∀ k r, Table.find k slots = some r → P r.range) ↔
      ∀ k x, (Table.find k slots).map Slot.range = some x → P x := by
  constructor
  · intro h k x hx
    obtain ⟨r, hr, rfl⟩ := Option.map_eq_some_iff.1 hx
    exact h k r hr
  · intro h k r hr
    exact h k r.range (by rw [hr]; rfl)

/-- The rebuilt free list holds exactly the blocks of no retained slot, in its canonical form (R140). -/
theorem free_retained_spec (hs : m.Sound) :
    (∀ b, b < 6144 → ((∃ e ∈ (m.retained pins full).free, e.has b) ↔
      ∀ k r, Table.find k (m.retained pins full).slots = some r → ¬ r.range.has b)) ∧
    FreeListOrdered (m.retained pins full).free := by
  obtain ⟨-, hw, -⟩ := id hs
  obtain ⟨-, -, hcount, -⟩ : (m.retained pins false).Sound := hs.retained pins false
  obtain ⟨hapart, hpositive, hfree⟩ := freeOfSlots_spec (retainedSlots pins m.slots) hcount
  rw [free_retained]
  refine ⟨fun b hb => (hfree b hb).trans ?_, hapart, hpositive⟩
  have hmoved := forall_range_iff (slots := (m.retained pins full).slots) (P := fun x => ¬ x.has b)
  simp only [range_retained hw] at hmoved
  refine Iff.trans ?_ (hmoved.trans (forall_range_iff (slots := retainedSlots pins m.slots)).symm).symm
  exact ⟨fun h k r hr => h _ (Table.mem_of_find hr),
    fun h e he => h e.1 e.2 (Table.find_of_mem (retainedSlots_wf pins hw) he)⟩

end Retained

/-! ## Ports, timers and plans by the values in force (R44, R199, R210) -/

section StartUp

variable {s t : State} {kind : ResetKind} {p : PanelNo}

/-- The state in which the blocks take their reset values: the profile is read, and what a pin reset retains is dealt
with. -/
def State.startsFrom (s : State) (kind : ResetKind) : State :=
  (({ s with inForce := s.burned } : State).takeReset kind .running).dealRetained kind

theorem startsFrom_inForce : (s.startsFrom kind).inForce = s.burned := by cases kind <;> rfl

theorem startsFrom_timers : (s.startsFrom kind).timers = [] := by cases kind <;> rfl

theorem startUp_timeLeft (u : TimerId) :
    (s.startUp kind).timeLeft u = (s.startsFrom kind).startTickTimers.timeLeft u := rfl

theorem internalTick_of_inForce (h : t.inForce = s.inForce) : t.internalTick = s.internalTick := by
  unfold State.internalTick State.profileNat; rw [h]

theorem linkFitted_of_inForce (h : t.inForce = s.inForce) : t.linkFitted p = s.linkFitted p := by
  unfold State.linkFitted State.profileNat; rw [h]

theorem placementFits_of_inForce (h : t.inForce = s.inForce) (pl : Placement) :
    t.placementFits p pl = s.placementFits p pl := by
  unfold State.placementFits State.grid State.role State.profileNat; rw [h]

theorem startTickTimers_eq_if (s : State) : s.startTickTimers =
    if s.internalTick then (s.startTimer .minute 60000).startTimer .second 1000 else s.startTimer .minute 60000 := rfl

theorem startTickTimers_minute (s : State) : s.startTickTimers.timeLeft .minute = some 60000 := by
  rw [startTickTimers_eq_if]
  split
  · rw [startTimer_timeLeft_other _ (by decide), State.startTimer_timeLeft_self]
  · exact State.startTimer_timeLeft_self _ _ _

theorem startTickTimers_second (h : s.timeLeft .second = none) :
    s.startTickTimers.timeLeft .second = if s.internalTick then some 1000 else none := by
  rw [startTickTimers_eq_if]
  split
  · exact State.startTimer_timeLeft_self _ _ _
  · rw [startTimer_timeLeft_other _ (by decide), h]

theorem startTickTimers_other {u : TimerId} (hm : u ≠ .minute) (hs : u ≠ .second) :
    s.startTickTimers.timeLeft u = s.timeLeft u := by
  rw [startTickTimers_eq_if]
  split
  · rw [startTimer_timeLeft_other _ hs, startTimer_timeLeft_other _ hm]
  · exact startTimer_timeLeft_other _ hm _

theorem startsFrom_timeLeft (u : TimerId) : (s.startsFrom kind).timeLeft u = none := by
  unfold State.timeLeft; rw [startsFrom_timers]; rfl

theorem startUp_second : (s.startUp kind).timeLeft .second =
    if (s.startUp kind).internalTick then some 1000 else none := by
  have htick : (s.startUp kind).internalTick = (s.startsFrom kind).internalTick :=
    internalTick_of_inForce ((startUp_inForce s kind).trans startsFrom_inForce.symm)
  rw [startUp_timeLeft, startTickTimers_second (startsFrom_timeLeft .second), htick]

/-- A fitted port is READY with RESTARTED, and keeps a loss raised or still to come (R192, R193, R199). -/
theorem startUp_port_of_fitted {q : PortId} (h : (s.startUp kind).portFitted q = true) :
    (s.startUp kind).port q = { s.port q with
      state := .ready
      flags := NoticeFlag.restarted.mask ||| ((s.port q).flags &&& NoticeFlag.requestLost.mask)
      mask := flagSetOf q } := by
  rw [portFitted_of_inForce (s := { s with inForce := s.burned }) (startUp_inForce s kind)] at h
  rw [startUp_port]
  exact if_pos h

theorem startUp_port_of_unfitted {q : PortId} (h : (s.startUp kind).portFitted q = false) :
    (s.startUp kind).port q = Port.inReset q := by
  rw [portFitted_of_inForce (s := { s with inForce := s.burned }) (startUp_inForce s kind)] at h
  rw [startUp_port]
  exact if_neg (by simp [h])

/-- A retained plan is kept if it fits the panel, and emptied if it does not (R44). -/
theorem retainPlan_eq (s : State) (p : PanelNo) (plan : Plan) : s.retainPlan p plan =
    if plan.placements = [] ∨ (s.linkFitted p = true ∧ ∀ pl ∈ plan.placements, s.placementFits p pl = true)
    then plan else ⟨[], plan.revision + 1⟩ := by
  unfold State.retainPlan
  by_cases hempty : plan.placements = []
  · rw [if_pos hempty, if_pos (.inl hempty)]
  · rw [if_neg hempty]
    simp only [hempty, false_or, Bool.and_eq_true, List.all_eq_true]

theorem startUp_plan_pin (p : PanelNo) (d : DayPart) : (s.startUp .pin).plan p d =
    if (s.plan p d).placements = [] ∨ ((s.startUp .pin).linkFitted p = true ∧
      ∀ pl ∈ (s.plan p d).placements, (s.startUp .pin).placementFits p pl = true)
    then s.plan p d else ⟨[], (s.plan p d).revision + 1⟩ := by
  have hinForce : (s.startUp .pin).inForce =
      (({ s with inForce := s.burned } : State).takeReset .pin .running).inForce :=
    startUp_inForce s .pin
  have hplan : (s.startUp .pin).plan p d =
      (({ s with inForce := s.burned } : State).takeReset .pin .running).retainPlan p (s.plan p d) := by
    rw [startUp_eq]
    show (PerPanel.get (State.retainedPlans _) p).get d = _
    unfold State.retainedPlans
    rw [PerPanel.get_ofFn, PerDayPart.get_ofFn]
    rfl
  rw [hplan, retainPlan_eq]
  simp only [linkFitted_of_inForce hinForce, placementFits_of_inForce hinForce]

theorem exec_startUp_of_reset (h : s.phase = .starting kind ∨ s.phase = .resetLow kind) :
    exec .startUp s = .next (s.startUp kind) := by
  show execStartUp s = _
  unfold execStartUp
  rcases h with h | h <;> rw [h]

end StartUp

/-- Settles O55: the parts of `startUp`, and what the pin reset's rebuilding makes of Photo Memory. -/
theorem startUpReadsProfileAndRunsPorts : Obligations.StartUpReadsProfileAndRunsPorts := by
  intro s kind hphase
  refine ⟨_, exec_startUp_of_reset hphase, ?running, startUp_inForce s kind, startUp_burned kind, fun q hq => ?fitted,
    fun q hq => ?unfitted, startTickTimers_minute _, startUp_second, fun u hm hs => ?timers,
    startUp_blocksAtReset s kind, ?power, ?pin, ?slots, ?pending⟩
  case running | pending => rw [startUp_eq]; cases kind <;> rfl
  case fitted => rw [startUp_port_of_fitted hq]; exact ⟨rfl, rfl, rfl, rfl⟩
  case unfitted => rw [startUp_port_of_unfitted hq]; exact ⟨rfl, rfl⟩
  case timers => exact (startTickTimers_other hm hs).trans (startsFrom_timeLeft u)
  case power =>
    rintro rfl
    refine ⟨fun p d => ?_, ?_, startUp_power s⟩
    · rw [startUp_eq]; exact resetPlans_get p d
    · rw [startUp_eq]; rfl
  case pin =>
    rintro rfl
    refine ⟨?schedule, ?memory, ?session, ?lastLoad, startUp_plan_pin, fun hfast => ?fast, fun hfull k => ?full⟩
    case schedule => rw [startUp_eq]; rfl
    case memory | session | lastLoad => rw [startUp_photo, retained_frame]; rfl
    case fast => rw [startUp_photo, hfast]; exact ⟨rfl, rfl⟩
    case full => rw [startUp_photo, hfull]; exact mem_queue_retained
  case slots =>
    rintro rfl hsound
    obtain ⟨-, hw, -⟩ := id hsound
    have hspec := free_retained_spec (pins := photoPlacements (s.startUp .pin))
      (full := (s.startUp .pin).fullStartUp) hsound
    rw [← startUp_photo] at hspec
    obtain ⟨hfree, hordered⟩ := hspec
    refine ⟨fun k hk => ?empty, fun k r hr => ⟨fun hl => ?loading, fun cause hd => ?damaged, fun hv => ?loaded⟩,
      fun k hk j hj => ?lowest, fun hfull hidle => ?idle, hfree, hordered⟩
    case empty => rw [startUp_photo]; exact find_retained_of_none hw hk
    case loading => rw [startUp_photo]; exact find_retained_of_loading hw hr hl
    case damaged => rw [startUp_photo]; exact find_retained_of_damaged hw hr hd
    case loaded =>
      have hfound := find_retained_of_loaded (pins := photoPlacements (s.startUp .pin))
        (full := (s.startUp .pin).fullStartUp) hw hr hv
      rwa [← startUp_photo] at hfound
    case lowest => rw [startUp_photo] at hk hj; exact retained_takes_lowest hk hj
    case idle => rw [startUp_photo, hfull] at hidle ⊢; exact queue_of_idle_engine hidle

end Sys2Proof.Machine
end
section
/-! PROOFS. Compose requests, the compose target and the start of a composition (chapters 3 and 4): the statements O12,
O13 and O14. -/
namespace Sys2Proof.Machine

/-! ## A compose request (R46) -/

section ComposeRequest

variable {s : State} {p : PanelNo} {queue : List QueueEntry}

theorem composeRequest_of_dead (h : s.live p = false) (r : ReasonSet) : s.composeRequest p r = s := if_pos h

theorem composeRequest_of_composed {c : Composition} (hl : s.live p = true) (he : s.composer.engine = some c)
    (hp : c.panel = p) (r : ReasonSet) : s.composeRequest p r =
      s.setComposer { s.composer with engine := some { c with again := true, againReasons := c.againReasons ||| r } } := by
  simp [State.composeRequest, hl, he, hp]

theorem composeRequest_of_waiting (hl : s.live p = true) (hc : s.composing p = false) (r : ReasonSet) :
    s.composeRequest p r = s.setComposer { s.composer with queue := joinQueue p r s.composer.queue } := by
  unfold State.composing at hc
  unfold State.composeRequest
  rw [if_neg (by simp [hl])]
  split
  · next c he =>
    rw [he] at hc
    exact if_neg (of_decide_eq_false hc)
  · rfl

theorem joinQueue_of_mem (h : ∃ e ∈ queue, e.panel = p) (r : ReasonSet) : joinQueue p r queue =
    queue.map fun e => if e.panel = p then { e with reasons := e.reasons ||| r } else e := by
  obtain ⟨e, he, hp⟩ := h
  exact if_pos (List.any_eq_true.2 ⟨e, he, decide_eq_true hp⟩)

theorem joinQueue_of_absent (h : ∀ e ∈ queue, e.panel ≠ p) (r : ReasonSet) : joinQueue p r queue = queue ++ [⟨p, r⟩] := by
  refine if_neg fun hany => ?_
  obtain ⟨e, he, hp⟩ := List.any_eq_true.1 hany
  exact h e he (of_decide_eq_true hp)

end ComposeRequest

/-- Settles O12: the four states of a panel are the branches of `State.composeRequest` and of `joinQueue`. -/
theorem composeRequestByPanelState : Obligations.ComposeRequestByPanelState := by
  refine fun s p r => ⟨fun hl => composeRequest_of_dead hl r, fun c hl he hp => composeRequest_of_composed hl he hp r,
    fun hl hc hqueued => ?queued, fun hl hc habsent => ?absent⟩
  case queued => rw [composeRequest_of_waiting hl hc, joinQueue_of_mem hqueued]; rfl
  case absent => rw [composeRequest_of_waiting hl hc, joinQueue_of_absent habsent]; rfl

/-! ## The compose target (R49) -/

section ComposeTarget

variable {s : State} {p : PanelNo}

theorem composeTarget_of_member {u : Target} (hu : s.changeover.controller.inFlight = some u)
    (hm : (s.changeover.members.get p).isSome = true) : s.composeTarget p = u := by
  obtain ⟨v, hv⟩ := Option.isSome_iff_exists.1 hm
  simp only [State.composeTarget, hu, hv]

theorem composeTarget_of_noChangeover (h : s.changeover.controller.inFlight = none) :
    s.composeTarget p = s.changeover.settled := by
  simp only [State.composeTarget, h]

theorem composeTarget_of_noMember (h : s.changeover.members.get p = none) :
    s.composeTarget p = s.changeover.settled := by
  unfold State.composeTarget
  rw [h]
  split
  · next hm => cases hm
  · rfl

theorem target_eq_iff (a b : Target) :
    a = b ↔ a.generation = b.generation ∧ a.dayPart = b.dayPart ∧ a.visibility = b.visibility := by
  cases a; cases b; simp

end ComposeTarget

/-- Settles O13: the compose target reads the in-flight target and the membership of the panel. -/
theorem composeTargetFollowsMembership : Obligations.ComposeTargetFollowsMembership :=
  ⟨fun _ _ _ => composeTarget_of_member,
    fun _ _ h => h.elim composeTarget_of_noChangeover composeTarget_of_noMember, target_eq_iff⟩

/-! ## The start of a composition (R50, R51) -/

section Start

variable {s : State} {e : QueueEntry}

theorem startCheck_iff (s : State) (p : PanelNo) : s.startCheck p = true ↔
    (s.composeTarget p).generation = s.catalogue.generation ∧
      (s.catalogue.lease = .expired → (s.composeTarget p).visibility = .withheld) := by
  unfold State.startCheck
  cases s.catalogue.lease <;> simp

theorem holdCopy_of_menu {p : PanelNo} (h : s.role p = .menu) : s.holdCopy p = none := by
  simp only [State.holdCopy, h]

theorem holdCopy_of_lane {p : PanelNo} {l : LaneNo} (h : s.role p = .lane l) : s.holdCopy p =
    some ⟨(s.lanes.get l).revision,
      (s.lanes.get l).focus.bind fun h => Table.find h.val (s.lanes.get l).holds⟩ := by
  simp only [State.holdCopy, h]

theorem startNext_of_entry (h : s.nextEntry = some e) : s.startNext = { s with composer := { s.composer with
    queue := s.composer.queue.filter (fun x => x.panel ≠ e.panel), engine := some (s.newComposition e) } } := by
  unfold State.startNext
  rw [h]
  rfl

theorem exec_compositionStart (h : s.nextEntry = some e) : exec .compositionStart s =
    .next { s with composer := { s.composer with
      queue := s.composer.queue.filter (fun x => x.panel ≠ e.panel), engine := some (s.newComposition e) } } :=
  congrArg Host.Outcome.next (startNext_of_entry h)

end Start

/-- Settles O14: the engine starts the first entry that passes (`State.nextEntry`), and the composition that starts is
`State.newComposition`. -/
theorem compositionStartCopiesAndBusies : Obligations.CompositionStartCopiesAndBusies := by
  refine ⟨startCheck_iff, fun s e hidle hoff hfirst => ?_⟩
  have hnext : s.nextEntry = some e := (nextEntry_of_off (by rw [hoff]; rfl) hidle).trans hfirst
  exact ⟨_, s.newComposition e, exec_compositionStart hnext, rfl, rfl, rfl, rfl, rfl, rfl, holdCopy_of_menu,
    fun l hl => ⟨_, holdCopy_of_lane hl, rfl, rfl⟩, rfl, rfl, rfl, filledPicture_filled _ _⟩

end Sys2Proof.Machine
end

section
/-! PROOFS. A changeover's start and its limit (chapter 4): the statements O16 and O17. -/
namespace Sys2Proof.Machine

/-- Settles O16: a start stages every live panel anew, and with none the changeover settles at once. -/
theorem changeoverStartQueuesLivePanels : Obligations.ChangeoverStartQueuesLivePanels := by
  refine fun s => ⟨fun hlive => ?staged, fun hdead => ?settled⟩
  case staged =>
    obtain ⟨⟨hchangeover, hlink, hcomposer⟩, hlimit⟩ := startChangeover_staged (anyLive_iff.1 hlive)
    refine ⟨by rw [hchangeover], fun p => ?_, fun p hp => ?_, fun p hp => ?_, hcomposer, hlimit⟩
    · rw [hchangeover, PerPanel.get_ofFn]
    · rw [hlink, if_pos hp]
    · rw [hlink, hp]
      rfl
  case settled =>
    have hnone : ∀ p, s.live p = false := fun p => by
      rw [← Bool.not_eq_true]
      intro hp
      rw [anyLive_iff.2 ⟨p, hp⟩] at hdead
      cases hdead
    obtain ⟨⟨hchangeover, -, hstore, hmedia⟩, hlinks, hcomposer⟩ := startChangeover_settled hnone
    exact ⟨hchangeover, hlinks, hcomposer, hstore, hmedia⟩

/-! ## Slates for the members that lag (R62, R85) -/

section Slates

variable {s : State}

/-- A link's record with a slate staged on it (R62, R105). -/
def Link.slateStaged (l : Link) (slate : Picture) : Link :=
  { l with
    sequence := l.sequence + 1
    staged := some ⟨⟨.slate, pictureChecksum slate, l.sequence + 1⟩, slate⟩ }

/-- A slate carries no target: its staging moves no member on. -/
theorem stage_slate (s : State) (p : PanelNo) (slate : Picture) :
    s.stage p .slate slate = s.setLink p ((s.link p).slateStaged slate) :=
  advanceFrom_stands (s := s.setLink p ((s.link p).slateStaged slate)) fun _ _ _ => rfl

/-- A slate staged on each panel of a list, in its order. -/
def State.stageSlates (ps : List PanelNo) (s : State) : State :=
  ps.foldl (fun s p => s.stage p .slate (s.slatePicture p)) s

/-- Stagings of slates change the links alone, and of the links those of the list. -/
theorem stageSlates_spec : ∀ (ps : List PanelNo) (s : State), ps.Nodup →
    s.stageSlates ps = { s with links := (s.stageSlates ps).links } ∧
    ∀ p, (s.stageSlates ps).link p =
      if p ∈ ps then (s.link p).slateStaged (s.slatePicture p) else s.link p := by
  intro ps
  induction ps with
  | nil => exact fun s _ => ⟨rfl, fun p => rfl⟩
  | cons q ps ih =>
    intro s hnodup
    obtain ⟨hq, hnodup⟩ := List.nodup_cons.1 hnodup
    obtain ⟨hframe, hlink⟩ := ih (s.setLink q ((s.link q).slateStaged (s.slatePicture q))) hnodup
    have hstep : s.stageSlates (q :: ps) =
        (s.setLink q ((s.link q).slateStaged (s.slatePicture q))).stageSlates ps := by
      rw [← stage_slate]
      rfl
    refine ⟨?_, fun p => ?_⟩
    · rw [hstep]
      exact hframe
    · rw [hstep, hlink]
      by_cases hp : p = q
      · subst hp
        rw [if_neg hq, if_pos List.mem_cons_self, State.setLink_link_self]
      · rw [State.setLink_link_of_ne _ hp]
        simp only [List.mem_cons, hp, false_or]
        rfl

theorem stageSlates_live {ps : List PanelNo} (h : ps.Nodup) (p : PanelNo) :
    (s.stageSlates ps).live p = s.live p := by
  unfold State.live
  rw [(stageSlates_spec ps s h).2]
  split <;> rfl

end Slates

/-! ## The limit (R85) -/

section Partial

variable {s : State} {u : Target}

/-- The controller's record as the limit settles it at `u`. -/
def Changeover.partlySettled (c : Changeover) (u : Target) : Changeover :=
  { c with
    controller := .idle, settled := u, members := noMembers, lastResult := .partly
    lagging := PerPanel.ofFn fun p => lags (c.members.get p) }

theorem membersAt_nodup (c : Changeover) (v : Progress) : (c.membersAt v).Nodup :=
  List.Pairwise.filter _ (by decide : allPanels.Nodup)

theorem mem_membersAt (c : Changeover) (v : Progress) (p : PanelNo) : p ∈ c.membersAt v ↔ c.members.get p = some v := by
  unfold Changeover.membersAt
  rw [List.mem_filter, decide_eq_true_eq]
  exact ⟨fun h => h.2, fun h => ⟨mem_allPanels p, h⟩⟩

theorem settlePartial_eq (s : State) (u : Target) : s.settlePartial u =
    (((s.stageSlates (s.changeover.membersAt .queued)).setChangeover (s.changeover.partlySettled u)).composeRequests
      (s.changeover.membersAt .queued) (Reason.set .lagging)).raiseBoth .changeoverPartial := by
  have hframe := (stageSlates_spec (s.changeover.membersAt .queued) s (membersAt_nodup _ _)).1
  have hchangeover : (s.stageSlates (s.changeover.membersAt .queued)).changeover = s.changeover := by rw [hframe]
  unfold State.settlePartial
  dsimp only
  rw [show (s.changeover.membersAt .queued).foldl (fun s p => s.stage p .slate (s.slatePicture p)) s =
    s.stageSlates (s.changeover.membersAt .queued) from rfl, hchangeover]
  rfl

theorem exec_changeoverLimitExpiry {left : Nat} (ht : s.timeLeft .changeoverLimit = some left)
    (hu : s.changeover.controller.inFlight = some u) : exec .changeoverLimitExpiry s =
      .next (((s.elapse left).stopTimer .changeoverLimit).settlePartial u) := by
  refine congrArg Host.Outcome.next ((onExpiry_running ht _).trans ?_)
  rw [State.stopTimer_changeover, State.elapse_changeover, hu]

theorem settlePartial_link (p : PanelNo) : (s.settlePartial u).link p =
    if s.changeover.members.get p = some .queued then (s.link p).slateStaged (s.slatePicture p) else s.link p := by
  rw [settlePartial_eq, raiseBoth_link, link_of_links (State.composeRequests_links _ _ _), State.setChangeover_link,
    (stageSlates_spec _ s (membersAt_nodup _ _)).2]
  simp only [mem_membersAt]

theorem settlePartial_changeover : (s.settlePartial u).changeover = s.changeover.partlySettled u := by
  rw [settlePartial_eq, State.raiseBoth_changeover, State.composeRequests_changeover]
  rfl

theorem settlePartial_composer : (s.settlePartial u).composer =
    (s.composeRequests (s.changeover.membersAt .queued) (Reason.set .lagging)).composer := by
  rw [settlePartial_eq, State.raiseBoth_composer]
  refine composeRequests_composer_congr _ _ ?_ fun p => stageSlates_live (membersAt_nodup _ _) p
  rw [State.setChangeover_composer, (stageSlates_spec _ s (membersAt_nodup _ _)).1]

theorem settlePartial_timeLeft (t : TimerId) : (s.settlePartial u).timeLeft t = s.timeLeft t := by
  refine timeLeft_of_timers ?_ t
  rw [settlePartial_eq, State.raiseBoth_timers, State.composeRequests_timers, State.setChangeover_timers,
    (stageSlates_spec _ s (membersAt_nodup _ _)).1]

end Partial

/-- Settles O17: the expiry settles PARTIAL (`State.settlePartial`) on a state that differs from `s` in its timers
alone. -/
theorem changeoverLimitSettlesPartial : Obligations.ChangeoverLimitSettlesPartial := by
  intro s left u ht hu
  generalize hr : (s.elapse left).stopTimer .changeoverLimit = r
  have hexec := exec_changeoverLimitExpiry ht hu
  rw [hr] at hexec
  have hframe : r = { s with timers := r.timers } := by rw [← hr]; rfl
  have hlink : ∀ p, r.link p = s.link p := fun p => by rw [hframe]; rfl
  have hchangeover : r.changeover = s.changeover := by rw [hframe]
  have hslate : ∀ p, r.slatePicture p = s.slatePicture p := fun p => by rw [hframe]; rfl
  refine ⟨_, hexec, ?changeover, fun p hp => ?others, fun p hp => ?slate, ?composer, ?limit, ?store, ?media, ?frame⟩
  case changeover => rw [settlePartial_changeover, hchangeover]; rfl
  case others => rw [settlePartial_link, hchangeover, if_neg hp, hlink]
  case slate =>
    rw [settlePartial_link, hchangeover, if_pos hp, hlink, hslate]
    exact ⟨_, rfl, rfl, filledPicture_filled _ _, rfl, rfl⟩
  case composer =>
    rw [settlePartial_composer, hchangeover]
    exact composeRequests_composer_congr _ _ (by rw [hframe]) fun p => live_of_links (by rw [hframe]) p
  case limit => rw [settlePartial_timeLeft, ← hr]; exact State.stopTimer_timeLeft_self _ _
  case store => rw [settlePartial_eq]; exact raiseBoth_flagSet_store _ (by decide)
  case media => rw [settlePartial_eq]; exact raiseBoth_flagSet_media _ (by decide)
  case frame => rw [hframe]; apply State.eq_of_fields <;> simp

end Sys2Proof.Machine
end
section
/-! PROOFS. FREEZE (chapter 9): the statement O19. -/
namespace Sys2Proof.Machine

/-! ## FREEZE, outcome by outcome (R179) -/

section FreezeOutcomes

variable {s : State} {mode : Byte} {m : FreezeMode} {role : WritingRole}

theorem freezeMode?_eq_none (h : 1 < mode.toNat) : freezeMode? mode = none := by
  unfold freezeMode?
  split
  · omega
  · omega
  · rfl

theorem freezeMode?_isSome (h : mode.toNat ≤ 1) : ∃ m, freezeMode? mode = some m := by
  obtain h | h : mode.toNat = 0 ∨ mode.toNat = 1 := by omega
  · exact ⟨.stopNow, by simp only [freezeMode?, h]⟩
  · exact ⟨.stopAfter, by simp only [freezeMode?, h]⟩

theorem freeze_of_badMode (hm : freezeMode? mode = none) : freeze role [mode] s = (.refuse .badField, s) := by
  simp only [freeze, List.getD_cons_zero, hm]

theorem freeze_of_held {held : FreezeMode} {owner : WritingRole} (hm : freezeMode? mode = some m)
    (hf : s.freeze.state.holder = some (held, owner)) : freeze role [mode] s =
      (⟨.freezeActive, [s.freeze.state.byte, held.byte, requesterByte owner]⟩, s) := by
  simp only [freeze, List.getD_cons_zero, hm, hf]

theorem freeze_of_changeover (hm : freezeMode? mode = some m) (hf : s.freeze.state = .off)
    (hc : s.changeover.controller ≠ .idle) : freeze role [mode] s = (.refuse .busy, s) := by
  simp only [freeze, List.getD_cons_zero, hm, hf, FreezeState.holder, ne_eq, hc, not_false_eq_true, if_true]

theorem freeze_of_idle (hm : freezeMode? mode = some m) (hf : s.freeze.state = .off)
    (hc : s.changeover.controller = .idle) : freeze role [mode] s =
      (.ok [(s.takeFreeze m role).freeze.state.byte], s.takeFreeze m role) := by
  simp only [freeze, List.getD_cons_zero, hm, hf, FreezeState.holder, ne_eq, hc, not_true_eq_false, if_false]

theorem exec_freeze (s : State) (role : WritingRole) (tag : Byte) (payload : List Byte) :
    exec (.freeze (portOfRole role) tag payload) s =
      .next (s.request .freeze (portOfRole role) tag payload (freeze role payload)) := by
  cases role <;> rfl

theorem freeze_refused (h : s.Takes (portOfRole role)) {tag : Byte} {status : Status} {payload : List Byte}
    (ho : freeze role [mode] (s.clockIn (portOfRole role) 7) =
      (⟨status, payload⟩, s.clockIn (portOfRole role) 7)) :
    AnswersOnly s (.freeze (portOfRole role) tag [mode]) (portOfRole role) (refusalOf .freeze tag status payload) :=
  answersOnly_of_takes (t := .freeze) (payload := [mode]) h (writers_hold role) (Nat.le_refl _) (Nat.le_refl _)
    (exec_freeze s role tag [mode]) ho rfl

theorem exec_freeze_of_idle (h : s.Takes (portOfRole role)) (tag : Byte) (hm : freezeMode? mode = some m)
    (hf : s.freeze.state = .off) (hc : s.changeover.controller = .idle) :
    exec (.freeze (portOfRole role) tag [mode]) s =
      .next (((s.clockIn (portOfRole role) 7).takeFreeze m role).holdAnswer (portOfRole role)
        (okTo .freeze tag [((s.clockIn (portOfRole role) 7).takeFreeze m role).freeze.state.byte])) :=
  (exec_freeze s role tag [mode]).trans
    (request_answers (t := .freeze) (payload := [mode]) h (writers_hold role) (Nat.le_refl _) (Nat.le_refl _)
      (freeze_of_idle hm (by rw [State.clockIn_freeze, hf]) (by rw [State.clockIn_changeover, hc])))

end FreezeOutcomes

/-! ## A freeze that is taken (R180, R63) -/

section TakeFreeze

variable {s r : State} {role : WritingRole}

theorem compositionCut_congr (hc : r.composer = s.composer) (hl : ∀ p, r.live p = s.live p) (c : Composition) :
    compositionCut r c = compositionCut s c := by
  unfold compositionCut
  rw [hc, hl]

/-- The state with the freeze record at `v` and the freeze limit started (R180). -/
def State.frozenWith (v : FreezeState) (s : State) : State :=
  (s.setFreeze { s.freeze with state := v, targetChanged := false }).startTimer .freezeLimit s.freezeLimitMs

theorem takeFreeze_stopAfter (s : State) (role : WritingRole) : s.takeFreeze .stopAfter role = s.frozenWith
    (if s.composer.engine.isSome then .freezing .stopAfter role else .frozen .stopAfter role) := rfl

theorem takeFreeze_stopNow (s : State) (role : WritingRole) :
    s.takeFreeze .stopNow role = (s.frozenWith (.frozen .stopNow role)).abandon := rfl

theorem abandon_engine (s : State) : s.abandon.composer.engine = none := by
  unfold State.abandon
  split
  · assumption
  · rfl

/-- STOP_NOW with the engine idle leaves the Composer, and otherwise cuts the composition short. -/
theorem takeFreeze_stopNow_composer (s : State) (role : WritingRole) :
    (s.composer.engine = none → (s.takeFreeze .stopNow role).composer = s.composer) ∧
    ∀ c, s.composer.engine = some c → (s.takeFreeze .stopNow role).composer = compositionCut s c := by
  rw [takeFreeze_stopNow]
  refine ⟨fun h => ?_, fun c h => ?_⟩
  · rw [abandon_of_none (s := s.frozenWith (.frozen .stopNow role)) h]
    rfl
  · rw [abandon_of_some (s := s.frozenWith (.frozen .stopNow role)) h]
    rfl

theorem takeFreeze_stopNow_freeze (s : State) (role : WritingRole) : (s.takeFreeze .stopNow role).freeze =
    { s.freeze with state := .frozen .stopNow role, targetChanged := false } := by
  rw [takeFreeze_stopNow, State.abandon_freeze]
  rfl

theorem takeFreeze_stopNow_freezeLimit (s : State) (role : WritingRole) :
    (s.takeFreeze .stopNow role).timeLeft .freezeLimit = some s.freezeLimitMs := by
  rw [takeFreeze_stopNow, timeLeft_of_timers (State.abandon_timers _)]
  exact State.startTimer_timeLeft_self _ _ _

end TakeFreeze

/-- Settles O19: the refusals are those of `freeze` in its order; a freeze that is taken is `State.takeFreeze` on a state
that differs from `s` in its ports alone. -/
theorem freezeTakesHold : Obligations.FreezeTakesHold := by
  refine ⟨fun s role tag mode status payload h hcase => freeze_refused h ?refused, fun s role tag h hoff hidle => ?taken⟩
  case refused =>
    have hfreeze : (s.clockIn (portOfRole role) 7).freeze = s.freeze := State.clockIn_freeze _ _ _
    rcases hcase with ⟨hmode, rfl, rfl⟩ | ⟨hmode, rfl, m, r, hheld⟩ | ⟨hmode, hoff, hc, rfl, rfl⟩
    case inl => exact freeze_of_badMode (freezeMode?_eq_none hmode)
    case inr.inl =>
      obtain ⟨k, hk⟩ := freezeMode?_isSome hmode
      rw [← freezeMode_place, ← requester_place] at hheld
      rcases hheld with ⟨hstate, rfl⟩ | ⟨hstate, rfl⟩
      · rw [freeze_of_held hk (by rw [hfreeze, hstate]; rfl), hfreeze, hstate]
        rfl
      · rw [freeze_of_held hk (by rw [hfreeze, hstate]; rfl), hfreeze, hstate]
        rfl
    case inr.inr =>
      obtain ⟨k, hk⟩ := freezeMode?_isSome hmode
      exact freeze_of_changeover hk (by rw [hfreeze, hoff]) (by rw [State.clockIn_changeover]; exact hc)
  case taken =>
    generalize hu : s.clockIn (portOfRole role) 7 = u
    have hframe : u = { s with ports := u.ports } := by rw [← hu]; exact clockIn_eq _ _ _
    have hcomposer : u.composer = s.composer := by rw [hframe]
    have hfreeze : u.freeze = s.freeze := by rw [hframe]
    have hlimit : u.freezeLimitMs = s.freezeLimitMs := by rw [hframe]; rfl
    have hlive : ∀ p, u.live p = s.live p := live_of_links (by rw [hframe])
    refine ⟨⟨(u.takeFreeze .stopNow role).holdAnswer (portOfRole role) (okTo .freeze tag [2]), ?nowExec,
      answeredOn_of_ports (n := 7) (by rw [hu]; simp) _, ?nowFreeze, abandon_engine _, ?nowLimit, fun he => ?nowIdle,
      fun c he => ?nowCut, ?nowFrame⟩, ⟨(u.takeFreeze .stopAfter role).holdAnswer (portOfRole role)
        (okTo .freeze tag [if s.composer.engine.isSome then 1 else 2]), ?afterExec,
      answeredOn_of_ports (n := 7) (by rw [hu]; rfl) _, ?afterFreeze, ?afterFrame⟩⟩
    case nowExec =>
      rw [exec_freeze_of_idle h tag (m := .stopNow) rfl hoff hidle, hu, takeFreeze_stopNow_freeze]
      rfl
    case nowFreeze =>
      rw [State.holdAnswer_freeze, takeFreeze_stopNow_freeze, hfreeze]
    case nowLimit => exact (takeFreeze_stopNow_freezeLimit u role).trans (congrArg some hlimit)
    case nowIdle =>
      exact ((takeFreeze_stopNow_composer u role).1 (by rw [hcomposer, he])).trans hcomposer
    case nowCut =>
      exact ((takeFreeze_stopNow_composer u role).2 c (by rw [hcomposer, he])).trans
        (compositionCut_congr hcomposer hlive c)
    case nowFrame =>
      rw [hframe]
      apply State.eq_of_fields <;> simp
    case afterExec =>
      rw [exec_freeze_of_idle h tag (m := .stopAfter) rfl hoff hidle, hu, takeFreeze_stopAfter, hcomposer]
      cases s.composer.engine <;> rfl
    case afterFreeze => rw [State.holdAnswer_freeze, takeFreeze_stopAfter, hcomposer, ← hfreeze]; rfl
    case afterFrame =>
      rw [takeFreeze_stopAfter, hframe]
      rfl

end Sys2Proof.Machine
end
section
/-! PROOFS. The verdict of a verification (chapter 6): the statement O37. -/
namespace Sys2Proof.Machine

/-! ## Who uses a slot (R136 step 3) -/

theorem draws_iff (pl : Placement) (items : Table Item) (slot : Nat) : pl.draws items slot = true ↔
    pl.kind = .photo slot ∨
      ∃ item r, pl.kind = .itemPhoto item ∧ Table.find item items = some r ∧ r.photo = some slot := by
  unfold Placement.draws
  cases pl.kind <;> simp [Option.bind_eq_some_iff]

theorem usesSlot_iff (s : State) (slot : Nat) (p : PanelNo) : s.usesSlot slot p = true ↔ UsesPhoto s slot p := by
  unfold State.usesSlot UsesPhoto
  simp only [Bool.and_eq_true, List.any_eq_true, draws_iff]

/-- A rising list of panels is the filter of all panels by the panels it holds. -/
theorem rising_eq_filter {users : List PanelNo} {f : PanelNo → Bool} (h : users.Pairwise (fun a b => a < b))
    (hf : ∀ p, p ∈ users ↔ f p = true) : users = allPanels.filter f := by
  have hrising : (allPanels.filter f).Pairwise fun a b => a < b :=
    List.Pairwise.filter _ (by decide : allPanels.Pairwise fun a b => a < b)
  have hmembers : ∀ p, p ∈ users ↔ p ∈ allPanels.filter f := fun p => by
    rw [hf, List.mem_filter]
    exact ⟨fun hp => ⟨mem_allPanels p, hp⟩, fun hp => hp.2⟩
  have hperm : users.Perm (allPanels.filter f) :=
    (List.perm_ext_iff_of_nodup (h.imp Fin.ne_of_lt) (hrising.imp Fin.ne_of_lt)).2 hmembers
  exact hperm.eq_of_pairwise (fun _ _ _ _ hab hba => absurd hab (Fin.lt_asymm hba)) h hrising

/-! ## The judgement (R136 steps 1 and 2) -/

section Judged

variable {m : PhotoMemory} {k : Nat} {r : Slot}

theorem intact_of_find (h : Table.find k m.slots = some r) :
    m.intact k = decide (crc32 (m.memory.photo r.range) = r.checksum) := by
  simp only [PhotoMemory.intact, h]

/-- A judged slot takes its verdict, and every other slot stands. -/
theorem find_judged (h : Table.find k m.slots = some r) (j : Nat) : Table.find j (m.judged k).slots =
    if j = k then some { r with
      state := if crc32 (m.memory.photo r.range) = r.checksum then .ready else .damaged .verifyChecksum }
    else Table.find j m.slots := by
  have hslots : (m.judged k).slots = Table.insert k { r with
      state := if m.intact k then .ready else .damaged .verifyChecksum } m.slots := by
    simp only [PhotoMemory.judged, PhotoMemory.setState, h]
  rw [hslots, intact_of_find h]
  by_cases hj : j = k
  · subst hj
    simp
  · rw [if_neg hj, Table.find_insert_of_ne (Ne.symm hj)]

theorem judged_frame (h : Table.find k m.slots = some r) : m.judged k = { m with
    slots := (m.judged k).slots, verifyQueue := m.verifyQueue.filter (fun j => j ≠ k), verifying := none } := by
  simp only [PhotoMemory.judged, PhotoMemory.setState, h]

theorem takeNext_frame (m : PhotoMemory) :
    m.takeNext = { m with slots := m.takeNext.slots, verifying := m.takeNext.verifying } := by
  cases h : m.nextVerify with
  | none => rw [takeNext_of_none h]
  | some k =>
    conv => lhs; rw [(takeNext_of_some h).1]
    rw [(takeNext_of_some h).1]

/-- What an idle engine takes next comes from the queue and becomes VERIFYING, and every other slot stands (R133). -/
theorem takeNext_spec (hidle : m.verifying = none) :
    (∀ j, m.takeNext.verifying = some j → j ∈ m.verifyQueue) ∧
    ∀ j, Table.find j m.takeNext.slots =
      if m.takeNext.verifying = some j then (Table.find j m.slots).map (fun q => { q with state := .verifying })
      else Table.find j m.slots := by
  cases h : m.nextVerify with
  | none =>
    rw [takeNext_of_none h, hidle]
    exact ⟨nofun, fun j => rfl⟩
  | some k =>
    obtain ⟨hframe, hslots⟩ := takeNext_of_some h
    have hv : m.takeNext.verifying = some k := by rw [hframe]
    rw [hv]
    refine ⟨fun j hj => ?_, fun j => ?_⟩
    · cases hj
      exact (nextVerify_some h).2.1
    · rw [hslots]
      simp only [Option.some.injEq, eq_comm]

end Judged

/-! ## The completion (R136) -/

section Verified

variable {s : State} {k : Nat}

/-- The state after steps 1 to 3 of R136: the slot has its verdict, and a READY slot's users are asked for. -/
def State.slotJudged (s : State) (k : Nat) : State :=
  if s.photo.intact k then
    (s.setPhoto (s.photo.judged k)).composeRequests
      (allPanels.filter ((s.setPhoto (s.photo.judged k)).usesSlot k)) (Reason.set .photo)
  else s.setPhoto (s.photo.judged k)

theorem verified_eq (s : State) (k : Nat) : s.verified k =
    if (s.slotJudged k).photo.verifyQueue = [] then (s.slotJudged k).raise .verifyDone .media
    else (s.slotJudged k).setPhoto (s.slotJudged k).photo.takeNext := rfl

theorem exec_verificationComplete (h : s.photo.verifying = some k) :
    exec .verificationComplete s = .next (s.verified k) := by
  simp only [exec, execVerificationComplete, h]

theorem slotJudged_photo (s : State) (k : Nat) : (s.slotJudged k).photo = s.photo.judged k := by
  unfold State.slotJudged
  split
  · rw [State.composeRequests_photo]; rfl
  · rfl

theorem takeNext_of_empty {m : PhotoMemory} (h : m.verifyQueue = []) : m.takeNext = m := by
  refine takeNext_of_none ?_
  unfold PhotoMemory.nextVerify
  split
  · rfl
  · rw [h]; rfl

theorem verified_photo_takeNext (s : State) (k : Nat) : (s.verified k).photo = (s.photo.judged k).takeNext := by
  rw [verified_photo]
  split
  · next h => rw [takeNext_of_empty h]
  · rfl

theorem verified_verifyDone (h : (s.photo.judged k).verifyQueue = []) : FlagSet (s.verified k) .media .verifyDone := by
  rw [verified_eq, slotJudged_photo, if_pos h]
  exact raise_flag _ _ rfl (by decide)

theorem verified_composer (s : State) (k : Nat) : (s.verified k).composer =
    if s.photo.intact k then (s.composeRequests (allPanels.filter (s.usesSlot k)) (Reason.set .photo)).composer
    else s.composer := by
  have hjudged : (s.verified k).composer = (s.slotJudged k).composer := by
    rw [verified_eq]
    split
    · rw [State.raise_composer]
    · rfl
  rw [hjudged]
  unfold State.slotJudged
  split
  · exact composeRequests_composer_congr _ _ rfl fun _ => rfl
  · rfl

end Verified

/-- Settles O37: the slot is judged (`find_judged`), the users of a READY slot are asked for, and the engine goes on to the
queue's next slot (`takeNext_spec`). -/
theorem verificationJudgesSlot : Obligations.VerificationJudgesSlot := by
  intro s k r hv hr
  have hjudged := judged_frame hr
  have hqueue : (s.photo.judged k).verifyQueue = s.photo.verifyQueue.filter (fun j => j ≠ k) := by rw [hjudged]
  obtain ⟨htaken, hslots⟩ := takeNext_spec (m := s.photo.judged k) (by rw [hjudged])
  have hframe := takeNext_frame (s.photo.judged k)
  have hnotk : (s.photo.judged k).takeNext.verifying ≠ some k := fun h => by
    have hk := htaken k h
    rw [hqueue] at hk
    simpa using (List.mem_filter.1 hk).2
  have hnextQueue : (s.verified k).photo.verifyQueue = s.photo.verifyQueue.filter (fun j => j ≠ k) := by
    rw [verified_photo_takeNext, hframe, hjudged]
  refine ⟨s.verified k, exec_verificationComplete hv, ?verdict, hnextQueue, ?idle, fun hempty => ?done, fun j hj => ?others,
    fun j hj => ?waits, ?memory, ?free, fun hbad => ?damaged, fun users hrising husers hgood => ?ready, ?frame⟩
  case verdict => rw [verified_photo_takeNext, hslots, if_neg hnotk, find_judged hr, if_pos rfl]
  case idle => rw [verified_photo_takeNext]; exact hnotk
  case done =>
    have hempty : (s.photo.judged k).verifyQueue = [] := by rw [hqueue, ← hnextQueue, hempty]
    refine ⟨?_, verified_verifyDone hempty⟩
    rw [verified_photo_takeNext, takeNext_of_empty hempty, hjudged]
  case others => rw [verified_photo_takeNext, hslots, find_judged hr, if_neg hj]
  case waits =>
    rw [verified_photo_takeNext] at hj
    rw [hnextQueue, ← hqueue]
    exact htaken j hj
  case memory => rw [verified_photo_takeNext, hframe, hjudged]
  case free => rw [verified_photo_takeNext, hframe, hjudged]
  case damaged => rw [verified_composer, intact_of_find hr, decide_eq_false hbad]; rfl
  case ready =>
    rw [verified_composer, intact_of_find hr, decide_eq_true hgood, if_pos rfl,
      rising_eq_filter hrising fun p => (husers p).trans (usesSlot_iff s k p).symm]
  case frame => apply State.eq_of_fields <;> simp

end Sys2Proof.Machine
end
section
/-! PROOFS. What the changes of a link's state make of its record and its timers (chapter 5), and a lock that is lost: the
statement O23. -/
namespace Sys2Proof.Machine

/-! ## A departure (R48, R82, R99) -/

section Departure

variable {s r t : State} {p : PanelNo}

/-- The checks bring no panel into the member set. -/
theorem checkMembers_noMember (h : s.changeover.members.get p = none) :
    s.checkMembers.changeover.members.get p = none := by
  unfold State.checkMembers
  split
  · exact h
  · next u _ =>
    dsimp only
    split
    · rw [(settleDone_settled u).1]
      exact PerPanel.get_ofFn _ p
    · split <;> exact h

theorem memberLeaves_noMember (s : State) (p : PanelNo) : (s.memberLeaves p).changeover.members.get p = none := by
  unfold State.memberLeaves
  split
  · assumption
  · exact checkMembers_noMember (PerPanel.get_set_self _ _ _)

theorem leaveLive_noMember (s : State) (p : PanelNo) : (s.leaveLive p).changeover.members.get p = none := by
  unfold State.leaveLive
  exact memberLeaves_noMember _ p

/-- What a departure says of the state before is its Composer, its changeover with the limit, and the link's sequence. -/
theorem LeftLive.of_before (h : LeftLive r t p) (hs : (r.link p).sequence = (s.link p).sequence)
    (hc : r.composer = s.composer) (hg : r.changeover = s.changeover)
    (ht : r.timeLeft .changeoverLimit = s.timeLeft .changeoverLimit) : LeftLive s t p := by
  obtain ⟨hshowing, hstaged, hconfirmed, hsequence, hsilence, hperiod, hcomposer, hmembers⟩ := h
  exact ⟨hshowing, hstaged, hconfirmed, hsequence.trans hs, hsilence, hperiod,
    hcomposer.trans (composerWithout_congr hc fun _ => rfl), hmembers.of_before hg ht⟩

theorem LeftLive.notQueued (h : LeftLive s t p) : ∀ e ∈ t.composer.queue, e.panel ≠ p := by
  obtain ⟨-, -, -, -, -, -, hcomposer, -⟩ := h
  intro e he
  rw [hcomposer] at he
  simpa [composerWithout] using (List.mem_filter.1 he).2

end Departure

/-! ## Entering TRAINING and REJECTED (R95, R97) -/

section Enter

variable {s : State} {p q : PanelNo} {u : TimerId}

theorem enterTraining_link_self (s : State) (p : PanelNo) : (s.enterTraining p).link p = { s.link p with
    state := .training, restarts := if (s.link p).state = .training then (s.link p).restarts else 0 } :=
  State.setLink_link_self _ _ _

theorem enterTraining_link_other (h : q ≠ p) : (s.enterTraining p).link q = s.link q :=
  State.setLink_link_of_ne _ h _

theorem enterTraining_trainingLimit (s : State) (p : PanelNo) :
    (s.enterTraining p).timeLeft (.trainingLimit p) = some 250 := State.startTimer_timeLeft_self _ _ _

theorem enterTraining_timeLeft_other (h : u ≠ .trainingLimit p) : (s.enterTraining p).timeLeft u = s.timeLeft u :=
  startTimer_timeLeft_other _ h _

theorem enterRejected_link_self (s : State) (p : PanelNo) :
    (s.enterRejected p).link p = { s.link p with state := .rejected } := by
  unfold State.enterRejected
  rw [raiseBoth_link, State.setLinkState_link_self]

theorem enterRejected_link_other (h : q ≠ p) : (s.enterRejected p).link q = s.link q := by
  unfold State.enterRejected
  rw [raiseBoth_link, State.setLinkState_link_of_ne _ h]

theorem enterRejected_timeLeft (s : State) (p : PanelNo) (u : TimerId) :
    (s.enterRejected p).timeLeft u = s.timeLeft u := by
  unfold State.enterRejected
  rw [raiseBoth_timeLeft, State.setLinkState_timeLeft]

theorem gridMatches_of_some {d : Descriptor} (h : (s.link p).descriptor = some d) :
    s.gridMatches p = decide (d.grid = s.grid p) := by
  simp only [State.gridMatches, h]

theorem trainOrReject_of_match (h : s.gridMatches p = true) : s.trainOrReject p = s.enterTraining p := if_pos h

theorem trainOrReject_of_mismatch (h : s.gridMatches p = false) : s.trainOrReject p = s.enterRejected p :=
  if_neg (by rw [h]; decide)

theorem trainOrReject_link_self (s : State) (p : PanelNo) : (s.trainOrReject p).link p = { s.link p with
    state := if s.gridMatches p then .training else .rejected
    restarts := if s.gridMatches p = true ∧ (s.link p).state ≠ .training then 0 else (s.link p).restarts } := by
  cases h : s.gridMatches p with
  | true =>
    rw [trainOrReject_of_match h, enterTraining_link_self]
    by_cases ht : (s.link p).state = .training <;> simp [ht]
  | false =>
    rw [trainOrReject_of_mismatch h, enterRejected_link_self]
    simp

theorem trainOrReject_timeLeft_other (h : u ≠ .trainingLimit p) : (s.trainOrReject p).timeLeft u = s.timeLeft u := by
  cases hg : s.gridMatches p with
  | true => rw [trainOrReject_of_match hg, enterTraining_timeLeft_other h]
  | false => rw [trainOrReject_of_mismatch hg, enterRejected_timeLeft]

/-- A link that has just begun to train carries the training pattern from its beginning (R97). -/
theorem forwardPath_of_trainingBegun (hs : (s.link p).state = .training)
    (ht : s.timeLeft (.trainingLimit p) = some 250) : s.forwardPath p = .trainingPattern 0 := by
  obtain ⟨-, -, htraining, -⟩ := forwardPath_of_state s p
  exact htraining 250 hs ht

end Enter

/-! ## A lock that is lost (R100) -/

section LoseLock

variable {s : State} {p : PanelNo}

theorem loseLock_of_live (h : s.live p = true) :
    s.loseLock p = ((s.leaveLive p).raiseBoth .panelEvent).enterTraining p := if_pos h

theorem live_ne_training (h : s.live p = true) : (s.link p).state ≠ .training := fun ht => by
  unfold State.live at h
  rw [ht] at h
  cases h

theorem loseLock_link_self (h : s.live p = true) : (s.loseLock p).link p = { s.link p with
    state := .training, restarts := 0, showing := none, staged := none, confirmed := none, transmitting := none
    mismatchMark := false } := by
  rw [loseLock_of_live h, enterTraining_link_self, raiseBoth_link, leaveLive_link]
  simp [live_ne_training h]

theorem loseLock_link_other (h : s.live p = true) {q : PanelNo} (hq : q ≠ p) : (s.loseLock p).link q = s.link q := by
  rw [loseLock_of_live h, enterTraining_link_other hq, raiseBoth_link, leaveLive_link_of_ne hq]

theorem loseLock_trainingLimit (h : s.live p = true) : (s.loseLock p).timeLeft (.trainingLimit p) = some 250 := by
  rw [loseLock_of_live h, enterTraining_trainingLimit]

theorem loseLock_noMember (h : s.live p = true) : (s.loseLock p).changeover.members.get p = none := by
  rw [loseLock_of_live h, State.enterTraining_changeover, State.raiseBoth_changeover, leaveLive_noMember]

theorem loseLock_panelEvent (h : s.live p = true) :
    FlagSet (s.loseLock p) .store .panelEvent ∧ FlagSet (s.loseLock p) .media .panelEvent := by
  rw [loseLock_of_live h]
  exact ⟨raiseBoth_flagSet_store (s := s.leaveLive p) _ (by decide),
    raiseBoth_flagSet_media (s := s.leaveLive p) _ (by decide)⟩

theorem loseLock_left (h : s.live p = true) : LeftLive s (s.loseLock p) p := by
  refine (leaveLive_left s p).of_eq ?showing ?staged ?confirmed ?sequence ?composer ?changeover (fun u hu => ?timers)
    fun q f hf => ?flags
  case showing | staged | confirmed | sequence => rw [loseLock_link_self h, leaveLive_link]
  case composer => rw [loseLock_of_live h, State.enterTraining_composer, State.raiseBoth_composer]
  case changeover => rw [loseLock_of_live h, State.enterTraining_changeover, State.raiseBoth_changeover]
  case timers =>
    have hother : u ≠ .trainingLimit p := by rintro rfl; simp at hu
    rw [loseLock_of_live h, enterTraining_timeLeft_other hother, raiseBoth_timeLeft]
  case flags =>
    rw [loseLock_of_live h]
    exact raise_keeps_flag _ _ _ _ _ (raise_keeps_flag _ _ _ _ _ hf)

theorem exec_unlocked (hr : s.phase = .running) (hl : s.live p = true) :
    exec (.unlocked p) s = .next ((s.countGood p).loseLock p) :=
  congrArg Host.Outcome.next (if_pos (listens_of_live hr hl))

theorem exec_lockSilenceExpiry {left : Nat} (h : s.timeLeft (.lockSilence p) = some left) :
    exec (.lockSilenceExpiry p) s = .next (((s.elapse left).stopTimer (.lockSilence p)).loseLock p) :=
  congrArg Host.Outcome.next (onExpiry_running h _)

end LoseLock

/-- Settles O23: either event is `State.loseLock` on a state that differs from `r` in the link's count of good reports and
in timers other than the changeover limit. -/
theorem lockLossReturnsLinkToTraining : Obligations.LockLossReturnsLinkToTraining := by
  intro s p c r hrun hlive hevent
  obtain ⟨v, hexec, hframe, hself, hlink, hlimit, hr⟩ : ∃ v : State, exec c s = .next (v.loseLock p) ∧
      v = { s with links := v.links, timers := v.timers } ∧
      v.link p = { s.link p with good := (v.link p).good } ∧ (∀ q, q ≠ p → v.link q = s.link q) ∧
      v.timeLeft .changeoverLimit = r.timeLeft .changeoverLimit ∧
      r.link p = s.link p ∧ r.composer = s.composer ∧ r.changeover = s.changeover := by
    rcases hevent with ⟨rfl, rfl⟩ | ⟨rfl, left, hleft, rfl⟩
    case inl =>
      refine ⟨r.countGood p, exec_unlocked hrun hlive, ?_, by rw [countGood_link_self], fun q hq => countGood_link_other hq,
        countGood_timeLeft_other nofun nofun, rfl, rfl, rfl⟩
      apply State.eq_of_fields <;> simp
    case inr =>
      exact ⟨_, exec_lockSilenceExpiry hleft, rfl, rfl, fun _ _ => rfl, stopTimer_timeLeft_other _ nofun, rfl, rfl, rfl⟩
  obtain ⟨hrlink, hrcomposer, hrchangeover⟩ := hr
  have hl : v.live p = true := by
    unfold State.live
    rw [hself]
    exact hlive
  have hstate : ((v.loseLock p).link p).state = .training := by rw [loseLock_link_self hl]
  have hleft : LeftLive r (v.loseLock p) p := by
    refine (loseLock_left hl).of_before ?_ ?_ ?_ hlimit
    · rw [hself, hrlink]
    · rw [hframe, hrcomposer]
    · rw [hframe, hrchangeover]
  obtain ⟨hstore, hmedia⟩ := loseLock_panelEvent hl
  refine ⟨_, hexec, hstate, ?restarts, ?descriptor, hleft, loseLock_trainingLimit hl,
    forwardPath_of_trainingBegun hstate (loseLock_trainingLimit hl), loseLock_noMember hl, hleft.notQueued, hstore, hmedia,
    fun q hq => ?others, ?frame⟩
  case restarts => rw [loseLock_link_self hl]
  case descriptor => rw [loseLock_link_self hl, hself]
  case others => rw [loseLock_link_other hl hq, hlink q hq]
  case frame =>
    rw [hframe]
    apply State.eq_of_fields <;> simp

end Sys2Proof.Machine
end
section
/-! PROOFS. The detach timer, link tests and dark causes (chapter 5): the statements O27, O28 and O29. -/
namespace Sys2Proof.Machine

/-! ## What a departure is told through -/

section Departures

variable {s t : State} {p : PanelNo}

theorem LeftLive.holdAnswer (h : LeftLive s t p) (port : PortId) (a : Answer) : LeftLive s (t.holdAnswer port a) p :=
  h.of_eq rfl rfl rfl rfl rfl rfl (fun _ _ => rfl) fun _ _ => holdAnswer_flagSet _ _

theorem LeftLive.setLinkState (h : LeftLive s t p) (v : LinkState) : LeftLive s (t.setLinkState p v) p := by
  refine h.of_eq ?_ ?_ ?_ ?_ rfl rfl (fun _ _ => rfl) fun _ _ hf => hf <;> rw [State.setLinkState_link_self]

end Departures

/-! ## The detach timer (R101) -/

section Detach

variable {s : State} {p : PanelNo}

/-- What a link leaves of its state's work as it detaches (R101): the lock of a live link, a running test, training. -/
def State.leaveState (p : PanelNo) (s : State) : State :=
  match (s.link p).state with
  | .locked => s.leaveLive p
  | .streaming => s.leaveLive p
  | .test => s.endTest p .aborted
  | .training => s.stopTimer (.trainingLimit p)
  | .off => s
  | .detached => s
  | .rejected => s
  | .dark => s

theorem detach_eq (s : State) (p : PanelNo) : s.detach p = ((s.leaveState p).setLink p
    { (s.leaveState p).link p with descriptor := none, state := .detached }).raiseBoth .panelEvent := rfl

theorem leaveState_of_live (h : s.live p = true) : s.leaveState p = s.leaveLive p := by
  obtain h | h := (linkState_live_iff _).1 h <;> simp only [State.leaveState, h]

theorem leaveState_of_test (h : (s.link p).state = .test) : s.leaveState p = s.endTest p .aborted := by
  simp only [State.leaveState, h]

theorem leaveState_of_training (h : (s.link p).state = .training) :
    s.leaveState p = s.stopTimer (.trainingLimit p) := by
  simp only [State.leaveState, h]

/-- The four things a link may leave. -/
theorem leaveState_cases (s : State) (p : PanelNo) :
    (s.live p = true ∧ s.leaveState p = s.leaveLive p) ∨
    (s.live p = false ∧ (s.leaveState p = s.endTest p .aborted ∨ s.leaveState p = s.stopTimer (.trainingLimit p) ∨
      s.leaveState p = s)) := by
  unfold State.live State.leaveState
  cases (s.link p).state <;> simp [LinkState.live]

theorem endTest_link_self (s : State) (p : PanelNo) (result : TestResult) : (s.endTest p result).link p =
    { s.link p with test := (s.link p).test.map fun r => { r with result := result } } := by
  unfold State.endTest
  dsimp only
  rw [raise_link, State.stopTimer_link, State.setLink_link_self]

theorem endTest_timeLeft_other {u : TimerId} (h : u ≠ .testSecond p) (result : TestResult) :
    (s.endTest p result).timeLeft u = s.timeLeft u := by
  unfold State.endTest
  dsimp only
  rw [raise_timeLeft, stopTimer_timeLeft_other _ h, State.setLink_timeLeft]

theorem leaveState_link (s : State) (p : PanelNo) : ((s.leaveState p).link p).causes = (s.link p).causes ∧
    ((s.leaveState p).link p).sequence = (s.link p).sequence := by
  obtain ⟨-, he⟩ | ⟨-, he | he | he⟩ := leaveState_cases s p <;> rw [he]
  · rw [leaveLive_link]; exact ⟨rfl, rfl⟩
  · rw [endTest_link_self]; exact ⟨rfl, rfl⟩
  · exact ⟨rfl, rfl⟩
  · exact ⟨rfl, rfl⟩

theorem leaveState_link_other {q : PanelNo} (hq : q ≠ p) : (s.leaveState p).link q = s.link q := by
  obtain ⟨-, he⟩ | ⟨-, he | he | he⟩ := leaveState_cases s p <;> rw [he]
  · exact leaveLive_link_of_ne hq
  · exact endTest_link_other hq _
  · rfl

theorem leaveState_of_dead (h : s.live p = false) :
    (s.leaveState p).composer = s.composer ∧ (s.leaveState p).changeover = s.changeover := by
  obtain ⟨hl, -⟩ | ⟨-, he | he | he⟩ := leaveState_cases s p
  · rw [h] at hl; cases hl
  all_goals rw [he]
  · exact ⟨State.endTest_composer _ _ _, State.endTest_changeover _ _ _⟩
  · exact ⟨rfl, rfl⟩
  · exact ⟨rfl, rfl⟩

theorem leaveState_detach (s : State) (p : PanelNo) :
    (s.leaveState p).timeLeft (.detach p) = s.timeLeft (.detach p) := by
  obtain ⟨-, he⟩ | ⟨-, he | he | he⟩ := leaveState_cases s p <;> rw [he]
  · rw [leaveLive_timeLeft (u := .detach p) _ _ nofun, if_neg (not_or.2 ⟨nofun, nofun⟩)]
  · exact endTest_timeLeft_other (u := .detach p) nofun _
  · exact stopTimer_timeLeft_other (u := .detach p) _ nofun

theorem detach_link_self (s : State) (p : PanelNo) : (s.detach p).link p =
    { (s.leaveState p).link p with descriptor := none, state := .detached } := by
  rw [detach_eq, raiseBoth_link, State.setLink_link_self]

theorem detach_link_other {q : PanelNo} (hq : q ≠ p) : (s.detach p).link q = s.link q := by
  rw [detach_eq, raiseBoth_link, State.setLink_link_of_ne _ hq, leaveState_link_other hq]

theorem detach_timeLeft (s : State) (p : PanelNo) (u : TimerId) :
    (s.detach p).timeLeft u = (s.leaveState p).timeLeft u := by
  rw [detach_eq, raiseBoth_timeLeft, State.setLink_timeLeft]

theorem detach_keeps_flag {q : PortId} {f : NoticeFlag} (h : FlagSet (s.leaveState p) q f) : FlagSet (s.detach p) q f :=
  raise_keeps_flag _ _ _ _ _ (raise_keeps_flag _ _ _ _ _ h)

theorem detach_composer (s : State) (p : PanelNo) : (s.detach p).composer = (s.leaveState p).composer := by
  rw [detach_eq, State.raiseBoth_composer, State.setLink_composer]

theorem detach_changeover (s : State) (p : PanelNo) : (s.detach p).changeover = (s.leaveState p).changeover := by
  rw [detach_eq, State.raiseBoth_changeover, State.setLink_changeover]

theorem detach_left (h : s.live p = true) : LeftLive s (s.detach p) p := by
  have he := leaveState_of_live h
  refine (leaveLive_left s p).of_eq ?showing ?staged ?confirmed ?sequence ?composer ?changeover (fun u _ => ?timers)
    fun q f hf => ?flags
  case showing | staged | confirmed | sequence => rw [detach_link_self, he]
  case composer => rw [detach_composer, he]
  case changeover => rw [detach_changeover, he]
  case timers => rw [detach_timeLeft, he]
  case flags => exact detach_keeps_flag (he ▸ hf)

theorem exec_detachTimerExpiry {left : Nat} (h : s.timeLeft (.detach p) = some left) (hf : (s.link p).state ≠ .off) :
    exec (.detachTimerExpiry p) s = .next (((s.elapse left).stopTimer (.detach p)).detach p) :=
  congrArg Host.Outcome.next ((onExpiry_running h _).trans (if_neg hf))

end Detach

/-- Settles O27: the expiry is `State.detach`, in which the link leaves its state's work (`State.leaveState`), on a state
that differs from `s` in its timers alone. -/
theorem detachForgetsPanel : Obligations.DetachForgetsPanel := by
  intro s p left hleft hfitted _
  generalize hv : (s.elapse left).stopTimer (.detach p) = v
  have hexec := exec_detachTimerExpiry hleft hfitted
  rw [hv] at hexec
  have hframe : v = { s with timers := v.timers } := by rw [← hv]; rfl
  have hlink : ∀ q, v.link q = s.link q := fun q => by rw [hframe]; rfl
  have hlive : v.live p = s.live p := by unfold State.live; rw [hlink]
  obtain ⟨hcauses, hsequence⟩ := leaveState_link v p
  rw [hlink] at hcauses hsequence
  have hself := detach_link_self v p
  have hstate : ((v.detach p).link p).state = .detached := by rw [hself]
  refine ⟨v.detach p, hexec, hstate, ?path, by rw [hself], by rw [hself]; exact hcauses, by rw [hself]; exact hsequence,
    fun hl => ⟨?left, ?member⟩, fun hl => ?dead, fun ht => ⟨?test, ?testTimer, ?testEnded⟩, fun ht => ?training, ?timer,
    raiseBoth_flagSet_store (s := State.setLink p _ _) _ (by decide),
    raiseBoth_flagSet_media (s := State.setLink p _ _) _ (by decide), fun q hq => ?others, ?frame⟩
  case path =>
    obtain ⟨-, hsilent, -⟩ := forwardPath_of_state (v.detach p) p
    exact hsilent (.inl hstate)
  case left =>
    rw [← hlive] at hl
    refine (detach_left hl).of_before ?_ ?_ ?_ ?_ <;> rw [← hv]
    · rfl
    · rfl
    · rfl
    · exact stopTimer_timeLeft_other _ nofun
  case member =>
    rw [← hlive] at hl
    rw [detach_changeover, leaveState_of_live hl, leaveLive_noMember]
  case dead =>
    rw [← hlive] at hl
    obtain ⟨hcomposer, hchangeover⟩ := leaveState_of_dead hl
    rw [detach_composer, hcomposer, detach_changeover, hchangeover, hframe]
    exact ⟨rfl, rfl⟩
  case test =>
    rw [← hlink p] at ht
    rw [hself, leaveState_of_test ht, endTest_link_self, hlink]
  case testTimer =>
    rw [← hlink p] at ht
    rw [detach_timeLeft, leaveState_of_test ht, endTest_testSecond]
  case testEnded =>
    rw [← hlink p] at ht
    refine detach_keeps_flag ?_
    rw [leaveState_of_test ht]
    exact endTest_testEnded _
  case training =>
    rw [← hlink p] at ht
    rw [detach_timeLeft, leaveState_of_training ht]
    exact State.stopTimer_timeLeft_self _ _
  case timer =>
    rw [detach_timeLeft, leaveState_detach, ← hv]
    exact State.stopTimer_timeLeft_self _ _
  case others => rw [detach_link_other hq, hlink]
  case frame =>
    rw [hframe]
    apply State.eq_of_fields <;> simp

/-! ## LINK_TEST (R113) -/

section LinkTest

variable {s : State} {p : PanelNo} {m : TestMode} {panel mode : Byte} {duration : Nat}

theorem testMode?_eq_none (h : 1 < mode.toNat) : testMode? mode = none := by
  unfold testMode?
  split
  · omega
  · omega
  · rfl

theorem testMode?_isSome (h : mode.toNat ≤ 1) : ∃ m, testMode? mode = some m := by
  obtain h | h : mode.toNat = 0 ∨ mode.toNat = 1 := by omega
  · exact ⟨.latched, by simp only [testMode?, h]⟩
  · exact ⟨.live, by simp only [testMode?, h]⟩

theorem natOf_be_two (h : duration ≤ 65535) : natOf (be 2 duration) = duration := natOf_be (by omega)

theorem linkTest_of_badField (hd : duration ≤ 65535)
    (h : panel? panel = none ∨ testMode? mode = none ∨ duration < 1 ∨ 600 < duration) :
    linkTest ([panel, mode] ++ be 2 duration) s = (.refuse .badField, s) := by
  simp only [linkTest, List.cons_append, List.nil_append, List.getD_cons_zero, List.getD_cons_succ, List.drop_succ_cons,
    List.drop_zero, natOf_be_two hd]
  split
  · next hp hm =>
    rw [hp, hm] at h
    exact if_pos (by simpa using h)
  · rfl

theorem linkTest_of_inRange (hp : panel? panel = some p) (hm : testMode? mode = some m) (hlo : 1 ≤ duration)
    (hhi : duration ≤ 600) : linkTest ([panel, mode] ++ be 2 duration) s =
      if s.live p then (.ok [], s.startTest p m duration) else (.refuse .panelState, s) := by
  have hd : duration ≤ 65535 := Nat.le_trans hhi (by decide)
  simp only [linkTest, List.cons_append, List.nil_append, List.getD_cons_zero, List.getD_cons_succ, List.drop_succ_cons,
    List.drop_zero, natOf_be_two hd, hp, hm]
  exact if_neg (by omega)

theorem linkTest_refused (h : s.Takes .media) {tag : Byte} {status : Status}
    (ho : ∀ u : State, u.links = s.links → linkTest ([panel, mode] ++ be 2 duration) u = (.refuse status, u)) :
    AnswersOnly s (.linkTest .media tag ([panel, mode] ++ be 2 duration)) .media
      (refusalOf .linkTest tag status []) :=
  answersOnly_of_takes (t := .linkTest) (payload := [panel, mode] ++ be 2 duration) h rfl (Nat.le_of_eq (by simp; rfl))
    (Nat.le_of_eq (by simp; rfl)) rfl (ho _ (by simp)) rfl

theorem exec_linkTest_of_live (h : s.Takes .media) (hp : panel? panel = some p) (hm : testMode? mode = some m)
    (hlo : 1 ≤ duration) (hhi : duration ≤ 600) (hl : s.live p = true) (tag : Byte) :
    exec (.linkTest .media tag ([panel, mode] ++ be 2 duration)) s =
      .next (((s.clockIn .media 10).startTest p m duration).holdAnswer .media (okTo .linkTest tag [])) := by
  have hlive : (s.clockIn .media 10).live p = true := (live_of_links (State.clockIn_links _ _ _) p).trans hl
  exact request_answers (t := .linkTest) (payload := [panel, mode] ++ be 2 duration) h rfl
    (Nat.le_of_eq (by simp; rfl)) (Nat.le_of_eq (by simp; rfl))
    ((linkTest_of_inRange hp hm hlo hhi).trans (if_pos (by simpa using hlive)))

theorem startTest_link_self (s : State) (p : PanelNo) (m : TestMode) (duration : Nat) :
    (s.startTest p m duration).link p = { s.link p with
      state := .test, test := some ⟨m, duration, 0, 0, 0, false, .running⟩, showing := none, staged := none
      confirmed := none, transmitting := none, mismatchMark := false } := by
  unfold State.startTest
  dsimp only
  rw [State.startTimer_link, State.setLink_link_self, leaveLive_link]

theorem startTest_link_other {q : PanelNo} (hq : q ≠ p) : (s.startTest p m duration).link q = s.link q := by
  unfold State.startTest
  dsimp only
  rw [State.startTimer_link, State.setLink_link_of_ne _ hq, leaveLive_link_of_ne hq]

theorem startTest_testSecond (s : State) (p : PanelNo) (m : TestMode) (duration : Nat) :
    (s.startTest p m duration).timeLeft (.testSecond p) = some 1000 := State.startTimer_timeLeft_self _ _ _

theorem startTest_left (s : State) (p : PanelNo) (m : TestMode) (duration : Nat) :
    LeftLive s (s.startTest p m duration) p := by
  refine (leaveLive_left s p).of_eq ?showing ?staged ?confirmed ?sequence rfl rfl (fun u hu => ?timers) fun _ _ hf => hf
  case showing | staged | confirmed | sequence => rw [startTest_link_self, leaveLive_link]
  case timers =>
    have hother : u ≠ .testSecond p := by rintro rfl; simp at hu
    exact startTimer_timeLeft_other _ hother _

end LinkTest

/-- Settles O29: the refusals are those of `linkTest` in its order; a test that begins is `State.startTest` on a state that
differs from `s` in its ports alone. -/
theorem linkTestTakesLinkOutOfService : Obligations.LinkTestTakesLinkOutOfService := by
  refine ⟨fun s tag panel mode duration h hd => ⟨fun hbad => ?badField, fun p hp hmode hlo hhi hl => ?panelState⟩,
    fun s tag panel mode p m duration h hp hm hlo hhi hl => ?begins⟩
  case badField =>
    exact linkTest_refused h fun u _ => linkTest_of_badField (by omega)
      (hbad.imp panel?_eq_none (Or.imp_left testMode?_eq_none))
  case panelState =>
    obtain ⟨m, hm⟩ := testMode?_isSome hmode
    exact linkTest_refused h fun u hu => (linkTest_of_inRange hp hm hlo hhi).trans
      (if_neg (by rw [live_of_links hu, hl]; decide))
  case begins =>
    generalize hu : s.clockIn .media 10 = u
    have hframe : u = { s with ports := u.ports } := by rw [← hu]; exact clockIn_eq _ _ _
    have hlink : ∀ q, u.link q = s.link q := fun q => by rw [hframe]; rfl
    have hexec := exec_linkTest_of_live h hp hm hlo hhi hl tag
    rw [hu] at hexec
    generalize ht : (u.startTest p m duration).holdAnswer .media (okTo .linkTest tag []) = t at hexec
    have hself : t.link p = (u.startTest p m duration).link p := by rw [← ht]; rfl
    have hstate : (t.link p).state = .test := by rw [hself, startTest_link_self]
    have hleft : LeftLive s t p := by
      rw [← ht]
      refine ((startTest_left u p m duration).holdAnswer _ _).of_before ?_ ?_ ?_ ?_ <;> rw [hframe] <;> rfl
    obtain ⟨-, -, -, hpath, -⟩ := forwardPath_of_state t p
    refine ⟨t, hexec, ?answer, hstate, hpath hstate, ?record, ?timer, hleft, ?member, hleft.notQueued, fun q hq => ?others,
      ?frame⟩
    case answer => rw [← ht]; simp [Holds]
    case record => rw [hself, startTest_link_self]
    case timer => rw [← ht]; exact startTest_testSecond u p m duration
    case member => rw [← ht]; exact leaveLive_noMember u p
    case others => rw [← ht, State.holdAnswer_link, startTest_link_other hq, hlink]
    case frame =>
      rw [← ht, hframe]
      apply State.eq_of_fields <;> simp

/-! ## PANEL_DARK and PANEL_LIGHT (R109 to R111) -/

section Dark

variable {s u t : State} {p : PanelNo} {panel : Byte} {effect : PanelNo → Reply × State}

theorem onFittedPanel_of_noPanel (h : panel? panel = none) : onFittedPanel [panel] s effect = (.refuse .badField, s) := by
  simp only [onFittedPanel, List.getD_cons_zero, h]

theorem onFittedPanel_of_off (h : panel? panel = some p) (hf : (s.link p).state = .off) :
    onFittedPanel [panel] s effect = (.refuse .panelState, s) := by
  simp only [onFittedPanel, List.getD_cons_zero, h, hf, if_true]

theorem onFittedPanel_of_fitted (h : panel? panel = some p) (hf : (s.link p).state ≠ .off) :
    onFittedPanel [panel] s effect = effect p := by
  simp only [onFittedPanel, List.getD_cons_zero, h, hf, if_false]

/-- A first dark cause takes a live link DARK through its departure (R109). -/
theorem addCause_of_leaving (c : DarkCause) (h : leavesForDark s p = true) : s.addCause c p =
    ((s.setLink p { s.link p with causes := (s.link p).causes.add c }).leaveLive p).setLinkState p .dark := by
  obtain ⟨hl, he⟩ := (Bool.and_eq_true _ _).mp h
  unfold State.addCause
  dsimp only
  rw [if_pos ((isEmpty_iff _).2 (of_decide_eq_true he))]
  unfold State.enterDark
  rw [State.setLink_link_self]
  obtain hs | hs := (linkState_live_iff _).1 hl <;> rw [hs]

theorem addCause_left (c : DarkCause) (h : leavesForDark s p = true) :
    LeftLive s (s.addCause c p) p ∧ (s.addCause c p).changeover.members.get p = none := by
  rw [addCause_of_leaving c h]
  generalize hw : s.setLink p { s.link p with causes := (s.link p).causes.add c } = w
  refine ⟨((leaveLive_left w p).setLinkState .dark).of_before ?_ ?_ ?_ ?_, leaveLive_noMember w p⟩
  · rw [← hw, State.setLink_link_self]
  all_goals rw [← hw]; rfl

/-- A cause that takes no live link DARK leaves the Composer and the changeover. -/
theorem addCause_of_staying (c : DarkCause) (h : leavesForDark s p = false) :
    (s.addCause c p).composer = s.composer ∧ (s.addCause c p).changeover = s.changeover := by
  obtain ⟨-, hcomposer, hmembers⟩ := addCause_added s c p
  have hnone : ∀ q, (decide (q = p) && leavesForDark s q) = false := fun q => by
    by_cases hq : q = p
    · rw [hq, h, Bool.and_false]
    · rw [decide_eq_false hq, Bool.false_and]
  obtain ⟨hstays, -⟩ := hmembers
  exact ⟨hcomposer.trans (composerWithout_none hnone),
    (hstays fun q hq => absurd ((hnone q).symm.trans hq) Bool.false_ne_true).1⟩

/-- The removal of the cause REQUEST, of the last cause of a DARK link and of any other (R110). -/
theorem removeRequest_cases (s : State) (p : PanelNo) :
    ((s.link p).causes = ⟨true, false⟩ ∧ (s.link p).state = .dark ∧ s.removeCause .request p =
      (s.setLink p { s.link p with causes := { (s.link p).causes with request := false } }).trainOrReject p) ∨
    (¬ ((s.link p).causes = ⟨true, false⟩ ∧ (s.link p).state = .dark) ∧ s.removeCause .request p =
      s.setLink p { s.link p with causes := { (s.link p).causes with request := false } }) := by
  have hlast : ((s.link p).causes.isEmpty = false ∧ ((s.link p).causes.remove .request).isEmpty = true ∧
      (s.link p).state = .dark) ↔ ((s.link p).causes = ⟨true, false⟩ ∧ (s.link p).state = .dark) := by
    rcases (s.link p).causes with ⟨a, b⟩
    cases a <;> cases b <;> simp [DarkSet.isEmpty, DarkSet.remove]
  by_cases h : (s.link p).causes = ⟨true, false⟩ ∧ (s.link p).state = .dark
  · exact .inl ⟨h.1, h.2, if_pos (hlast.2 h)⟩
  · exact .inr ⟨h, if_neg fun g => h (hlast.1 g)⟩

theorem removeRequest_link (s : State) (p : PanelNo) :
    ((s.removeCause .request p).link p).causes = { (s.link p).causes with request := false } ∧
    ((s.removeCause .request p).link p).state =
      if (s.link p).causes = ⟨true, false⟩ ∧ (s.link p).state = .dark then
        (if s.gridMatches p then .training else .rejected) else (s.link p).state := by
  obtain ⟨hc, hd, he⟩ | ⟨hn, he⟩ := removeRequest_cases s p
  · generalize hw : s.setLink p { s.link p with causes := { (s.link p).causes with request := false } } = w at he
    have hlink : w.link p = { s.link p with causes := { (s.link p).causes with request := false } } := by
      rw [← hw, State.setLink_link_self]
    have hgrid : w.gridMatches p = s.gridMatches p := gridMatches_of_descriptor (by rw [hlink]) (by rw [← hw]; rfl)
    rw [he, if_pos ⟨hc, hd⟩, trainOrReject_link_self, hgrid, hlink]
    exact ⟨rfl, rfl⟩
  · rw [he, if_neg hn, State.setLink_link_self]
    exact ⟨rfl, rfl⟩

theorem removeRequest_panelEvent (hc : ((s.removeCause .request p).link p).state ≠ (s.link p).state)
    (hr : ((s.removeCause .request p).link p).state = .rejected) :
    FlagSet (s.removeCause .request p) .store .panelEvent ∧ FlagSet (s.removeCause .request p) .media .panelEvent := by
  obtain ⟨-, -, he⟩ | ⟨-, he⟩ := removeRequest_cases s p
  · rw [he] at hr ⊢
    exact trainOrReject_panelEvent hr
  · rw [he, State.setLink_link_self] at hc
    exact absurd rfl hc

theorem panelDark_refused (h : s.Takes .store) {tag : Byte} {status : Status}
    (ho : ∀ (u : State) (effect : PanelNo → Reply × State), u.links = s.links →
      onFittedPanel [panel] u effect = (.refuse status, u)) :
    AnswersOnly s (.panelDark .store tag [panel]) .store (refusalOf .panelDark tag status []) ∧
      AnswersOnly s (.panelLight .store tag [panel]) .store (refusalOf .panelLight tag status []) :=
  ⟨answersOnly_of_takes (t := .panelDark) (payload := [panel]) (owner := panelDark [panel]) h rfl (Nat.le_refl _)
      (Nat.le_refl _) rfl (ho _ _ (by simp)) rfl,
    answersOnly_of_takes (t := .panelLight) (payload := [panel]) (owner := panelLight [panel]) h rfl (Nat.le_refl _)
      (Nat.le_refl _) rfl (ho _ _ (by simp)) rfl⟩

theorem exec_panelDark_of_fitted (h : s.Takes .store) (hp : panel? panel = some p) (hf : (s.link p).state ≠ .off)
    (tag : Byte) : exec (.panelDark .store tag [panel]) s =
      .next (((s.clockIn .store 7).addCause .request p).holdAnswer .store
        (okTo .panelDark tag [(((s.clockIn .store 7).addCause .request p).link p).state.byte])) :=
  request_answers (t := .panelDark) (payload := [panel]) (owner := panelDark [panel]) h rfl (Nat.le_refl _)
    (Nat.le_refl _) (onFittedPanel_of_fitted hp (by rw [link_of_links (State.clockIn_links _ _ _)]; exact hf))

theorem exec_panelLight_of_fitted (h : s.Takes .store) (hp : panel? panel = some p) (hf : (s.link p).state ≠ .off)
    (tag : Byte) : exec (.panelLight .store tag [panel]) s =
      .next (((s.clockIn .store 7).removeCause .request p).holdAnswer .store
        (okTo .panelLight tag [(((s.clockIn .store 7).removeCause .request p).link p).state.byte])) :=
  request_answers (t := .panelLight) (payload := [panel]) (owner := panelLight [panel]) h rfl (Nat.le_refl _)
    (Nat.le_refl _) (onFittedPanel_of_fitted hp (by rw [link_of_links (State.clockIn_links _ _ _)]; exact hf))

end Dark

/-- Settles O28: the refusals are those of `onFittedPanel`; PANEL_DARK is `State.addCause` and PANEL_LIGHT
`State.removeCause`, on a state that differs from `s` in its ports alone. -/
theorem panelDarkAndLightMoveRequestCause : Obligations.PanelDarkAndLightMoveRequestCause := by
  refine ⟨fun s tag panel h => ⟨fun hbad => ?badField, fun p hp hoff => ?panelState⟩,
    fun s tag panel p h hp hf => ?dark, fun s tag panel p h hp hf => ?light⟩
  case badField => exact panelDark_refused h fun u _ _ => onFittedPanel_of_noPanel (panel?_eq_none hbad)
  case panelState =>
    exact panelDark_refused h fun u _ hu => onFittedPanel_of_off hp (by rw [link_of_links hu]; exact hoff)
  case dark =>
    generalize hu : s.clockIn .store 7 = u
    have hframe : u = { s with ports := u.ports } := by rw [← hu]; exact clockIn_eq _ _ _
    have hlink : ∀ q, u.link q = s.link q := fun q => by rw [hframe]; rfl
    have hleaves : leavesForDark u p = leavesForDark s p := by unfold leavesForDark State.live; rw [hlink]
    have hexec := exec_panelDark_of_fitted h hp hf tag
    rw [hu] at hexec
    generalize hw : u.addCause .request p = w at hexec
    obtain ⟨hadded, -, -⟩ := addCause_added u .request p
    obtain ⟨hothers, -, -⟩ := addCause_rest u .request p
    rw [hw] at hadded hothers
    rw [hlink] at hadded
    refine ⟨_, hexec, by simp [Holds], ?added, fun hl => ?leaves, fun hl => ?stays, fun hd => ?path, fun hc => ?further,
      fun q hq => (hothers q hq).trans (hlink q), ?frame⟩
    case added =>
      exact (hadded.of_before (hlink p) (by rw [hframe]; rfl)).of_eq rfl (fun _ _ => rfl)
        fun _ _ => holdAnswer_flagSet _ _
    case leaves =>
      rw [← hleaves] at hl
      obtain ⟨hleft, hmember⟩ := addCause_left .request hl
      rw [hw] at hleft hmember
      refine ⟨(hleft.holdAnswer _ _).of_before ?_ ?_ ?_ ?_, hmember⟩ <;> rw [hframe] <;> rfl
    case stays =>
      rw [← hleaves] at hl
      obtain ⟨hcomposer, hchangeover⟩ := addCause_of_staying .request hl
      rw [hw] at hcomposer hchangeover
      exact ⟨hcomposer.trans (by rw [hframe]), hchangeover.trans (by rw [hframe])⟩
    case path =>
      obtain ⟨hpath, -⟩ := forwardPath_of_state (w.holdAnswer .store (okTo .panelDark tag [(w.link p).state.byte])) p
      exact hpath (.inr hd)
    case further =>
      rw [← hw, addCause_of_causes .request (by rw [hlink]; exact hc), hframe]
      rfl
    case frame =>
      rw [← hw, hframe]
      apply State.eq_of_fields <;> simp
  case light =>
    generalize hu : s.clockIn .store 7 = u
    have hframe : u = { s with ports := u.ports } := by rw [← hu]; exact clockIn_eq _ _ _
    have hlink : ∀ q, u.link q = s.link q := fun q => by rw [hframe]; rfl
    have hgrid : u.gridMatches p = s.gridMatches p := gridMatches_of_descriptor (by rw [hlink]) (by rw [hframe])
    have hexec := exec_panelLight_of_fitted h hp hf tag
    rw [hu] at hexec
    obtain ⟨hcauses, hstate⟩ := removeRequest_link u p
    rw [hlink] at hcauses hstate
    rw [hgrid] at hstate
    refine ⟨_, hexec, by simp [Holds], hcauses, hstate, fun hc hr => ?panelEvent,
      fun q hq => (removeCause_link_of_ne hq _).trans (hlink q), ?frame⟩
    case panelEvent =>
      rw [← hlink p] at hc
      obtain ⟨hstore, hmedia⟩ := removeRequest_panelEvent hc hr
      exact ⟨holdAnswer_flagSet _ _ hstore, holdAnswer_flagSet _ _ hmedia⟩
    case frame =>
      rw [hframe]
      apply State.eq_of_fields <;> simp

end Sys2Proof.Machine
end
section
/-! PROOFS. A link that locks, or trains again at its limit (chapter 5): the statement O22. -/
namespace Sys2Proof.Machine

/-! ## Two requests for one panel (R46) -/

section AskedTwice

variable {s : State} {p : PanelNo}

theorem joinQueue_twice (p : PanelNo) (a b : ReasonSet) (queue : List QueueEntry) :
    joinQueue p b (joinQueue p a queue) = joinQueue p (a ||| b) queue := by
  by_cases h : ∃ e ∈ queue, e.panel = p
  · obtain ⟨e, he, hp⟩ := h
    rw [joinQueue_of_mem ⟨e, he, hp⟩, joinQueue_of_mem ⟨e, he, hp⟩,
      joinQueue_of_mem ⟨_, List.mem_map_of_mem he, by rw [if_pos hp]; exact hp⟩, List.map_map]
    refine List.map_congr_left fun x _ => ?_
    by_cases hx : x.panel = p
    · simp [hx, BitVec.or_assoc]
    · simp [hx]
  · have habsent : ∀ e ∈ queue, e.panel ≠ p := fun e he hp => h ⟨e, he, hp⟩
    rw [joinQueue_of_absent habsent, joinQueue_of_absent habsent,
      joinQueue_of_mem ⟨⟨p, a⟩, List.mem_append_right _ (List.mem_singleton_self _), rfl⟩, List.map_append]
    congr 1
    · exact (List.map_congr_left fun x hx => if_neg (habsent x hx)).trans (List.map_id _)
    · simp

/-- Two requests for a panel come to one with the reasons of both. -/
theorem composeRequest_twice (s : State) (p : PanelNo) (a b : ReasonSet) :
    ((s.composeRequest p a).composeRequest p b).composer = (s.composeRequest p (a ||| b)).composer := by
  cases hl : s.live p with
  | false => rw [composeRequest_of_dead hl, composeRequest_of_dead hl, composeRequest_of_dead hl]
  | true =>
    cases hc : s.composing p with
    | true =>
      obtain ⟨c, he, hp⟩ : ∃ c, s.composer.engine = some c ∧ c.panel = p := by
        unfold State.composing at hc
        split at hc
        · cases hc
        · next c he => exact ⟨c, he, of_decide_eq_true hc⟩
      rw [composeRequest_of_composed hl he hp, composeRequest_of_composed hl he hp]
      refine (congrArg State.composer (composeRequest_of_composed (s := s.setComposer { s.composer with
        engine := some { c with again := true, againReasons := c.againReasons ||| a } }) hl rfl hp b)).trans ?_
      simp [BitVec.or_assoc]
    | false =>
      rw [composeRequest_of_waiting hl hc, composeRequest_of_waiting hl hc]
      refine (congrArg State.composer (composeRequest_of_waiting (s := s.setComposer { s.composer with
        queue := joinQueue p a s.composer.queue }) hl hc b)).trans ?_
      simp [joinQueue_twice]

end AskedTwice

/-! ## A panel joins the changeover (R81) -/

section Joining

variable {s : State} {p : PanelNo}

/-- With a QUEUED member the checks change nothing. -/
theorem checkMembers_of_queued (hm : s.changeover.members.get p = some .queued) : s.checkMembers = s := by
  have hmem : p ∈ s.changeover.memberList := (mem_memberList _ _).2 (by rw [hm]; rfl)
  unfold State.checkMembers
  split
  · rfl
  · dsimp only
    rw [if_neg fun h => ?confirmed, if_neg fun h => ?past]
    case confirmed =>
      have := List.all_eq_true.1 h p hmem
      rw [hm] at this
      exact absurd this (by decide)
    case past =>
      have := List.all_eq_true.1 h p hmem
      rw [hm] at this
      exact absurd this (by decide)

theorem memberJoins_of_idle (h : s.changeover.controller = .idle) : s.memberJoins p = s := by
  unfold State.memberJoins
  rw [h]
  rfl

theorem inFlight_of_ne_idle (h : s.changeover.controller ≠ .idle) : ∃ u, s.changeover.controller.inFlight = some u := by
  cases hc : s.changeover.controller with
  | idle => exact absurd hc h
  | staging u => exact ⟨u, rfl⟩
  | armed u => exact ⟨u, rfl⟩

theorem memberJoins_of_changeover (h : s.changeover.controller ≠ .idle) : s.memberJoins p =
    (s.setChangeover { s.changeover with members := s.changeover.members.set p (some .queued) }).composeRequest p
      (Reason.set .changeover) := by
  obtain ⟨u, hu⟩ := inFlight_of_ne_idle h
  unfold State.memberJoins State.advance
  rw [hu]
  dsimp only
  rw [checkMembers_of_queued (p := p) (PerPanel.get_set_self _ _ _)]

theorem memberJoins_timeLeft (s : State) (p : PanelNo) (u : TimerId) : (s.memberJoins p).timeLeft u = s.timeLeft u := by
  by_cases h : s.changeover.controller = .idle
  · rw [memberJoins_of_idle h]
  · rw [memberJoins_of_changeover h, timeLeft_of_timers (State.composeRequest_timers _ _ _)]
    rfl

theorem memberJoins_changeover (s : State) (p : PanelNo) : (s.memberJoins p).changeover =
    if s.changeover.controller = .idle then s.changeover
    else { s.changeover with members := s.changeover.members.set p (some .queued) } := by
  by_cases h : s.changeover.controller = .idle
  · rw [memberJoins_of_idle h, if_pos h]
  · rw [memberJoins_of_changeover h, State.composeRequest_changeover, if_neg h]
    rfl

/-- The requests of a panel that locks merge: with reason LOCK, and in a changeover with CHANGEOVER too (R46, R81, R98). -/
theorem memberJoins_asked (s : State) (p : PanelNo) :
    ((s.memberJoins p).composeRequest p (Reason.set .lock)).composer =
      (s.composeRequest p (if s.changeover.controller = .idle then Reason.set .lock
        else Reason.set .changeover ||| Reason.set .lock)).composer := by
  by_cases h : s.changeover.controller = .idle
  · rw [memberJoins_of_idle h, if_pos h]
  · rw [memberJoins_of_changeover h, if_neg h, composeRequest_twice]
    refine composeRequest_composer_congr ?_ p _ ?_ <;> rfl

end Joining

/-! ## The lock (R98) -/

section Lock

variable {s : State} {p : PanelNo}

/-- The state after steps 1 to 4 of R98: the training limit stands stopped, the slate shows, the timers run. -/
def State.lockBegun (p : PanelNo) (s : State) : State :=
  (((s.stopTimer (.trainingLimit p)).setLink p ((s.link p).lockedWith (s.slatePicture p))).startTimer (.lockSilence p)
    100).startTimer (.framePeriod p) ((s.link p).lockedWith (s.slatePicture p)).framePeriodMs

theorem takeLocked_of_training (h : (s.link p).state = .training) : s.takeLocked p =
    (((s.lockBegun p).memberJoins p).composeRequest p (Reason.set .lock)).raiseBoth .panelEvent := by
  unfold State.takeLocked
  rw [if_pos h]
  dsimp only
  rw [State.setLink_link_self]
  rfl

theorem lockBegun_link_self (s : State) (p : PanelNo) :
    (s.lockBegun p).link p = (s.link p).lockedWith (s.slatePicture p) := State.setLink_link_self _ _ _

theorem lockBegun_link_other {q : PanelNo} (h : q ≠ p) : (s.lockBegun p).link q = s.link q :=
  State.setLink_link_of_ne _ h _

theorem lockBegun_trainingLimit (s : State) (p : PanelNo) : (s.lockBegun p).timeLeft (.trainingLimit p) = none := by
  have hperiod : TimerId.trainingLimit p ≠ .framePeriod p := nofun
  have hsilence : TimerId.trainingLimit p ≠ .lockSilence p := nofun
  unfold State.lockBegun
  rw [startTimer_timeLeft_other _ hperiod, startTimer_timeLeft_other _ hsilence, State.setLink_timeLeft,
    State.stopTimer_timeLeft_self]

theorem lockBegun_lockSilence (s : State) (p : PanelNo) : (s.lockBegun p).timeLeft (.lockSilence p) = some 100 := by
  have hperiod : TimerId.lockSilence p ≠ .framePeriod p := nofun
  unfold State.lockBegun
  rw [startTimer_timeLeft_other _ hperiod, State.startTimer_timeLeft_self]

theorem lockBegun_framePeriod {d : Descriptor} (h : (s.link p).descriptor = some d) :
    (s.lockBegun p).timeLeft (.framePeriod p) = some d.period := by
  unfold State.lockBegun
  rw [State.startTimer_timeLeft_self]
  simp only [Link.framePeriodMs, Link.lockedWith, h]

theorem takeLocked_link (h : (s.link p).state = .training) (q : PanelNo) :
    (s.takeLocked p).link q = (s.lockBegun p).link q := by
  rw [takeLocked_of_training h, raiseBoth_link, link_of_links (State.composeRequest_links _ _ _),
    link_of_links (State.memberJoins_links _ _)]

theorem takeLocked_timeLeft (h : (s.link p).state = .training) (u : TimerId) :
    (s.takeLocked p).timeLeft u = (s.lockBegun p).timeLeft u := by
  rw [takeLocked_of_training h, raiseBoth_timeLeft, timeLeft_of_timers (State.composeRequest_timers _ _ _),
    memberJoins_timeLeft]

theorem takeLocked_changeover (h : (s.link p).state = .training) : (s.takeLocked p).changeover =
    if s.changeover.controller = .idle then s.changeover
    else { s.changeover with members := s.changeover.members.set p (some .queued) } := by
  rw [takeLocked_of_training h, State.raiseBoth_changeover, State.composeRequest_changeover, memberJoins_changeover]
  rfl

theorem takeLocked_composer (h : (s.link p).state = .training) : (s.takeLocked p).composer =
    ((s.lockBegun p).composeRequest p (if s.changeover.controller = .idle then Reason.set .lock
      else Reason.set .changeover ||| Reason.set .lock)).composer := by
  rw [takeLocked_of_training h, State.raiseBoth_composer, memberJoins_asked]
  rfl

theorem exec_locked (hr : s.phase = .running) (h : (s.link p).state = .training) :
    exec (.locked p) s = .next ((s.countGood p).takeLocked p) :=
  congrArg Host.Outcome.next (takeReport_of_fitted hr (by rw [h]; decide) .locked)

theorem restartTraining_of_training (h : (s.link p).state = .training) : s.restartTraining p =
    (s.setLink p { s.link p with
      restarts := if (s.link p).restarts < 255 then (s.link p).restarts + 1 else (s.link p).restarts }).startTimer
      (.trainingLimit p) 250 := if_pos h

theorem exec_trainingLimitExpiry {left : Nat} (h : s.timeLeft (.trainingLimit p) = some left) :
    exec (.trainingLimitExpiry p) s = .next (((s.elapse left).stopTimer (.trainingLimit p)).restartTraining p) :=
  congrArg Host.Outcome.next (onExpiry_running h _)

end Lock

/-- Settles O22: the report is counted (`State.countGood`) and the link locks (`State.lockBegun`), joins a changeover and is
asked for; the expiry is `State.restartTraining`. -/
theorem trainingLocksOrRestarts : Obligations.TrainingLocksOrRestarts := by
  refine ⟨fun s p d hr hs hd => ?locks, fun s p left hleft hs => ?restarts⟩
  case locks =>
    generalize hv : s.countGood p = v
    have hvself : v.link p = { s.link p with good := countUp (s.link p).good } := by rw [← hv, countGood_link_self]
    have hvlink : ∀ q, q ≠ p → v.link q = s.link q := fun q hq => by rw [← hv, countGood_link_other hq]
    have hvframe : v = { s with links := v.links, timers := v.timers } := by
      rw [← hv]
      apply State.eq_of_fields <;> simp
    have hvchangeover : v.changeover = s.changeover := by rw [hvframe]
    have hvs : (v.link p).state = .training := by rw [hvself]; exact hs
    have hslate : v.slatePicture p = s.slatePicture p := by rw [hvframe]; rfl
    have hexec := exec_locked hr hs
    rw [hv] at hexec
    have hself : (v.takeLocked p).link p = (v.link p).lockedWith (s.slatePicture p) := by
      rw [takeLocked_link hvs, lockBegun_link_self, hslate]
    have hlive : (v.takeLocked p).live p = true := by
      unfold State.live
      rw [hself]
      rfl
    have htransmitting : ((v.takeLocked p).link p).transmitting = some (Layout.transmitted
        ⟨⟨.slate, crc32 (Config.pictureData (s.slatePicture p)), (s.link p).sequence + 1⟩, s.slatePicture p⟩) := by
      rw [hself, ← frame_transmission, hvself]
      rfl
    obtain ⟨-, -, -, -, hpath⟩ := forwardPath_of_state (v.takeLocked p) p
    refine ⟨v.takeLocked p, _, hexec, by rw [hself]; rfl, by rw [hself]; rfl, filledPicture_filled _ _, ?record, ?sequence,
      by rw [hself]; rfl, by rw [hself]; rfl, ?transmitting, hpath _ hlive ?transmitting, ?limit, ?silence, ?period,
      fun hc => ?joins, fun hc => ?idle, ?asked, ?store, ?media, fun q hq => ?others, ?frame⟩
    case record => rw [hvself]; rfl
    case sequence => rw [hself, hvself]; rfl
    case transmitting =>
      rw [htransmitting, hvself]
      rfl
    case limit => rw [takeLocked_timeLeft hvs, lockBegun_trainingLimit]
    case silence => rw [takeLocked_timeLeft hvs, lockBegun_lockSilence]
    case period =>
      rw [takeLocked_timeLeft hvs]
      exact lockBegun_framePeriod (by rw [hvself]; exact hd)
    case joins => rw [takeLocked_changeover hvs, hvchangeover, if_neg hc]
    case idle => rw [takeLocked_changeover hvs, hvchangeover, if_pos hc]
    case asked =>
      rw [takeLocked_composer hvs, hvchangeover]
      refine composeRequest_composer_congr ?_ p _ (live_of_links ?_ p)
      · rw [show (v.lockBegun p).composer = v.composer from rfl, hvframe]
      · rw [takeLocked_of_training hvs, State.raiseBoth_links, State.composeRequest_links, State.memberJoins_links]
    case store =>
      rw [takeLocked_of_training hvs]
      exact raiseBoth_flagSet_store _ (by decide)
    case media =>
      rw [takeLocked_of_training hvs]
      exact raiseBoth_flagSet_media _ (by decide)
    case others => rw [takeLocked_link hvs, lockBegun_link_other hq, hvlink q hq]
    case frame =>
      rw [hvframe]
      apply State.eq_of_fields <;> simp
  case restarts =>
    generalize hv : (s.elapse left).stopTimer (.trainingLimit p) = v
    have hlink : ∀ q, v.link q = s.link q := fun q => by rw [← hv]; rfl
    have hvs : (v.link p).state = .training := by rw [hlink]; exact hs
    have hexec := exec_trainingLimitExpiry hleft
    rw [hv, restartTraining_of_training hvs, hlink] at hexec
    have hself := State.setLink_link_self v p { s.link p with
      restarts := if (s.link p).restarts < 255 then (s.link p).restarts + 1 else (s.link p).restarts }
    have htimer := State.startTimer_timeLeft_self (State.setLink p { s.link p with
      restarts := if (s.link p).restarts < 255 then (s.link p).restarts + 1 else (s.link p).restarts } v)
      (.trainingLimit p) 250
    exact ⟨_, hexec, hself, htimer, forwardPath_of_trainingBegun ((congrArg Link.state hself).trans hs) htimer,
      fun q hq => (State.setLink_link_of_ne v hq _).trans (hlink q), by rw [← hv]; rfl⟩

end Sys2Proof.Machine
end
section
/-! PROOFS. A PRESENT report in each link state (chapter 5): the statement O21. -/
namespace Sys2Proof.Machine

/-! ## The counted report (R93, R94) -/

section Counted

variable {s : State} {p : PanelNo}

theorem restartIfRunning_timeLeft_self (s : State) (t : TimerId) (ms : Nat) :
    (s.restartIfRunning t ms).timeLeft t = (s.timeLeft t).map fun _ => ms := by
  unfold State.restartIfRunning
  cases h : s.timeLeft t with
  | none => exact h
  | some left => exact State.startTimer_timeLeft_self _ _ _

theorem countGood_detach (s : State) (p : PanelNo) :
    (s.countGood p).timeLeft (.detach p) = (s.timeLeft (.detach p)).map fun _ => 2000 := by
  have hother : TimerId.detach p ≠ .lockSilence p := nofun
  unfold State.countGood
  rw [restartIfRunning_timeLeft_self, restartIfRunning_timeLeft_other hother, State.setLink_timeLeft]

/-- The state in which a PRESENT report is acted on: it has been counted, and its descriptor stands on the link (R95,
R96). -/
def State.described (p : PanelNo) (d : Descriptor) (s : State) : State :=
  (s.countGood p).setLink p { (s.countGood p).link p with descriptor := some d }

theorem described_link_self (s : State) (p : PanelNo) (d : Descriptor) : (s.described p d).link p =
    { s.link p with descriptor := some d, good := countUp (s.link p).good } := by
  unfold State.described
  rw [State.setLink_link_self, countGood_link_self]

theorem described_link_other {q : PanelNo} (h : q ≠ p) (d : Descriptor) : (s.described p d).link q = s.link q := by
  unfold State.described
  rw [State.setLink_link_of_ne _ h, countGood_link_other h]

theorem described_frame (s : State) (p : PanelNo) (d : Descriptor) : s.described p d =
    { s with links := (s.described p d).links, timers := (s.described p d).timers } := by
  unfold State.described
  apply State.eq_of_fields <;> simp

theorem described_timeLeft_other {u : TimerId} (hsilence : u ≠ .lockSilence p) (hdetach : u ≠ .detach p)
    (d : Descriptor) : (s.described p d).timeLeft u = s.timeLeft u := countGood_timeLeft_other hsilence hdetach

theorem described_detach (s : State) (p : PanelNo) (d : Descriptor) :
    (s.described p d).timeLeft (.detach p) = (s.timeLeft (.detach p)).map fun _ => 2000 := countGood_detach s p

theorem described_live (s : State) (p : PanelNo) (d : Descriptor) : (s.described p d).live p = s.live p := by
  unfold State.live
  rw [described_link_self]

theorem described_gridMatches (s : State) (p : PanelNo) (d : Descriptor) :
    (s.described p d).gridMatches p = decide (d.grid = s.grid p) := by
  rw [gridMatches_of_some (by rw [described_link_self]), described_frame]
  rfl

end Counted

/-! ## The report, by the link's state (R95, R96) -/

section Present

variable {s : State} {p : PanelNo} {d : Descriptor}

/-- What a PRESENT report comes to on a link in DETACHED (R95). -/
theorem takePresent_of_detached (h : (s.link p).state = .detached) : (s.countGood p).takePresent p d =
    if (s.link p).causes.isEmpty then ((s.described p d).startTimer (.detach p) 2000).trainOrReject p
    else ((s.described p d).startTimer (.detach p) 2000).setLinkState p .dark := by
  have hstate : ((s.countGood p).link p).state = .detached := by rw [countGood_link_self]; exact h
  have hcauses : ((s.countGood p).link p).causes = (s.link p).causes := by rw [countGood_link_self]
  simp only [State.takePresent, State.described, hstate, hcauses]

/-- What it comes to on a live link (R96, R100). -/
theorem takePresent_of_live (h : s.live p = true) : (s.countGood p).takePresent p d =
    (((s.described p d).leaveLive p).raiseBoth .panelEvent).trainOrReject p := by
  have hlive : ((s.countGood p).link p).state.live = true := countGood_live h
  obtain hstate | hstate := (linkState_live_iff _).1 hlive <;>
    simp only [State.takePresent, State.described, hstate]

/-- In TRAINING a grid other than the profile's rejects the link (R96). -/
theorem takePresent_of_training (h : (s.link p).state = .training) : (s.countGood p).takePresent p d =
    if d.grid = s.grid p then s.described p d
    else ((s.described p d).stopTimer (.trainingLimit p)).enterRejected p := by
  have hstate : ((s.countGood p).link p).state = .training := by rw [countGood_link_self]; exact h
  have hgrid := described_gridMatches s p d
  simp only [State.described, hstate] at hgrid
  simp only [State.takePresent, State.described, hstate, hgrid, decide_eq_true_eq]

/-- In REJECTED the profile's grid trains the link (R96). -/
theorem takePresent_of_rejected (h : (s.link p).state = .rejected) : (s.countGood p).takePresent p d =
    if d.grid = s.grid p then (s.described p d).enterTraining p else s.described p d := by
  have hstate : ((s.countGood p).link p).state = .rejected := by rw [countGood_link_self]; exact h
  have hgrid := described_gridMatches s p d
  simp only [State.described, hstate] at hgrid
  simp only [State.takePresent, State.described, hstate, hgrid, decide_eq_true_eq]

/-- In DARK and TEST the descriptor is replaced and nothing follows (R96). -/
theorem takePresent_of_darkOrTest (h : (s.link p).state = .dark ∨ (s.link p).state = .test) :
    (s.countGood p).takePresent p d = s.described p d := by
  have hstate : ((s.countGood p).link p).state = (s.link p).state := by rw [countGood_link_self]
  obtain h | h := h <;> rw [h] at hstate <;> simp only [State.takePresent, State.described, hstate]

/-- The three outcomes in TRAINING, REJECTED, DARK and TEST (R96). -/
theorem takePresent_of_waiting {v : LinkState} (h : (s.link p).state = v)
    (hv : v = .training ∨ v = .rejected ∨ v = .dark ∨ v = .test) : (s.countGood p).takePresent p d =
      if v = .training ∧ d.grid ≠ s.grid p then ((s.described p d).stopTimer (.trainingLimit p)).enterRejected p
      else if v = .rejected ∧ d.grid = s.grid p then (s.described p d).enterTraining p
      else s.described p d := by
  rcases hv with rfl | rfl | hv
  · rw [takePresent_of_training h]
    by_cases hd : d.grid = s.grid p <;> simp [hd]
  · rw [takePresent_of_rejected h]
    by_cases hd : d.grid = s.grid p <;> simp [hd]
  · rw [takePresent_of_darkOrTest (h ▸ hv), if_neg, if_neg]
    all_goals rcases hv with rfl | rfl <;> simp

theorem exec_present (hr : s.phase = .running) (hf : (s.link p).state ≠ .off) {columns rows period : Byte}
    (hp : Report.presentInRange columns rows period = true) (model : BitVec 16) :
    exec (.present p columns rows period model) s = .next ((s.countGood p).takePresent p
      ⟨⟨columns.toNat, rows.toNat⟩, period.toNat, model⟩) :=
  congrArg Host.Outcome.next ((if_pos hp).trans (takeReport_of_fitted hr hf (.present columns rows period model)))

end Present

/-! ## A panel that announces itself in DETACHED (R95) -/

section Announced

variable {s : State} {p : PanelNo} {d : Descriptor}

/-- What a PRESENT report leaves of a link that was DETACHED. -/
def Announced (s t : State) (p : PanelNo) (d : Descriptor) : Prop :=
  (t.link p).descriptor = some d ∧ (t.link p).good = countUp (s.link p).good ∧ t.timeLeft (.detach p) = some 2000 ∧
  (t.link p).state = (if (s.link p).causes.isEmpty = false then .dark
    else if d.grid = s.grid p then .training else .rejected) ∧
  ((t.link p).state = .training → t.timeLeft (.trainingLimit p) = some 250 ∧ (t.link p).restarts = 0) ∧
  ((t.link p).state = .rejected → FlagSet t .store .panelEvent ∧ FlagSet t .media .panelEvent) ∧
  (∀ q, q ≠ p → t.link q = s.link q) ∧ t = { s with ports := t.ports, links := t.links, timers := t.timers }

theorem takePresent_announced (h : (s.link p).state = .detached) :
    Announced s ((s.countGood p).takePresent p d) p d := by
  have hother : TimerId.detach p ≠ .trainingLimit p := nofun
  generalize hw : (s.described p d).startTimer (.detach p) 2000 = w
  have hself : w.link p = { s.link p with descriptor := some d, good := countUp (s.link p).good } := by
    rw [← hw, State.startTimer_link, described_link_self]
  have hlink : ∀ q, q ≠ p → w.link q = s.link q := fun q hq => by
    rw [← hw, State.startTimer_link, described_link_other hq]
  have hdetach : w.timeLeft (.detach p) = some 2000 := by rw [← hw]; exact State.startTimer_timeLeft_self _ _ _
  have hgrid : w.gridMatches p = decide (d.grid = s.grid p) := by rw [← described_gridMatches, ← hw]; rfl
  have hframe : w = { s with links := w.links, timers := w.timers } := by
    rw [← hw]
    conv => lhs; rw [described_frame]
    rfl
  have htaken := takePresent_of_detached (d := d) h
  rw [hw] at htaken
  cases hc : (s.link p).causes.isEmpty with
  | true =>
    rw [hc, if_pos rfl] at htaken
    have hlinkT := trainOrReject_link_self w p
    rw [← htaken] at hlinkT
    have hstate : (((s.countGood p).takePresent p d).link p).state =
        if d.grid = s.grid p then .training else .rejected := by rw [hlinkT, hgrid]; simp
    refine ⟨by rw [hlinkT, hself], by rw [hlinkT, hself], ?detach, by rw [hstate, hc]; rfl, fun ht => ?training,
      fun hr => ?rejected, fun q hq => ?others, ?frame⟩
    case detach => rw [htaken, trainOrReject_timeLeft_other hother, hdetach]
    case training =>
      have hd : d.grid = s.grid p := Decidable.byContradiction fun hd => by
        rw [hstate, if_neg hd] at ht
        cases ht
      have hg : w.gridMatches p = true := hgrid.trans (decide_eq_true hd)
      refine ⟨?_, ?_⟩
      · rw [htaken, trainOrReject_of_match hg, enterTraining_trainingLimit]
      · rw [hlinkT, hg, hself]
        simp [h]
    case rejected =>
      rw [htaken] at hr ⊢
      exact trainOrReject_panelEvent hr
    case others => rw [htaken, trainOrReject_link_of_ne hq, hlink q hq]
    case frame =>
      rw [htaken, hframe]
      apply State.eq_of_fields <;> simp
  | false =>
    rw [hc, if_neg Bool.false_ne_true] at htaken
    have hlinkT : ((s.countGood p).takePresent p d).link p = { w.link p with state := .dark } := by
      rw [htaken, State.setLinkState_link_self]
    refine ⟨by rw [hlinkT, hself], by rw [hlinkT, hself], ?detach, by rw [hlinkT, hc]; rfl, fun ht => ?training,
      fun hr => ?rejected, fun q hq => ?others, ?frame⟩
    case detach => rw [htaken, State.setLinkState_timeLeft, hdetach]
    case training => rw [hlinkT] at ht; cases ht
    case rejected => rw [hlinkT] at hr; cases hr
    case others => rw [htaken, State.setLinkState_link_of_ne _ hq, hlink q hq]
    case frame =>
      rw [htaken, hframe]
      rfl

end Announced

/-! ## A live panel that announces itself again (R96, R99, R100) -/

section Reannounced

variable {s : State} {p : PanelNo} {d : Descriptor}

theorem takePresent_link_of_live (h : s.live p = true) : ((s.countGood p).takePresent p d).link p = { s.link p with
    descriptor := some d, good := countUp (s.link p).good, showing := none, staged := none, confirmed := none
    transmitting := none, mismatchMark := false
    state := if d.grid = s.grid p then .training else .rejected
    restarts := (((s.countGood p).takePresent p d).link p).restarts } := by
  have hself : (((s.described p d).leaveLive p).raiseBoth .panelEvent).link p = { s.link p with
      descriptor := some d, good := countUp (s.link p).good, showing := none, staged := none, confirmed := none
      transmitting := none, mismatchMark := false } := by
    rw [raiseBoth_link, leaveLive_link, described_link_self]
  have hgrid : (((s.described p d).leaveLive p).raiseBoth .panelEvent).gridMatches p = decide (d.grid = s.grid p) := by
    rw [gridMatches_of_some (by rw [hself]), State.grid, State.raiseBoth_inForce, State.leaveLive_inForce, described_frame]
    rfl
  rw [takePresent_of_live h, trainOrReject_link_self, hgrid, hself]
  simp

theorem takePresent_left (h : s.live p = true) : LeftLive s ((s.countGood p).takePresent p d) p := by
  have hlink := takePresent_link_of_live (d := d) h
  have hbefore : LeftLive (s.described p d) ((s.countGood p).takePresent p d) p := by
    refine (leaveLive_left (s.described p d) p).of_eq ?showing ?staged ?confirmed ?sequence ?asked ?changeover
      (fun u hu => ?timers) fun q f hf => ?flags
    case showing | staged | confirmed => rw [hlink, leaveLive_link]
    case sequence => rw [hlink, leaveLive_link, described_link_self]
    case asked => rw [takePresent_of_live h, State.trainOrReject_composer, State.raiseBoth_composer]
    case changeover => rw [takePresent_of_live h, State.trainOrReject_changeover, State.raiseBoth_changeover]
    case timers =>
      have hother : u ≠ .trainingLimit p := by rintro rfl; simp at hu
      rw [takePresent_of_live h, trainOrReject_timeLeft_other hother, raiseBoth_timeLeft]
    case flags =>
      rw [takePresent_of_live h]
      exact trainOrReject_flag _ _ _ _ (raise_keeps_flag _ _ _ _ _ (raise_keeps_flag _ _ _ _ _ hf))
  have hsilence : TimerId.changeoverLimit ≠ .lockSilence p := nofun
  refine hbefore.of_before (by rw [described_link_self]) ?_ ?_ (described_timeLeft_other hsilence nofun d) <;>
    rw [described_frame]

theorem takePresent_noMember (h : s.live p = true) :
    ((s.countGood p).takePresent p d).changeover.members.get p = none := by
  rw [takePresent_of_live h, State.trainOrReject_changeover, State.raiseBoth_changeover, leaveLive_noMember]

theorem takePresent_panelEvent (h : s.live p = true) :
    FlagSet ((s.countGood p).takePresent p d) .store .panelEvent ∧
      FlagSet ((s.countGood p).takePresent p d) .media .panelEvent := by
  rw [takePresent_of_live h]
  exact ⟨trainOrReject_flag _ _ _ _ (raiseBoth_flagSet_store _ (by decide)),
    trainOrReject_flag _ _ _ _ (raiseBoth_flagSet_media _ (by decide))⟩

theorem takePresent_link_other_of_live (h : s.live p = true) {q : PanelNo} (hq : q ≠ p) :
    ((s.countGood p).takePresent p d).link q = s.link q := by
  rw [takePresent_of_live h, trainOrReject_link_of_ne hq, raiseBoth_link, leaveLive_link_of_ne hq,
    described_link_other hq]

end Reannounced

/-- Settles O21: a report in DETACHED by `takePresent_announced`; on a live link its departure (`takePresent_left`); in the
other states the three outcomes of `takePresent_of_waiting`. -/
theorem presentReportAnnouncesPanel : Obligations.PresentReportAnnouncesPanel := by
  refine ⟨fun s p columns rows period model hr hs hp => ?detached, fun s p columns rows period model hr hl hp => ?live,
    fun s p columns rows period model v hr hs hp hv => ?waiting⟩
  case detached => exact ⟨_, exec_present hr (by rw [hs]; decide) hp model, takePresent_announced hs⟩
  case live =>
    have hf : (s.link p).state ≠ .off := fun h => by
      unfold State.live at hl
      rw [h] at hl
      cases hl
    obtain ⟨hstore, hmedia⟩ := takePresent_panelEvent (d := ⟨⟨columns.toNat, rows.toNat⟩, period.toNat, model⟩) hl
    refine ⟨_, exec_present hr hf hp model, by rw [takePresent_link_of_live hl], by rw [takePresent_link_of_live hl],
      takePresent_left hl, takePresent_noMember hl, (takePresent_left hl).notQueued, hstore, hmedia,
      fun q hq => takePresent_link_other_of_live hl hq, ?frame⟩
    case frame => apply State.eq_of_fields <;> simp
  case waiting =>
    have hf : (s.link p).state ≠ .off := by
      rw [hs]
      rintro rfl
      simp at hv
    generalize hd : (⟨⟨columns.toNat, rows.toNat⟩, period.toNat, model⟩ : Descriptor) = d
    have hgrid : (⟨columns.toNat, rows.toNat⟩ : Grid) = d.grid := by rw [← hd]
    have hexec := exec_present hr hf hp model
    rw [hd, takePresent_of_waiting hs hv] at hexec
    rw [hgrid]
    generalize hw : s.described p d = w at hexec
    have hself : w.link p = { s.link p with descriptor := some d, good := countUp (s.link p).good } := by
      rw [← hw, described_link_self]
    have hlink : ∀ q, q ≠ p → w.link q = s.link q := fun q hq => by rw [← hw, described_link_other hq]
    have hframe : w = { s with links := w.links, timers := w.timers } := by rw [← hw]; exact described_frame s p d
    have hdetach : w.timeLeft (.detach p) = (s.timeLeft (.detach p)).map fun _ => 2000 := by
      rw [← hw, described_detach]
    have hlimit : w.timeLeft (.trainingLimit p) = s.timeLeft (.trainingLimit p) := by
      have hsilence : TimerId.trainingLimit p ≠ .lockSilence p := nofun
      rw [← hw]
      exact described_timeLeft_other hsilence nofun d
    have hother : TimerId.detach p ≠ .trainingLimit p := nofun
    by_cases hrejects : v = .training ∧ d.grid ≠ s.grid p
    · have htrains : ¬ (v = .rejected ∧ d.grid = s.grid p) := fun h => hrejects.2 h.2
      rw [if_pos hrejects] at hexec
      have hT := enterRejected_link_self (w.stopTimer (.trainingLimit p)) p
      rw [State.stopTimer_link, hself] at hT
      refine ⟨_, hexec, ?link, ?restarts, ?limit, fun h1 h2 => absurd ⟨h1, h2⟩ htrains, ?detach, fun _ => ⟨?store, ?media⟩,
        fun h => absurd hrejects h, fun q hq => ?others, ?frame⟩
      case link => rw [hT, if_pos hrejects]
      case restarts => rw [hT, if_neg htrains]
      case limit => rw [enterRejected_timeLeft, State.stopTimer_timeLeft_self, if_pos hrejects]
      case detach => rw [enterRejected_timeLeft, stopTimer_timeLeft_other _ hother, hdetach]
      case store => exact raiseBoth_flagSet_store _ (by decide)
      case media => exact raiseBoth_flagSet_media _ (by decide)
      case others => rw [enterRejected_link_other hq, State.stopTimer_link, hlink q hq]
      case frame =>
        rw [hframe]
        apply State.eq_of_fields <;> simp
    · rw [if_neg hrejects] at hexec
      by_cases htrains : v = .rejected ∧ d.grid = s.grid p
      · rw [if_pos htrains] at hexec
        have hnot : (w.link p).state ≠ .training := by
          rw [hself]
          show (s.link p).state ≠ .training
          rw [hs, htrains.1]
          decide
        have hT := enterTraining_link_self w p
        rw [if_neg hnot, hself] at hT
        refine ⟨_, hexec, ?link, ?restarts, ?limit, fun _ _ => ?path, ?detach, fun h => absurd h hrejects, fun _ => ?notices,
          fun q hq => ?others, ?frame⟩
        case link => rw [hT, if_neg hrejects, if_pos htrains]
        case restarts => rw [hT, if_pos htrains]
        case limit => rw [enterTraining_trainingLimit, if_neg hrejects, if_pos htrains]
        case path => exact forwardPath_of_trainingBegun (by rw [hT]) (enterTraining_trainingLimit w p)
        case detach => rw [enterTraining_timeLeft_other hother, hdetach]
        case notices => rw [State.enterTraining_ports, hframe]
        case others => rw [enterTraining_link_other hq, hlink q hq]
        case frame =>
          rw [hframe]
          apply State.eq_of_fields <;> simp
      · rw [if_neg htrains] at hexec
        refine ⟨w, hexec, ?link, ?restarts, ?limit, fun h1 h2 => absurd ⟨h1, h2⟩ htrains, hdetach,
          fun h => absurd h hrejects, fun _ => ?notices, hlink, ?frame⟩
        case link => rw [hself, if_neg hrejects, if_neg htrains, ← hs]
        case restarts => rw [hself, if_neg htrains]
        case limit => rw [hlimit, if_neg hrejects, if_neg htrains]
        case notices => rw [hframe]
        case frame => rw [hframe]

end Sys2Proof.Machine
end
section
/-! PROOFS. The Store Clock's ticks, its firings and its requests (chapter 8), with the transition each makes: the statements
O46 and O45. -/
namespace Sys2Proof.Machine

/-! ## What a transition leaves of the clock record and of the second timer (R171 to R174) -/

section Transition

variable {s : State}

theorem handDayPart_second (s : State) (d : DayPart) : (s.handDayPart d).timeLeft .second = s.timeLeft .second :=
  handTarget_timeLeft _ _ (by decide)

theorem removeCause_second (s : State) (c : DarkCause) (p : PanelNo) :
    (s.removeCause c p).timeLeft .second = s.timeLeft .second := by
  have htraining : TimerId.second ≠ .trainingLimit p := nofun
  unfold State.removeCause
  dsimp only
  split
  · rw [trainOrReject_timeLeft_other htraining, State.setLink_timeLeft]
  · rw [State.setLink_timeLeft]

theorem addCause_second (s : State) (c : DarkCause) (p : PanelNo) :
    (s.addCause c p).timeLeft .second = s.timeLeft .second := by
  obtain ⟨-, htimers, -⟩ := addCause_rest s c p
  exact htimers .second nofun nofun nofun nofun nofun

theorem foldl_removeCause_second (c : DarkCause) : ∀ (ps : List PanelNo) (s : State),
    (ps.foldl (fun s p => s.removeCause c p) s).timeLeft .second = s.timeLeft .second
  | [], _ => rfl
  | p :: ps, s => (foldl_removeCause_second c ps _).trans (removeCause_second s c p)

theorem foldl_addCause_second (c : DarkCause) : ∀ (ps : List PanelNo) (s : State),
    (ps.foldl (fun s p => s.addCause c p) s).timeLeft .second = s.timeLeft .second
  | [], _ => rfl
  | p :: ps, s => (foldl_addCause_second c ps _).trans (addCause_second s c p)

theorem endFreezeInForce_second (s : State) (c : FreezeCause) :
    (s.endFreezeInForce c).timeLeft .second = s.timeLeft .second :=
  endFreezeInForce_timeLeft s c (by decide) (by decide)

theorem transition_second (s : State) (before : StoreState) :
    (s.transition before).timeLeft .second = s.timeLeft .second := by
  unfold State.transition
  split
  · rfl
  · split
    · rw [raise_timeLeft, handDayPart_second, State.setClock_timeLeft, endFreezeInForce_second]
    · rw [raise_timeLeft, foldl_removeCause_second, handDayPart_second, State.setClock_timeLeft]
      split
      · rfl
      · exact endFreezeInForce_second s _
    · rw [raise_timeLeft, foldl_addCause_second]

/-- Of the clock record a transition changes the last open day-part alone (R172, R174). -/
theorem transition_clock (s : State) (before : StoreState) :
    (s.transition before).clock = { s.clock with lastOpen := (s.transition before).clock.lastOpen } := by
  unfold State.transition
  split
  · rfl
  · split
    · simp [State.handDayPart]
    · rw [State.raise_clock, foldl_removeCause_clock]
      split <;> simp [State.handDayPart]
    · rw [State.raise_clock, foldl_addCause_clock]

/-- The clock record after a change of it, `k` being what it was changed to. -/
theorem changeClock_clock (f : StoreClock → StoreClock) :
    (s.changeClock f).clock = { f s.clock with lastOpen := (s.changeClock f).clock.lastOpen } :=
  transition_clock (s.setClock (f s.clock)) _

theorem changeClock_second (f : StoreClock → StoreClock) : (s.changeClock f).timeLeft .second = s.timeLeft .second :=
  transition_second (s.setClock (f s.clock)) _

/-- What a change of the clock record may touch. -/
theorem changeClock_frame (f : StoreClock → StoreClock) : s.changeClock f = { s with
    ports := (s.changeClock f).ports, clock := (s.changeClock f).clock, timers := (s.changeClock f).timers
    changeover := (s.changeClock f).changeover, freeze := (s.changeClock f).freeze, links := (s.changeClock f).links
    composer := (s.changeClock f).composer } := by
  apply State.eq_of_fields <;> simp

theorem changeClock_made {f : StoreClock → StoreClock} (h : (f s.clock).lastOpen = s.clock.lastOpen) :
    TransitionMade s (s.changeClock f) := transition_made s (f s.clock) h

end Transition

/-! ## What is said of a transition, from another state before it and on another state after it -/

section Made

variable {s r t : State}

/-- A closing looks at the state before through its links, its Composer, its changeover and the timers of these. -/
theorem ClosedAdded.of_links (h : ClosedAdded r t) (hi : r.inForce = s.inForce) (hl : r.links = s.links)
    (hq : r.composer = s.composer) (hc : r.changeover = s.changeover)
    (ht : ∀ u, u ≠ .second → r.timeLeft u = s.timeLeft u) : ClosedAdded s t := by
  obtain ⟨hunfitted, hfitted, hcomposer, hmembers⟩ := h
  have hlink : ∀ p, r.link p = s.link p := link_of_links hl
  have hfit : ∀ p, r.linkFitted p = s.linkFitted p := fun _ => linkFitted_of_inForce hi
  have hgone : ∀ p, (r.linkFitted p && leavesForDark r p) = (s.linkFitted p && leavesForDark s p) := fun p => by
    unfold leavesForDark
    rw [hfit, hlink, live_of_links hl]
  refine ⟨fun p hp => ?_, fun p hp => ?_, hcomposer.trans (composerWithout_congr hq hgone), ?_⟩
  · rw [hunfitted p ((hfit p).trans hp), hlink]
  · have hdetach : TimerId.detach p ≠ .second := nofun
    rw [← hlink]
    exact (hfitted p ((hfit p).trans hp)).of_before (hlink p) (ht _ hdetach)
  · exact (hmembers.of_before hc (ht _ (by decide))).congr hgone

/-- What a transition says of the state before looks past its ports, the second timer, and all of the clock record but the
store state and the last open day-part. -/
theorem TransitionMade.of_before (h : TransitionMade r t) (hr : r = { s with
      ports := r.ports, timers := r.timers, clock := r.clock })
    (hstate : r.clock.storeState = s.clock.storeState) (hlast : r.clock.lastOpen = s.clock.lastOpen)
    (ht : ∀ u, u ≠ .second → r.timeLeft u = s.timeLeft u) : TransitionMade s t := by
  have hi : r.inForce = s.inForce := by rw [hr]
  have hc : r.changeover = s.changeover := by rw [hr]
  have hz : r.freeze = s.freeze := by rw [hr]
  have hl : r.links = s.links := by rw [hr]
  have hq : r.composer = s.composer := by rw [hr]
  have hlimit : r.timeLeft .changeoverLimit = s.timeLeft .changeoverLimit := ht _ (by decide)
  have hms : r.changeoverLimitMs = s.changeoverLimitMs := by unfold State.changeoverLimitMs State.profileNat; rw [hi]
  have hfit : ∀ p, r.linkFitted p = s.linkFitted p := fun _ => linkFitted_of_inForce hi
  obtain ⟨hsame, hchanged, hopened, hclosed⟩ := h
  rw [hstate] at hsame hchanged hclosed
  refine ⟨fun e => ?_, hchanged, fun d hd hne => ?_, fun hd hne => ?_⟩
  · rw [← hlast, ← hc, ← hl, ← hz, ← hq]
    exact hsame e
  · obtain ⟨hopen, hcurrent, hended, hstands, hlifted, hcauses, hmoved, hopening⟩ := hopened d hd (by rw [hstate]; exact hne)
    rw [hstate] at hended hstands hlifted hcauses hmoved hopening
    rw [hlast, hz] at hended hstands
    rw [hc] at hcurrent hmoved hopening
    rw [hlast] at hopening
    refine ⟨hopen, hcurrent, hended, hstands, fun hb p hp => hlifted hb p ((hfit p).trans hp),
      fun hb p => ?_, fun hb => (hmoved hb).of_before hc hz hl hq hlimit hms, fun hb => ?_⟩
    · rw [hcauses hb p, link_of_links hl]
    · obtain ⟨w, hother, hsamePart, hwc, hwz, hwq, hwt, hwf, hwi, hwl⟩ := hopening hb
      exact ⟨w, fun g => (hother g).of_before hc hz hl hq hlimit hms,
        fun g => (hsamePart g).of_before hc hz hl hq hlimit hms, hwc, hwz, hwq, hwt, hwf, hwi.trans hi, hwl⟩
  · obtain ⟨hopen, hcurrent, hfreeze, hcauses, hadded⟩ := hclosed hd hne
    exact ⟨hopen.trans hlast, hcurrent.trans (by rw [hc]), hfreeze.trans hz,
      fun p hp => hcauses p ((hfit p).trans hp), hadded.of_links hi hl hq hc ht⟩

/-- An answer held on a port takes nothing back of a transition. -/
theorem TransitionMade.holdAnswer (h : TransitionMade s t) (p : PortId) (a : Answer) :
    TransitionMade s (t.holdAnswer p a) := by
  obtain ⟨hsame, hchanged, hopened, hclosed⟩ := h
  refine ⟨hsame, fun g => holdAnswer_flagSet t a (hchanged g), fun d hd hne => ?_, fun hd hne => ?_⟩
  · obtain ⟨hopen, hcurrent, hended, hstands, hlifted, hcauses, hmoved, hopening⟩ := hopened d hd hne
    refine ⟨hopen, hcurrent, hended, hstands, hlifted, hcauses, fun hb => (hmoved hb).holdAnswer p a, fun hb => ?_⟩
    obtain ⟨w, hother, hsamePart, hwc, hwz, hwq, hwt, hwf, hwi, hwl⟩ := hopening hb
    exact ⟨w, hother, hsamePart, hwc, hwz, hwq, hwt, fun q f hf => holdAnswer_flagSet t a (hwf q f hf), hwi, hwl⟩
  · obtain ⟨hopen, hcurrent, hfreeze, hcauses, hadded⟩ := hclosed hd hne
    exact ⟨hopen, hcurrent, hfreeze, hcauses, hadded.of_eq (fun _ => rfl) rfl rfl (fun _ => rfl)
      fun _ _ => holdAnswer_flagSet t a⟩

/-- Nothing follows while the store state stands. -/
theorem TransitionMade.of_unchanged (hstate : t.clock.storeState = s.clock.storeState)
    (hlast : t.clock.lastOpen = s.clock.lastOpen) (hc : t.changeover = s.changeover) (hl : t.links = s.links)
    (hz : t.freeze = s.freeze) (hq : t.composer = s.composer) : TransitionMade s t :=
  ⟨fun _ => ⟨hlast, hc, hl, hz, hq⟩, fun hne => absurd hstate hne,
    fun _ hd hne => absurd (hstate.symm.trans hd) hne, fun hd hne => absurd (hstate.symm.trans hd) hne⟩

end Made

/-! ## Firing (R168) -/

section Fire

variable {s : State}

theorem due_iff (e : ScheduleEntry) (time day : Nat) :
    e.due time day = true ↔ e.time = time ∧ e.days.getLsbD day = true := by
  simp [ScheduleEntry.due]

theorem nextSecond_eq (c : StoreClock) : c.nextSecond = { c with
    time := if c.time + 1 < 86400 then c.time + 1 else 0
    day := if c.time + 1 < 86400 then c.day else (c.day + 1) % 7 } := by
  unfold StoreClock.nextSecond
  split <;> rfl

/-- The clock record with entry `e` fired. -/
def StoreClock.fired (e : ScheduleEntry) (c : StoreClock) : StoreClock :=
  { c with scheduled := e.destination, override := none }

theorem fire_of_due {before after : List ScheduleEntry} {e : ScheduleEntry} (hv : s.clock.valid = true)
    (hs : s.clock.schedule = before ++ e :: after)
    (hb : ∀ x ∈ before, ¬ (x.time = s.clock.time ∧ x.days.getLsbD s.clock.day = true))
    (ht : e.time = s.clock.time) (hd : e.days.getLsbD s.clock.day = true) :
    s.fire = s.changeClock (StoreClock.fired e) := by
  have hfind : s.clock.schedule.find? (fun e => e.due s.clock.time s.clock.day) = some e := by
    rw [hs, List.find?_eq_some_iff_append]
    refine ⟨(due_iff _ _ _).2 ⟨ht, hd⟩, before, after, rfl, fun x hx => ?_⟩
    rw [Bool.not_eq_true', Bool.eq_false_iff]
    exact fun hdue => hb x hx ((due_iff _ _ _).1 hdue)
  unfold State.fire
  rw [if_pos hv, hfind]
  rfl

theorem fire_of_none_due
    (h : ∀ e ∈ s.clock.schedule, ¬ (e.time = s.clock.time ∧ e.days.getLsbD s.clock.day = true)) : s.fire = s := by
  have hfind : s.clock.schedule.find? (fun e => e.due s.clock.time s.clock.day) = none :=
    List.find?_eq_none.2 fun e he hdue => h e he ((due_iff _ _ _).1 hdue)
  unfold State.fire
  rw [hfind]
  split <;> rfl

/-- A firing changes the clock record, or finds no entry due and changes nothing. -/
theorem fire_cases (s : State) : (∃ e, s.fire = s.changeClock (StoreClock.fired e)) ∨ s.fire = s := by
  unfold State.fire
  split
  · split
    · exact Or.inr rfl
    · next e _ => exact Or.inl ⟨e, rfl⟩
  · exact Or.inr rfl

theorem fire_made (s : State) : TransitionMade s s.fire := by
  rcases fire_cases s with ⟨e, h⟩ | h
  · rw [h]
    exact changeClock_made (f := StoreClock.fired e) rfl
  · rw [h]
    exact .of_unchanged rfl rfl rfl rfl rfl rfl

/-- A firing leaves the time, the day, the validity and the schedule. -/
theorem fire_clock (s : State) : s.fire.clock = { s.clock with
    scheduled := s.fire.clock.scheduled, override := s.fire.clock.override, lastOpen := s.fire.clock.lastOpen } := by
  rcases fire_cases s with ⟨e, h⟩ | h
  · rw [h, changeClock_clock]
    rfl
  · rw [h]

theorem fire_second (s : State) : s.fire.timeLeft .second = s.timeLeft .second := by
  rcases fire_cases s with ⟨e, h⟩ | h
  · rw [h, changeClock_second]
  · rw [h]

theorem fire_frame (s : State) : s.fire = { s with
    ports := s.fire.ports, clock := s.fire.clock, timers := s.fire.timers, changeover := s.fire.changeover
    freeze := s.fire.freeze, links := s.fire.links, composer := s.fire.composer } := by
  apply State.eq_of_fields <;> simp

end Fire

/-! ## Ticks (R163) -/

section Tick

variable {s v r : State}

theorem tick_of_invalid (h : v.clock.valid = false) : v.tick = v := if_neg (by rw [h]; decide)

theorem tick_of_valid (h : v.clock.valid = true) : v.tick = (v.setClock v.clock.nextSecond).fire := if_pos h

theorem tick_second (v : State) : v.tick.timeLeft .second = v.timeLeft .second := by
  unfold State.tick
  split
  · exact fire_second _
  · rfl

theorem tick_frame (v : State) : v.tick = { v with
    ports := v.tick.ports, clock := v.tick.clock, timers := v.tick.timers, changeover := v.tick.changeover
    freeze := v.tick.freeze, links := v.tick.links, composer := v.tick.composer } := by
  apply State.eq_of_fields <;> simp

/-- A tick of a valid clock, said of the state `r` that the tick's own timer has been set off from. -/
theorem tick_made (h : v.clock.valid = true) (hr : v = { r with timers := v.timers })
    (ht : ∀ u, u ≠ .second → v.timeLeft u = r.timeLeft u) : TransitionMade r v.tick := by
  have hclock : v.clock = r.clock := by rw [hr]
  rw [tick_of_valid h]
  refine (fire_made (v.setClock v.clock.nextSecond)).of_before ?_ ?_ ?_ ht
  · rw [hr]; rfl
  · rw [State.setClock_clock, nextSecond_eq, hclock]; rfl
  · rw [State.setClock_clock, nextSecond_eq, hclock]

/-- The clock record after a tick of a valid clock. -/
theorem tick_clock (h : v.clock.valid = true) : v.tick.clock = { v.clock with
    time := if v.clock.time + 1 < 86400 then v.clock.time + 1 else 0
    day := if v.clock.time + 1 < 86400 then v.clock.day else (v.clock.day + 1) % 7
    scheduled := v.tick.clock.scheduled, override := v.tick.clock.override, lastOpen := v.tick.clock.lastOpen } := by
  rw [tick_of_valid h, fire_clock, State.setClock_clock, nextSecond_eq]

theorem tick_fires {before after : List ScheduleEntry} {e : ScheduleEntry} (h : v.clock.valid = true)
    (hs : v.clock.schedule = before ++ e :: after)
    (hb : ∀ x ∈ before, ¬ (x.time = v.tick.clock.time ∧ x.days.getLsbD v.tick.clock.day = true))
    (ht : e.time = v.tick.clock.time) (hd : e.days.getLsbD v.tick.clock.day = true) :
    v.tick.clock.scheduled = e.destination ∧ v.tick.clock.override = none := by
  rw [tick_clock h] at hb ht hd
  have hfire : (v.setClock v.clock.nextSecond).fire = (v.setClock v.clock.nextSecond).changeClock (.fired e) := by
    rw [nextSecond_eq]
    exact fire_of_due h hs hb ht hd
  rw [tick_of_valid h, hfire, changeClock_clock]
  exact ⟨rfl, rfl⟩

theorem tick_fires_none (h : v.clock.valid = true) (hn : ∀ e ∈ v.clock.schedule,
      ¬ (e.time = v.tick.clock.time ∧ e.days.getLsbD v.tick.clock.day = true)) :
    v.tick.clock.scheduled = v.clock.scheduled ∧ v.tick.clock.override = v.clock.override := by
  rw [tick_clock h] at hn
  have hfire : (v.setClock v.clock.nextSecond).fire = v.setClock v.clock.nextSecond := by
    rw [nextSecond_eq]
    exact fire_of_none_due hn
  rw [tick_of_valid h, hfire, State.setClock_clock, nextSecond_eq]
  exact ⟨rfl, rfl⟩

/-- A tick of either source is a tick of the clock on a state `v` that differs from `r` in the second timer alone. -/
theorem exec_tick {c : Instr} (hc : c = .secondTimerTick ∧ (∃ left, s.timeLeft .second = some left ∧ r = s.elapse left) ∨
      c = .tickEdge ∧ s.phase = .running ∧ s.internalTick = false ∧ r = s) :
    ∃ v : State, exec c s = .next v.tick ∧ (c = .secondTimerTick → v.timeLeft .second = some 1000) ∧
      v = { s with timers := v.timers } ∧ v = { r with timers := v.timers } ∧
      ∀ u, u ≠ .second → v.timeLeft u = r.timeLeft u := by
  rcases hc with ⟨rfl, left, hleft, rfl⟩ | ⟨rfl, hphase, hinternal, rfl⟩
  · refine ⟨((s.elapse left).stopTimer .second).startTimer .second 1000,
      congrArg Host.Outcome.next (onExpiry_running hleft _), fun _ => State.startTimer_timeLeft_self _ _ _, rfl, rfl,
      fun u hu => ?_⟩
    rw [startTimer_timeLeft_other _ hu, stopTimer_timeLeft_other _ hu]
  · exact ⟨r, congrArg Host.Outcome.next (if_pos ⟨hphase, hinternal⟩), nofun, rfl, rfl, fun _ _ => rfl⟩

end Tick

/-- Settles O46: either source ticks the clock on a state that differs from `r` in the second timer alone, and the firing
is one change of the clock record with its transition. -/
theorem ticksAdvanceClockAndFireEntries : Obligations.TicksAdvanceClockAndFireEntries := by
  refine fun s => ⟨fun c r hc => ?tick, fun before e after hv hs hb ht hd => ?fire⟩
  case tick =>
    obtain ⟨v, hexec, hsecond, hvs, hvr, htimers⟩ := exec_tick hc
    have hclock : v.clock = s.clock := by rw [hvs]
    refine ⟨v.tick, hexec, fun h => (tick_second v).trans (hsecond h), fun hinvalid => ?_, fun hvalid => ?_, ?_⟩
    · rw [tick_of_invalid (by rw [hclock]; exact hinvalid)]
      exact hvs
    · rw [← hclock] at hvalid ⊢
      have htick := tick_clock hvalid
      refine ⟨by rw [htick], by rw [htick], by rw [htick]; exact hvalid, by rw [htick],
        fun before e after hs hb ht hd => tick_fires hvalid hs hb ht hd, fun hn => tick_fires_none hvalid hn,
        tick_made hvalid hvr htimers⟩
    · rw [hvs]
      exact tick_frame _
  case fire =>
    have hfire := fire_of_due hv hs hb ht hd
    refine ⟨s.fire, rfl, ?_, fire_made s, fire_frame s⟩
    rw [hfire, changeClock_clock]
    rfl

end Sys2Proof.Machine
end
section
/-! PROOFS. The requests that set the Store Clock (chapter 8), from the reading of their payloads to the transition they make:
the statement O45. -/
namespace Sys2Proof.Machine

/-! ## Reading store states and schedule entries (R165, R166, R201) -/

section Reading

variable {e f : ScheduleEntry}

theorem storeState?_layout (v : StoreState) : storeState? (Layout.storeState v) = some v := by
  cases v with
  | closed => rfl
  | opened d =>
    have hne : BitVec.ofNat 8 d.val ≠ 4 := by revert d; decide
    have hread : storeState? (BitVec.ofNat 8 d.val) = (dayPart? (BitVec.ofNat 8 d.val)).map .opened := if_neg hne
    rw [Layout.storeState, hread, dayPart?_be]
    rfl

theorem storeState?_eq_none {b : Byte} (h : 4 < b.toNat) : storeState? b = none := by
  have hne : b ≠ 4 := by rintro rfl; exact absurd h (by decide)
  unfold storeState?
  rw [if_neg hne, dayPart?_eq_none (by omega)]
  rfl

/-- The three bytes of a time. -/
theorem be_three (n : Nat) : be 3 n = [BitVec.ofNat 8 (n / 65536), BitVec.ofNat 8 (n / 256), BitVec.ofNat 8 n] := by
  simp [be]

theorem scheduleEntry?_layout (ht : e.time ≤ 86399) (hd : e.days ≠ 0) :
    scheduleEntry? (BitVec.ofNat 8 (e.time / 65536)) (BitVec.ofNat 8 (e.time / 256)) (BitVec.ofNat 8 e.time)
      (e.days.zeroExtend 8) (Layout.storeState e.destination) = some e := by
  have htime : natOf [BitVec.ofNat 8 (e.time / 65536), BitVec.ofNat 8 (e.time / 256), BitVec.ofNat 8 e.time] = e.time := by
    rw [← be_three]
    exact natOf_be (by omega)
  have hmask : (e.days.zeroExtend 8).toNat = e.days.toNat := BitVec.toNat_setWidth_of_le (by decide)
  have hlow : e.days.toNat ≠ 0 := fun h => hd (BitVec.eq_of_toNat_eq h)
  have hhigh : e.days.toNat < 128 := e.days.isLt
  unfold scheduleEntry?
  rw [htime, hmask, if_pos (by omega), storeState?_layout, BitVec.ofNat_toNat, BitVec.setWidth_eq]
  rfl

theorem scheduleEntry?_eq_none {t2 t1 t0 mask destination : Byte}
    (h : 86399 < natOf [t2, t1, t0] ∨ mask = 0 ∨ mask.getLsbD 7 = true ∨ 4 < destination.toNat) :
    scheduleEntry? t2 t1 t0 mask destination = none := by
  unfold scheduleEntry?
  rcases h with htime | rfl | hbit | hdestination
  · exact if_neg (by omega)
  · exact if_neg (by simp)
  · have hhigh : 2 ^ 7 ≤ mask.toNat := Nat.ge_two_pow_of_testBit hbit
    exact if_neg (by omega)
  · rw [storeState?_eq_none hdestination]
    exact ite_self _

theorem readSchedule_of_good {t2 t1 t0 mask destination : Byte} (h : scheduleEntry? t2 t1 t0 mask destination = some e)
    (i : Nat) (bytes : List Byte) :
    readSchedule i (t2 :: t1 :: t0 :: mask :: destination :: bytes) = (readSchedule (i + 1) bytes).map (e :: ·) := by
  rw [readSchedule, h]
  dsimp only
  cases readSchedule (i + 1) bytes <;> rfl

theorem readSchedule_of_bad {t2 t1 t0 mask destination : Byte} (h : scheduleEntry? t2 t1 t0 mask destination = none)
    (i : Nat) (bytes : List Byte) :
    readSchedule i (t2 :: t1 :: t0 :: mask :: destination :: bytes) = .error i := by
  rw [readSchedule, h]

theorem readSchedule_scheduleEntry (ht : e.time ≤ 86399) (hd : e.days ≠ 0) (i : Nat) (bytes : List Byte) :
    readSchedule i (Layout.scheduleEntry e ++ bytes) = (readSchedule (i + 1) bytes).map (e :: ·) := by
  rw [Layout.scheduleEntry, be_three]
  exact readSchedule_of_good (scheduleEntry?_layout ht hd) i bytes

/-- Entries in range are read as they are laid out, and reading goes on behind them. -/
theorem readSchedule_append : ∀ (good : List ScheduleEntry) (i : Nat) (rest : List Byte),
    (∀ e ∈ good, e.time ≤ 86399 ∧ e.days ≠ 0) →
    readSchedule i (good.flatMap Layout.scheduleEntry ++ rest) =
      (readSchedule (i + good.length) rest).map (good ++ ·)
  | [], i, rest, _ => by
    rw [List.flatMap_nil, List.nil_append, List.length_nil, Nat.add_zero]
    cases readSchedule i rest <;> rfl
  | e :: good, i, rest, h => by
    obtain ⟨ht, hd⟩ := h e List.mem_cons_self
    have hgood := readSchedule_append good (i + 1) rest fun x hx => h x (List.mem_cons_of_mem e hx)
    rw [List.flatMap_cons, List.append_assoc, readSchedule_scheduleEntry ht hd, hgood, List.length_cons, Nat.add_assoc,
      Nat.add_comm 1]
    cases readSchedule (i + (good.length + 1)) rest <;> rfl

theorem readSchedule_layout {entries : List ScheduleEntry} (h : ∀ e ∈ entries, e.time ≤ 86399 ∧ e.days ≠ 0) :
    readSchedule 0 (entries.flatMap Layout.scheduleEntry) = .ok entries := by
  have hread := readSchedule_append entries 0 [] h
  rw [List.append_nil] at hread
  rw [hread, readSchedule]
  · simp [Except.map]
  · nofun

theorem schedule_length (entries : List ScheduleEntry) :
    (entries.flatMap Layout.scheduleEntry).length = 5 * entries.length := by
  induction entries with
  | nil => rfl
  | cons e entries ih =>
    rw [List.flatMap_cons, List.length_append, ih, List.length_cons]
    simp only [Layout.scheduleEntry, List.length_append, be_length, List.length_cons, List.length_nil]
    omega

/-! ## Conflicts (R166) -/

theorem conflicts_iff : e.conflicts f = true ↔ e.time = f.time ∧ e.days &&& f.days ≠ 0 := by
  simp [ScheduleEntry.conflicts]

theorem conflicts_eq_false_iff : e.conflicts f = false ↔ ¬ (e.time = f.time ∧ e.days &&& f.days ≠ 0) := by
  rw [← Bool.not_eq_true, conflicts_iff]

/-- Entries without a conflict are passed over. -/
theorem firstConflict_append : ∀ (good earlier : List ScheduleEntry) (i : Nat) (rest : List ScheduleEntry),
    (earlier ++ good).Pairwise (fun a b => a.conflicts b = false) →
    firstConflict earlier i (good ++ rest) = firstConflict (earlier ++ good) (i + good.length) rest
  | [], earlier, i, rest, _ => by rw [List.nil_append, List.append_nil, List.length_nil, Nat.add_zero]
  | e :: good, earlier, i, rest, h => by
    have hnone : earlier.findIdx? (fun f => f.conflicts e) = none :=
      List.findIdx?_eq_none_iff.2 fun f hf => (List.pairwise_append.1 h).2.2 f hf e List.mem_cons_self
    have hgood := firstConflict_append good (earlier ++ [e]) (i + 1) rest (by rwa [List.append_assoc])
    rw [List.cons_append, firstConflict, hnone]
    dsimp only
    rw [hgood, List.append_assoc, List.length_cons, Nat.add_assoc, Nat.add_comm 1]
    rfl

theorem firstConflict_eq_none {entries : List ScheduleEntry}
    (h : entries.Pairwise (fun a b => ¬ (a.time = b.time ∧ a.days &&& b.days ≠ 0))) :
    firstConflict [] 0 entries = none := by
  have hpass := firstConflict_append entries [] 0 [] (h.imp conflicts_eq_false_iff.2)
  rw [List.append_nil] at hpass
  rw [hpass, firstConflict]

/-- The first entry that conflicts with an earlier one, by its index, with the first of these. -/
theorem firstConflict_found {before : List ScheduleEntry} {i : Nat} (after : List ScheduleEntry)
    (hpass : before.Pairwise (fun a b => ¬ (a.time = b.time ∧ a.days &&& b.days ≠ 0)))
    (hf : before[i]? = some f) (ht : f.time = e.time) (hd : f.days &&& e.days ≠ 0)
    (hfirst : ∀ j g, j < i → before[j]? = some g → ¬ (g.time = e.time ∧ g.days &&& e.days ≠ 0)) :
    firstConflict [] 0 (before ++ e :: after) = some (before.length, i) := by
  have hfound : before.findIdx? (fun g => g.conflicts e) = some i := by
    obtain ⟨hi, rfl⟩ := List.getElem?_eq_some_iff.1 hf
    refine List.findIdx?_eq_some_iff_getElem.2 ⟨hi, conflicts_iff.2 ⟨ht, hd⟩, fun j hj => ?_⟩
    rw [Bool.not_eq_true, conflicts_eq_false_iff]
    exact hfirst j _ hj (List.getElem?_eq_getElem (by omega))
  rw [firstConflict_append before [] 0 (e :: after) (hpass.imp conflicts_eq_false_iff.2), List.nil_append, firstConflict,
    hfound, Nat.zero_add]

end Reading

/-! ## The owners of the requests (R164, R166, R169, R170) -/

section Owners

variable {u : State}

theorem clockSet_of_range {time day : Nat} (ht : time ≤ 86399) (hd : day ≤ 6) : clockSet (be 3 time ++ be 1 day) u =
    storeStateReply ((if u.internalTick then u.startTimer .second 1000 else u).changeClock fun c =>
      ({ c with time := time, day := day, valid := true } : StoreClock).evaluated) := by
  have htime : natOf (be 3 time) = time := natOf_be (by omega)
  have hday : natOf (be 1 day) = day := natOf_be (by omega)
  simp only [clockSet, take_be_append, drop_be_append, htime, hday]
  exact if_neg (by omega)

theorem clockSet_of_outside {time day : Nat} (ht : time < 16777216) (hd : day < 256) (h : 86399 < time ∨ 6 < day) :
    clockSet (be 3 time ++ be 1 day) u = (.refuse .badField, u) := by
  have htime : natOf (be 3 time) = time := natOf_be ht
  have hday : natOf (be 1 day) = day := natOf_be hd
  simp only [clockSet, take_be_append, drop_be_append, htime, hday]
  exact if_pos h

theorem daypartForce_of_state (v : StoreState) : daypartForce [Layout.storeState v] u =
    storeStateReply (u.changeClock fun c => { c with override := some v }) := by
  simp only [daypartForce, List.getD_cons_zero, storeState?_layout]

theorem daypartForce_of_outside {v : Byte} (h : 4 < v.toNat) : daypartForce [v] u = (.refuse .badField, u) := by
  simp only [daypartForce, List.getD_cons_zero, storeState?_eq_none h]

theorem daypartAuto_eq (u : State) : daypartAuto u =
    storeStateReply (u.changeClock fun c => ({ c with override := none } : StoreClock).evaluated) := rfl

/-- A list whose length is not the one its count asks for. -/
theorem scheduleLoad_of_badLength {count : Byte} {body : List Byte}
    (h : 16 < count.toNat ∨ body.length ≠ 5 * count.toNat) : scheduleLoad (count :: body) u = (⟨.badField, [0]⟩, u) :=
  if_pos h

theorem scheduleLoad_of_badEntry {count : Byte} {body : List Byte} {i : Nat} (hc : count.toNat ≤ 16)
    (hl : body.length = 5 * count.toNat) (hr : readSchedule 0 body = .error i) :
    scheduleLoad (count :: body) u = (⟨.badField, be 1 i⟩, u) := by
  simp only [scheduleLoad, List.getD_cons_zero, List.drop_one, List.tail_cons, hr]
  exact if_neg (by omega)

/-- The payload of SCHEDULE_LOAD with these entries. -/
def schedulePayload (entries : List ScheduleEntry) : List Byte :=
  be 1 entries.length ++ entries.flatMap Layout.scheduleEntry

theorem schedulePayload_length (entries : List ScheduleEntry) :
    (schedulePayload entries).length = 1 + 5 * entries.length := by
  rw [schedulePayload, List.length_append, be_length, schedule_length]

variable {entries : List ScheduleEntry}

theorem scheduleLoad_of_conflict {later earlier : Nat} (hl : entries.length ≤ 16)
    (hrange : ∀ e ∈ entries, e.time ≤ 86399 ∧ e.days ≠ 0) (hf : firstConflict [] 0 entries = some (later, earlier)) :
    scheduleLoad (schedulePayload entries) u = (⟨.conflict, be 1 later ++ be 1 earlier⟩, u) := by
  have hcount : (BitVec.ofNat 8 entries.length).toNat = entries.length := by rw [BitVec.toNat_ofNat]; omega
  simp only [scheduleLoad, schedulePayload, be_one, List.singleton_append, List.getD_cons_zero, List.drop_one, List.tail_cons,
    hcount, readSchedule_layout hrange, hf]
  exact if_neg (by rw [schedule_length]; omega)

theorem scheduleLoad_of_good {schedule : List ScheduleEntry} (hl : entries.length ≤ 16)
    (hrange : ∀ e ∈ entries, e.time ≤ 86399 ∧ e.days ≠ 0)
    (hpass : entries.Pairwise (fun a b => ¬ (a.time = b.time ∧ a.days &&& b.days ≠ 0)))
    (horder : InTimeOrder entries schedule) : scheduleLoad (schedulePayload entries) u =
      storeStateReply (u.changeClock fun c => ({ c with schedule := schedule } : StoreClock).evaluated) := by
  have hcount : (BitVec.ofNat 8 entries.length).toNat = entries.length := by rw [BitVec.toNat_ofNat]; omega
  rw [horder.unique (timeOrder_spec entries)]
  simp only [scheduleLoad, schedulePayload, be_one, List.singleton_append, List.getD_cons_zero, List.drop_one, List.tail_cons,
    hcount, readSchedule_layout hrange, firstConflict_eq_none hpass]
  exact if_neg (by rw [schedule_length]; omega)

end Owners

/-! ## The change of the clock record that a request makes -/

section Change

variable {s v : State} {c : Instr} {type : RequestType} {tag : Byte}

/-- What a request that changes the clock record leaves, `k` being the record before the evaluation. -/
def ClockRequestLeaves (s : State) (c : Instr) (type : RequestType) (tag : Byte) (k : StoreClock) : Prop :=
  ∃ t, exec c s = .next t ∧ Holds t .store (okTo type tag [Layout.storeState t.clock.storeState]) ∧
    t.clock = { k with scheduled := t.clock.scheduled, lastOpen := t.clock.lastOpen } ∧
    (type = .daypartForce → t.clock.scheduled = s.clock.scheduled) ∧
    (type ≠ .daypartForce → Evaluated k t.clock.scheduled) ∧ TransitionMade s t ∧
    (type = .clockSet → s.internalTick = true → t.timeLeft .second = some 1000) ∧
    t = { s with
      ports := t.ports, clock := t.clock, timers := t.timers, changeover := t.changeover, freeze := t.freeze
      links := t.links, composer := t.composer }

/-- A change `f` of the clock record, made on a state `v` that differs from `s` in its ports and its second timer alone. -/
theorem clockRequestLeaves {f : StoreClock → StoreClock} {k : StoreClock}
    (hexec : exec c s = .next ((v.changeClock f).holdAnswer .store
      (okTo type tag [(v.changeClock f).clock.storeState.byte])))
    (hv : v = { s with ports := v.ports, timers := v.timers }) (hvt : ∀ u, u ≠ .second → v.timeLeft u = s.timeLeft u)
    (hf : f s.clock = { k with scheduled := (f s.clock).scheduled }) (hlast : k.lastOpen = s.clock.lastOpen)
    (hforce : type = .daypartForce → (f s.clock).scheduled = s.clock.scheduled)
    (heval : type ≠ .daypartForce → Evaluated k (f s.clock).scheduled)
    (hsecond : type = .clockSet → s.internalTick = true → v.timeLeft .second = some 1000) :
    ClockRequestLeaves s c type tag k := by
  have hvc : v.clock = s.clock := by rw [hv]
  have hclock := changeClock_clock (s := v) f
  rw [hvc] at hclock
  have hscheduled : (v.changeClock f).clock.scheduled = (f s.clock).scheduled := by rw [hclock]
  have hmade : TransitionMade v (v.changeClock f) := changeClock_made (by rw [hvc, hf]; exact hlast)
  refine ⟨_, hexec, ?answer, ?record, fun h => hscheduled.trans (hforce h), fun h => ?evaluated, ?made,
    fun h hi => (changeClock_second f).trans (hsecond h hi), ?frame⟩
  case answer =>
    rw [Holds, State.holdAnswer_port_self, storeState_byte]
    rfl
  case record =>
    rw [State.holdAnswer_clock]
    rw [hf] at hclock
    rw [hclock]
  case evaluated =>
    rw [State.holdAnswer_clock, hscheduled]
    exact heval h
  case made =>
    exact (hmade.of_before (hv.trans (by rw [hvc])) (by rw [hvc]) (by rw [hvc]) hvt).holdAnswer .store _
  case frame =>
    rw [hv]
    apply State.eq_of_fields <;> simp

/-- The same on the state in which the request's message has been taken. -/
theorem clockRequestLeaves_clockIn {f : StoreClock → StoreClock} {k : StoreClock} {n : Nat}
    (hexec : exec c s = .next (((s.clockIn .store n).changeClock f).holdAnswer .store
      (okTo type tag [((s.clockIn .store n).changeClock f).clock.storeState.byte])))
    (hf : f s.clock = { k with scheduled := (f s.clock).scheduled }) (hlast : k.lastOpen = s.clock.lastOpen)
    (hforce : type = .daypartForce → (f s.clock).scheduled = s.clock.scheduled)
    (heval : type ≠ .daypartForce → Evaluated k (f s.clock).scheduled) (hset : type ≠ .clockSet) :
    ClockRequestLeaves s c type tag k :=
  clockRequestLeaves hexec (by rw [clockIn_eq]) (fun u _ => clockIn_timeLeft _ _ _ u) hf hlast hforce heval
    fun h => absurd h hset

theorem clockIn_internalTick (s : State) (p : PortId) (n : Nat) : (s.clockIn p n).internalTick = s.internalTick := by
  rw [clockIn_eq]; rfl

theorem clockSet_leaves (ht : s.Takes .store) (tag : Byte) {time day : Nat} (htime : time ≤ 86399) (hday : day ≤ 6) :
    ClockRequestLeaves s (.clockSet .store tag (be 3 time ++ be 1 day)) .clockSet tag
      { s.clock with time := time, day := day, valid := true } := by
  have hlength : (be 3 time ++ be 1 day).length = 4 := by simp
  refine clockRequestLeaves (request_answers (t := .clockSet) ht rfl (by rw [hlength]; decide) (by rw [hlength]; decide)
    (clockSet_of_range htime hday)) ?frame ?timers rfl rfl nofun (fun _ => evaluated_spec _) ?second
  case frame =>
    split
    · rw [clockIn_eq]; rfl
    · rw [clockIn_eq]
  case timers =>
    intro u hu
    split
    · rw [startTimer_timeLeft_other _ hu, clockIn_timeLeft]
    · exact clockIn_timeLeft _ _ _ u
  case second =>
    intro _ hinternal
    rw [clockIn_internalTick, if_pos hinternal]
    exact State.startTimer_timeLeft_self _ _ _

theorem scheduleLoad_leaves (ht : s.Takes .store) (tag : Byte) {entries schedule : List ScheduleEntry}
    (hl : entries.length ≤ 16) (hrange : ∀ e ∈ entries, e.time ≤ 86399 ∧ e.days ≠ 0)
    (hpass : entries.Pairwise (fun a b => ¬ (a.time = b.time ∧ a.days &&& b.days ≠ 0)))
    (horder : InTimeOrder entries schedule) :
    ClockRequestLeaves s (.scheduleLoad .store tag (schedulePayload entries)) .scheduleLoad tag
      { s.clock with schedule := schedule } := by
  have hlength := schedulePayload_length entries
  exact clockRequestLeaves_clockIn (request_answers (t := .scheduleLoad) ht rfl (by rw [hlength]; exact Nat.le_add_right 1 _)
    (by rw [hlength]; show _ ≤ 4104; omega) (scheduleLoad_of_good hl hrange hpass horder)) rfl rfl nofun
    (fun _ => evaluated_spec _) nofun

theorem daypartForce_leaves (ht : s.Takes .store) (tag : Byte) (v : StoreState) :
    ClockRequestLeaves s (.daypartForce .store tag [Layout.storeState v]) .daypartForce tag
      { s.clock with override := some v } :=
  clockRequestLeaves_clockIn (f := fun c => { c with override := some v }) (request_answers (t := .daypartForce)
    (payload := [Layout.storeState v]) ht rfl (Nat.le_refl 1) (Nat.le_refl 1) (daypartForce_of_state v))
    rfl rfl (fun _ => rfl) (fun h => absurd rfl h) nofun

theorem daypartAuto_leaves (ht : s.Takes .store) (tag : Byte) :
    ClockRequestLeaves s (.daypartAuto .store tag []) .daypartAuto tag { s.clock with override := none } :=
  clockRequestLeaves_clockIn (f := fun c => ({ c with override := none } : StoreClock).evaluated)
    (request_answers (t := .daypartAuto) (payload := []) ht rfl (Nat.le_refl 0) (Nat.le_refl 0) (daypartAuto_eq _))
    rfl rfl nofun (fun _ => evaluated_spec _) nofun

end Change

/-! ## The refusals of SCHEDULE_LOAD (R166) -/

section Refusals

variable {s : State}

/-- A SCHEDULE_LOAD that its owner refuses for its payload alone. -/
theorem scheduleLoad_answersOnly (ht : s.Takes .store) (tag : Byte) {payload : List Byte} {status : Status}
    {bytes : List Byte} (hlo : 1 ≤ payload.length) (hhi : payload.length ≤ 81)
    (ho : ∀ u, scheduleLoad payload u = (⟨status, bytes⟩, u)) :
    AnswersOnly s (.scheduleLoad .store tag payload) .store (refusalOf .scheduleLoad tag status bytes) :=
  answersOnly_of_takes (t := .scheduleLoad) ht rfl hlo (by show _ ≤ 4104; omega) rfl (ho _) rfl

theorem scheduleLoad_refuses_badEntry (ht : s.Takes .store) (tag : Byte) {count mask destination : Byte}
    {good : List ScheduleEntry} {time : Nat} {rest : List Byte} (hc : count.toNat ≤ 16)
    (hrange : ∀ e ∈ good, e.time ≤ 86399 ∧ e.days ≠ 0) (htime : time < 16777216)
    (hbad : 86399 < time ∨ mask = 0 ∨ mask.getLsbD 7 = true ∨ 4 < destination.toNat)
    (hl : 5 * good.length + 5 + rest.length = 5 * count.toNat) :
    AnswersOnly s (.scheduleLoad .store tag
        (count :: (good.flatMap Layout.scheduleEntry ++ be 3 time ++ [mask, destination] ++ rest))) .store
      (refusalOf .scheduleLoad tag .badField (be 1 good.length)) := by
  have hlength : (good.flatMap Layout.scheduleEntry ++ be 3 time ++ [mask, destination] ++ rest).length =
      5 * count.toNat := by
    simp only [List.length_append, schedule_length, be_length, List.length_cons, List.length_nil]
    omega
  have hentry := scheduleEntry?_eq_none (t2 := BitVec.ofNat 8 (time / 65536)) (t1 := BitVec.ofNat 8 (time / 256))
    (t0 := BitVec.ofNat 8 time) (mask := mask) (destination := destination)
    (by rw [← be_three, natOf_be htime]; exact hbad)
  have hread : readSchedule 0 (good.flatMap Layout.scheduleEntry ++ be 3 time ++ [mask, destination] ++ rest) =
      .error good.length := by
    rw [List.append_assoc, List.append_assoc, readSchedule_append good 0 _ hrange, be_three, Nat.zero_add]
    exact congrArg (Except.map (good ++ ·)) (readSchedule_of_bad hentry good.length rest)
  exact scheduleLoad_answersOnly ht tag (by rw [List.length_cons]; omega) (by rw [List.length_cons]; omega)
    fun _ => scheduleLoad_of_badEntry hc hlength hread

end Refusals

/-- Settles O45: each request is one change of the clock record with its transition (`ClockRequestLeaves`), or its owner
refuses it for its payload. -/
theorem clockRequestsSetClockAndMakeTransition : Obligations.ClockRequestsSetClockAndMakeTransition := by
  refine ⟨fun s tag c type k ht hc => ?done, fun s tag ht => ⟨fun time day htime hday hout => ?clockSet,
    fun v hv => ?daypartForce, fun count body hbody hbad => ?length,
    fun count good time mask destination rest hcount hrange htime hbad hl => ?entry,
    fun before after e i f hl hrange hpass hf htime hdays hfirst => ?conflict⟩⟩
  case done =>
    rcases hc with ⟨time, day, htime, hday, rfl, rfl, rfl⟩ | ⟨entries, schedule, hl, hrange, hpass, horder, rfl, rfl, rfl⟩ |
      ⟨v, rfl, rfl, rfl⟩ | ⟨rfl, rfl, rfl⟩
    · exact clockSet_leaves ht tag htime hday
    · exact scheduleLoad_leaves ht tag hl hrange hpass horder
    · exact daypartForce_leaves ht tag v
    · exact daypartAuto_leaves ht tag
  case clockSet =>
    have hlength : (be 3 time ++ be 1 day).length = 4 := by simp
    exact refusal_answersOnly (t := .clockSet) ht rfl (by rw [hlength]; decide) (by rw [hlength]; decide) rfl
      fun _ => clockSet_of_outside htime hday hout
  case daypartForce =>
    exact refusal_answersOnly (t := .daypartForce) (payload := [v]) ht rfl (Nat.le_refl 1) (Nat.le_refl 1) rfl
      fun _ => daypartForce_of_outside hv
  case length =>
    exact scheduleLoad_answersOnly ht tag (by rw [List.length_cons]; omega) (by rw [List.length_cons]; omega)
      fun _ => scheduleLoad_of_badLength hbad
  case entry => exact scheduleLoad_refuses_badEntry ht tag hcount hrange htime hbad hl
  case conflict =>
    have hcount : (before ++ e :: after).length = before.length + after.length + 1 := by
      rw [List.length_append, List.length_cons]; rfl
    have hlength := schedulePayload_length (before ++ e :: after)
    have hload := scheduleLoad_answersOnly ht tag (payload := schedulePayload (before ++ e :: after))
      (by omega) (by omega)
      fun _ => scheduleLoad_of_conflict (by omega) hrange (firstConflict_found after hpass hf htime hdays hfirst)
    rwa [schedulePayload, hcount] at hload

end Sys2Proof.Machine
end
